-- ==== Sys2Proof/Word.lean ====
section
/-! DEFINITION. The word types of the Akavo 9 (00 R5, 04 R56). -/

namespace Sys2Proof

/-- A 64-bit register or memory word (R56). -/
abbrev Word := BitVec 64

/-- One byte of memory. -/
abbrev Byte := BitVec 8

/-- A 32-bit instruction word (R68). -/
abbrev IWord := BitVec 32

/-- A mask of the 32 lanes of a crew, bit L for lane L (R5, R30). -/
abbrev Mask := BitVec 32

/-- A finite map from numbers, written as a list of pairs. -/
abbrev Map (β : Type) := List (Nat × β)

end Sys2Proof
end

