-- ==== Sys2Proof/Syntax.lean ====
section
/-! DEFINITION. The instructions and events of the Akavo 9, one constructor per row of
spec/opcode_table.json. Instruction fields carry the widths of their encodings (04 R68); the
events of the table carry the names of what they act on. -/

namespace Sys2Proof

/-- A register code: 0–27 name w0–w27, 28–31 name the stream ports q0–q3 (R10, R86). -/
abbrev Code := BitVec 5

/-- A predicate number (R10). -/
abbrev PCode := BitVec 3

/-- Spacing and guard, common to every format but hint (R13, R68). -/
structure Hdr where
  /-- SP: idle issue cycles before the instruction (R70). -/
  sp : BitVec 2
  /-- PG: guard predicate. -/
  pg : PCode
  /-- PN: negate the guard. -/
  pn : BitVec 1
  deriving DecidableEq, Repr

/-- LA, the lookahead field of formats L and A; 15 is detached (R72, R73). -/
abbrev Look := BitVec 4

/-- A GRAPH command as the walker takes it (R328). -/
structure GraphCmd where
  /-- Job whose page tables its addresses go through. -/
  job : Nat
  /-- Stack whose walker takes it. -/
  stack : Nat
  /-- Graph header, or launch record for LAUNCH. -/
  addr : Word
  /-- Task index. -/
  task : Nat
  /-- True when it waits in the stack's GRAPH queue, false from the control window. -/
  queued : Bool
  /-- Core, crew slot, lane and command id of a queued command, for the violation log. -/
  core : Nat
  slot : Nat
  lane : Nat
  id : Nat
  /-- The unit that pushed it; 0 for the host runtime. -/
  uid : Nat := 0
  /-- Who wrote it to the control window: 0 for the host runtime, else the code of a routine's lanes (R353). -/
  req : Nat := 0
  deriving DecidableEq, Repr

/-- What a host core does to a host physical address or to a job context (R351, R316). -/
inductive HostAcc where
  /-- A load of `n` bytes. -/
  | load (addr : Word) (n : Nat)
  /-- A store of bytes. -/
  | store (addr : Word) (data : List Byte)
  /-- The host runtime writes the eight words of job `job`'s context. -/
  | context (job : Nat) (words : List Word)
  /-- The host runtime names the graphs of a phase of a job (R329). -/
  | phase (job : Nat) (stack : Nat) (id : Nat) (headers : List Word)
  /-- The host runtime appends a launch record to a job's launch queue (R319). -/
  | append (job : Nat) (words : List Word)
  /-- The host runtime takes the oldest command of a job's HOST queue (R266). -/
  | take (job : Nat)
  deriving DecidableEq, Repr

/-- A boot image: its 128 signed header bytes, its signature and its body (R356). -/
structure BootImage where
  header : List Byte
  signature : List Byte
  body : List Byte
  deriving DecidableEq, Repr

/-- The contents of the configuration record (R357). -/
structure PartCfg where
  /-- Package number. -/
  pkg : Nat
  /-- Live-core mask. -/
  cores : BitVec 256
  /-- Live-column masks by core; a core not listed has all eight. -/
  columns : Map (BitVec 8)
  /-- Live-channel masks by stack; a stack not listed has all sixteen. -/
  channels : Map (BitVec 16)
  /-- Fibre sets by destination package; a package not listed has none. -/
  routes : Map (BitVec 64)
  /-- Enable bits of the eight ports: the PCIe ports in bits 0 to 3, the CXL ports in bits 4 to 7 (log 8). -/
  ports : BitVec 8
  deriving DecidableEq, Repr

/-- Every row of the opcode table. -/
inductive Instr where
  -- integer arithmetic and logic, R91 to R97
  | add (h : Hdr) (d a b : Code) (w : BitVec 1)
  | sub (h : Hdr) (d a b : Code) (w : BitVec 1)
  | neg (h : Hdr) (d a : Code) (w : BitVec 1)
  | mul (h : Hdr) (d a b : Code) (w : BitVec 1)
  | mulh (h : Hdr) (d a b : Code) (w u : BitVec 1)
  | mad (h : Hdr) (d a b : Code) (w : BitVec 1)
  | div (h : Hdr) (d a b : Code) (w u : BitVec 1)
  | rem (h : Hdr) (d a b : Code) (w u : BitVec 1)
  | min (h : Hdr) (d a b : Code) (w u : BitVec 1)
  | max (h : Hdr) (d a b : Code) (w u : BitVec 1)
  | and (h : Hdr) (d a b : Code) (w : BitVec 1)
  | or (h : Hdr) (d a b : Code) (w : BitVec 1)
  | xor (h : Hdr) (d a b : Code) (w : BitVec 1)
  | andn (h : Hdr) (d a b : Code) (w : BitVec 1)
  | shl (h : Hdr) (d a b : Code) (w : BitVec 1)
  | shr (h : Hdr) (d a b : Code) (w : BitVec 1)
  | sar (h : Hdr) (d a b : Code) (w : BitVec 1)
  | rot (h : Hdr) (d a b : Code) (w : BitVec 1)
  | bitc (h : Hdr) (d a : Code) (w : BitVec 1) (f : BitVec 3)
  | bfx (h : Hdr) (d a b : Code) (w u : BitVec 1)
  | bfi (h : Hdr) (d a b : Code) (w : BitVec 1)
  | lea (h : Hdr) (d a b : Code) (w : BitVec 1) (s : BitVec 2)
  | sel (h : Hdr) (d a b : Code) (p : PCode)
  | mov (h : Hdr) (d a : Code)
  | movi (h : Hdr) (d : Code) (imm : BitVec 13)
  | addi (h : Hdr) (d a : Code) (imm : BitVec 8)
  | andi (h : Hdr) (d a : Code) (imm : BitVec 8)
  | ori (h : Hdr) (d a : Code) (imm : BitVec 8)
  | xori (h : Hdr) (d a : Code) (imm : BitVec 8)
  | shi (h : Hdr) (d a : Code) (kind : BitVec 2) (amt : BitVec 6)
  -- comparison and predicates, R100 to R102
  | cmpi (h : Hdr) (pd : PCode) (a : Code) (imm : BitVec 5) (cond : BitVec 3) (w u : BitVec 1)
  | cmp (h : Hdr) (pd : PCode) (a b : Code) (cond : BitVec 3) (w u : BitVec 1)
  | pset (h : Hdr) (pd pa pb : PCode) (f : BitVec 3)
  | pmovRead (h : Hdr) (d : Code)
  | pmovWrite (h : Hdr) (a : Code)
  -- control transfer, R103 to R110
  | bra (h : Hdr) (off : BitVec 18)
  | brx (h : Hdr) (a : Code)
  | call (h : Hdr) (off : BitVec 18)
  | callx (h : Hdr) (a : Code)
  | ret (h : Hdr)
  | meet (h : Hdr) (d : Code) (off : BitVec 13)
  | meetr (h : Hdr) (d a : Code)
  | exit (h : Hdr)
  | kill (h : Hdr) (a : Code)
  | loop (h : Hdr) (d : Code) (off : BitVec 13)
  | brk (h : Hdr) (n : BitVec 5)
  | trap (h : Hdr) (n : BitVec 5)
  | nop (h : Hdr)
  | yield (h : Hdr)
  -- crew exchange, R111 to R116
  | vote (h : Hdr) (d : Code) (pa : PCode) (nt : BitVec 1) (form : BitVec 2)
  | shfl (h : Hdr) (d a b : Code) (mode : BitVec 2)
  | shflImm (h : Hdr) (d a : Code) (c : BitVec 5) (mode : BitVec 2)
  | cred (h : Hdr) (d a : Code) (op : BitVec 3)
  | cscan (h : Hdr) (d a : Code) (excl : BitVec 1) (op : BitVec 3)
  | isect (h : Hdr) (d a b : Code) (w u : BitVec 1)
  | matchl (h : Hdr) (d a : Code) (w : BitVec 1)
  -- special registers, R117
  | movs (h : Hdr) (d : Code) (sr : BitVec 5)
  | movsw (h : Hdr) (sr : BitVec 5) (a : Code)
  -- floating point, R128 to R143
  | fadd (h : Hdr) (d a b : Code) (t : BitVec 2)
  | fsub (h : Hdr) (d a b : Code) (t : BitVec 2)
  | fmul (h : Hdr) (d a b : Code) (t : BitVec 2)
  | ffma (h : Hdr) (d a b : Code) (ng : BitVec 1) (t : BitVec 2)
  | fmin (h : Hdr) (d a b : Code) (num : BitVec 1) (t : BitVec 2)
  | fmax (h : Hdr) (d a b : Code) (num : BitVec 1) (t : BitVec 2)
  | fcmp (h : Hdr) (pd : PCode) (a b : Code) (cond : BitVec 3) (t : BitVec 2)
  | fabs (h : Hdr) (d a : Code) (t : BitVec 2)
  | fneg (h : Hdr) (d a : Code) (t : BitVec 2)
  | fcps (h : Hdr) (d a b : Code) (t : BitVec 2)
  | fdiv (h : Hdr) (d a b : Code) (t : BitVec 2)
  | fsqrt (h : Hdr) (d a : Code) (t : BitVec 2)
  | frcp (h : Hdr) (d a : Code) (t : BitVec 2)
  | frsq (h : Hdr) (d a : Code) (t : BitVec 2)
  | fexp2 (h : Hdr) (d a : Code) (t : BitVec 2)
  | flog2 (h : Hdr) (d a : Code) (t : BitVec 2)
  | ftanh (h : Hdr) (d a : Code) (t : BitVec 2)
  | fsinpi (h : Hdr) (d a : Code) (t : BitVec 2)
  | fcospi (h : Hdr) (d a : Code) (t : BitVec 2)
  | frnd (h : Hdr) (d a : Code) (x : BitVec 1) (t : BitVec 2)
  | fcls (h : Hdr) (d a : Code) (t : BitVec 2)
  | fred (h : Hdr) (d a : Code) (op : BitVec 5) (t : BitVec 2)
  -- conversions, R144 to R150
  | cvts (h : Hdr) (d a : Code) (conv : BitVec 5)
  | cvtdSat (h : Hdr) (d a b : Code) (slot : BitVec 3)
  | cvtdInf (h : Hdr) (d a b : Code) (slot : BitVec 3)
  | cvtdNan (h : Hdr) (d a b : Code) (slot : BitVec 3)
  | cvtdTrap (h : Hdr) (d a b : Code) (slot : BitVec 3)
  | cvtu (h : Hdr) (d a b : Code) (slot : BitVec 3)
  | absmx (h : Hdr) (d a : Code) (slot : BitVec 3)
  -- memory, R171 to R177
  | ld (h : Hdr) (d a : Code) (la : Look) (size : BitVec 2) (sx sym : BitVec 1)
  | st (h : Hdr) (d a : Code) (la : Look) (size : BitVec 2) (q : BitVec 1)
  | pref (h : Hdr) (a : Code) (size : BitVec 2)
  | pres (h : Hdr) (d a : Code) (la : Look)
  -- atomics, R178 to R183
  | aadd (h : Hdr) (d a : Code) (la : Look) (w ord : BitVec 1) (scope : BitVec 2)
  | aand (h : Hdr) (d a : Code) (la : Look) (w ord : BitVec 1) (scope : BitVec 2)
  | aor (h : Hdr) (d a : Code) (la : Look) (w ord : BitVec 1) (scope : BitVec 2)
  | axor (h : Hdr) (d a : Code) (la : Look) (w ord : BitVec 1) (scope : BitVec 2)
  | amin (h : Hdr) (d a : Code) (la : Look) (w ord : BitVec 1) (scope : BitVec 2)
  | amax (h : Hdr) (d a : Code) (la : Look) (w ord : BitVec 1) (scope : BitVec 2)
  | aminn (h : Hdr) (d a : Code) (la : Look) (w ord : BitVec 1) (scope : BitVec 2)
  | amaxn (h : Hdr) (d a : Code) (la : Look) (w ord : BitVec 1) (scope : BitVec 2)
  | axch (h : Hdr) (d a : Code) (la : Look) (w ord : BitVec 1) (scope : BitVec 2)
  | acas (h : Hdr) (d a : Code) (la : Look) (w ord : BitVec 1) (scope : BitVec 2)
  | afadd (h : Hdr) (d a : Code) (la : Look) (ord : BitVec 1) (scope : BitVec 2)
  | afmin (h : Hdr) (d a : Code) (la : Look) (ord : BitVec 1) (scope : BitVec 2)
  | afmax (h : Hdr) (d a : Code) (la : Look) (ord : BitVec 1) (scope : BitVec 2)
  -- ordering and barriers, R192, R42, R45
  | fence (h : Hdr) (scope : BitVec 3) (kind : BitVec 2)
  | bar (h : Hdr) (n : BitVec 4) (lvl : BitVec 2)
  | barArv (h : Hdr) (n : BitVec 4) (lvl : BitVec 2)
  | nbar (h : Hdr) (pd : PCode) (n : BitVec 5) (b : Code)
  | nbarArv (h : Hdr) (n : BitVec 5) (b : Code)
  -- flint cells and expert counters, R308 to R313, R286, R287
  | fprop (h : Hdr) (d a : Code)
  | fread (h : Hdr) (d a : Code)
  | fwait (h : Hdr) (d a : Code)
  | frcy (h : Hdr) (d a : Code)
  | xcnt (h : Hdr) (a b : Code)
  | xrd (h : Hdr) (d a : Code)
  | xsnap (h : Hdr) (d a : Code)
  -- engines and streams, R267 to R284
  | push (h : Hdr) (pd : PCode) (a : Code) (queue : BitVec 2)
  | kick (h : Hdr) (pd : PCode) (a b : Code)
  | lcset (h : Hdr) (pd : PCode) (a b : Code)
  | lcsetZ (h : Hdr) (pd : PCode) (a b : Code)
  | lcsetFree (h : Hdr) (pd : PCode) (a : Code)
  | lcwait (h : Hdr) (a : Code) (c : BitVec 1)
  | lcrd (h : Hdr) (d a : Code) (s : BitVec 1)
  | strm (h : Hdr) (q : BitVec 2) (a : Code)
  | strms (h : Hdr) (q : BitVec 2) (a : Code) (dim : BitVec 3)
  | strmsRd (h : Hdr) (d : Code) (q : BitVec 2) (dim : BitVec 3)
  | layh (h : Hdr) (a : Code)
  | layhAll (h : Hdr)
  -- Granite, R213 to R230
  | resv (h : Hdr) (pd : PCode) (c : BitVec 4) (m : BitVec 4)
  | resvW (h : Hdr) (pd : PCode) (c : BitVec 4) (m : BitVec 4)
  | rls (h : Hdr)
  | guard (h : Hdr) (quiet : BitVec 1) (slot : BitVec 3)
  | guardReg (h : Hdr) (a : Code) (quiet : BitVec 1)
  | pack (h : Hdr) (k : BitVec 4) (a b : Code) (slot : BitVec 3)
  | unpk (h : Hdr) (d : Code) (k : BitVec 4) (b : Code) (slot : BitVec 3)
  | kld (h : Hdr) (k : BitVec 4) (a : Code)
  | kldB (h : Hdr) (k : BitVec 4) (a : Code)
  | kst (h : Hdr) (k : BitVec 4) (a : Code)
  | kstB (h : Hdr) (k : BitVec 4) (a : Code)
  | kadd (h : Hdr) (d a b : BitVec 4) (sub : BitVec 1)
  | ksls (h : Hdr) (d a : BitVec 4) (b : Code) (pair : BitVec 1)
  | kext (h : Hdr) (d : Code) (k : BitVec 4) (b : Code) (pair : BitVec 1)
  | bptr (h : Hdr) (a b : Code)
  | bptrRd (h : Hdr) (d : Code)
  | mulkS (h : Hdr) (z : BitVec 2) (a : Code)
  | mulkC (h : Hdr) (d a b : BitVec 4)
  | accrd (h : Hdr) (k : BitVec 4) (z : BitVec 2) (b : Code)
  | accrdOv (h : Hdr) (d : Code) (z : BitVec 2)
  | accz (h : Hdr) (z : BitVec 2)
  | acccv (h : Hdr) (d : Code) (z : BitVec 2) (b : Code) (slot : BitVec 3)
  -- tagged terms, R247 to R263
  | tagGet (h : Hdr) (d a : Code)
  | tagSet (h : Hdr) (d a b : Code)
  | tagVal (h : Hdr) (d a : Code)
  | mkt (h : Hdr) (d a : Code) (tag : BitVec 4)
  | deref (h : Hdr) (d a : Code)
  | unify (h : Hdr) (d a b : Code) (oc : BitVec 1)
  | unifyc (h : Hdr) (d : Code)
  | bind (h : Hdr) (d a b : Code)
  | choice (h : Hdr) (a : Code)
  | retry (h : Hdr) (a : Code)
  | retryTrust (h : Hdr)
  | failb (h : Hdr) (pd : PCode)
  | cut (h : Hdr) (a : Code)
  | tmark (h : Hdr) (d : Code)
  | unwind (h : Hdr) (a : Code)
  | halloc (h : Hdr) (d b : Code) (z c : BitVec 1)
  | arg (h : Hdr) (d a b : Code) (addr : BitVec 1)
  | func (h : Hdr) (d a : Code)
  | commit (h : Hdr) (a : Code)
  -- symbols, R299 to R302
  | symq (h : Hdr) (d : Code)
  | symqR (h : Hdr) (d a : Code)
  | symw (h : Hdr) (a : Code)
  | symset (h : Hdr) (a b : Code)
  -- system, R343 to R350
  | csrr (h : Hdr) (d : Code) (csr : BitVec 12)
  | csrw (h : Hdr) (d : Code) (csr : BitVec 12)
  | eret (h : Hdr)
  | tlbiVa (h : Hdr) (a : Code)
  | tlbiJob (h : Hdr)
  | tlbiAll (h : Hdr)
  | ctxs (h : Hdr) (a : Code)
  | ctxl (h : Hdr) (a : Code)
  | cflushWb (h : Hdr) (a : Code)
  | cflushInv (h : Hdr) (a : Code)
  | cflushAll (h : Hdr)
  | cancel (h : Hdr) (lvl : BitVec 3)
  | cndw (h : Hdr) (a b : Code)
  -- REGION, hint words and POOL, R61, R78 to R82
  | region (mask : BitVec 24)
  | ximm (n : BitVec 24)
  | track (f : BitVec 4)
  | wait (mask : BitVec 12)
  | mod (rnd : BitVec 3) (ord : BitVec 2) (scope : BitVec 3) (cache : BitVec 3)
  | pool (n : BitVec 24)
  -- events: completion
  /-- Operation `op` of crew `crew` completes (R72). -/
  | longLatencyComplete (crew op : Nat)
  /-- The `idx`-th pending result of crew `crew` completes (R71). -/
  | resultWriteComplete (crew idx : Nat)
  /-- The data of symbol `sym` arrives in lane `lane` (R296). -/
  | symbolArrival (crew sym lane : Nat)
  /-- Request `req` of operation `op` arrives at its target (R168). -/
  | memoryRequestArrive (crew op req : Nat)
  /-- The accesses waiting on fault-ring entry `entry` are replayed (R157). -/
  | pageFaultReplay (job entry : Nat)
  | compatWrite (core : Nat) (v : Word)
  | vlogSelect (crew : Nat) (v : Word)
  -- events: swap
  /-- Waiting cluster `cluster` of launch `launch` pre-empts in hardware cluster `hw` (R322). -/
  | preEmpt (launch cluster hw : Nat)
  -- events: launches and units
  /-- Cluster `cluster` of launch `launch` is admitted on `cores`, in unit order (R319). -/
  | clusterAdmit (launch cluster : Nat) (cores : List Nat)
  -- events: engine commands, named by core and command sequence
  | copy (core cmd : Nat)
  | gather (core cmd : Nat)
  | scatter (core cmd : Nat)
  | mcast (core cmd : Nat)
  | expand (core cmd : Nat)
  | regroup (core cmd : Nat)
  | allreduce (job : Nat) (group : Word)
  | reduce (job : Nat) (group : Word)
  | bcast (job : Nat) (group : Word)
  | allgather (job : Nat) (group : Word)
  | redscat (job : Nat) (group : Word)
  /-- `n` bytes of a command land, those after the first `skip` that are still to land (R275). -/
  | copyBytesLand (core cmd skip n : Nat)
  | commandEnd (core cmd : Nat)
  | deadlinePass (core cmd : Nat)
  -- events: flint cells at their homes
  | flintProposal (crew op req : Nat)
  | flintRecycle (crew op req : Nat)
  -- events: the graph walker
  | taskStart (stack : Nat) (job : Nat) (header : Word)
  | graphStart (c : GraphCmd)
  | graphRetry (c : GraphCmd)
  | graphAbandon (c : GraphCmd)
  | graphCancel (c : GraphCmd)
  | graphLaunch (c : GraphCmd)
  -- events: traps and the host's control window
  /-- The host sets a launch-queue tail; `recs` are the records up to it (R353). -/
  | lqtailWrite (job : Nat) (tail : BitVec 16) (recs : List (List Word))
  | ringHeadWrite (job : Nat) (fhead thead : BitVec 16)
  | hostCancelUnit (job lid u : Nat)
  | hostCancelLaunch (job lid : Nat)
  | hostCancelGraph (job : Nat) (header : Word)
  | hostCancelPhase (job id : Nat)
  | hostCancelJob (job : Nat)
  /-- `cs` is 64 × core + slot, as the DISP registers are numbered (R353). -/
  | dispResume (job cs : Nat)
  | dispKill (job cs : Nat)
  | dispFail (job cs : Nat)
  | dispReject (job cs : Nat) (entry : BitVec 16)
  | hostAccess (acc : HostAcc)
  -- events: boot, links and power
  | powerOn (hostFw deviceFw record : BootImage) (cfg : PartCfg)
  | measureExtend (x : BitVec 512)
  | attestNonce (nonce : BitVec 512)
  /-- `region` 1 is the home slices, 2 the crossbar; `clk` the clock chosen (R361). -/
  | governorClockSet (region clk : Nat)
  -- words that are no instruction
  | unassignedOpcode (w : IWord)
  | reservedHintOpcode (w : IWord)
  -- events: devices
  | pcieDeviceAccess (addr : Word) (n : Nat)
  -- constructors without fields stand last; an event among them acts on the object at hand, which
  -- the state's field `subj` numbers
  /-- 0x00, R83. -/
  | ill
  /-- The resident routine finishes the routed instruction of the crew at hand (R67). -/
  | compatRoute
  /-- The refresh window of the bank at hand ends (R166). -/
  | wsRefreshWindowEnd
  /-- The wait clock of the unit at hand has passed LIMIT (R51). -/
  | waitClockSwap
  /-- The core at hand has a reservation deadlock (R211). -/
  | reservationDeadlock
  /-- The unit at hand has drained (R53). -/
  | drainDone
  /-- The context of the unit at hand is saved (R53). -/
  | saveDone
  /-- The unit at hand starts to be restored (R53). -/
  | restoreStart
  /-- The unit at hand is restored (R53). -/
  | restoreDone
  /-- The unit at hand completes or ends (R48, R333). -/
  | unitComplete
  /-- The serial phase of the unit at hand performs its next entry (R333). -/
  | serialPhase
  /-- The pool bitmap of the launch at hand is loaded (R82, R318). -/
  | poolmapLoad
  /-- The request reader of the core at hand takes its next entry (R270). -/
  | kickEntryTake
  /-- The crew at hand takes the trap that is due to it (R337). -/
  | trapTake
  /-- The fibre at hand fails (R355). -/
  | fibreFail
  /-- A flit of the fibre at hand is retried (R354). -/
  | flitCrcRetry
  /-- The tokens of the stack at hand are refilled (R360). -/
  | tokenRefill
  /-- The module's inlet passes 40 °C, at the temperature at hand (R362). -/
  | moduleOvertemp
  /-- The attestation report being formed appears (R358). -/
  | attestReportDone
  deriving DecidableEq, Repr

end Sys2Proof
end

