-- ==== Sys2Proof/WellFormed.lean ====
section
/-! DEFINITION. Which instructions have an encoding: the field values that the descriptions of the
instructions allow, beyond the widths of the fields (04 R69 and each instruction's own rule). -/

namespace Sys2Proof

/-- The code names a window register w0–w27, not a stream port (R10). -/
def isWin (c : Code) : Bool := decide (c.toNat < 28)

/-- The code is even and so can name the first register or cord of a pair. -/
def isEven {n : Nat} (c : BitVec n) : Bool := decide (c.toNat % 2 = 0)

/-- Control-register numbers of R66. -/
def isCsr (n : BitVec 12) : Bool :=
  [0x010, 0x011, 0x012, 0x020, 0x030, 0x040].contains n.toNat

/-- Special registers that MOVSW may write (R65). -/
def isWritableSr (c : BitVec 5) : Bool := decide (13 ≤ c.toNat ∧ c.toNat ≤ 18)

/-- Number of one bits of `n` among its `k` low bits. -/
def popNat : Nat → Nat → Nat
  | 0, _ => 0
  | k + 1, n => n % 2 + popNat k (n / 2)

/-- Opcodes that R85 leaves unassigned. -/
def opUnassigned (op : Nat) : Bool :=
  decide ((0x55 ≤ op ∧ op ≤ 0x5F) ∨ (0x7B ≤ op ∧ op ≤ 0x7F) ∨ (0x88 ≤ op ∧ op ≤ 0x8F) ∨
    (0xB3 ≤ op ∧ op ≤ 0xBF) ∨ (0xC9 ≤ op ∧ op ≤ 0xDF) ∨ (0xE1 ≤ op ∧ op ≤ 0xE7) ∨
    (0xF1 ≤ op ∧ op ≤ 0xFF))

/-- Opcodes reserved for hints (R76). -/
def opReservedHint (op : Nat) : Bool := decide (0xEC ≤ op ∧ op ≤ 0xEF)

/-- Registers of formats L and A: window registers only (R171, R178). -/
def wfMem (d a : Code) : Bool := isWin d && isWin a

/-- The instruction's fields hold values its description allows. -/
def wellFormed : Instr → Bool
  | .ill | .add .. | .sub .. | .neg .. | .mul .. | .mulh .. => true
  | .mad _ d _ _ _ => isWin d
  | .div .. | .rem .. | .min .. | .max .. | .and .. | .or .. | .xor .. | .andn .. => true
  | .shl .. | .shr .. | .sar .. | .rot .. => true
  | .bitc _ _ _ w f => decide (f.toNat < 5 ∨ w = 1)
  | .bfx .. => true
  | .bfi _ d _ _ _ => isWin d
  | .lea .. | .sel .. | .mov .. | .movi .. => true
  | .addi .. | .andi .. | .ori .. | .xori .. | .shi .. => true
  | .cmpi _ _ _ _ c _ _ => decide (c.toNat < 6)
  | .cmp _ _ _ _ c _ _ => decide (c.toNat < 6)
  | .pset .. | .pmovRead .. | .pmovWrite .. => true
  | .bra .. | .brx .. | .call .. | .callx .. | .ret .. => true
  | .meet _ d _ => isWin d
  | .meetr _ d _ => isWin d
  | .exit .. | .kill .. => true
  | .loop _ d _ => isWin d
  | .brk .. | .trap .. | .nop .. | .yield .. => true
  | .vote _ d _ _ form => decide (form = 3 ∨ (d.toNat < 8 ∧ d.toNat ≠ 6))
  | .shfl .. | .shflImm .. | .cred .. | .cscan .. => true
  | .isect _ d _ _ _ _ => decide (d.toNat < 27)
  | .matchl .. => true
  | .movs _ _ s => decide (s.toNat < 22)
  | .movsw _ s _ => isWritableSr s
  | .fadd _ _ _ _ t | .fsub _ _ _ _ t | .fmul _ _ _ _ t => decide (t ≠ 3)
  | .ffma _ d _ _ _ t => isWin d && decide (t ≠ 3)
  | .fmin _ _ _ _ _ t | .fmax _ _ _ _ _ t => decide (t ≠ 3)
  | .fcmp _ _ _ _ _ t => decide (t ≠ 3)
  | .fabs _ _ _ t | .fneg _ _ _ t | .fsqrt _ _ _ t | .frcp _ _ _ t | .frsq _ _ _ t
  | .fexp2 _ _ _ t | .flog2 _ _ _ t | .ftanh _ _ _ t | .fsinpi _ _ _ t | .fcospi _ _ _ t
  | .fcls _ _ _ t => decide (t ≠ 3)
  | .fcps _ _ _ _ t | .fdiv _ _ _ _ t => decide (t ≠ 3)
  | .frnd _ _ _ _ t => decide (t ≠ 3)
  | .fred _ _ _ op t => decide (op.toNat < 3 ∧ t ≠ 3)
  | .cvts _ _ _ c => decide (c.toNat < 24)
  | .cvtdSat .. | .cvtdInf .. | .cvtdNan .. | .cvtdTrap .. | .cvtu .. | .absmx .. => true
  | .ld _ d a la size sx sym =>
    wfMem d a && decide (sym = 0 ∨ la = 0) &&
      (!decide (size = 3 ∧ sx = 1) || (isEven d && decide (sym = 0)))
  | .st _ d a _ size q => wfMem d a && (decide (q = 0) || (decide (size = 3) && isEven d))
  | .pref _ a _ => isWin a
  | .pres _ d a _ => wfMem d a
  | .aadd _ d a _ _ _ _ | .aand _ d a _ _ _ _ | .aor _ d a _ _ _ _ | .axor _ d a _ _ _ _
  | .amin _ d a _ _ _ _ | .amax _ d a _ _ _ _ | .aminn _ d a _ _ _ _ | .amaxn _ d a _ _ _ _
  | .axch _ d a _ _ _ _ => wfMem d a
  | .acas _ d a _ _ _ _ => wfMem d a && isEven d
  | .afadd _ d a _ _ _ | .afmin _ d a _ _ _ | .afmax _ d a _ _ _ => wfMem d a
  | .fence _ s _ => decide (1 ≤ s.toNat ∧ s.toNat ≤ 6)
  | .bar _ n lvl | .barArv _ n lvl =>
    decide (lvl.toNat < 2 ∨ (lvl = 2 ∧ n.toNat < 8) ∨ (lvl = 3 ∧ n.toNat < 4))
  | .nbar _ _ _ b | .nbarArv _ _ b => isWin b
  | .fprop _ d a | .fread _ d a | .fwait _ d a => decide (d.toNat < 27) && isWin a
  | .frcy _ d a => isWin d && isWin a
  | .xcnt _ a b => isWin a && isWin b
  | .xrd _ _ a | .xsnap _ _ a => isWin a
  | .push _ _ a _ => decide (a.toNat ≤ 20)
  | .kick _ _ a b | .lcset _ _ a b | .lcsetZ _ _ a b => isWin a && isWin b
  | .lcsetFree _ _ a | .lcwait _ a _ | .lcrd _ _ a _ => isWin a
  | .strm _ _ a | .layh _ a => isWin a
  | .strms _ _ a d => isWin a && decide (d.toNat ≤ 4)
  | .strmsRd _ _ _ d => decide (d.toNat ≤ 4)
  | .layhAll .. => true
  | .resv _ _ c m | .resvW _ _ c m => decide (1 ≤ c.toNat ∧ c.toNat ≤ 8 ∧ m ≠ 0)
  | .rls .. | .guard .. => true
  | .guardReg _ a _ => isWin a
  | .pack .. | .unpk .. => true
  | .kld _ _ a | .kldB _ _ a | .kst _ _ a | .kstB _ _ a => isWin a
  | .kadd .. => true
  | .ksls _ d a b p => isWin b && (decide (p = 0) || (isEven d && isEven a))
  | .kext _ _ k _ p => decide (p = 0) || isEven k
  | .bptr _ a b => isWin a && isWin b
  | .bptrRd .. | .mulkS .. => true
  | .mulkC _ d _ _ => isEven d
  | .accrd _ _ _ b => isWin b
  | .accrdOv .. | .accz .. | .acccv .. => true
  | .tagGet _ d a | .tagVal _ d a | .deref _ d a | .func _ d a => isWin d && isWin a
  | .tagSet _ d a b | .unify _ d a b _ | .bind _ d a b => isWin d && isWin a && isWin b
  | .mkt _ d a t => isWin d && isWin a && decide (t.toNat ≤ 8 ∧ (t ≠ 0 ∨ a = 0))
  | .unifyc _ d => isWin d
  | .choice _ a | .retry _ a | .cut _ a | .commit _ a => isWin a
  | .retryTrust .. | .failb .. => true
  | .tmark _ d => decide (d.toNat < 27)
  | .unwind _ a => decide (a.toNat < 27)
  | .halloc _ d b _ _ => isWin d && isWin b
  | .arg _ d a b _ => isWin d && isWin a && isWin b
  | .symq _ d => isWin d
  | .symqR _ d a => isWin d && isWin a
  | .symw _ a => isWin a
  | .symset _ a b => isWin a && isWin b
  | .csrr _ _ n => isCsr n
  | .csrw _ _ n => isCsr n && decide (n ≠ 0x011 ∧ n ≠ 0x012)
  | .eret .. | .tlbiJob .. | .tlbiAll .. | .cflushAll .. => true
  | .tlbiVa _ a | .ctxs _ a | .ctxl _ a | .cflushWb _ a | .cflushInv _ a => isWin a
  | .cancel _ l => decide (l.toNat ≤ 4)
  | .cndw _ a b => isWin a && isWin b
  | .region m => decide (popNat 24 m.toNat ≤ 12)
  | .ximm .. => true
  | .track f => decide (f.toNat ≤ 11)
  | .wait m => decide (m ≠ 0)
  | .mod r _ s c => decide (r.toNat ≤ 4 ∧ s.toNat ≤ 6 ∧ c.toNat ≤ 3)
  | .pool .. => true
  | .longLatencyComplete .. | .resultWriteComplete .. | .symbolArrival ..
  | .memoryRequestArrive .. | .pageFaultReplay .. | .wsRefreshWindowEnd | .compatRoute
  | .compatWrite .. | .vlogSelect .. | .waitClockSwap | .reservationDeadlock
  | .preEmpt .. | .drainDone | .saveDone | .restoreStart | .restoreDone
  | .clusterAdmit .. | .unitComplete | .serialPhase | .poolmapLoad | .kickEntryTake
  | .copy .. | .gather .. | .scatter .. | .mcast .. | .expand .. | .regroup .. | .allreduce ..
  | .reduce .. | .bcast .. | .allgather .. | .redscat .. | .copyBytesLand .. | .commandEnd ..
  | .deadlinePass .. | .flintProposal .. | .flintRecycle .. | .taskStart .. | .graphStart ..
  | .graphRetry .. | .graphAbandon .. | .graphCancel .. | .graphLaunch .. | .trapTake
  | .lqtailWrite .. | .ringHeadWrite .. | .hostCancelUnit .. | .hostCancelLaunch ..
  | .hostCancelGraph .. | .hostCancelPhase .. | .hostCancelJob .. | .dispResume ..
  | .dispKill .. | .dispFail .. | .dispReject .. | .hostAccess .. | .powerOn ..
  | .measureExtend .. | .attestNonce .. | .attestReportDone | .fibreFail | .flitCrcRetry
  | .tokenRefill | .governorClockSet .. | .moduleOvertemp | .pcieDeviceAccess .. => true
  | .unassignedOpcode w =>
    opUnassigned (w.toNat / 2 ^ 24) || (decide (w.toNat / 2 ^ 24 = 0) && decide (w ≠ 0))
  | .reservedHintOpcode w => opReservedHint (w.toNat / 2 ^ 24)

end Sys2Proof
end

