-- ==== Sys2Proof/Decode.lean ====
section
/-! DEFINITION. The decoder, total on every 32-bit word, and the encoder, both written from the
field maps of 04 R68 and of each instruction's own rule. -/

namespace Sys2Proof

/-- Why a word is no instruction. Unassigned opcodes and reserved hint opcodes decode to their own
rows of the opcode table; every other bad word raises ILLEGAL-ENCODING (R69, R83). -/
inductive DecodeError where
  /-- A nonzero unused field or a reserved field value (R69). -/
  | illegalEncoding
  deriving DecidableEq, Repr

/-- The `n`-bit field of the number `w` at bit `lo`. -/
def field (w lo n : Nat) : BitVec n := BitVec.ofNat n (w / 2 ^ lo)

/-- The fields of format R and of the formats that keep its layout (R68). -/
structure RFields where
  h : Hdr
  d : Code
  a : Code
  b : Code
  f : Nat
  deriving DecidableEq, Repr

/-- Cut a word into the fields of format R. -/
def rFields (w : Nat) : RFields where
  h := { sp := field w 22 2, pg := field w 19 3, pn := field w 18 1 }
  d := field w 13 5
  a := field w 8 5
  b := field w 3 5
  f := w % 8

/-- An instruction whose unused fields hold 0, or nothing. -/
def need (c : Bool) (i : Instr) : Option Instr := if c then some i else none

/-- Narrow a field that names a predicate, a cord or a plane to its code. -/
def low {n : Nat} (m : Nat) (c : BitVec n) : BitVec m := BitVec.ofNat m c.toNat

/-- The field's value is below a bound. -/
def below {n : Nat} (c : BitVec n) (k : Nat) : Bool := decide (c.toNat < k)

/-- F[2]. -/
def f2 (f : Nat) : BitVec 1 := BitVec.ofNat 1 (f / 4)
/-- F[0]. -/
def f0 (f : Nat) : BitVec 1 := BitVec.ofNat 1 f
/-- F[1:0]. -/
def f10 (f : Nat) : BitVec 2 := BitVec.ofNat 2 f

/-- Opcodes 0x01 to 0x17: integer arithmetic and logic (R91, R92). -/
def decodeInt (op : Nat) (r : RFields) : Option Instr :=
  let h := r.h; let d := r.d; let a := r.a; let b := r.b; let f := r.f
  match op with
  | 0x01 => need (f % 4 = 0) (.add h d a b (f2 f))
  | 0x02 =>
    if f % 2 = 1 then need (f / 2 % 2 = 0 && b = 0) (.neg h d a (f2 f))
    else need (f % 4 = 0) (.sub h d a b (f2 f))
  | 0x03 => need (f % 4 = 0) (.mul h d a b (f2 f))
  | 0x04 => need (f / 2 % 2 = 0) (.mulh h d a b (f2 f) (f0 f))
  | 0x05 => need (f % 4 = 0) (.mad h d a b (f2 f))
  | 0x06 => need (f / 2 % 2 = 0) (.div h d a b (f2 f) (f0 f))
  | 0x07 => need (f / 2 % 2 = 0) (.rem h d a b (f2 f) (f0 f))
  | 0x08 => need (f / 2 % 2 = 0) (.min h d a b (f2 f) (f0 f))
  | 0x09 => need (f / 2 % 2 = 0) (.max h d a b (f2 f) (f0 f))
  | 0x0A => need (f % 4 = 0) (.and h d a b (f2 f))
  | 0x0B => need (f % 4 = 0) (.or h d a b (f2 f))
  | 0x0C => need (f % 4 = 0) (.xor h d a b (f2 f))
  | 0x0D => need (f % 4 = 0) (.andn h d a b (f2 f))
  | 0x0E => need (f % 4 = 0) (.shl h d a b (f2 f))
  | 0x0F => need (f % 4 = 0) (.shr h d a b (f2 f))
  | 0x10 => need (f % 4 = 0) (.sar h d a b (f2 f))
  | 0x11 => need (f % 4 = 0) (.rot h d a b (f2 f))
  | 0x12 => need (b.toNat / 2 = 0) (.bitc h d a (low 1 b) (BitVec.ofNat 3 f))
  | 0x13 => need (f / 2 % 2 = 0) (.bfx h d a b (f2 f) (f0 f))
  | 0x14 => need (f % 4 = 0) (.bfi h d a b (f2 f))
  | 0x15 => some (.lea h d a b (f2 f) (f10 f))
  | 0x16 => some (.sel h d a b (BitVec.ofNat 3 f))
  | 0x17 => need (b = 0 && f = 0) (.mov h d a)
  | _ => none

/-- Opcodes 0x18 to 0x2F: immediates, comparison, predicates and control (R98 to R110). -/
def decodeCtl (op w : Nat) (r : RFields) : Option Instr :=
  let h := r.h; let d := r.d; let a := r.a; let b := r.b; let f := r.f
  let cond : BitVec 3 := BitVec.ofNat 3 (d.toNat / 8 * 2 + f / 2 % 2)
  match op with
  | 0x18 => some (.movi h d (field w 0 13))
  | 0x19 => some (.addi h d a (field w 0 8))
  | 0x1A => some (.andi h d a (field w 0 8))
  | 0x1B => some (.ori h d a (field w 0 8))
  | 0x1C => some (.xori h d a (field w 0 8))
  | 0x1D => some (.shi h d a (field w 6 2) (field w 0 6))
  | 0x1E => some (.cmpi h (low 3 d) a b cond (f2 f) (f0 f))
  | 0x1F => some (.cmp h (low 3 d) a b cond (f2 f) (f0 f))
  | 0x20 => need (below d 8 && below a 8 && below b 8)
      (.pset h (low 3 d) (low 3 a) (low 3 b) (BitVec.ofNat 3 f))
  | 0x21 =>
    if f = 0 then need (a = 0 && b = 0) (.pmovRead h d)
    else need (f = 1 && d = 0 && b = 0) (.pmovWrite h a)
  | 0x22 => some (.bra h (field w 0 18))
  | 0x23 => need (d = 0 && b = 0 && f = 0) (.brx h a)
  | 0x24 => some (.call h (field w 0 18))
  | 0x25 => need (d = 0 && b = 0 && f = 0) (.callx h a)
  | 0x26 => need (d = 0 && a = 0 && b = 0 && f = 0) (.ret h)
  | 0x27 => some (.meet h d (field w 0 13))
  | 0x28 => need (b = 0 && f = 0) (.meetr h d a)
  | 0x29 => need (d = 0 && a = 0 && b = 0 && f = 0) (.exit h)
  | 0x2A => need (d = 0 && b = 0 && f = 0) (.kill h a)
  | 0x2B => some (.loop h d (field w 0 13))
  | 0x2C => need (d = 0 && b = 0 && f = 0) (.brk h a)
  | 0x2D => need (d = 0 && b = 0 && f = 0) (.trap h a)
  | 0x2E => need (d = 0 && a = 0 && b = 0 && f = 0) (.nop h)
  | 0x2F => need (d = 0 && a = 0 && b = 0 && f = 0) (.yield h)
  | _ => none

/-- Opcodes 0x30 to 0x37: crew exchange and special registers (R111 to R117). -/
def decodeCrew (op : Nat) (r : RFields) : Option Instr :=
  let h := r.h; let d := r.d; let a := r.a; let b := r.b; let f := r.f
  match op with
  | 0x30 => need (below a 8 && b = 0) (.vote h d (low 3 a) (f2 f) (f10 f))
  | 0x31 => if f / 4 = 0 then some (.shfl h d a b (f10 f)) else some (.shflImm h d a b (f10 f))
  | 0x32 => need (b = 0) (.cred h d a (BitVec.ofNat 3 f))
  | 0x33 => need (b.toNat / 2 = 0) (.cscan h d a (low 1 b) (BitVec.ofNat 3 f))
  | 0x34 => need (f / 2 % 2 = 0) (.isect h d a b (f2 f) (f0 f))
  | 0x35 => need (f % 4 = 0 && b = 0) (.matchl h d a (f2 f))
  | 0x36 => need (b = 0 && f = 0) (.movs h d a)
  | 0x37 => need (b = 0 && f = 0) (.movsw h d a)
  | _ => none

/-- Opcodes 0x38 to 0x54: floating point and conversions (R128, R144 to R150). -/
def decodeFloat (op : Nat) (r : RFields) : Option Instr :=
  let h := r.h; let d := r.d; let a := r.a; let b := r.b; let f := r.f; let t := f10 f
  let slot : BitVec 3 := BitVec.ofNat 3 f
  let un (i : Instr) : Option Instr := need (b = 0 && f / 4 = 0) i
  match op with
  | 0x38 => need (f / 4 = 0) (.fadd h d a b t)
  | 0x39 => need (f / 4 = 0) (.fsub h d a b t)
  | 0x3A => need (f / 4 = 0) (.fmul h d a b t)
  | 0x3B => some (.ffma h d a b (f2 f) t)
  | 0x3C => some (.fmin h d a b (f2 f) t)
  | 0x3D => some (.fmax h d a b (f2 f) t)
  | 0x3E => some (.fcmp h (low 3 d) a b (BitVec.ofNat 3 (d.toNat / 8 * 2 + f / 4)) t)
  | 0x3F => un (.fabs h d a t)
  | 0x40 => un (.fneg h d a t)
  | 0x41 => need (f / 4 = 0) (.fcps h d a b t)
  | 0x42 => need (f / 4 = 0) (.fdiv h d a b t)
  | 0x43 => un (.fsqrt h d a t)
  | 0x44 => un (.frcp h d a t)
  | 0x45 => un (.frsq h d a t)
  | 0x46 => un (.fexp2 h d a t)
  | 0x47 => un (.flog2 h d a t)
  | 0x48 => un (.ftanh h d a t)
  | 0x49 => un (.fsinpi h d a t)
  | 0x4A => un (.fcospi h d a t)
  | 0x4B => need (b = 0) (.frnd h d a (f2 f) t)
  | 0x4C => un (.fcls h d a t)
  | 0x4D => need (f / 4 = 0) (.fred h d a b t)
  | 0x4E => need (f = 0) (.cvts h d a b)
  | 0x4F => some (.cvtdSat h d a b slot)
  | 0x50 => some (.cvtdInf h d a b slot)
  | 0x51 => some (.cvtdNan h d a b slot)
  | 0x52 => some (.cvtdTrap h d a b slot)
  | 0x53 => some (.cvtu h d a b slot)
  | 0x54 => need (b = 0) (.absmx h d a slot)
  | _ => none

/-- Opcodes 0x60 to 0x70: formats L and A (R171, R178). -/
def decodeMem (op w : Nat) (r : RFields) : Option Instr :=
  let h := r.h; let d := r.d; let a := r.a
  let la : Look := field w 4 4
  let size : BitVec 2 := field w 2 2
  let sx : BitVec 1 := field w 1 1
  let sym : BitVec 1 := field w 0 1
  let w64 : BitVec 1 := field w 3 1
  let ord : BitVec 1 := field w 2 1
  let sc : BitVec 2 := field w 0 2
  match op with
  | 0x60 => some (.ld h d a la size sx sym)
  | 0x61 => need (sym = 0) (.st h d a la size sx)
  | 0x62 => need (d = 0 && la = 0 && sx = 0 && sym = 0) (.pref h a size)
  | 0x63 => need (size = 0 && sx = 0 && sym = 0) (.pres h d a la)
  | 0x64 => some (.aadd h d a la w64 ord sc)
  | 0x65 => some (.aand h d a la w64 ord sc)
  | 0x66 => some (.aor h d a la w64 ord sc)
  | 0x67 => some (.axor h d a la w64 ord sc)
  | 0x68 => some (.amin h d a la w64 ord sc)
  | 0x69 => some (.amax h d a la w64 ord sc)
  | 0x6A => some (.aminn h d a la w64 ord sc)
  | 0x6B => some (.amaxn h d a la w64 ord sc)
  | 0x6C => some (.axch h d a la w64 ord sc)
  | 0x6D => some (.acas h d a la w64 ord sc)
  | 0x6E => need (w64 = 0) (.afadd h d a la ord sc)
  | 0x6F => need (w64 = 0) (.afmin h d a la ord sc)
  | 0x70 => need (w64 = 0) (.afmax h d a la ord sc)
  | _ => none

/-- Opcodes 0x71 to 0x87: ordering, barriers, flint cells, counters and engines. -/
def decodeSync (op : Nat) (r : RFields) : Option Instr :=
  let h := r.h; let d := r.d; let a := r.a; let b := r.b; let f := r.f
  let port (c : Code) : Bool := decide (28 ≤ c.toNat)
  match op with
  | 0x71 => need (d = 0 && b = 0 && f / 4 = 0 && below a 8) (.fence h (low 3 a) (f10 f))
  | 0x72 =>
    need (d = 0 && b = 0 && below a 16)
      (if f / 4 = 0 then .bar h (low 4 a) (f10 f) else .barArv h (low 4 a) (f10 f))
  | 0x73 =>
    if f / 4 = 0 then need (f % 4 = 0 && below d 8) (.nbar h (low 3 d) a b)
    else need (f % 4 = 0 && d = 7) (.nbarArv h a b)
  | 0x74 => need (b = 0 && f = 0) (.fprop h d a)
  | 0x75 => need (b = 0 && f = 0) (.fread h d a)
  | 0x76 => need (b = 0 && f = 0) (.fwait h d a)
  | 0x77 => need (b = 0 && f = 0) (.frcy h d a)
  | 0x78 => need (d = 0 && f = 0) (.xcnt h a b)
  | 0x79 => need (b = 0 && f = 0) (.xrd h d a)
  | 0x7A => need (b = 0 && f = 0) (.xsnap h d a)
  | 0x80 => need (below d 8 && b = 0 && f / 4 = 0) (.push h (low 3 d) a (f10 f))
  | 0x81 => need (below d 8 && f = 0) (.kick h (low 3 d) a b)
  | 0x82 =>
    if f = 0 then need (below d 8) (.lcset h (low 3 d) a b)
    else if f = 1 then need (below d 8) (.lcsetZ h (low 3 d) a b)
    else need (f = 2 && below d 8 && b = 0) (.lcsetFree h (low 3 d) a)
  | 0x83 => need (d = 0 && b = 0 && f / 2 = 0) (.lcwait h a (f0 f))
  | 0x84 => need (b = 0 && f / 2 = 0) (.lcrd h d a (f0 f))
  | 0x85 => need (port d && b = 0 && f = 0) (.strm h (low 2 d) a)
  | 0x86 =>
    if f = 0 then need (port d && below b 8) (.strms h (low 2 d) a (low 3 b))
    else need (f = 1 && port a && below b 8) (.strmsRd h d (low 2 a) (low 3 b))
  | 0x87 =>
    if f = 0 then need (d = 0 && b = 0) (.layh h a)
    else need (f = 1 && d = 0 && a = 0 && b = 0) (.layhAll h)
  | _ => none

/-- Opcodes 0x90 to 0x9F: the Granite bank (R214). -/
def decodeGranite (op : Nat) (r : RFields) : Option Instr :=
  let h := r.h; let d := r.d; let a := r.a; let b := r.b; let f := r.f
  let slot : BitVec 3 := BitVec.ofNat 3 f
  let k (c : Code) : Bool := below c 16
  let z (c : Code) : Bool := below c 4
  match op with
  | 0x90 =>
    need (below d 8 && below a 16 && b.toNat / 16 = 0 && f % 4 = 0)
      (if f / 4 = 0 then .resv h (low 3 d) (low 4 a) (low 4 b)
       else .resvW h (low 3 d) (low 4 a) (low 4 b))
  | 0x91 => need (d = 0 && a = 0 && b = 0 && f = 0) (.rls h)
  | 0x92 =>
    if b.toNat % 2 = 0 then need (d = 0 && a = 0 && b.toNat / 4 = 0) (.guard h (field b.toNat 1 1) slot)
    else need (d = 0 && b.toNat / 4 = 0 && f = 0) (.guardReg h a (field b.toNat 1 1))
  | 0x93 => need (k d) (.pack h (low 4 d) a b slot)
  | 0x94 => need (k a) (.unpk h d (low 4 a) b slot)
  | 0x95 =>
    need (k d && b = 0 && f / 2 = 0) (if f = 0 then .kld h (low 4 d) a else .kldB h (low 4 d) a)
  | 0x96 =>
    need (k d && b = 0 && f / 2 = 0) (if f = 0 then .kst h (low 4 d) a else .kstB h (low 4 d) a)
  | 0x97 => need (k d && k a && k b && f / 2 = 0) (.kadd h (low 4 d) (low 4 a) (low 4 b) (f0 f))
  | 0x98 => need (k d && k a && f / 2 = 0) (.ksls h (low 4 d) (low 4 a) b (f0 f))
  | 0x99 => need (k a && f / 2 = 0) (.kext h d (low 4 a) b (f0 f))
  | 0x9A =>
    if f = 0 then need (d = 0) (.bptr h a b) else need (f = 1 && a = 0 && b = 0) (.bptrRd h d)
  | 0x9B => need (z d && b = 0 && f = 0) (.mulkS h (low 2 d) a)
  | 0x9C => need (k d && k a && k b && f = 0) (.mulkC h (low 4 d) (low 4 a) (low 4 b))
  | 0x9D =>
    if f = 0 then need (k d && z a) (.accrd h (low 4 d) (low 2 a) b)
    else need (f = 1 && z a && b = 0) (.accrdOv h d (low 2 a))
  | 0x9E => need (z d && a = 0 && b = 0 && f = 0) (.accz h (low 2 d))
  | 0x9F => need (z a) (.acccv h d (low 2 a) b slot)
  | _ => none

/-- Opcodes 0xA0 to 0xB2: tagged terms and symbols (R248, R299). -/
def decodeTerm (op : Nat) (r : RFields) : Option Instr :=
  let h := r.h; let d := r.d; let a := r.a; let b := r.b; let f := r.f
  match op with
  | 0xA0 =>
    if f = 0 then need (b = 0) (.tagGet h d a)
    else if f = 1 then some (.tagSet h d a b)
    else need (f = 2 && b = 0) (.tagVal h d a)
  | 0xA1 => need (f = 0 && below b 16) (.mkt h d a (low 4 b))
  | 0xA2 => need (b = 0 && f = 0) (.deref h d a)
  | 0xA3 => need (f / 2 = 0) (.unify h d a b (f0 f))
  | 0xA4 => need (a = 0 && b = 0 && f = 0) (.unifyc h d)
  | 0xA5 => need (f = 0) (.bind h d a b)
  | 0xA6 => need (d = 0 && b = 0 && f = 0) (.choice h a)
  | 0xA7 =>
    if f = 0 then need (d = 0 && b = 0) (.retry h a)
    else need (f = 1 && d = 0 && a = 0 && b = 0) (.retryTrust h)
  | 0xA8 => need (below d 8 && a = 0 && b = 0 && f = 0) (.failb h (low 3 d))
  | 0xA9 => need (d = 0 && b = 0 && f = 0) (.cut h a)
  | 0xAA => need (a = 0 && b = 0 && f = 0) (.tmark h d)
  | 0xAB => need (d = 0 && b = 0 && f = 0) (.unwind h a)
  | 0xAC => need (a = 0 && f / 4 = 0) (.halloc h d b (BitVec.ofNat 1 (f / 2)) (f0 f))
  | 0xAD => need (f / 2 = 0) (.arg h d a b (f0 f))
  | 0xAE => need (b = 0 && f = 0) (.func h d a)
  | 0xAF => need (d = 0 && b = 0 && f = 0) (.commit h a)
  | 0xB0 =>
    if f = 0 then need (a = 0 && b = 0) (.symq h d) else need (f = 1 && b = 0) (.symqR h d a)
  | 0xB1 => need (d = 0 && b = 0 && f = 0) (.symw h a)
  | 0xB2 => need (d = 0 && f = 0) (.symset h a b)
  | _ => none

/-- Opcodes 0xC0 to 0xC8: system instructions (R343). -/
def decodeSystem (op w : Nat) (r : RFields) : Option Instr :=
  let h := r.h; let d := r.d; let a := r.a; let b := r.b; let f := r.f
  let csr : BitVec 12 := BitVec.ofNat 12 (w / 8 % 2 ^ 10 * 4 + f % 4)
  match op with
  | 0xC0 => need (f / 4 = 0) (.csrr h d csr)
  | 0xC1 => need (f / 4 = 0) (.csrw h d csr)
  | 0xC2 => need (d = 0 && a = 0 && b = 0 && f = 0) (.eret h)
  | 0xC3 =>
    if f = 0 then need (d = 0 && b = 0) (.tlbiVa h a)
    else need (d = 0 && a = 0 && b = 0 && f / 3 = 0) (if f = 1 then .tlbiJob h else .tlbiAll h)
  | 0xC4 => need (d = 0 && b = 0 && f = 0) (.ctxs h a)
  | 0xC5 => need (d = 0 && b = 0 && f = 0) (.ctxl h a)
  | 0xC6 =>
    if f = 0 then need (d = 0 && b = 0) (.cflushWb h a)
    else if f = 1 then need (d = 0 && b = 0) (.cflushInv h a)
    else need (f = 2 && d = 0 && a = 0 && b = 0) (.cflushAll h)
  | 0xC7 => need (d = 0 && a = 0 && b = 0) (.cancel h (BitVec.ofNat 3 f))
  | 0xC8 => need (d = 0 && f = 0) (.cndw h a b)
  | _ => none

/-- Opcodes 0xE0, 0xE8 to 0xEB and 0xF0: the hint layout (R61, R78 to R82). -/
def decodeHint (op w : Nat) : Option Instr :=
  let p := w % 2 ^ 24
  match op with
  | 0xE0 => some (.region (BitVec.ofNat 24 p))
  | 0xE8 => some (.ximm (BitVec.ofNat 24 p))
  | 0xE9 => need (p / 16 = 0) (.track (BitVec.ofNat 4 p))
  | 0xEA => need (p / 2 ^ 12 = 0) (.wait (BitVec.ofNat 12 p))
  | 0xEB => need (p / 2 ^ 11 = 0) (.mod (field p 0 3) (field p 3 2) (field p 5 3) (field p 8 3))
  | 0xF0 => some (.pool (BitVec.ofNat 24 p))
  | _ => none

/-- The instruction a word spells, its field values not yet checked against `wellFormed`. -/
def decodeRaw (word : IWord) : Option Instr :=
  let w := word.toNat
  let op := w / 2 ^ 24
  let r := rFields w
  if op = 0 then some (if w = 0 then .ill else .unassignedOpcode word)
  else if opUnassigned op then some (.unassignedOpcode word)
  else if opReservedHint op then some (.reservedHintOpcode word)
  else if op < 0x18 then decodeInt op r
  else if op < 0x30 then decodeCtl op w r
  else if op < 0x38 then decodeCrew op r
  else if op < 0x60 then decodeFloat op r
  else if op < 0x71 then decodeMem op w r
  else if op < 0x90 then decodeSync op r
  else if op < 0xA0 then decodeGranite op r
  else if op < 0xC0 then decodeTerm op r
  else if op < 0xE0 then decodeSystem op w r
  else decodeHint op w

/-- The decoder (R68, R69, R83, R85). -/
def decode (word : IWord) : Except DecodeError Instr :=
  match decodeRaw word with
  | some i => if wellFormed i then .ok i else .error .illegalEncoding
  | none => .error .illegalEncoding

/-- Four bytes at the lowest addresses of a list, as a little-endian word (R68). -/
def wordOfBytes (b0 b1 b2 b3 : Byte) : IWord := b3 ++ b2 ++ b1 ++ b0

/-- The four bytes of a word in memory order (R68). -/
def bytesOfWord (w : IWord) : List Byte :=
  [w.extractLsb' 0 8, w.extractLsb' 8 8, w.extractLsb' 16 8, w.extractLsb' 24 8]

/-- The host's question: the instruction read from an opcode-table word. Every instruction is one
32-bit word, so bits above 31 do not occur. -/
def decodeTableWord (nbits w : Nat) : Option Instr :=
  if nbits ≤ 32 then
    match decode (BitVec.ofNat 32 w) with
    | .ok i => some i
    | .error _ => none
  else none

/-- The spacing and guard fields in place. -/
def encHdr (op : Nat) (h : Hdr) : Nat :=
  op * 2 ^ 24 + h.sp.toNat * 2 ^ 22 + h.pg.toNat * 2 ^ 19 + h.pn.toNat * 2 ^ 18

/-- Format R. -/
def encR (op : Nat) (h : Hdr) (d a b f : Nat) : Nat :=
  encHdr op h + d * 2 ^ 13 + a * 2 ^ 8 + b * 2 ^ 3 + f

/-- Format R with the width in F[2] and signedness in F[0]. -/
def encWU (op : Nat) (h : Hdr) (d a b : Code) (w u : BitVec 1) : Nat :=
  encR op h d.toNat a.toNat b.toNat (w.toNat * 4 + u.toNat)

/-- Format R with F[2] and the float type or mode in F[1:0]. -/
def encFT (op : Nat) (h : Hdr) (d a b : Nat) (g : BitVec 1) (t : BitVec 2) : Nat :=
  encR op h d a b (g.toNat * 4 + t.toNat)

/-- Format I. -/
def encI (op : Nat) (h : Hdr) (d a : Code) (imm : Nat) : Nat :=
  encHdr op h + d.toNat * 2 ^ 13 + a.toNat * 2 ^ 8 + imm

/-- Format M. -/
def encM (op : Nat) (h : Hdr) (d : Code) (imm : BitVec 13) : Nat :=
  encHdr op h + d.toNat * 2 ^ 13 + imm.toNat

/-- Formats L and A share D, A and LA. -/
def encL (op : Nat) (h : Hdr) (d a : Nat) (la : Look) (low4 : Nat) : Nat :=
  encHdr op h + d * 2 ^ 13 + a * 2 ^ 8 + la.toNat * 2 ^ 4 + low4

/-- Format A. -/
def encA (op : Nat) (h : Hdr) (d a : Code) (la : Look) (w ord : BitVec 1) (sc : BitVec 2) : Nat :=
  encL op h d.toNat a.toNat la (w.toNat * 8 + ord.toNat * 4 + sc.toNat)

/-- The word of an instruction as a number; none for an event, which has no encoding. -/
def encodeNat : Instr → Option Nat
  | .ill => some 0
  | .add h d a b w => some (encWU 0x01 h d a b w 0)
  | .sub h d a b w => some (encWU 0x02 h d a b w 0)
  | .neg h d a w => some (encWU 0x02 h d a 0 w 1)
  | .mul h d a b w => some (encWU 0x03 h d a b w 0)
  | .mulh h d a b w u => some (encWU 0x04 h d a b w u)
  | .mad h d a b w => some (encWU 0x05 h d a b w 0)
  | .div h d a b w u => some (encWU 0x06 h d a b w u)
  | .rem h d a b w u => some (encWU 0x07 h d a b w u)
  | .min h d a b w u => some (encWU 0x08 h d a b w u)
  | .max h d a b w u => some (encWU 0x09 h d a b w u)
  | .and h d a b w => some (encWU 0x0A h d a b w 0)
  | .or h d a b w => some (encWU 0x0B h d a b w 0)
  | .xor h d a b w => some (encWU 0x0C h d a b w 0)
  | .andn h d a b w => some (encWU 0x0D h d a b w 0)
  | .shl h d a b w => some (encWU 0x0E h d a b w 0)
  | .shr h d a b w => some (encWU 0x0F h d a b w 0)
  | .sar h d a b w => some (encWU 0x10 h d a b w 0)
  | .rot h d a b w => some (encWU 0x11 h d a b w 0)
  | .bitc h d a w f => some (encR 0x12 h d.toNat a.toNat w.toNat f.toNat)
  | .bfx h d a b w u => some (encWU 0x13 h d a b w u)
  | .bfi h d a b w => some (encWU 0x14 h d a b w 0)
  | .lea h d a b w s => some (encFT 0x15 h d.toNat a.toNat b.toNat w s)
  | .sel h d a b p => some (encR 0x16 h d.toNat a.toNat b.toNat p.toNat)
  | .mov h d a => some (encR 0x17 h d.toNat a.toNat 0 0)
  | .movi h d imm => some (encM 0x18 h d imm)
  | .addi h d a imm => some (encI 0x19 h d a imm.toNat)
  | .andi h d a imm => some (encI 0x1A h d a imm.toNat)
  | .ori h d a imm => some (encI 0x1B h d a imm.toNat)
  | .xori h d a imm => some (encI 0x1C h d a imm.toNat)
  | .shi h d a k amt => some (encI 0x1D h d a (k.toNat * 64 + amt.toNat))
  | .cmpi h pd a imm c w u =>
    some (encR 0x1E h (c.toNat / 2 * 8 + pd.toNat) a.toNat imm.toNat
      (w.toNat * 4 + c.toNat % 2 * 2 + u.toNat))
  | .cmp h pd a b c w u =>
    some (encR 0x1F h (c.toNat / 2 * 8 + pd.toNat) a.toNat b.toNat
      (w.toNat * 4 + c.toNat % 2 * 2 + u.toNat))
  | .pset h pd pa pb f => some (encR 0x20 h pd.toNat pa.toNat pb.toNat f.toNat)
  | .pmovRead h d => some (encR 0x21 h d.toNat 0 0 0)
  | .pmovWrite h a => some (encR 0x21 h 0 a.toNat 0 1)
  | .bra h off => some (encHdr 0x22 h + off.toNat)
  | .brx h a => some (encR 0x23 h 0 a.toNat 0 0)
  | .call h off => some (encHdr 0x24 h + off.toNat)
  | .callx h a => some (encR 0x25 h 0 a.toNat 0 0)
  | .ret h => some (encR 0x26 h 0 0 0 0)
  | .meet h d off => some (encM 0x27 h d off)
  | .meetr h d a => some (encR 0x28 h d.toNat a.toNat 0 0)
  | .exit h => some (encR 0x29 h 0 0 0 0)
  | .kill h a => some (encR 0x2A h 0 a.toNat 0 0)
  | .loop h d off => some (encM 0x2B h d off)
  | .brk h n => some (encR 0x2C h 0 n.toNat 0 0)
  | .trap h n => some (encR 0x2D h 0 n.toNat 0 0)
  | .nop h => some (encR 0x2E h 0 0 0 0)
  | .yield h => some (encR 0x2F h 0 0 0 0)
  | .vote h d pa nt form => some (encFT 0x30 h d.toNat pa.toNat 0 nt form)
  | .shfl h d a b mode => some (encFT 0x31 h d.toNat a.toNat b.toNat 0 mode)
  | .shflImm h d a c mode => some (encFT 0x31 h d.toNat a.toNat c.toNat 1 mode)
  | .cred h d a op => some (encR 0x32 h d.toNat a.toNat 0 op.toNat)
  | .cscan h d a ex op => some (encR 0x33 h d.toNat a.toNat ex.toNat op.toNat)
  | .isect h d a b w u => some (encWU 0x34 h d a b w u)
  | .matchl h d a w => some (encWU 0x35 h d a 0 w 0)
  | .movs h d s => some (encR 0x36 h d.toNat s.toNat 0 0)
  | .movsw h s a => some (encR 0x37 h s.toNat a.toNat 0 0)
  | .fadd h d a b t => some (encFT 0x38 h d.toNat a.toNat b.toNat 0 t)
  | .fsub h d a b t => some (encFT 0x39 h d.toNat a.toNat b.toNat 0 t)
  | .fmul h d a b t => some (encFT 0x3A h d.toNat a.toNat b.toNat 0 t)
  | .ffma h d a b ng t => some (encFT 0x3B h d.toNat a.toNat b.toNat ng t)
  | .fmin h d a b n t => some (encFT 0x3C h d.toNat a.toNat b.toNat n t)
  | .fmax h d a b n t => some (encFT 0x3D h d.toNat a.toNat b.toNat n t)
  | .fcmp h pd a b c t =>
    some (encR 0x3E h (c.toNat / 2 * 8 + pd.toNat) a.toNat b.toNat (c.toNat % 2 * 4 + t.toNat))
  | .fabs h d a t => some (encFT 0x3F h d.toNat a.toNat 0 0 t)
  | .fneg h d a t => some (encFT 0x40 h d.toNat a.toNat 0 0 t)
  | .fcps h d a b t => some (encFT 0x41 h d.toNat a.toNat b.toNat 0 t)
  | .fdiv h d a b t => some (encFT 0x42 h d.toNat a.toNat b.toNat 0 t)
  | .fsqrt h d a t => some (encFT 0x43 h d.toNat a.toNat 0 0 t)
  | .frcp h d a t => some (encFT 0x44 h d.toNat a.toNat 0 0 t)
  | .frsq h d a t => some (encFT 0x45 h d.toNat a.toNat 0 0 t)
  | .fexp2 h d a t => some (encFT 0x46 h d.toNat a.toNat 0 0 t)
  | .flog2 h d a t => some (encFT 0x47 h d.toNat a.toNat 0 0 t)
  | .ftanh h d a t => some (encFT 0x48 h d.toNat a.toNat 0 0 t)
  | .fsinpi h d a t => some (encFT 0x49 h d.toNat a.toNat 0 0 t)
  | .fcospi h d a t => some (encFT 0x4A h d.toNat a.toNat 0 0 t)
  | .frnd h d a x t => some (encFT 0x4B h d.toNat a.toNat 0 x t)
  | .fcls h d a t => some (encFT 0x4C h d.toNat a.toNat 0 0 t)
  | .fred h d a op t => some (encFT 0x4D h d.toNat a.toNat op.toNat 0 t)
  | .cvts h d a c => some (encR 0x4E h d.toNat a.toNat c.toNat 0)
  | .cvtdSat h d a b s => some (encR 0x4F h d.toNat a.toNat b.toNat s.toNat)
  | .cvtdInf h d a b s => some (encR 0x50 h d.toNat a.toNat b.toNat s.toNat)
  | .cvtdNan h d a b s => some (encR 0x51 h d.toNat a.toNat b.toNat s.toNat)
  | .cvtdTrap h d a b s => some (encR 0x52 h d.toNat a.toNat b.toNat s.toNat)
  | .cvtu h d a b s => some (encR 0x53 h d.toNat a.toNat b.toNat s.toNat)
  | .absmx h d a s => some (encR 0x54 h d.toNat a.toNat 0 s.toNat)
  | .ld h d a la size sx sym =>
    some (encL 0x60 h d.toNat a.toNat la (size.toNat * 4 + sx.toNat * 2 + sym.toNat))
  | .st h d a la size q => some (encL 0x61 h d.toNat a.toNat la (size.toNat * 4 + q.toNat * 2))
  | .pref h a size => some (encL 0x62 h 0 a.toNat 0 (size.toNat * 4))
  | .pres h d a la => some (encL 0x63 h d.toNat a.toNat la 0)
  | .aadd h d a la w o s => some (encA 0x64 h d a la w o s)
  | .aand h d a la w o s => some (encA 0x65 h d a la w o s)
  | .aor h d a la w o s => some (encA 0x66 h d a la w o s)
  | .axor h d a la w o s => some (encA 0x67 h d a la w o s)
  | .amin h d a la w o s => some (encA 0x68 h d a la w o s)
  | .amax h d a la w o s => some (encA 0x69 h d a la w o s)
  | .aminn h d a la w o s => some (encA 0x6A h d a la w o s)
  | .amaxn h d a la w o s => some (encA 0x6B h d a la w o s)
  | .axch h d a la w o s => some (encA 0x6C h d a la w o s)
  | .acas h d a la w o s => some (encA 0x6D h d a la w o s)
  | .afadd h d a la o s => some (encA 0x6E h d a la 0 o s)
  | .afmin h d a la o s => some (encA 0x6F h d a la 0 o s)
  | .afmax h d a la o s => some (encA 0x70 h d a la 0 o s)
  | .fence h s k => some (encR 0x71 h 0 s.toNat 0 k.toNat)
  | .bar h n l => some (encR 0x72 h 0 n.toNat 0 l.toNat)
  | .barArv h n l => some (encR 0x72 h 0 n.toNat 0 (4 + l.toNat))
  | .nbar h pd n b => some (encR 0x73 h pd.toNat n.toNat b.toNat 0)
  | .nbarArv h n b => some (encR 0x73 h 7 n.toNat b.toNat 4)
  | .fprop h d a => some (encR 0x74 h d.toNat a.toNat 0 0)
  | .fread h d a => some (encR 0x75 h d.toNat a.toNat 0 0)
  | .fwait h d a => some (encR 0x76 h d.toNat a.toNat 0 0)
  | .frcy h d a => some (encR 0x77 h d.toNat a.toNat 0 0)
  | .xcnt h a b => some (encR 0x78 h 0 a.toNat b.toNat 0)
  | .xrd h d a => some (encR 0x79 h d.toNat a.toNat 0 0)
  | .xsnap h d a => some (encR 0x7A h d.toNat a.toNat 0 0)
  | .push h pd a q => some (encR 0x80 h pd.toNat a.toNat 0 q.toNat)
  | .kick h pd a b => some (encR 0x81 h pd.toNat a.toNat b.toNat 0)
  | .lcset h pd a b => some (encR 0x82 h pd.toNat a.toNat b.toNat 0)
  | .lcsetZ h pd a b => some (encR 0x82 h pd.toNat a.toNat b.toNat 1)
  | .lcsetFree h pd a => some (encR 0x82 h pd.toNat a.toNat 0 2)
  | .lcwait h a c => some (encR 0x83 h 0 a.toNat 0 c.toNat)
  | .lcrd h d a s => some (encR 0x84 h d.toNat a.toNat 0 s.toNat)
  | .strm h q a => some (encR 0x85 h (28 + q.toNat) a.toNat 0 0)
  | .strms h q a dm => some (encR 0x86 h (28 + q.toNat) a.toNat dm.toNat 0)
  | .strmsRd h d q dm => some (encR 0x86 h d.toNat (28 + q.toNat) dm.toNat 1)
  | .layh h a => some (encR 0x87 h 0 a.toNat 0 0)
  | .layhAll h => some (encR 0x87 h 0 0 0 1)
  | .resv h pd c m => some (encR 0x90 h pd.toNat c.toNat m.toNat 0)
  | .resvW h pd c m => some (encR 0x90 h pd.toNat c.toNat m.toNat 4)
  | .rls h => some (encR 0x91 h 0 0 0 0)
  | .guard h q s => some (encR 0x92 h 0 0 (q.toNat * 2) s.toNat)
  | .guardReg h a q => some (encR 0x92 h 0 a.toNat (q.toNat * 2 + 1) 0)
  | .pack h k a b s => some (encR 0x93 h k.toNat a.toNat b.toNat s.toNat)
  | .unpk h d k b s => some (encR 0x94 h d.toNat k.toNat b.toNat s.toNat)
  | .kld h k a => some (encR 0x95 h k.toNat a.toNat 0 0)
  | .kldB h k a => some (encR 0x95 h k.toNat a.toNat 0 1)
  | .kst h k a => some (encR 0x96 h k.toNat a.toNat 0 0)
  | .kstB h k a => some (encR 0x96 h k.toNat a.toNat 0 1)
  | .kadd h d a b s => some (encR 0x97 h d.toNat a.toNat b.toNat s.toNat)
  | .ksls h d a b p => some (encR 0x98 h d.toNat a.toNat b.toNat p.toNat)
  | .kext h d k b p => some (encR 0x99 h d.toNat k.toNat b.toNat p.toNat)
  | .bptr h a b => some (encR 0x9A h 0 a.toNat b.toNat 0)
  | .bptrRd h d => some (encR 0x9A h d.toNat 0 0 1)
  | .mulkS h z a => some (encR 0x9B h z.toNat a.toNat 0 0)
  | .mulkC h d a b => some (encR 0x9C h d.toNat a.toNat b.toNat 0)
  | .accrd h k z b => some (encR 0x9D h k.toNat z.toNat b.toNat 0)
  | .accrdOv h d z => some (encR 0x9D h d.toNat z.toNat 0 1)
  | .accz h z => some (encR 0x9E h z.toNat 0 0 0)
  | .acccv h d z b s => some (encR 0x9F h d.toNat z.toNat b.toNat s.toNat)
  | .tagGet h d a => some (encR 0xA0 h d.toNat a.toNat 0 0)
  | .tagSet h d a b => some (encR 0xA0 h d.toNat a.toNat b.toNat 1)
  | .tagVal h d a => some (encR 0xA0 h d.toNat a.toNat 0 2)
  | .mkt h d a t => some (encR 0xA1 h d.toNat a.toNat t.toNat 0)
  | .deref h d a => some (encR 0xA2 h d.toNat a.toNat 0 0)
  | .unify h d a b oc => some (encR 0xA3 h d.toNat a.toNat b.toNat oc.toNat)
  | .unifyc h d => some (encR 0xA4 h d.toNat 0 0 0)
  | .bind h d a b => some (encR 0xA5 h d.toNat a.toNat b.toNat 0)
  | .choice h a => some (encR 0xA6 h 0 a.toNat 0 0)
  | .retry h a => some (encR 0xA7 h 0 a.toNat 0 0)
  | .retryTrust h => some (encR 0xA7 h 0 0 0 1)
  | .failb h pd => some (encR 0xA8 h pd.toNat 0 0 0)
  | .cut h a => some (encR 0xA9 h 0 a.toNat 0 0)
  | .tmark h d => some (encR 0xAA h d.toNat 0 0 0)
  | .unwind h a => some (encR 0xAB h 0 a.toNat 0 0)
  | .halloc h d b z c => some (encR 0xAC h d.toNat 0 b.toNat (z.toNat * 2 + c.toNat))
  | .arg h d a b ad => some (encR 0xAD h d.toNat a.toNat b.toNat ad.toNat)
  | .func h d a => some (encR 0xAE h d.toNat a.toNat 0 0)
  | .commit h a => some (encR 0xAF h 0 a.toNat 0 0)
  | .symq h d => some (encR 0xB0 h d.toNat 0 0 0)
  | .symqR h d a => some (encR 0xB0 h d.toNat a.toNat 0 1)
  | .symw h a => some (encR 0xB1 h 0 a.toNat 0 0)
  | .symset h a b => some (encR 0xB2 h 0 a.toNat b.toNat 0)
  | .csrr h d n => some (encHdr 0xC0 h + d.toNat * 2 ^ 13 + n.toNat / 4 * 8 + n.toNat % 4)
  | .csrw h d n => some (encHdr 0xC1 h + d.toNat * 2 ^ 13 + n.toNat / 4 * 8 + n.toNat % 4)
  | .eret h => some (encR 0xC2 h 0 0 0 0)
  | .tlbiVa h a => some (encR 0xC3 h 0 a.toNat 0 0)
  | .tlbiJob h => some (encR 0xC3 h 0 0 0 1)
  | .tlbiAll h => some (encR 0xC3 h 0 0 0 2)
  | .ctxs h a => some (encR 0xC4 h 0 a.toNat 0 0)
  | .ctxl h a => some (encR 0xC5 h 0 a.toNat 0 0)
  | .cflushWb h a => some (encR 0xC6 h 0 a.toNat 0 0)
  | .cflushInv h a => some (encR 0xC6 h 0 a.toNat 0 1)
  | .cflushAll h => some (encR 0xC6 h 0 0 0 2)
  | .cancel h l => some (encR 0xC7 h 0 0 0 l.toNat)
  | .cndw h a b => some (encR 0xC8 h 0 a.toNat b.toNat 0)
  | .region m => some (0xE0 * 2 ^ 24 + m.toNat)
  | .ximm n => some (0xE8 * 2 ^ 24 + n.toNat)
  | .track f => some (0xE9 * 2 ^ 24 + f.toNat)
  | .wait m => some (0xEA * 2 ^ 24 + m.toNat)
  | .mod r o s c =>
    some (0xEB * 2 ^ 24 + c.toNat * 2 ^ 8 + s.toNat * 2 ^ 5 + o.toNat * 2 ^ 3 + r.toNat)
  | .pool n => some (0xF0 * 2 ^ 24 + n.toNat)
  | .unassignedOpcode w => some w.toNat
  | .reservedHintOpcode w => some w.toNat
  | .longLatencyComplete .. | .resultWriteComplete .. | .symbolArrival ..
  | .memoryRequestArrive .. | .pageFaultReplay .. | .wsRefreshWindowEnd | .compatRoute
  | .compatWrite .. | .vlogSelect .. | .waitClockSwap | .reservationDeadlock
  | .preEmpt .. | .drainDone | .saveDone | .restoreStart | .restoreDone
  | .clusterAdmit .. | .unitComplete | .serialPhase | .poolmapLoad | .kickEntryTake
  | .copy .. | .gather .. | .scatter .. | .mcast .. | .expand .. | .regroup .. | .allreduce ..
  | .reduce .. | .bcast .. | .allgather .. | .redscat .. | .copyBytesLand .. | .commandEnd ..
  | .deadlinePass .. | .flintProposal .. | .flintRecycle .. | .taskStart .. | .graphStart ..
  | .graphRetry .. | .graphAbandon .. | .graphCancel .. | .graphLaunch .. | .trapTake
  | .lqtailWrite .. | .ringHeadWrite .. | .hostCancelUnit .. | .hostCancelLaunch ..
  | .hostCancelGraph .. | .hostCancelPhase .. | .hostCancelJob .. | .dispResume ..
  | .dispKill .. | .dispFail .. | .dispReject .. | .hostAccess .. | .powerOn ..
  | .measureExtend .. | .attestNonce .. | .attestReportDone | .fibreFail | .flitCrcRetry
  | .tokenRefill | .governorClockSet .. | .moduleOvertemp | .pcieDeviceAccess .. => none

/-- The encoder: the word of a well-formed instruction, none for an event. -/
def encode (i : Instr) : Option IWord := (encodeNat i).map (BitVec.ofNat 32)

end Sys2Proof
end

