-- ==== Sys2Proof/Machine/State.lean ====
section
/-! DEFINITION. The state of an Akavo 9 package: everything the specification gives the machine,
as plain data (INVENTORY.md, State). -/

namespace Sys2Proof.Machine

/-! ## Registers and forms -/

/-- The opcode of a recorded float step (R294). -/
inductive FOp where
  | add | mul | fma
  deriving DecidableEq, Repr

/-- One recorded float step: the opcode, F, the rounding and the known operands (R294). -/
structure FStep where
  op : FOp
  /-- FFMA.NEG. -/
  ng : Bool
  /-- F[1:0], the float format. -/
  t : Nat
  /-- The rounding code in force. -/
  rnd : Nat
  /-- The source position that held the form: 0 for A, 1 for B, 2 for D. -/
  hole : Nat
  /-- The known operands in the order A, B, D, with the form's position left out. -/
  known : List Word
  deriving DecidableEq, Repr

/-- What a register holds: a value, an integer form a·u + b, or a float form over a symbol
(R293, R294). -/
inductive RegVal where
  | known (w : Word)
  | iform (sym : Nat) (a b : Word)
  | fform (sym : Nat) (steps : List FStep)
  deriving DecidableEq, Repr

/-- Why a thread issues nothing although its crew could (R103): the counted waits of R51, barriers
and the blocks of the late values. -/
inductive Park where
  | none
  /-- Waits for a barrier generation, by barrier level, number and owner (R42). -/
  | bar (lvl n own : Nat)
  /-- Waits in a named barrier (R45); the predicate takes the status. -/
  | nbar (n pd : Nat)
  /-- Waits in LCWAIT (R276) for the named landing counters. -/
  | lcwait (mask : List Nat)
  /-- Waits in RESV.W for columns and planes (R217); the predicate takes 1. -/
  | resv (c m pd : Nat)
  /-- Waits for the replies of an FWAIT of its group (R312), by operation. -/
  | reply (op : Nat)
  /-- Blocks until the symbols of the mask have arrived in the thread's lane (R295, R301). -/
  | syms (mask : Nat)
  /-- A page fault of fetch, port or store path: waits for fault-queue entries (R157). -/
  | page (entries : List Nat)
  /-- Waits until earlier reads and writes of the lanes are done (R194, R197). -/
  | quiet (lanes : Mask) (reads writes : Bool)
  /-- Waits until operations in flight have written the blocks that a slide of the lanes spills (R58). -/
  | spill (lanes : Mask)
  /-- A port read or a MULK.S waits until the bytes are present and served (R163, R164, R166). -/
  | lines (phys n : Nat)
  /-- Waits until earlier Granite instructions have taken effect: RLS for those of the unit, MULK.S for the crew's
  stores of B-slices (R217, R224). -/
  | granite (unit : Bool)
  /-- Waits until the crew's earlier operations are translated, so that their entries stand first in the serial
  buffer (R332). -/
  | appends
  /-- A term instruction waits for the stores in whose scope it stands and that a sequential order has passed
  (R188, R193). -/
  | veil
  deriving DecidableEq, Repr

/-- One thread (R30). The register stack is keyed by stack entry (R56). -/
structure Thread where
  live : Bool
  pc : Word
  mr : Word
  /-- Frame base F. -/
  frame : Nat
  /-- Resident base B. -/
  base : Nat
  rf : Map RegVal
  /-- Predicates p0–p7; bit 7 always 1 (R62). -/
  preds : BitVec 8
  fpstat : Word
  heap : Word
  trail : Word
  choice : Word
  pdl : Word
  park : Park
  /-- Held at its meeting address (R37). -/
  held : Bool
  /-- Stamp of the last issue (R103). -/
  stamp : Nat
  deriving DecidableEq, Repr

/-- A thread that has issued nothing. -/
def Thread.init : Thread :=
  { live := true, pc := 0, mr := 0, frame := 0, base := 0, rf := [], preds := 0x80, fpstat := 0,
    heap := 0, trail := 0, choice := 0, pdl := 0, park := .none, held := false, stamp := 0 }

/-- A stream port (R63); handle 0 is unbound. -/
structure Port where
  handle : Word
  base : Word
  size : Nat
  pad : Word
  stride : List (BitVec 32)
  ext : List Nat
  pos : List Nat
  /-- True after a write (R63). -/
  wr : Bool
  deriving DecidableEq, Repr

/-- An unbound port. -/
def Port.unbound : Port :=
  { handle := 0, base := 0, size := 1, pad := 0, stride := [0, 0, 0, 0, 0],
    ext := [1, 1, 1, 1, 1], pos := [0, 0, 0, 0, 0], wr := false }

/-! ## Work in flight -/

/-- What a pending fixed-latency result writes (R71). -/
inductive PTgt where
  /-- A register-stack entry of the lane. -/
  | reg (slot : Nat) (v : RegVal)
  | pred (p : Nat) (b : Bool)
  /-- A special register by its code (R65). -/
  | spec (code : Nat) (v : Word)
  /-- Sticky flags to OR into %fpstat (R124). -/
  | flags (v : Word)
  deriving DecidableEq, Repr

/-- A pending result: lane, target, place in program order and the cycle at which it is due. -/
structure PendW where
  lane : Nat
  tgt : PTgt
  seq : Nat
  due : Nat
  /-- The cycle of the issue that made it. -/
  born : Nat
  deriving DecidableEq, Repr

/-- What one access does at its target. -/
inductive AccOp where
  | read
  | write (data : List Byte)
  /-- An atomic: opcode, 8-byte form, operand and replacement of ACAS (R179). -/
  | atom (op : Nat) (w64 : Bool) (v x : Word)
  /-- Presence query (R177). -/
  | pres
  /-- A flint request for generation `gen` (R310–R313). -/
  | fprop (v : Word) (gen : BitVec 16)
  | fread (gen : BitVec 16)
  | fwait (gen : BitVec 16)
  | frcy (gen : BitVec 16)
  /-- Expert counter requests (R287), by package counter. -/
  | xrd (x : Nat)
  | xsnap (x : Nat)
  deriving DecidableEq, Repr

/-- One access of one lane before translation. -/
structure Acc where
  lane : Nat
  va : Word
  n : Nat
  op : AccOp
  deriving DecidableEq, Repr

/-- How far a request has come. -/
inductive ReqSt where
  | waiting
  /-- Registered as a flint waiter (R312). -/
  | waiter
  | done
  | bad
  deriving DecidableEq, Repr

/-- One request at its target, a sector part of an access (R167). -/
structure Req where
  id : Nat
  lane : Nat
  va : Word
  /-- Target byte in the model's physical numbering. -/
  phys : Nat
  /-- Target type (R154). -/
  ty : Nat
  n : Nat
  op : AccOp
  st : ReqSt
  /-- The answer: bytes read, old value or status word, little-endian. -/
  val : List Byte
  /-- The access reads a shared line of an ordered launch (R331). -/
  snap : Bool
  /-- It goes to the serial buffer at once in an ordered launch (R332). -/
  defer : Bool
  /-- A store that a sequential access or FENCE of its lane has passed: the scope in which every access of the
  same bytes waits for it (R188, R193); 0 for none. -/
  vis : Nat := 0
  /-- Bytes of atomics of its lane that memory has taken ahead of this store, each with the scope in which every access
  of them waits for the store: scope, first byte, length (R187, R188). -/
  ahead : List (Nat × Nat × Nat) := []
  /-- The widest scope of a FENCE with release of its lane that has passed the store; 0 for none (R194). -/
  fenced : Nat := 0
  deriving DecidableEq, Repr

/-! ## Term instructions in progress (R249, R264) -/

/-- The generation that was read with a flint cell; none outside flint space (R240). -/
abbrev Gen := Option (BitVec 16)

/-- What a binding came to (R244). -/
inductive BindOut where
  | done
  /-- A proposal was decided: whether it won, and the value in the cell. -/
  | cell (won : Bool) (v : Word)
  /-- The proposal was stale. -/
  | stale
  /-- The variable was bound meanwhile. -/
  | found
  deriving DecidableEq, Repr

/-- One step of a lane of a term instruction: a use of a special register, or one access (R249). -/
inductive TAcc where
  /-- Read a special register that must be aligned. -/
  | get (code align : Nat)
  | set (code : Nat) (v : Word)
  /-- Take bytes at a heap top (R253). -/
  | take (code n : Nat)
  | load (va : Word)
  | store (va v : Word)
  /-- An entry of the occurs check, in two words (R255). -/
  | scrap (va : Word)
  /-- Compare-and-swap from UNB. -/
  | swap (va v : Word)
  /-- Atomic OR of a lane's bit into a MASK, and AND of its complement. -/
  | mark (va : Word) (lane : Nat)
  | unmark (va : Word) (lane : Nat)
  /-- The word of a variable or value (R237, R240). -/
  | var (va : Word)
  /-- A proposal to a flint cell, and the generation of a cell. -/
  | propose (va v : Word) (g : BitVec 16)
  | gen (va : Word)
  /-- COMMIT: the word of a variable when the instruction began, and the write of a committed one (R263). -/
  | was (va : Word)
  | commit (va old v : Word)
  deriving DecidableEq, Repr

/-- What a step gives the lane. -/
inductive TVal where
  | word (w : Word) (g : Gen)
  | bound (b : BindOut)
  | fail (cls : Nat) (addr : Word)
  deriving DecidableEq, Repr

/-- The steps of a lane, the last one first. -/
abbrev TLog := List (TAcc × TVal)

/-- The long-latency operations (R72) and port stores. -/
inductive OpKind where
  /-- Destination stack entries per lane are in `dsts`; sign extension and size (R173). -/
  | ld (sx : Bool) (n : Nat)
  /-- A symbolic load: symbol, sign extension and size (R291). -/
  | ldsym (sym : Nat) (sx : Bool) (n : Nat)
  | st
  /-- Atomic: sign-extended result, 8-byte form (R179). -/
  | atom (sx w64 : Bool)
  | pres
  /-- FPROP, FREAD, FWAIT: value and status pair (R309). -/
  | flint
  | frcy
  | xcounter
  /-- KLD: destination cord, and the place width in force at issue (R206, R224). -/
  | kld (k width : Nat)
  | kst
  /-- MULK.C: destination cord, and the product pair or the overflowing place (R227). -/
  | mulkc (k : Nat) (lo hi : BitVec 1024) (ovf : Option Nat)
  /-- A term instruction: its operands by lane are in `args`, what its lanes have done in `logs`, its results
  in `res` (R249). -/
  | term (i : Instr)
  /-- A port store (R64, R88). -/
  | pstore
  deriving DecidableEq, Repr

/-- A long-latency operation in flight. -/
structure Op where
  id : Nat
  seq : Nat
  kind : OpKind
  pc : Word
  /-- First hint of the group (R75). -/
  start : Word
  /-- The word after the instruction. -/
  next : Word
  active : Mask
  priv : Bool
  /-- Lookahead left; `none` for detached (R73). -/
  la : Option Nat
  /-- Flag of the TRACK hint (R79). -/
  flag : Option Nat
  /-- Ordered atomic (R183). -/
  ord : Bool
  /-- Ordering code of R15 in force: 0 relaxed, 1 acquire, 2 release, 3 sequential. -/
  sem : Nat
  /-- Its scope by the codes of R185: that of MOD, of the atomic, or package (R189). -/
  scope : Nat := 5
  /-- Accesses not yet translated. -/
  accs : List Acc
  reqs : List Req
  /-- Fault-queue entries that it waits on (R157). -/
  pages : List Nat
  /-- Destination stack entries, as (lane, part of the result, entry). -/
  dsts : List (Nat × Nat × Nat)
  /-- Destination cords that no later write has completed over (R71, R215). -/
  kdst : List Nat := []
  /-- Results known at issue, as (lane, value). -/
  res : Map Word
  /-- Operands read at issue, by lane: A, B and the old destination. -/
  args : Map (Word × Word × Word)
  /-- The steps of a term instruction's lanes, the lanes whose work has not ended, and those that met a fault,
  with its class and address (R249). -/
  logs : Map TLog := []
  left : Mask := 0
  flt : List (Nat × Nat × Word) := []
  /-- Lanes completed with their results written. -/
  fin : Mask
  /-- Lanes with a recorded fault. -/
  bad : Mask
  /-- Class of the recorded fault (R336). -/
  cls : Nat
  addr : Word
  /-- The operation is complete: its results are written or its fault is recorded. -/
  done : Bool
  /-- An instruction of the crew issued after it (R340). -/
  after : Bool
  /-- Its fault became known while its unit drained (R54). -/
  drained : Bool := false
  deriving DecidableEq, Repr

/-- Hints read before an instruction (R75). -/
structure Hints where
  /-- Address of the first hint; `none` when no hint is pending. -/
  start : Option Word
  /-- Address of the next word of the group. -/
  cursor : Word
  ximm : Option (BitVec 24)
  track : Option Nat
  wait : Option (BitVec 12)
  /-- Rounding, ordering, scope and cache fields of MOD. -/
  mod : Option (Nat × Nat × Nat × Nat)
  deriving DecidableEq, Repr

/-- No hint pending. -/
def Hints.none : Hints :=
  { start := Option.none, cursor := 0, ximm := Option.none, track := Option.none,
    wait := Option.none, mod := Option.none }

/-- The state of one symbol in one lane (R292). -/
structure SymLane where
  lane : Nat
  /-- FAULTED; otherwise PENDING. -/
  faulted : Bool
  /-- Chains recorded over the symbol in the lane, one for each step instruction (R294). -/
  recs : List (List FStep)
  deriving DecidableEq, Repr

/-- A symbol that is not free (R291). -/
structure Sym where
  lanes : List SymLane
  /-- Lanes in which it has arrived. -/
  arrived : Mask
  /-- PC of the LD, and its fault's class and address by lane. -/
  pc : Word
  active : Mask
  cls : Nat
  faddr : Map Word
  /-- The cycle at which its fault became known; `none` when nothing is to report. -/
  due : Option Nat
  deriving DecidableEq, Repr

/-- A trap: the fields of its fault record (R338). -/
structure TrapInfo where
  cls : Nat
  pc : Word
  addr : Word
  clanes : Mask
  flanes : Mask
  sec : Nat
  resume : Word
  cmd : Word
  sym : Option Nat
  bytes : Word
  active : Mask
  /-- The resume rule of R338: 0 for the faulting word, 1 for the next word, 2 for a trap point
  reached after other instructions. -/
  rule : Nat
  /-- The word after the faulting instruction. -/
  next : Word
  deriving DecidableEq, Repr

/-- One crew. -/
structure Crew where
  uid : Nat
  idx : Nat
  slot : Nat
  core : Nat
  /-- The program's threads by lane. -/
  th : Map Thread
  /-- The resident routine's threads by lane (R337). -/
  rt : Map Thread
  /-- The crew is TRAPPED and its slot runs the resident routine, in privileged mode. -/
  priv : Bool
  region : BitVec 24
  flags : Map Nat
  ports : Map Port
  cheap : Word
  cords : Map (BitVec 1024)
  quiet : Bool
  guard : Nat
  width : Nat
  bptr : Nat
  bstep : Nat
  syms : Map Sym
  pend : List PendW
  ops : List Op
  hint : Hints
  /-- First cycle at which the crew may issue again. -/
  ready : Nat
  /-- Stamp of the last issue (R321); 0 before the first. -/
  stamp : Nat
  /-- A trap that is due but not yet taken: its ring is full, or it waits for the next issue. -/
  due : Option TrapInfo
  /-- The trap reported to the host (R337). -/
  trap : Option TrapInfo
  /-- A disposition has been taken for it (R353). -/
  answered : Bool
  /-- The kind of a disposition that takes effect after restore (R337). -/
  disp : Option Nat
  /-- Fault-queue entries whose rejection the instruction at hand meets (R339). -/
  rej : List Nat
  deriving DecidableEq, Repr

/-! ## Units, barriers and launches -/

/-- Residency of a unit (R53). -/
inductive Residency where
  | resident | draining | saving | swapped | restoring | gone
  deriving DecidableEq, Repr

/-- A hardware barrier: threads that arrived in this generation, those held for the next with
whether they wait there, and those that wait (R41). Threads are named by launch index. -/
structure Bar where
  arrived : List Nat
  waiting : List Nat
  next : List (Nat × Bool)
  deriving DecidableEq, Repr

/-- A barrier nobody has arrived at. -/
def Bar.idle : Bar := { arrived := [], waiting := [], next := [] }

/-- A named barrier (R44): the open use's count, its arrivals, its waiters with their status
predicates, and arrivals held for the next use as (thread, waits, predicate, count). -/
structure NBar where
  count : Nat
  arrived : List Nat
  waiting : List (Nat × Nat)
  next : List (Nat × Bool × Nat × Nat)
  deriving DecidableEq, Repr

/-- One entry of a serial buffer (R332). -/
inductive SerEntry where
  /-- Bytes stored at a physical address, with the virtual address for the log. -/
  | store (phys : Nat) (va : Word) (data : List Byte) (slot lane : Nat)
  | atom (phys : Nat) (va : Word) (op : Nat) (w64 : Bool) (v x : Word) (slot lane : Nat)
  | prop (phys : Nat) (va : Word) (v : Word) (gen : BitVec 16) (winner : Word) (slot lane : Nat)
  | count (x : Nat) (inc : Nat) (slot : Nat)
  /-- A copy command deferred whole (R290), by core and sequence. -/
  | cmd (core seq : Nat)
  /-- The place of the proposal that a copy command has still to make, by core and sequence: its cell and generation
  (R282, R315, R335). -/
  | cprop (core seq : Nat) (va : Word) (gen : BitVec 16)
  deriving DecidableEq, Repr

/-- A landing counter (R274). -/
structure LCtr where
  owner : Nat
  err : Bool
  expect : Nat
  landed : Nat
  cst : Nat
  dropped : Nat
  skipped : Nat
  /-- Error record: command id, failing address and bytes landed. -/
  ecmd : Word
  eaddr : Word
  ebytes : Word
  deriving DecidableEq, Repr

/-- One admitted unit. -/
structure UnitSt where
  lid : Nat
  cluster : Nat
  /-- Index in its cluster. -/
  u : Nat
  core : Nat
  crews : Nat
  /-- Crew slots by crew index. -/
  slots : List Nat
  /-- Scratchpad share: base in the core's scratchpad and bytes. -/
  shareBase : Nat
  shareSize : Nat
  res : Residency
  /-- Wait clock, and the first cycle after the last issue of a crew of the unit (R51). -/
  clock : Nat
  issued : Nat := 0
  /-- Completion counter (R48). -/
  ctr : Nat
  /-- Crew barriers at crew·16 + n, unit barriers at 512 + n. -/
  bars : Map Bar
  nbars : Map NBar
  /-- Physical columns held, ascending (R207). -/
  cols : List Nat
  planes : BitVec 4
  /-- Z[i, j] of plane z at (z·32 + i)·8 + j. -/
  zs : Map (BitVec 1024)
  /-- Overflow mask bits, by the same numbers. -/
  ovf : List Nat
  /-- Pending counts of ABSENT scratchpad lines (R162). -/
  lines : Map Nat
  /-- Pending counts of ABSENT B-slice blocks, at column·64 + block. -/
  blocks : Map Nat
  serial : List SerEntry
  /-- Bytes held by the serial buffer. -/
  serialBytes : Nat
  /-- Landing counters in the swap image, by number (R274). -/
  lcs : Map LCtr
  /-- Threads ended and work drained; resources released (R333). -/
  ended : Bool
  /-- Unit completed or cancelled, and counted at its launch. -/
  isOver : Bool
  cancelled : Bool
  deriving DecidableEq, Repr

/-- A launch (R317). -/
structure Launch where
  /-- The 32 words of the record's copy in the launch queue. -/
  words : List Word
  job : Nat
  /-- Enqueue sequence (R319). -/
  seq : Nat
  /-- Graph task that started it: stack, header, task. -/
  task : Option (Nat × Word × Nat)
  /-- Clusters admitted so far, in the order of their admission. -/
  admitted : List Nat
  /-- Units by cluster·U + u, as uid. -/
  units : Map Nat
  /-- Launch barriers at n, cluster barriers at 4 + cluster·8 + n. -/
  bars : Map Bar
  /-- The pool bitmap, loaded before any unit is admitted (R82). -/
  pool : List Byte
  poolReady : Bool
  /-- Fault-queue entries its pool bitmap load waits on. -/
  pages : List Nat
  /-- A unit ended CANCELLED (R48). -/
  anyCancelled : Bool
  /-- The launch itself is cancelled or failed: nothing more of it is admitted (R49). -/
  ending : Bool
  /-- Failed (R339) or an entry of a serial phase was skipped (R333). -/
  failed : Bool
  isOver : Bool
  /-- The fault record that failed it, for TCB word 6 (R327). -/
  frec : Option (List Word)
  /-- Memory as it stood at launch start, for an ordered launch (R331). -/
  snap : List Host.Cell
  /-- Expert counters at launch start (R287). -/
  snapX : Map Nat
  deriving DecidableEq, Repr

/-! ## Engines -/

/-- Where a byte of a command goes: a virtual address, or an offset in a unit's share (R279). -/
inductive DstAt where
  | va (a : Word)
  | share (uid off : Nat)
  deriving DecidableEq, Repr

/-- A line or block that a command has made ABSENT, with the virtual addresses of its range that
name it (R162, R164, R272). -/
structure Pres where
  uid : Nat
  /-- A B-slice block rather than a scratchpad line. -/
  blk : Bool
  idx : Nat
  vas : List Word
  deriving DecidableEq, Repr

/-- A run of bytes that a command is still to read, or that it knows, and where they go, each with
the row that they belong to; a part without a row is not counted. -/
structure Piece where
  /-- Source address; none when the bytes are known. -/
  src : Option Word
  n : Nat
  data : List Byte
  dsts : List (DstAt × Option Nat)
  deriving DecidableEq, Repr

/-- A byte still to land. -/
structure LandB where
  at_ : DstAt
  byte : Byte
  row : Option Nat
  deriving DecidableEq, Repr

/-- A command taken by an engine (R271, R272). -/
structure Cmd where
  /-- The eight words. -/
  words : List Word
  /-- Queue: 0 COPY, 1 COLL, 2 GRAPH; a COLL, GRAPH or HOST kind in a kicked list is in the COPY
  queue. -/
  queue : Nat
  core : Nat
  seq : Nat
  uid : Nat
  lid : Nat
  slot : Nat
  lane : Nat
  /-- Crew of the pusher, and the place of its PUSH or KICK in program order. -/
  crew : Nat
  pseq : Nat
  /-- Cycle of acceptance. -/
  taken : Nat
  /-- A release (R197). -/
  rel : Bool
  pres : List Pres
  /-- Receiving units (R275); empty while a page fault hides them. -/
  recv : List Nat
  /-- Row bytes or element bytes, fixed when the command starts (R275). -/
  total : Nat
  /-- The command has started: its indices are read. -/
  started : Bool
  todo : List Piece
  land : List LandB
  /-- Bytes landed. -/
  landed : Nat
  /-- LANDED already given, by receiving unit. -/
  counted : Map Nat
  skipped : Nat
  dropped : Nat
  /-- An error, with its address. -/
  err : Option Word
  /-- The error is already in a violation log, or none is due. -/
  logged : Bool
  /-- The deadline has passed before the last byte landed (R282). -/
  late : Bool
  /-- Its proposal has been made. -/
  proposed : Bool
  /-- Deferred to the serial phase (R290). -/
  deferred : Bool
  /-- It has read a source byte, so CANCEL lets it go on (R49). -/
  hasRead : Bool
  /-- Fault-queue entries that it waits on. -/
  pages : List Nat
  /-- Joined its collective group (R288). -/
  joined : Bool
  /-- Outcome of the collective: CST of R274. -/
  cst : Nat
  /-- Expert counters to add at the end (R281), as (counter, increment). -/
  adds : List (Nat × Nat)
  /-- Parts of its vectors, masks and collective source that it has read, by address (R166). -/
  seen : Map (List Byte) := []
  deriving DecidableEq, Repr

/-- A collective group with the launches that it has learnt (R288). -/
structure Coll where
  job : Nat
  group : Word
  lids : List Nat
  deriving DecidableEq, Repr

/-- A kicked list (R270). -/
structure KList where
  core : Nat
  uid : Nat
  lid : Nat
  slot : Nat
  lane : Nat
  addr : Word
  left : Nat
  bump : Option Nat
  /-- The ordering of the KICK (R189). -/
  sem : Nat
  crew : Nat
  kseq : Nat
  pages : List Nat
  deriving DecidableEq, Repr

/-! ## Faults, jobs and the rest -/

/-- A fault-queue entry outstanding (R158). -/
structure FaultEnt where
  job : Nat
  words : List Word
  /-- Its place in the ring; `none` while the ring is full. -/
  ring : Option Nat
  served : Bool
  rejected : Bool
  deriving DecidableEq, Repr

/-- A waiter of a flint cell (R312): crew, cell and generation. -/
structure Waiter where
  crew : Nat
  phys : Nat
  gen : BitVec 16
  slice : Nat
  deriving DecidableEq, Repr

/-- A TLB leaf (R156). -/
structure TlbEnt where
  core : Nat
  job : Nat
  va : Nat
  /-- Page size in bits: 16, 21 or 30. -/
  bits : Nat
  pte : Word
  deriving DecidableEq, Repr

/-- A graph that a walker runs: its ready queue and what started it (R325). -/
structure GraphRun where
  stack : Nat
  job : Nat
  header : Word
  /-- Ready tasks, in the walker's order: (task, PRIO, every mark so far a skip). -/
  ready : List (Nat × Nat × Bool)
  /-- Tasks that received at least one run mark. -/
  ran : List Nat
  /-- The while task that runs this graph as its body: header and task. -/
  parent : Option (Word × Nat)
  deriving DecidableEq, Repr

/-- Work that a graph walker has to do (R323 to R328). -/
inductive WalkKind where
  /-- A GRAPH command of a kind (R328). -/
  | cmd (c : GraphCmd) (kind : Nat)
  /-- A launch task's launch ended: 0 OK, 1 FAULTED, 2 CANCELLED; with its fault record (R327). -/
  | taskEnd (stack job : Nat) (header : Word) (task outcome : Nat) (frec : Option (List Word))
  /-- The head of a graph's ready queue is due (R325). -/
  | next (stack job : Nat) (header : Word)
  /-- A graph of a cancelled phase that has not been started never starts (R49). -/
  | never (stack job : Nat) (header : Word)
  /-- A graph is DONE or CANCELLED: its parent while task or its phase goes on (R326, R329). -/
  | isOver (stack job : Nat) (header : Word) (cancelled : Bool)
  deriving DecidableEq, Repr

/-- A walker's work with the fault-queue entries that it waits on. -/
structure WalkJob where
  kind : WalkKind
  pages : List Nat
  deriving DecidableEq, Repr

/-- A phase run by the host runtime (R329). -/
structure Phase where
  job : Nat
  id : Nat
  stack : Nat
  headers : List Word
  /-- Index of the current graph. -/
  cur : Nat
  started : Bool
  isOver : Bool
  deriving DecidableEq, Repr

/-- One entry of the machine's agenda: the happenings whose order the specification leaves open. -/
inductive Happening where
  /-- An event of the opcode table, with the object that a field-less event acts on. -/
  | event (i : Instr) (subj : Nat)
  /-- The resident routine of a trapped crew executes an instruction (R337). -/
  | routine (crew : Nat) (i : Instr)
  /-- A crew that its scheduler would choose issues next. -/
  | issue (crew : Nat)
  /-- Cycles pass with no issue. -/
  | pass (n : Nat)
  /-- A lane of a term instruction in progress takes steps; an instruction of the crew that is to issue just
  before takes none by itself (R264). -/
  | termSteps (crew op lane n : Nat)
  deriving DecidableEq, Repr

/-- For whom exec runs an instruction word: the crew, the word's address and the first hint of its
group. -/
structure Issue where
  crew : Nat
  pc : Word
  start : Word
  deriving DecidableEq, Repr

/-- The machine stops with a fault. -/
inductive Fault where
  /-- Raised by every instruction's meaning when the issue context names no crew; step never
  calls exec so. Safe: the machine stops. -/
  | noCrew
  deriving DecidableEq, Repr

/-- An instruction without a meaning. -/
inductive Refusal where
  /-- Raised by exec for an instruction not modelled yet. Safe: the machine stops. -/
  | notModelled (mnemonic : String)
  deriving DecidableEq, Repr

/-- The whole package. -/
structure State where
  /-- Cycles of the arithmetic clock since reset: %clock, WSREF (R65, R166). -/
  cycle : Nat
  mem : List Host.Cell
  /-- Bytes still as they were behind a home slice, for devices (R348, R352). -/
  behind : List Host.Cell
  /-- Sectors that hold an uncorrectable error (R169). -/
  ecc : List Nat
  jobs : Map (List Word)
  /-- Launch-queue tails by job (R353). -/
  lqtail : Map (BitVec 16)
  /-- Records that the host runtime has appended to the launch queues and that are not taken, by job (R319). -/
  lqueue : Map (List (List Word))
  launches : Map Launch
  units : Map UnitSt
  crews : Map Crew
  /-- Landing counters at core·64 + n (R274). -/
  lctrs : Map LCtr
  cmds : List Cmd
  klists : List KList
  /-- Commands in the HOST queues, as (job, words, pushing unit) (R266). -/
  hostQ : List (Nat × List Word × Nat)
  /-- Commands in the GRAPH queues, with their kinds, stacks in `GraphCmd` (R266, R328). -/
  graphQ : List (Nat × GraphCmd)
  /-- Collective groups that are not complete (R288). -/
  colls : List Coll
  graphs : List GraphRun
  walks : List WalkJob
  phases : List Phase
  faults : Map FaultEnt
  /-- Violation logs by slice: newest first, and the sequence count (R341). -/
  vlog : Map (List (List Word))
  vseq : Map Word
  /-- WORD, ENTRY and SLICE selected for VLOG, by crew slot at core·64 + slot (R342). -/
  vsel : Map Word
  waiters : List Waiter
  /-- Decisions held by the flint caches: core, cell, generation, value, status word (R306). -/
  fcache : List (Nat × Nat × BitVec 16 × Word × Word)
  /-- Layout caches: core, job, handle, the record's eight words (R284). -/
  lcache : List (Nat × Nat × Word × List Word)
  tlb : List TlbEnt
  /-- Pending counts of ABSENT scratchpad lines outside shares and of ABSENT blocks of columns that no unit
  holds, by target byte over 128 or 4096 (R162, R164). -/
  rawPend : Map Nat
  /-- Expert counters (R285). -/
  xctrs : Map Nat
  swapth : Word
  /-- COMPAT by core (R67). -/
  compat : Map Word
  /-- Jobs that have written a core's COMPAT, as (core, job) (R67). -/
  compatBy : List (Nat × Nat)
  /-- Command sequence numbers by core (R272). -/
  cmdSeq : Map Nat
  /-- Issue schedulers: first free cycle at core·4 + scheduler (R321). -/
  sched : Map Nat
  part : PartCfg
  /-- Fibres that have failed (R355). -/
  deadFibres : List Nat
  bootst : Word
  /-- Measurements M0–M3 (R358) and image versions. -/
  meas : List (BitVec 512)
  versions : List Word
  nonce : Option (BitVec 512)
  report : List Byte
  /-- The package stands on an AK9-M module (R4, R362). -/
  onModule : Bool
  /-- Token budgets by stack, clocks by region and the package limit (R360, R361). -/
  tokens : Map Nat
  clocks : Map Nat
  limit : Nat
  /-- Bytes last handed to a host core and to a device. -/
  hostRead : List Byte
  devRead : List Byte
  /-- The model's own fields. -/
  agenda : List Happening
  subj : Nat
  iss : Issue
  /-- The counter that the free values are applied to. -/
  free : Nat
  nextUid : Nat
  nextLid : Nat
  nextSeq : Nat
  nextId : Nat
  turn : Bool
  deriving DecidableEq, Repr

/-- The part as the model presumes it before a configuration record is read. -/
def PartCfg.full : PartCfg :=
  { pkg := 0, cores := BitVec.allOnes 256, columns := [], channels := [], routes := [], ports := 0xFF }

/-- A job context before the host runtime writes it. -/
def jobReset (j : Nat) : List Word :=
  [BitVec.ofNat 64 j, 0x4000000000000000, 0, 0, 0x4000000000000000, 0, 0, 0]

/-- The contexts of jobs 0 to `n` − 1. -/
def jobsReset : Nat → Map (List Word)
  | 0 => []
  | n + 1 => jobsReset n ++ [(n, jobReset n)]

/-- The package limit in watts, of an AK9-M or of an AK9-P (R4, R360). -/
def fullLimit (onModule : Bool) : Nat := if onModule then 2400 else 2200

/-- The machine right after reset: no launch, every counter at its reset value (R50, R67, R166,
R274, R285, R316, R341, R356). -/
def State.reset : State :=
  { cycle := 0, mem := [], behind := [], ecc := [], jobs := jobsReset 64, lqtail := [], lqueue := [],
    launches := [], units := [], crews := [], lctrs := [], cmds := [], klists := [], hostQ := [],
    graphQ := [], colls := [], graphs := [], walks := [], phases := [], faults := [], vlog := [], vseq := [], vsel := [], waiters := [],
    fcache := [], lcache := [], tlb := [], rawPend := [], xctrs := [], swapth := 0x186A0, compat := [], compatBy := [],
    cmdSeq := [], sched := [], part := PartCfg.full, deadFibres := [], bootst := 0,
    meas := [0, 0, 0, 0], versions := [0, 0, 0], nonce := none, report := [], tokens := [],
    clocks := [], onModule := false, limit := fullLimit false, hostRead := [], devRead := [], agenda := [], subj := 0,
    iss := { crew := 0, pc := 0, start := 0 }, free := 0, nextUid := 1, nextLid := 1, nextSeq := 1,
    nextId := 1, turn := false }

end Sys2Proof.Machine
end

