-- ==== Sys2Proof/Machine/Maps.lean ====
section
/-! DEFINITION. Finite maps, byte strings and lane masks: the plain data operations that every
other definition stands on. -/

namespace Sys2Proof.Machine

/-! ## Maps -/

/-- The value at a key. -/
def mget {β : Type} : Map β → Nat → Option β
  | [], _ => none
  | (k', v) :: t, k => if k' = k then some v else mget t k

/-- Set the value at a key, keeping keys in rising order. -/
def mput {β : Type} : Map β → Nat → β → Map β
  | [], k, v => [(k, v)]
  | (k', v') :: t, k, v =>
    if k < k' then (k, v) :: (k', v') :: t
    else if k' = k then (k, v) :: t
    else (k', v') :: mput t k v

/-- Remove a key. -/
def mdel {β : Type} : Map β → Nat → Map β
  | [], _ => []
  | (k', v) :: t, k => if k' = k then mdel t k else (k', v) :: mdel t k

/-- The value at a key, or a default. -/
def mgetD {β : Type} (m : Map β) (k : Nat) (d : β) : β := (mget m k).getD d

/-- Change the value at a key that the map holds. -/
def mmod {β : Type} (m : Map β) (k : Nat) (f : β → β) : Map β :=
  match mget m k with
  | none => m
  | some v => mput m k (f v)

/-! ## Bytes -/

/-- The `n` low bytes of a number, least significant first (R5). -/
def bytesOf : Nat → Nat → List Byte
  | 0, _ => []
  | n + 1, v => BitVec.ofNat 8 v :: bytesOf n (v / 256)

/-- The number that bytes, least significant first, stand for. -/
def natOf : List Byte → Nat
  | [] => 0
  | b :: t => b.toNat + 256 * natOf t

/-- A 64-bit word from bytes. -/
def wordOf (l : List Byte) : Word := BitVec.ofNat 64 (natOf l)

/-- The bytes of 64-bit words. -/
def wordsBytes : List Word → List Byte
  | [] => []
  | w :: t => bytesOf 8 w.toNat ++ wordsBytes t

/-- The first `n` 64-bit words of a byte string. -/
def bytesWords : Nat → List Byte → List Word
  | 0, _ => []
  | n + 1, l => wordOf (l.take 8) :: bytesWords n (l.drop 8)

/-- Bits `hi` to `lo` of a number. -/
def bits (v hi lo : Nat) : Nat := v / 2 ^ lo % 2 ^ (hi + 1 - lo)

/-- Bit `i` of a number. -/
def bitAt (v i : Nat) : Bool := decide (v / 2 ^ i % 2 = 1)

/-- The two's complement value of the `n` low bits of a number. -/
def signedOf (n v : Nat) : Int :=
  if 2 * (v % 2 ^ n) < 2 ^ n then (v % 2 ^ n : Nat) else (v % 2 ^ n : Nat) - (2 ^ n : Nat)

/-- An integer modulo 2^64. -/
def wordOfInt (i : Int) : Word := BitVec.ofInt 64 i

/-- sext(v, n) of R5: the `n` low bits, sign-extended to 64. -/
def sext (v : Word) (n : Nat) : Word := wordOfInt (signedOf n v.toNat)

/-- zext(v, n) of R5. -/
def zext (v : Word) (n : Nat) : Word := BitVec.ofNat 64 (v.toNat % 2 ^ n)

/-! ## Memory cells -/

/-- The byte at an address; a byte that nothing has written reads 0 (log 1). -/
def cellGet : List Host.Cell → Nat → Byte
  | [], _ => 0
  | (k, v) :: t, a => if k = a then v else cellGet t a

/-- Put a byte that is not 0 at its place. -/
def cellIns : List Host.Cell → Nat → Byte → List Host.Cell
  | [], a, b => [(a, b)]
  | (k, v) :: t, a, b =>
    if a < k then (a, b) :: (k, v) :: t
    else if k = a then (a, b) :: t
    else (k, v) :: cellIns t a b

/-- Remove the entry of an address. -/
def cellDel : List Host.Cell → Nat → List Host.Cell
  | [], _ => []
  | (k, v) :: t, a => if k = a then cellDel t a else (k, v) :: cellDel t a

/-- Write one byte: writing what an unlisted address reads as removes the entry. -/
def cellPut (m : List Host.Cell) (a : Nat) (b : Byte) : List Host.Cell :=
  if b = 0 then cellDel m a else cellIns m a b

/-- Write bytes at rising addresses. -/
def cellsPut (m : List Host.Cell) (a : Nat) : List Byte → List Host.Cell
  | [] => m
  | b :: t => cellsPut (cellPut m a b) (a + 1) t

/-- Read `n` bytes at rising addresses. -/
def cellsGet (m : List Host.Cell) : Nat → Nat → List Byte
  | _, 0 => []
  | a, n + 1 => cellGet m a :: cellsGet m (a + 1) n

/-- The canonical form: addresses strictly rising, no entry equal to 0. -/
def memWf : List Host.Cell → Bool
  | [] => true
  | [(_, v)] => decide (v ≠ 0)
  | (a, v) :: (b, w) :: t => decide (v ≠ 0) && decide (a < b) && memWf ((b, w) :: t)

/-! ## Lanes -/

/-- The lanes 0 to 31. -/
def lanes : List Nat :=
  [0, 1, 2, 3, 4, 5, 6, 7, 8, 9, 10, 11, 12, 13, 14, 15, 16, 17, 18, 19, 20, 21, 22, 23, 24, 25, 26,
    27, 28, 29, 30, 31]

/-- A lane of a mask. -/
def inMask (m : Mask) (l : Nat) : Bool := bitAt m.toNat l

/-- The mask of the lanes of which a predicate holds. -/
def maskOf (p : Nat → Bool) : Mask :=
  BitVec.ofNat 32 (lanes.foldl (fun a l => if p l then a + 2 ^ l else a) 0)

/-- The lanes of a mask, ascending. -/
def lanesOf (m : Mask) : List Nat := lanes.filter (inMask m)

/-- The lowest lane of a mask, 0 when it is empty. -/
def lowLane (m : Mask) : Nat := (lanesOf m).headD 0

/-- The highest lane of a mask, 0 when it is empty. -/
def highLane (m : Mask) : Nat := (lanesOf m).getLastD 0

/-- The mask of one lane. -/
def oneLane (l : Nat) : Mask := maskOf (fun j => decide (j = l))

/-- A Bool as a 64-bit word. -/
def wordOfBool (b : Bool) : Word := if b then 1 else 0

/-- Remove repeats, keeping last occurrences. -/
def dedup : List Nat → List Nat
  | [] => []
  | a :: t => if t.contains a then dedup t else a :: dedup t

end Sys2Proof.Machine
end

