-- ==== Sys2Proof/Machine/Float.lean ====
section
/-! DEFINITION. Number formats: decoding, exact rounding with flags, arithmetic, and the algorithms of
the transcendental instructions (08 R118 to R142). -/

namespace Sys2Proof.Machine

/-! ## Formats -/

/-- A float format: mantissa and exponent widths, bias, and whether the top exponent holds infinity
and NaN, only the NaN S.1111.111, or neither (R118). -/
structure Fmt where
  mb : Nat
  eb : Nat
  bias : Nat
  /-- 0: infinity and NaN; 1: E4M3's NaN only; 2: neither. -/
  top : Nat
  nan : Nat
  /-- The format has signalling NaNs. -/
  sig : Bool
  deriving DecidableEq, Repr

/-- F32. -/
def f32 : Fmt := { mb := 23, eb := 8, bias := 127, top := 0, nan := 0x7FC00000, sig := true }
/-- F16. -/
def f16 : Fmt := { mb := 10, eb := 5, bias := 15, top := 0, nan := 0x7E00, sig := true }
/-- BF16. -/
def bf16 : Fmt := { mb := 7, eb := 8, bias := 127, top := 0, nan := 0x7FC0, sig := true }
/-- E5M2. -/
def e5m2 : Fmt := { mb := 2, eb := 5, bias := 15, top := 0, nan := 0x7E, sig := false }
/-- E4M3. -/
def e4m3 : Fmt := { mb := 3, eb := 4, bias := 7, top := 1, nan := 0x7F, sig := false }
/-- E3M2. -/
def e3m2 : Fmt := { mb := 2, eb := 3, bias := 3, top := 2, nan := 0, sig := false }
/-- E2M3. -/
def e2m3 : Fmt := { mb := 3, eb := 2, bias := 1, top := 2, nan := 0, sig := false }
/-- E2M1. -/
def e2m1 : Fmt := { mb := 1, eb := 2, bias := 1, top := 2, nan := 0, sig := false }

/-- The format that F[1:0] selects in the float group (R128). -/
def fmtOf (t : Nat) : Fmt := if t = 0 then f32 else if t = 1 then f16 else bf16

/-- Bits of a value of the format. -/
def Fmt.bits (f : Fmt) : Nat := 1 + f.eb + f.mb

/-- A decoded float: NaN, infinity, or (−1)^neg · m · 2^e. -/
inductive FVal where
  | nan (signalling : Bool)
  | inf (neg : Bool)
  | fin (neg : Bool) (m : Nat) (e : Int)
  deriving DecidableEq, Repr

/-- Decode the low bits of a word as a value of a format (R118, R120). -/
def fdec (f : Fmt) (w : Nat) : FVal :=
  let m := w % 2 ^ f.mb
  let e := w / 2 ^ f.mb % 2 ^ f.eb
  let neg := bitAt w (f.mb + f.eb)
  if f.top = 0 ∧ e = 2 ^ f.eb - 1 then
    if m = 0 then .inf neg else .nan (f.sig && !bitAt m (f.mb - 1))
  else if f.top = 1 ∧ e = 2 ^ f.eb - 1 ∧ m = 2 ^ f.mb - 1 then .nan false
  else if e = 0 then .fin neg m (1 - f.bias - f.mb : Int)
  else .fin neg (2 ^ f.mb + m) ((e : Int) - f.bias - f.mb)

/-- The sign bit of the format. -/
def signBit (f : Fmt) (neg : Bool) : Nat := if neg then 2 ^ (f.mb + f.eb) else 0

/-- The infinity of a format that has one. -/
def infBits (f : Fmt) (neg : Bool) : Nat := signBit f neg + (2 ^ f.eb - 1) * 2 ^ f.mb

/-- The largest finite magnitude, as bits without sign (R118). -/
def maxFinite (f : Fmt) : Nat :=
  if f.top = 0 then (2 ^ f.eb - 1) * 2 ^ f.mb - 1
  else if f.top = 1 then 2 ^ (f.eb + f.mb) - 2 else 2 ^ (f.eb + f.mb) - 1

/-- Flags of %fpstat (R124). -/
def flagIV : Nat := 1
/-- DZ. -/
def flagDZ : Nat := 2
/-- OF. -/
def flagOF : Nat := 4
/-- UF. -/
def flagUF : Nat := 8
/-- IX. -/
def flagIX : Nat := 16
/-- CL. -/
def flagCL : Nat := 32

/-- A result with its flags. -/
structure FRes where
  bits : Nat
  flags : Nat
  deriving DecidableEq, Repr

/-! ## Rounding -/

/-- Round the quotient `n` with remainder `r` of a division by `d` in a mode: 2 RTZ, 3 RDN, 4 RUP,
otherwise RNE (R15, R122). -/
def roundUp (mode : Nat) (neg : Bool) (n r d : Nat) : Bool :=
  if r = 0 then false
  else match mode with
    | 2 => false
    | 3 => neg
    | 4 => !neg
    | _ => decide (d < 2 * r) || (decide (2 * r = d) && decide (n % 2 = 1))

/-- p/q · 2^e as a fraction of naturals. -/
def fracOf (p q : Nat) (e : Int) : Nat × Nat :=
  if 0 ≤ e then (p * 2 ^ e.toNat, q) else (p, q * 2 ^ (-e).toNat)

/-- The exponent k with 2^k ≤ p/q · 2^e < 2^(k+1), for p, q > 0. -/
def expOf (p q : Nat) (e : Int) : Int :=
  let k : Int := (Nat.log2 p : Int) - Nat.log2 q
  let (a, b) := fracOf p q (-k)
  if a < b then k - 1 + e else k + e

/-- A rounded magnitude before its overflow is settled: n · 2^u, whether rounding changed it,
whether it is tiny, and whether it was rounded away from zero. -/
structure Rnd where
  n : Nat
  u : Int
  ix : Bool
  tiny : Bool
  isOver : Bool
  deriving DecidableEq, Repr

/-- Round p/q · 2^e, p > 0, to a format's precision and least exponent (R122, R124). -/
def rndTo (f : Fmt) (mode : Nat) (neg : Bool) (p q : Nat) (e : Int) : Rnd :=
  let k := expOf p q e
  let emin : Int := 1 - f.bias
  let at_ (u : Int) : Nat × Bool :=
    let (a, b) := fracOf p q (e - u)
    (a / b + (if roundUp mode neg (a / b) (a % b) b then 1 else 0), decide (a % b ≠ 0))
  let u : Int := (if k < emin then emin else k) - f.mb
  let r := at_ u
  let free := at_ (k - f.mb)
  let (x, y) := fracOf free.1 1 (k - f.mb - emin)
  let (mx, my) := fracOf r.1 1 u
  let big := match fdec { f with top := 2 } (maxFinite f) with
    | .fin _ m e' => fracOf m 1 e'
    | _ => (0, 1)
  { n := r.1, u := u, ix := r.2, tiny := decide (x < y), isOver := decide (big.1 * my < mx * big.2) }

/-- Encode n · 2^u, a magnitude that the format holds. -/
def encMag (f : Fmt) (n : Nat) (u : Int) : Nat :=
  if n < 2 ^ f.mb then n
  else
    let n' := if n = 2 ^ (f.mb + 1) then 2 ^ f.mb else n
    let u' := if n = 2 ^ (f.mb + 1) then u + 1 else u
    (u' + f.mb + f.bias).toNat * 2 ^ f.mb + (n' - 2 ^ f.mb)

/-- Overflow in a mode is rounded toward zero (R122). -/
def towardZero (mode : Nat) (neg : Bool) : Bool :=
  decide (mode = 2) || (decide (mode = 3) && !neg) || (decide (mode = 4) && neg)

/-- Round p/q · 2^e to a format with infinity: the result and its flags (R122, R124). -/
def roundQ (f : Fmt) (mode : Nat) (neg : Bool) (p q : Nat) (e : Int) : FRes :=
  if p = 0 then { bits := signBit f neg, flags := 0 }
  else
    let r := rndTo f mode neg p q e
    if r.isOver then
      { bits := if towardZero mode neg then signBit f neg + maxFinite f else infBits f neg
        flags := flagOF + flagIX }
    else
      { bits := signBit f neg + encMag f r.n r.u
        flags := (if r.ix then flagIX else 0) + (if r.ix && r.tiny then flagUF else 0) }

/-- Round an integer times 2^e. -/
def roundI (f : Fmt) (mode : Nat) (i : Int) (e : Int) : FRes :=
  roundQ f mode (decide (i < 0)) i.natAbs 1 e

/-- Round (−1)^neg · p/q · 2^e to an integer; the second part says that it changed (R122). -/
def roundInt (mode : Nat) (neg : Bool) (p q : Nat) (e : Int) : Int × Bool :=
  let (a, b) := fracOf p q e
  let n : Nat := a / b + (if roundUp mode neg (a / b) (a % b) b then 1 else 0)
  (if neg then -(n : Int) else n, decide (a % b ≠ 0))

/-- The canonical NaN with a flag for a signalling operand (R123). -/
def nanRes (f : Fmt) (sig : Bool) : FRes := { bits := f.nan, flags := if sig then flagIV else 0 }

/-- NaN with IV. -/
def invalid (f : Fmt) : FRes := { bits := f.nan, flags := flagIV }

/-- The value is a NaN. -/
def FVal.isNan : FVal → Bool
  | .nan _ => true
  | _ => false

/-- The value is a signalling NaN. -/
def FVal.isSig : FVal → Bool
  | .nan s => s
  | _ => false

/-- The sign of a value; a NaN counts as positive. -/
def FVal.neg : FVal → Bool
  | .nan _ => false
  | .inf n => n
  | .fin n _ _ => n

/-- A finite value as an integer times a power of two. -/
def signedM (neg : Bool) (m : Nat) : Int := if neg then -(m : Int) else m

/-! ## Arithmetic -/

/-- The sum of two finite values, rounded once; an exact zero sum of opposite signs is +0, or −0
under RDN (R122). -/
def addFin (f : Fmt) (mode : Nat) (n1 : Bool) (m1 : Nat) (e1 : Int) (n2 : Bool) (m2 : Nat)
    (e2 : Int) : FRes :=
  let e := if e1 < e2 then e1 else e2
  let i := signedM n1 (m1 * 2 ^ (e1 - e).toNat) + signedM n2 (m2 * 2 ^ (e2 - e).toNat)
  if i = 0 then
    if m1 = 0 ∧ m2 = 0 ∧ n1 = n2 then { bits := signBit f n1, flags := 0 }
    else { bits := signBit f (decide (mode = 3)), flags := 0 }
  else roundI f mode i e

/-- a + b (R122, R129). -/
def fAdd (f : Fmt) (mode : Nat) (a b : FVal) : FRes :=
  match a, b with
  | .nan s, y => nanRes f (s || y.isSig)
  | x, .nan s => nanRes f (s || x.isSig)
  | .inf n, .inf n' => if n = n' then { bits := infBits f n, flags := 0 } else invalid f
  | .inf n, .fin .. => { bits := infBits f n, flags := 0 }
  | .fin .., .inf n => { bits := infBits f n, flags := 0 }
  | .fin n1 m1 e1, .fin n2 m2 e2 => addFin f mode n1 m1 e1 n2 m2 e2

/-- The value with its sign inverted. -/
def FVal.flip : FVal → FVal
  | .nan s => .nan s
  | .inf n => .inf !n
  | .fin n m e => .fin (!n) m e

/-- a × b (R122, R129). -/
def fMul (f : Fmt) (mode : Nat) (a b : FVal) : FRes :=
  match a, b with
  | .nan s, y => nanRes f (s || y.isSig)
  | x, .nan s => nanRes f (s || x.isSig)
  | .inf n, .inf n' => { bits := infBits f (n != n'), flags := 0 }
  | .inf n, .fin n' m _ => if m = 0 then invalid f else { bits := infBits f (n != n'), flags := 0 }
  | .fin n' m _, .inf n => if m = 0 then invalid f else { bits := infBits f (n != n'), flags := 0 }
  | .fin n1 m1 e1, .fin n2 m2 e2 => roundQ f mode (n1 != n2) (m1 * m2) 1 (e1 + e2)

/-- d + a × b with one rounding; 0 × ∞ is invalid even beside a quiet NaN (R129). -/
def fFma (f : Fmt) (mode : Nat) (a b d : FVal) : FRes :=
  let bad := match a, b with
    | .inf _, .fin _ m _ => decide (m = 0)
    | .fin _ m _, .inf _ => decide (m = 0)
    | _, _ => false
  if bad then invalid f
  else if a.isNan || b.isNan || d.isNan then nanRes f (a.isSig || b.isSig || d.isSig)
  else
    let n := a.neg != b.neg
    match a, b, d with
    | .fin _ m1 e1, .fin _ m2 e2, .fin n3 m3 e3 => addFin f mode n (m1 * m2) (e1 + e2) n3 m3 e3
    | .fin .., .fin .., .inf n3 => { bits := infBits f n3, flags := 0 }
    | _, _, .inf n3 => if n = n3 then { bits := infBits f n, flags := 0 } else invalid f
    | _, _, _ => { bits := infBits f n, flags := 0 }

/-- a ÷ b (R129, R134). -/
def fDiv (f : Fmt) (mode : Nat) (a b : FVal) : FRes :=
  match a, b with
  | .nan s, y => nanRes f (s || y.isSig)
  | x, .nan s => nanRes f (s || x.isSig)
  | .inf _, .inf _ => invalid f
  | .inf n, .fin n' _ _ => { bits := infBits f (n != n'), flags := 0 }
  | .fin n _ _, .inf n' => { bits := signBit f (n != n'), flags := 0 }
  | .fin n1 m1 e1, .fin n2 m2 e2 =>
    if m2 = 0 then
      if m1 = 0 then invalid f else { bits := infBits f (n1 != n2), flags := flagDZ }
    else roundQ f mode (n1 != n2) m1 m2 (e1 - e2)

/-- The integer square root, bit by bit from bit `n` − 1. -/
def isqrtGo (v : Nat) : Nat → Nat → Nat
  | 0, r => r
  | n + 1, r => if (r + 2 ^ n) * (r + 2 ^ n) ≤ v then isqrtGo v n (r + 2 ^ n) else isqrtGo v n r

/-- ⌊√v⌋. -/
def isqrt (v : Nat) : Nat := isqrtGo v (Nat.log2 v / 2 + 1) 0

/-- A root with a sticky half bit: 2·⌊√v⌋, one more when the root is not exact. -/
def stickyRoot (v : Nat) : Nat := 2 * isqrt v + (if isqrt v * isqrt v = v then 0 else 1)

/-- √a (R134). -/
def fSqrt (f : Fmt) (mode : Nat) (a : FVal) : FRes :=
  match a with
  | .nan s => nanRes f s
  | .inf n => if n then invalid f else { bits := infBits f false, flags := 0 }
  | .fin n m e =>
    if m = 0 then { bits := signBit f n, flags := 0 }
    else if n then invalid f
    else
      let odd := decide (e % 2 ≠ 0)
      let m' := (if odd then 2 * m else m) * 2 ^ 80
      let e' := (if odd then e - 1 else e) - 80
      roundQ f mode false (stickyRoot m') 1 (e' / 2 - 1)

/-- The order of two numbers that are not NaN: −0 and +0 are equal. -/
def cmpVal (a b : FVal) : Ordering :=
  match a, b with
  | .fin n1 m1 e1, .fin n2 m2 e2 =>
    let e := if e1 < e2 then e1 else e2
    compare (signedM n1 (m1 * 2 ^ (e1 - e).toNat)) (signedM n2 (m2 * 2 ^ (e2 - e).toNat))
  | .inf n, .inf n' => if n = n' then .eq else if n then .lt else .gt
  | .inf n, _ => if n then .lt else .gt
  | _, .inf n => if n then .gt else .lt
  | _, _ => .eq

/-- a orders below b, with −0 below +0 (R131). -/
def belowVal (a b : FVal) : Bool :=
  match cmpVal a b with
  | .lt => true
  | .gt => false
  | .eq => a.neg && !b.neg

/-- FMIN or FMAX of two words, with `.NUM` or without (R131). -/
def fMinMax (f : Fmt) (max num : Bool) (wa wb : Nat) : FRes :=
  let a := fdec f wa
  let b := fdec f wb
  let iv := if a.isSig || b.isSig then flagIV else 0
  let pick : Nat := (if belowVal a b != max then wa else wb) % 2 ^ f.bits
  if a.isNan && b.isNan then { bits := f.nan, flags := iv }
  else if a.isNan then { bits := if num then wb % 2 ^ f.bits else f.nan, flags := iv }
  else if b.isNan then { bits := if num then wa % 2 ^ f.bits else f.nan, flags := iv }
  else { bits := pick, flags := iv }

/-- FCMP: the truth of a condition and its flags (R132). -/
def fCmp (f : Fmt) (cond : Nat) (wa wb : Nat) : Bool × Nat :=
  let a := fdec f wa
  let b := fdec f wb
  let un := a.isNan || b.isNan
  let iv := if a.isSig || b.isSig || (un && decide (2 ≤ cond ∧ cond ≤ 5)) then flagIV else 0
  let o := cmpVal a b
  (match cond with
    | 0 => !un && o == .eq
    | 1 => un || o != .eq
    | 2 => !un && o == .lt
    | 3 => !un && o != .lt
    | 4 => !un && o != .gt
    | 5 => !un && o == .gt
    | 6 => un
    | _ => !un, iv)

/-- FRND: to an integral value of the format (R133). -/
def fRnd (f : Fmt) (mode : Nat) (x : Bool) (w : Nat) : FRes :=
  match fdec f w with
  | .nan s => nanRes f s
  | .inf n => { bits := infBits f n, flags := 0 }
  | .fin n m e =>
    if m = 0 then { bits := signBit f n, flags := 0 }
    else
      let r := roundInt mode n m 1 e
      { bits := (roundQ f mode n r.1.natAbs 1 0).bits, flags := if x && r.2 then flagIX else 0 }

/-- FCLS: the one-hot class (R133). -/
def fClass (f : Fmt) (w : Nat) : Nat :=
  match fdec f w with
  | .nan s => if s then 256 else 512
  | .inf n => if n then 1 else 128
  | .fin n m _ =>
    if m = 0 then (if n then 8 else 16)
    else if m < 2 ^ f.mb then (if n then 4 else 32)
    else if n then 2 else 64

/-! ## Fixed-point functions for the correctly rounded transcendentals and for the tables

Values are naturals scaled by 2^160. Each function is exact to far below the last place that the
formats keep; a result known to be no dyadic number gets a sticky bit. -/

/-- Fractional bits of the fixed-point arithmetic. -/
def fxP : Nat := 160
/-- One. -/
def fxOne : Nat := 2 ^ 160
/-- Product. -/
def fxMul (a b : Nat) : Nat := a * b / fxOne

/-- Σ 1/((2k+1)·x^(2k+1)), from term k: arctanh of 1/x. -/
def atanhInv (x : Nat) : Nat → Nat → Nat → Nat
  | 0, _, _ => 0
  | n + 1, k, t => t / (2 * k + 1) + atanhInv x n (k + 1) (t / (x * x))

/-- ln 2 = 2 · artanh(1/3). -/
def fxLn2 : Nat := 2 * atanhInv 3 60 0 (fxOne / 3)

/-- Alternating Σ (−1)^k/((2k+1)·x^(2k+1)): arctan of 1/x, as a positive and a negative part. -/
def atanInv (x : Nat) : Nat → Nat → Nat → Nat × Nat
  | 0, _, _ => (0, 0)
  | n + 1, k, t =>
    let r := atanInv x n (k + 1) (t / (x * x))
    if k % 2 = 0 then (r.1 + t / (2 * k + 1), r.2) else (r.1, r.2 + t / (2 * k + 1))

/-- π by Machin's formula. -/
def fxPi : Nat :=
  let a := atanInv 5 60 0 (fxOne / 5)
  let b := atanInv 239 30 0 (fxOne / 239)
  16 * (a.1 - a.2) - 4 * (b.1 - b.2)

/-- Σ x^k/k! from term k on, with the current term. -/
def expSeries (x : Nat) : Nat → Nat → Nat → Nat
  | 0, _, _ => 0
  | n + 1, k, t => t + expSeries x n (k + 1) (fxMul t x / (k + 1))

/-- 2^f for a fixed-point fraction 0 ≤ f < 1. -/
def fxExp2 (x : Nat) : Nat := expSeries (fxMul x fxLn2) 50 0 fxOne

/-- Σ z^(2k+1)/(2k+1). -/
def atanhSeries (z2 : Nat) : Nat → Nat → Nat → Nat
  | 0, _, _ => 0
  | n + 1, k, t => t / (2 * k + 1) + atanhSeries z2 n (k + 1) (fxMul t z2)

/-- log2 of p/q with 1 ≤ p/q ≤ 2. -/
def fxLog2 (p q : Nat) : Nat :=
  let z := (p - q) * fxOne / (p + q)
  2 * atanhSeries (fxMul z z) 60 0 z * fxOne / fxLn2

/-- sin(πx)/x for the square of x (fixed-point, x ≤ 1/4): Σ (−1)^k π^(2k+1) x^(2k)/(2k+1)!, as
positive and negative parts. -/
def sinSeries (y : Nat) : Nat → Nat → Nat → Nat × Nat
  | 0, _, _ => (0, 0)
  | n + 1, k, t =>
    let r := sinSeries y n (k + 1) (fxMul t y / ((2 * k + 2) * (2 * k + 3)))
    if k % 2 = 0 then (r.1 + t, r.2) else (r.1, r.2 + t)

/-- cos(πx): Σ (−1)^k (πx)^(2k)/(2k)!, as positive and negative parts. -/
def cosSeries (y : Nat) : Nat → Nat → Nat → Nat × Nat
  | 0, _, _ => (0, 0)
  | n + 1, k, t =>
    let r := cosSeries y n (k + 1) (fxMul t y / ((2 * k + 1) * (2 * k + 2)))
    if k % 2 = 0 then (r.1 + t, r.2) else (r.1, r.2 + t)

/-- Round a fixed-point magnitude that stands for an inexact value, with a sticky bit. -/
def roundFx (f : Fmt) (neg : Bool) (v : Nat) (e : Int) : FRes :=
  roundQ f 1 neg (2 * v + 1) 1 (e - 161)

/-- A dyadic magnitude as fixed point. -/
def fxOf (m : Nat) (e : Int) : Nat :=
  let (a, b) := fracOf m 1 (e + 160)
  a / b

/-! ## Correctly rounded transcendentals, for F16 and BF16, always RNE (R134) -/

/-- 2^(−1)^n·m·2^e. -/
def crExp2 (f : Fmt) (n : Bool) (m : Nat) (e : Int) : FRes :=
  if 20 < (Nat.log2 m : Int) + e then
    if n then { bits := 0, flags := flagUF + flagIX }
    else { bits := infBits f false, flags := flagOF + flagIX }
  else
    let (a, b) := fracOf m 1 e
    if a % b = 0 then
      roundQ f 1 false 1 1 (if n then -((a / b : Nat) : Int) else (a / b : Nat))
    else
      let fl : Int := if n then -((a / b + 1 : Nat) : Int) else (a / b : Nat)
      let fr : Nat := (if n then b - a % b else a % b) * fxOne / b
      roundFx f false (fxExp2 fr) fl

/-- log2 of m·2^e. -/
def crLog2 (f : Fmt) (m : Nat) (e : Int) : FRes :=
  let k : Int := (Nat.log2 m : Int) + e
  let p := 2 ^ Nat.log2 m
  if m = p then roundI f 1 k 0
  else
    let l := fxLog2 m p
    if 0 ≤ k then roundFx f false (k.toNat * fxOne + l) 0
    else roundFx f true ((-k).toNat * fxOne - l) 0

/-- tanh of ±m·2^e. -/
def crTanh (f : Fmt) (n : Bool) (m : Nat) (e : Int) : FRes :=
  let k : Int := (Nat.log2 m : Int) + e
  if 5 ≤ k then roundQ f 1 n (2 ^ 60 - 1) 1 (-60)
  else if k < -12 then
    let r := roundQ f 1 n (m * 2 ^ 60 - 1) 1 (e - 60)
    { r with flags := r.flags }
  else
    -- 2^(−2b·log2 e) for b = m·2^e
    let t := fxOf (2 * m) e * fxOne / fxLn2
    let q := fxExp2 (fxOne - 1 - t % fxOne) / 2 ^ (t / fxOne + 1)
    roundFx f n ((fxOne - q) * fxOne / (fxOne + q)) 0

/-- The nearest integer k to 2·m·2^e, ties to even, and |a − k/2| with its sign: (k, negative,
numerator, denominator). -/
def halfTurns (n : Bool) (m : Nat) (e : Int) : Int × Bool × Nat × Nat :=
  let (a, b) := fracOf m 1 e
  let r := roundInt 1 false (2 * a) b 0
  let k := r.1
  let d : Int := 2 * (a : Int) - k * b
  let neg := decide (d < 0) != n
  (if n then -k else k, neg, d.natAbs, 2 * b)

/-- sin(πa) or cos(πa), exact at multiples of 1/2. -/
def crSinCos (f : Fmt) (cos n : Bool) (m : Nat) (e : Int) : FRes :=
  let (k, rn, p, q) := halfTurns n m e
  let quad := ((if cos then k + 1 else k) % 4).toNat
  let neg2 := decide (2 ≤ quad)
  let x := p * fxOne / q
  let y := fxMul (fxMul x x) (fxMul fxPi fxPi)
  if quad % 2 = 0 then
    if p = 0 then { bits := if cos then 0 else signBit f n, flags := 0 }
    else
      let c := sinSeries y 40 0 fxPi
      roundQ f 1 (rn != neg2) ((2 * (c.1 - c.2) + 1) * p) q (-161)
  else if p = 0 then { bits := signBit f neg2 + (roundQ f 1 false 1 1 0).bits, flags := 0 }
  else
    let c := cosSeries y 40 0 fxOne
    roundFx f neg2 (c.1 - c.2 - 1) 0

/-! ## The F32 algorithms (R135 to R141): bits and flags are carried along -/

/-- An F32 word in the middle of an algorithm, with the flags raised so far. -/
structure Alg where
  w : Nat
  fl : Nat
  deriving DecidableEq, Repr

/-- Of a step's flags only IX counts; `scale` also gives OF and UF (R134). -/
def algStep (r : FRes) (fl : Nat) : Alg := { w := r.bits, fl := fl.lor (r.flags.land flagIX) }

/-- fmul. -/
def aMul (a b : Alg) : Alg :=
  algStep (fMul f32 1 (fdec f32 a.w) (fdec f32 b.w)) (a.fl.lor b.fl)
/-- fadd. -/
def aAdd (a b : Alg) : Alg :=
  algStep (fAdd f32 1 (fdec f32 a.w) (fdec f32 b.w)) (a.fl.lor b.fl)
/-- ffma(a, b, c). -/
def aFma (a b c : Alg) : Alg :=
  algStep (fFma f32 1 (fdec f32 a.w) (fdec f32 b.w) (fdec f32 c.w)) (a.fl.lor (b.fl.lor c.fl))
/-- −a. -/
def aNeg (a : Alg) : Alg := { a with w := if bitAt a.w 31 then a.w - 2 ^ 31 else a.w + 2 ^ 31 }
/-- A constant. -/
def aC (w : Nat) : Alg := { w := w, fl := 0 }
/-- A dyadic number that F32 holds exactly. -/
def aExact (neg : Bool) (p : Nat) (e : Int) : Alg := aC (roundQ f32 1 neg p 1 e).bits
/-- scale(y, k). -/
def aScale (y : Alg) (k : Int) : Alg :=
  match fdec f32 y.w with
  | .fin n m e =>
    let r := roundQ f32 1 n m 1 (e + k)
    { w := r.bits, fl := y.fl.lor r.flags }
  | _ => y

/-- 1.0. -/
def aOne : Alg := aC 0x3F800000

/-- unpack(a): m as an F32 number in [1, 2), its numerator over 2^23, and E (R135). -/
def unpackF (m : Nat) (e : Int) : Nat × Int :=
  let k := Nat.log2 m
  (m * 2 ^ (23 - k), e + k)

/-- X[j]: the F32 value nearest 2^(j/64). -/
def tabX (j : Nat) : Alg :=
  if j = 0 then aOne else aC (roundFx f32 false (fxExp2 (j * fxOne / 64)) 0).bits
/-- Rl[j]. -/
def tabRl (j : Nat) : Alg := aC (roundQ f32 1 false 64 (64 + j) 0).bits
/-- Ll[j]. -/
def tabLl (j : Nat) : Alg :=
  if j = 0 then aC 0 else aC (roundFx f32 false (fxLog2 (64 + j) 64) 0).bits
/-- Rc[j]. -/
def tabRc (j : Nat) : Alg := aC (roundQ f32 1 false 128 (128 + j) 0).bits
/-- Q[j]: the F32 value nearest 1/√(1 + j/64) = 8/√(64 + j). -/
def tabQ (j : Nat) : Alg :=
  if j = 0 then aOne
  else aC (roundQ f32 1 false (2 * isqrt (64 * 2 ^ 202 / (64 + j)) + 1) 1 (-102)).bits

/-- Horner steps p ← ffma(p, x, c) over coefficients. -/
def horner (x p : Alg) (cs : List Nat) : Alg := cs.foldl (fun p c => aFma p x (aC c)) p

/-- FRCP of ±m·2^e, m ≠ 0 (R136). -/
def algRcp (n : Bool) (m : Nat) (e : Int) : Alg :=
  let (mm, ee) := unpackF m e
  let x := aExact false mm (-23)
  let y0 := tabRc ((mm - 2 ^ 23) / 2 ^ 16)
  let it (y : Alg) : Alg := let er := aFma (aNeg x) y aOne; aFma y er y
  let r := aScale (it (it y0)) (-ee)
  if n then aNeg r else r

/-- FRSQ of m·2^e, m ≠ 0 (R137). -/
def algRsq (m : Nat) (e : Int) : Alg :=
  let (mm, ee) := unpackF m e
  let odd := decide (ee % 2 ≠ 0)
  let mm' := if odd then 2 * mm else mm
  let ee' := if odd then ee - 1 else ee
  let x := aExact false mm' (-23)
  let y0 := tabQ ((mm' - 2 ^ 23) / 2 ^ 17)
  let it (y : Alg) : Alg :=
    let t := aMul x y
    let er := aFma (aNeg t) y aOne
    let h := aMul y (aC 0x3F000000)
    aFma h er y
  aScale (it (it y0)) (-(ee' / 2))

/-- FEXP2 of ±m·2^e (R138). -/
def algExp2 (n : Bool) (m : Nat) (e : Int) : Alg :=
  let (a, b) := fracOf m 1 e
  if !n && decide (128 * b ≤ a) then { w := infBits f32 false, fl := flagOF + flagIX }
  else if n && decide (150 * b < a) then { w := 0, fl := flagUF + flagIX }
  else
    let k0 := (roundInt 1 false (64 * a) b 0).1
    let d : Int := 64 * (a : Int) - k0 * b
    let k : Int := if n then -k0 else k0
    let r := if d = 0 then aC 0
      else aC (roundQ f32 1 (decide (d < 0) != n) d.natAbs (64 * b) 0).bits
    let j := (k % 64).toNat
    let ex := (k - j) / 64
    let p := aMul (horner r (aC 0x3C1D955B) [0x3D635847, 0x3E75FDF0, 0x3F317218]) r
    aScale (aFma (tabX j) p (tabX j)) ex

/-- FLOG2 of m·2^e, m ≠ 0 (R139). -/
def algLog2 (m : Nat) (e : Int) : Alg :=
  let (mm, ee) := unpackF m e
  let j0 := (2 * (mm - 2 ^ 23) * 64 + 2 ^ 23) / 2 ^ 24
  let wrap := decide (j0 = 64)
  let j := if wrap then 0 else j0
  let x := aExact false mm (if wrap then -24 else -23)
  let ee' := if wrap then ee + 1 else ee
  let r := aFma x (tabRl j) (aNeg aOne)
  let p := aMul (horner r (aC 0x3E93BB5E) [0xBEB8AA3B, 0x3EF6384F, 0xBF38AA3B, 0x3FB8AA3B]) r
  let ef := aC (roundI f32 1 ee' 0).bits
  aAdd ef (aAdd (tabLl j) p)

/-- Compare |a| = m·2^e with a power of two times an integer: |a| < c·2^k. -/
def magBelow (m : Nat) (e : Int) (c : Nat) (k : Int) : Bool :=
  let (a, b) := fracOf m 1 (e - k)
  decide (a < c * b)

/-- The finite value of an F32 word, 0 for the rest. -/
def finOf (w : Nat) : Bool × Nat × Int :=
  match fdec f32 w with
  | .fin n m e => (n, m, e)
  | _ => (false, 0, 0)

/-- FTANH of ±m·2^e, m ≠ 0; `w` is its word (R140). -/
def algTanh (w : Nat) (n : Bool) (m : Nat) (e : Int) : Alg :=
  if !magBelow m e 10 0 then { w := signBit f32 n + 0x3F800000, fl := flagIX }
  else if magBelow m e 1 (-12) then
    { w := w % 2 ^ 32, fl := flagIX + (if m < 2 ^ 23 then flagUF else 0) }
  else if magBelow m e 1 (-2) then
    let a := aC (w % 2 ^ 32)
    let s := aMul a a
    let p := horner s (aC 0xBC113716) [0x3CB327A4, 0xBD5D0E19, 0x3E088889, 0xBEAAAAAB]
    aFma (aMul p s) a a
  else
    let b := aC (w % 2 ^ 31)
    let bk := aMul b (aC 0x4038AA3B)
    let (_, m1, e1) := finOf bk.w
    let u := algExp2 false m1 e1
    let u1 := aAdd { u with fl := u.fl.lor bk.fl } aOne
    let (_, m2, e2) := finOf u1.w
    let q := algRcp false m2 e2
    let r := aFma (aC 0xC0000000) { q with fl := q.fl.lor u1.fl } aOne
    if n then aNeg r else r

/-- FSINPI and FCOSPI of ±m·2^e (R141). -/
def algSinCos (cos n : Bool) (m : Nat) (e : Int) : Alg :=
  let (k, rn, p, q) := halfTurns n m e
  let r := if p = 0 then aC 0 else aC (roundQ f32 1 rn p q 0).bits
  let z := aMul r r
  let quad := ((if cos then k + 1 else k) % 4).toNat
  let v :=
    if quad % 2 = 0 then
      aMul (horner z (aC 0x3DA83C1A) [0xBF196966, 0x402335E2, 0xC0A55DFB, 0x40490FDB]) r
    else
      horner z (aC 0xBCD368EB) [0x3E70FA7B, 0xBFAAE9E4, 0x4081E0F8, 0xC09DE9E6, 0x3F800000]
  let v := if 2 ≤ quad then aNeg v else v
  if v.w % 2 ^ 31 = 0 then { v with w := if cos then 0 else signBit f32 n } else v

/-! ## The transcendental instructions with their special rows (R134) -/

/-- The transcendental functions. -/
inductive TFun where
  | rcp | rsq | exp2 | log2 | tanh | sinpi | cospi
  deriving DecidableEq, Repr

/-- A result without flags. -/
def plain (b : Nat) : FRes := { bits := b, flags := 0 }

/-- The special rows of R134: NaN, infinities, zeros, negative operands. -/
def fTransSpecial (f : Fmt) (g : TFun) (a : FVal) : Option FRes :=
  match a with
  | .nan s => some (nanRes f s)
  | .inf n =>
    some <| match g with
      | .rcp => plain (signBit f n)
      | .rsq => if n then invalid f else plain 0
      | .exp2 => if n then plain 0 else plain (infBits f false)
      | .log2 => if n then invalid f else plain (infBits f false)
      | .tanh => plain (signBit f n + (roundQ f 1 false 1 1 0).bits)
      | .sinpi => invalid f
      | .cospi => invalid f
  | .fin n m _ =>
    if m = 0 then
      some <| match g with
        | .rcp => { bits := infBits f n, flags := flagDZ }
        | .rsq => { bits := infBits f n, flags := flagDZ }
        | .exp2 => plain (roundQ f 1 false 1 1 0).bits
        | .log2 => { bits := infBits f true, flags := flagDZ }
        | .tanh => plain (signBit f n)
        | .sinpi => plain (signBit f n)
        | .cospi => plain (roundQ f 1 false 1 1 0).bits
    else if n then
      match g with
      | .rsq => some (invalid f)
      | .log2 => some (invalid f)
      | _ => none
    else none

/-- The F32 algorithm of a function. -/
def fTransF32 (g : TFun) (w : Nat) (n : Bool) (m : Nat) (e : Int) : FRes :=
  let r := match g with
    | .rcp => algRcp n m e
    | .rsq => algRsq m e
    | .exp2 => algExp2 n m e
    | .log2 => algLog2 m e
    | .tanh => algTanh w n m e
    | .sinpi => algSinCos false n m e
    | .cospi => algSinCos true n m e
  { bits := r.w, flags := r.fl }

/-- The correctly rounded value of a function in F16 or BF16. -/
def fTransCr (f : Fmt) (g : TFun) (n : Bool) (m : Nat) (e : Int) : FRes :=
  match g with
  | .rcp => roundQ f 1 n 1 m (-e)
  | .rsq =>
    let odd := decide (e % 2 ≠ 0)
    let m' := if odd then 2 * m else m
    let e' := if odd then e - 1 else e
    let exact := decide (isqrt m' * isqrt m' = m')
    if exact then roundQ f 1 false 1 (isqrt m') (-(e' / 2))
    else roundQ f 1 false (2 * isqrt (2 ^ 160 / m') + 1) 1 (-(e' / 2) - 81)
  | .exp2 => crExp2 f n m e
  | .log2 => crLog2 f m e
  | .tanh => crTanh f n m e
  | .sinpi => crSinCos f false n m e
  | .cospi => crSinCos f true n m e

/-- A transcendental instruction on the low bits of a word (R134). -/
def fTrans (f : Fmt) (g : TFun) (w : Nat) : FRes :=
  let a := fdec f w
  match fTransSpecial f g a with
  | some r => r
  | none =>
    match a with
    | .fin n m e => if f = f32 then fTransF32 g w n m e else fTransCr f g n m e
    | _ => nanRes f false

end Sys2Proof.Machine
end

