-- ==== Sys2Proof/Config.lean ====
section
/-! DEFINITION. What the specification leaves open: each constant has no body, so that nothing can be
proved of its value. The first argument is the state's counter of free values. -/

namespace Sys2Proof.Config

/-- Which cached translation that the tables no longer hold an access uses, counted from 1; any other
number is none of them (R156; log 5). -/
opaque tlbPick : Nat → Nat

/-- Whether a reader uses a cached layout record that memory no longer holds (R284; log 6). -/
opaque layoutKeeps : Nat → Bool

/-- Whether a store stays in its lane's store buffer past a FENCE that lets it (R194, R195; log 4). -/
opaque storeStays : Nat → Bool

/-- Whether a flint read is answered from the core's flint cache (R306; log 6). -/
opaque flintServes : Nat → Bool

/-- Whether a device reads a byte still behind its home slice (R348, R352; log 19). -/
opaque deviceStale : Nat → Bool

/-- Which of two concurrent values a read of a shared line changed from outside returns (R331; log 14). -/
opaque sharedNew : Nat → Bool

/-- Whether RSASSA-PSS accepts a signature for a header under Ziluvia's key (R356; log 17). -/
opaque signatureOk : List Byte → List Byte → Bool

/-- The RSASSA-PSS signature of a report under the package's identity key, by salt (R358; log 17). -/
opaque reportSignature : Nat → List Byte → BitVec 4096

/-- Tokens granted to a stack at a refill under a power limit (R360; log 18). -/
opaque tokenGrant : Nat → Nat → Nat

/-- Tokens that an issue of a Granite product (0), a router injection (1) or a home-slice access (2) spends
(R360; log 18). -/
opaque tokenCost : Nat → Nat

/-- The package limit in watts under an inlet temperature above 40 °C (R362; log 18). -/
opaque hotLimit : Nat → Nat → Nat

/-- What a read of a device register returns that the specification does not give, by the register's
byte (log 20). -/
opaque deviceByte : Nat → Nat → Byte

/-- A word that an instruction leaves in scratch space of its own (R255; log 11). -/
opaque freeWord : Nat → BitVec 64

/-- Whether a core of the part is dead, which the configuration record must not call live (R357; log 8). -/
opaque coreDead : Nat → Bool

end Sys2Proof.Config
end

