-- ==== Sys2Proof/Machine/Threads.lean ====
section
/-! DEFINITION. Threads, crews and groups: access to a lane's registers, pending results and their
completion (04 R71, R89), and meeting registers (02 R37 to R39). -/

namespace Sys2Proof.Machine

/-! ## Threads of a crew -/

/-- A lane that has no thread. -/
def Thread.absent : Thread := { Thread.init with live := false }

/-- The key of crew `idx` of unit `uid`. -/
def crewKey (uid idx : Nat) : Nat := uid * 32 + idx

/-- The threads that issue: the program's, or the resident routine's while it runs (R337). -/
def ths (c : Crew) : Map Thread := if c.priv then c.rt else c.th

/-- The thread of a lane. -/
def thOf (c : Crew) (l : Nat) : Thread := mgetD (ths c) l Thread.absent

/-- Replace the thread of a lane. -/
def setTh (c : Crew) (l : Nat) (t : Thread) : Crew :=
  if c.priv then { c with rt := mput c.rt l t } else { c with th := mput c.th l t }

/-- Change the thread of a lane. -/
def modTh (c : Crew) (l : Nat) (f : Thread → Thread) : Crew := setTh c l (f (thOf c l))

/-- Change the threads of several lanes, ascending. -/
def modThs (c : Crew) (ls : List Nat) (f : Nat → Thread → Thread) : Crew :=
  ls.foldl (fun c l => modTh c l (f l)) c

/-- The program's thread of a lane, whoever issues. -/
def progTh (c : Crew) (l : Nat) : Thread := mgetD c.th l Thread.absent

/-- Change the program's thread of a lane. -/
def modProg (c : Crew) (l : Nat) (f : Thread → Thread) : Crew :=
  { c with th := mput c.th l (f (progTh c l)) }

/-- The mask of live lanes among those that issue. -/
def liveMask (c : Crew) : Mask := maskOf fun l => (thOf c l).live

/-- The mask of live lanes of the program. -/
def progLive (c : Crew) : Mask := maskOf fun l => (progTh c l).live

/-- A thread that can issue as far as it is concerned itself: live, not held, not parked (R103). -/
def Thread.free (t : Thread) : Bool := t.live && !t.held && decide (t.park = .none)

/-- The group of threads whose next word is at an address (R103). -/
def groupAt (c : Crew) (pc : Word) : Mask :=
  maskOf fun l => (thOf c l).free && decide ((thOf c l).pc = pc)

/-- Predicate `p` of a thread; p7 always reads 1 (R62). -/
def predOf (t : Thread) (p : Nat) : Bool := decide (p = 7) || bitAt t.preds.toNat p

/-- Write a predicate; a write of p7 is discarded (R62). -/
def setPred (t : Thread) (p : Nat) (b : Bool) : Thread :=
  if p < 7 then
    let n := t.preds.toNat
    { t with preds := BitVec.ofNat 8 (if bitAt n p = b then n else if b then n + 2 ^ p else n - 2 ^ p) }
  else t

/-- The lanes of a group in which a guard holds (R62). -/
def guarded (c : Crew) (h : Hdr) (grp : Mask) : Mask :=
  maskOf fun l =>
    inMask grp l && (predOf (thOf c l) h.pg.toNat != decide (h.pn = 1))

/-- The register-stack entry that window register `i` names (R56). -/
def entryOf (t : Thread) (i : Nat) : Nat := t.frame + i

/-- What window register `i` of a thread holds (R56). -/
def regOf (t : Thread) (i : Nat) : RegVal := mgetD t.rf (entryOf t i) (.known 0)

/-- The value of a register entry taken as known; a form gives 0. -/
def RegVal.word : RegVal → Word
  | .known w => w
  | _ => 0

/-- The symbol a register's form is over. -/
def RegVal.symbol : RegVal → Option Nat
  | .known _ => none
  | .iform s _ _ => some s
  | .fform s _ => some s

/-- The value of window register `i` of a lane, taken as known. -/
def regW (c : Crew) (l i : Nat) : Word := (regOf (thOf c l) i).word

/-! ## Writing results -/

/-- Read a special register of thread scope that MOVSW writes, by its code (R65). -/
def specOf (t : Thread) : Nat → Word
  | 13 => t.fpstat
  | 14 => t.heap
  | 16 => t.trail
  | 17 => t.choice
  | 18 => t.pdl
  | _ => 0

/-- Write a special register of thread scope by its code; the reserved bits of %fpstat stay 0
(R65, R124). -/
def setSpec (t : Thread) (code : Nat) (v : Word) : Thread :=
  match code with
  | 13 => { t with fpstat := v &&& 0x3F }
  | 14 => { t with heap := v }
  | 16 => { t with trail := v }
  | 17 => { t with choice := v }
  | 18 => { t with pdl := v }
  | _ => t

/-- Two results write one register, predicate or special register; a later %fpstat write covers an
earlier flag OR (R125). -/
def PTgt.covers : PTgt → PTgt → Bool
  | .reg a _, .reg b _ => decide (a = b)
  | .pred a _, .pred b _ => decide (a = b)
  | .spec a _, .spec b _ => decide (a = b)
  | .spec a _, .flags _ => decide (a = 13)
  | _, _ => false

/-- The target is one register of the whole crew: %cheap (R65). -/
def PTgt.crewWide : PTgt → Bool
  | .spec 15 _ => true
  | _ => false

/-- Put a result in place in its lane. -/
def putTgt (c : Crew) (lane : Nat) : PTgt → Crew
  | .reg slot v => modTh c lane fun t => { t with rf := mput t.rf slot v }
  | .pred p b => modTh c lane fun t => setPred t p b
  | .spec 15 v => { c with cheap := v }
  | .spec code v => modProg c lane fun t => setSpec t code v
  | .flags v => modTh c lane fun t => { t with fpstat := t.fpstat ||| v }

/-- Flags also reach a %fpstat value that an earlier MOVSW still has in flight (R125). -/
def flagsInto (lane seq : Nat) (v : Word) (p : PendW) : PendW :=
  match p.tgt with
  | .spec 13 w => if p.lane = lane ∧ p.seq < seq then { p with tgt := .spec 13 (w ||| v) } else p
  | _ => p

/-- Remove a destination of an operation in flight that a later write has completed over (R71). -/
def dropDst (lane : Nat) (tgt : PTgt) (seq : Nat) (o : Op) : Op :=
  match tgt with
  | .reg slot _ =>
    if o.seq < seq then
      { o with dsts := o.dsts.filter fun d => !(decide (d.1 = lane) && decide (d.2.2 = slot)) }
    else o
  | _ => o

/-- Complete a result: put it in place and discard every earlier write of the same target that is
still in flight (R71, R125). -/
def completeW (c : Crew) (lane : Nat) (tgt : PTgt) (seq : Nat) : Crew :=
  let c := putTgt c lane tgt
  let pend := c.pend.filter fun p =>
    !((decide (p.lane = lane) || tgt.crewWide) && decide (p.seq < seq) && tgt.covers p.tgt)
  let pend := match tgt with
    | .flags v => pend.map (flagsInto lane seq v)
    | _ => pend
  { c with pend := pend, ops := c.ops.map (dropDst lane tgt seq) }

/-- Take the first pending result that is due. -/
def takeDue (now : Nat) : List PendW → Option (PendW × List PendW)
  | [] => none
  | p :: t =>
    if p.due ≤ now then some (p, t)
    else match takeDue now t with
      | none => none
      | some (q, r) => some (q, p :: r)

/-- Complete the results that are due, the earliest in program order first. -/
def settleN : Nat → Nat → Crew → Crew
  | 0, _, c => c
  | n + 1, now, c =>
    match takeDue now c.pend with
    | none => c
    | some (p, rest) => settleN n now (completeW { c with pend := rest } p.lane p.tgt p.seq)

/-- Complete every result that is due by a cycle (R71). -/
def settle (now : Nat) (c : Crew) : Crew := settleN c.pend.length now c

/-- Complete every pending result of a crew at once. -/
def settleAll (c : Crew) : Crew :=
  settle 0 { c with pend := c.pend.map fun p => { p with due := 0 } }

/-! ## Meeting registers -/

/-- The thread's next instruction to issue is the one at its PC; one that waits in an FWAIT, which swap
would replay, is still at that instruction (R37, R53, R312; log 64). -/
def Thread.atPc (t : Thread) : Bool :=
  match t.park with
  | .reply _ => false
  | _ => true

/-- Every live thread of the program whose MR is `m` has arrived at `m` (R37). -/
def meetDone (c : Crew) (m : Word) : Bool :=
  lanes.all fun l =>
    let t := progTh c l
    !(t.live && decide (t.mr = m)) || (decide (t.pc = m) && t.atPc)

/-- Hold every thread that has arrived at its meeting address, and release every awaited set that
is complete (R37 to R39); a released thread that waits in a barrier goes on waiting there (R103). -/
def settleMeet (c : Crew) : Crew :=
  { c with th := c.th.map fun (l, t) =>
      (l, if t.live && decide (t.mr ≠ 0) && decide (t.pc = t.mr) && t.atPc then
            if meetDone c t.mr then { t with mr := 0, held := false } else { t with held := true }
          else { t with held := false }) }

/-- The group of an FWAIT that is over waits no longer (R312). -/
def freeReply (id : Nat) (c : Crew) : Crew :=
  let free (p : Nat × Thread) : Nat × Thread :=
    if p.2.park = .reply id then (p.1, { p.2 with park := .none }) else p
  { c with th := c.th.map free, rt := c.rt.map free }

/-! ## Crews of the state -/

/-- Replace a crew. -/
def putCrew (s : State) (key : Nat) (c : Crew) : State := { s with crews := mput s.crews key c }

/-- Change a crew that exists. -/
def modCrew (s : State) (key : Nat) (f : Crew → Crew) : State :=
  match mget s.crews key with
  | none => s
  | some c => putCrew s key (f c)

/-- Change a unit that exists. -/
def modUnit (s : State) (uid : Nat) (f : UnitSt → UnitSt) : State :=
  { s with units := mmod s.units uid f }

/-- Change a launch that exists. -/
def modLaunch (s : State) (lid : Nat) (f : Launch → Launch) : State :=
  { s with launches := mmod s.launches lid f }

/-- The keys of the crews of a unit. -/
def crewKeys (s : State) (uid : Nat) : List Nat :=
  (s.crews.filter fun p => decide (p.2.uid = uid)).map (·.1)

/-- The unit of a crew. -/
def unitOf (s : State) (c : Crew) : Option UnitSt := mget s.units c.uid

/-- The launch of a crew. -/
def launchOf (s : State) (c : Crew) : Option Launch :=
  match mget s.units c.uid with
  | none => none
  | some u => mget s.launches u.lid

/-- Word `i` of a launch record. -/
def recW (l : Launch) (i : Nat) : Nat := (l.words.getD i 0).toNat

/-- C, crews per unit (R317). -/
def Launch.crews (l : Launch) : Nat := bits (recW l 1) 63 58
/-- U, units per cluster (R317). -/
def Launch.unitsPer (l : Launch) : Nat := bits (recW l 1) 53 48
/-- Clusters in the grid (R317). -/
def Launch.clusters (l : Launch) : Nat :=
  bits (recW l 1) 47 32 * bits (recW l 1) 31 16 * bits (recW l 1) 15 0
/-- PRIO (R317). -/
def Launch.prio (l : Launch) : Nat := bits (recW l 2) 39 32
/-- ORDERED (R317). -/
def Launch.ordered (l : Launch) : Bool := bitAt (recW l 2) 40
/-- SWAPPABLE (R317). -/
def Launch.swappable (l : Launch) : Bool := bitAt (recW l 2) 41
/-- D, the register-stack depth (R56, R317). -/
def Launch.depth (l : Launch) : Nat := 16 * bits (recW l 2) 25 20
/-- Named barriers per unit (R317). -/
def Launch.nbar (l : Launch) : Nat := bits (recW l 2) 31 26
/-- Scratchpad bytes of a unit (R317). -/
def Launch.scratch (l : Launch) : Nat := 128 * bits (recW l 2) 11 0
/-- STATE of word 19 (R317). -/
def Launch.status (l : Launch) : Nat := bits (recW l 19) 63 56

/-- Set word `i` of a record. -/
def Launch.setWord (l : Launch) (i : Nat) (w : Word) : Launch := { l with words := l.words.set i w }

/-- Set STATE, WHY and LCNT in word 19 (R317). -/
def Launch.setStatus (l : Launch) (st why cnt : Nat) : Launch :=
  l.setWord 19 (BitVec.ofNat 64 (st * 2 ^ 56 + why * 2 ^ 48 + cnt % 2 ^ 32))

/-- The launch completion counter LCNT (R48, R317). -/
def Launch.count (l : Launch) : Nat := bits (recW l 19) 31 0

/-- The index of a unit in its launch, u = %cluster × U + %unit (R32). -/
def unitIndex (s : State) (u : UnitSt) : Nat :=
  match mget s.launches u.lid with
  | none => 0
  | some l => u.cluster * l.unitsPer + u.u

/-- The launch index of a thread, t = u × 1024 + %crew × 32 + %lane (R58). -/
def threadIndex (s : State) (c : Crew) (l : Nat) : Nat :=
  match mget s.units c.uid with
  | none => 0
  | some u => unitIndex s u * 1024 + c.idx * 32 + l

/-- Word `i` of a job context (R316). -/
def ctxW (s : State) (job i : Nat) : Word := (mgetD s.jobs job (jobReset job)).getD i 0

/-- Set word `i` of a job context. -/
def setCtxW (s : State) (job i : Nat) (w : Word) : State :=
  { s with jobs := mput s.jobs job ((mgetD s.jobs job (jobReset job)).set i w) }

/-- The stack of a core (R32). -/
def stackOf (core : Nat) : Nat := core / 64 % 4

/-- The core is live (R357). -/
def coreLive (s : State) (core : Nat) : Bool := decide (core < 256) && bitAt s.part.cores.toNat core

/-- The live columns of a core (R357). -/
def liveCols (s : State) (core : Nat) : List Nat :=
  [0, 1, 2, 3, 4, 5, 6, 7].filter fun j => bitAt (mgetD s.part.columns core 0xFF).toNat j

/-- The numbers below `n`, ascending. -/
def upTo : Nat → List Nat
  | 0 => []
  | n + 1 => upTo n ++ [n]

/-- The live cores, ascending. -/
def liveCores (s : State) : List Nat := (upTo 256).filter fun c => coreLive s c

end Sys2Proof.Machine
end

