-- ==== Sys2Proof/Machine/Mem.lean ====
section
/-! DEFINITION. Physical memory, the home slices and their violation logs, address translation and
the fault queue (10 R151 to R160, R164, R169, 22 R341, 24 R351). -/

namespace Sys2Proof.Machine

/-! ## Physical numbering: the host physical map of R351, and numbers of the model's own (log 15) -/

/-- First byte of stack `n`'s DRAM. -/
def dramBase (n : Nat) : Nat := 0x10000000000 + n * 2 ^ 36
/-- First byte of stack `n`'s weight store. -/
def wsBase (n : Nat) : Nat := 0x20000000000 + n * 2 ^ 31
/-- First byte of the CXL tier. -/
def cxlBase : Nat := 0x30000000000
/-- First byte of core `n`'s scratchpad outside every share. -/
def rawScratch (core : Nat) : Nat := 0xB0000000000 + core * 2 ^ 18
/-- First byte of a column that no unit holds. -/
def rawColumn (core col : Nat) : Nat := 0xB8000000000 + (core * 8 + col) * 2 ^ 18
/-- First byte of the control windows. -/
def ctlBase : Nat := 0xC0000000000
/-- First byte of a peer package's DRAM. -/
def peerBase (pkg : Nat) : Nat := 2 ^ 52 + pkg * 2 ^ 48
/-- First byte of a unit's scratchpad share. -/
def shareOf (uid : Nat) : Nat := 2 ^ 64 + uid * 2 ^ 22
/-- First byte of the B-slice of a column that a unit holds. -/
def columnOf (uid col : Nat) : Nat := 2 ^ 64 + uid * 2 ^ 22 + (col + 1) * 2 ^ 18

/-- The unit, part (0 for the share, column + 1 for a B-slice) and offset of a byte that a unit
holds. -/
def heldPart (phys : Nat) : Option (Nat × Nat × Nat) :=
  if 2 ^ 64 ≤ phys then
    some ((phys - 2 ^ 64) / 2 ^ 22, (phys - 2 ^ 64) / 2 ^ 18 % 16, phys % 2 ^ 18)
  else none

/-- The slice within its stack that is home to a target address (R159). -/
def lowSlice (a : Nat) : Nat := (bits a 11 8).xor ((bits a 19 16).xor (bits a 27 24))

/-- The home slice of an address of host DRAM or the CXL tier (R159). -/
def farSlice (a : Nat) : Nat := ((bits a 13 12).xor (bits a 29 28)) * 16 + lowSlice a

/-- The package whose DRAM holds a byte; none where that is no peer's. -/
def peerOf (phys : Nat) : Option Nat := if 2 ^ 52 ≤ phys ∧ phys < 2 ^ 64 then some ((phys - 2 ^ 52) / 2 ^ 48) else none

/-- The home slice of an address of type 4: slice n of package p is numbered 64 · (p + 1) + n, and this
package's own slices n (R154, R159). -/
def peerSlice (s : State) (pkg a : Nat) : Nat :=
  (if pkg = s.part.pkg then 0 else 64 * (pkg + 1)) + a / 2 ^ 46 * 16 + lowSlice a

/-- The home slice of a target byte, as stack × 16 + slice; accesses without a home log at slice 0
of the target's stack (R159, R169). -/
def sliceOf (s : State) (phys : Nat) : Nat :=
  if phys < 2 ^ 38 then farSlice phys
  else if phys < wsBase 0 then (phys - dramBase 0) / 2 ^ 36 * 16 + lowSlice phys
  else if phys < cxlBase then (phys - wsBase 0) / 2 ^ 31 * 16
  else if phys < rawScratch 0 then farSlice (phys - cxlBase)
  else if phys < rawColumn 0 0 then stackOf ((phys - rawScratch 0) / 2 ^ 18) * 16
  else if phys < 2 ^ 52 then stackOf ((phys - rawColumn 0 0) / 2 ^ 21) * 16
  else match heldPart phys with
    | none => peerSlice s ((phys - 2 ^ 52) / 2 ^ 48) ((phys - 2 ^ 52) % 2 ^ 48)
    | some (uid, _, _) =>
      match mget s.units uid with
      | none => 0
      | some u => stackOf u.core * 16

/-! ## Violation logs -/

/-- Who makes an access: the fields of fault-queue entries, log entries and access checks. -/
structure Who where
  job : Nat
  core : Nat
  uid : Nat
  lid : Nat
  slot : Nat
  lanes : Mask
  priv : Bool
  /-- Engine command id (R272), 0 for none. -/
  cmd : Nat
  /-- The request comes from the host die. -/
  host : Bool
  /-- The access is of a serial phase, which performs shared lines (R333). -/
  serial : Bool := false
  deriving DecidableEq, Repr

/-- An access of a lane of a crew. -/
def whoLane (s : State) (c : Crew) (lanes : Mask) (priv : Bool) : Who :=
  let lid := match mget s.units c.uid with
    | none => 0
    | some u => u.lid
  let job := match mget s.launches lid with
    | none => 0
    | some l => l.job
  { job := job, core := c.core, uid := c.uid, lid := lid, slot := c.slot, lanes := lanes,
    priv := priv, cmd := 0, host := false }

/-- An access of the host die. -/
def whoHost (job : Nat) : Who :=
  { job := job, core := 0, uid := 0, lid := 0, slot := 0, lanes := 0, priv := true, cmd := 0,
    host := true }

/-- Add an entry to a slice's violation log: the newest of at most 16 (R341). -/
def vlogAdd (s : State) (slice kind : Nat) (addr : Word) (w : Who) : State :=
  let seq := mgetD s.vseq slice 0
  let entry : List Word :=
    [BitVec.ofNat 64 (kind * 2 ^ 60 + addr.toNat % 2 ^ 57),
     BitVec.ofNat 64 (w.cmd * 2 ^ 14 + w.slot * 2 ^ 8),
     BitVec.ofNat 64 ((if w.host then 0xFFFFFFFF else w.core) * 2 ^ 32 + w.lanes.toNat),
     seq]
  { s with
    vlog := mput s.vlog slice ((entry :: mgetD s.vlog slice []).take 16)
    vseq := mput s.vseq slice (seq + 1) }

/-- Slice 0 of the requester's stack, for an access that could not be translated (R341). -/
def slice0 (w : Who) : Nat := if w.host then 0 else stackOf w.core * 16

/-! ## Sectors and bytes -/

/-- One of `n` bytes lies in a sector that holds an uncorrectable error (R169). -/
def eccBad (s : State) (phys n : Nat) : Bool :=
  s.ecc.any fun x => decide (phys / 32 ≤ x) && decide (x ≤ (phys + n - 1) / 32)

/-- Read bytes at a target. -/
def rd (s : State) (phys n : Nat) : List Byte := cellsGet s.mem phys n

/-- The byte has a home slice in this package: host DRAM, stack DRAM and the CXL tier (R159). -/
def hasHome (a : Nat) : Bool :=
  decide (a < 2 ^ 38 ∨ (dramBase 0 ≤ a ∧ a < wsBase 0) ∨ (cxlBase ≤ a ∧ a < rawScratch 0))

/-- Spend tokens of a stack's budget (R360; log 18). -/
def spend (s : State) (stack kind : Nat) : State :=
  { s with tokens := mput s.tokens stack (mgetD s.tokens stack 0 - Config.tokenCost kind) }

/-- An access spends tokens: an injection at its requester's stack when it leaves the core, and an access of its
home slice (R360). -/
def spendAccess (s : State) (w : Who) (phys : Nat) : State :=
  let inside := match heldPart phys with
    | none => false
    | some (uid, _, _) => (mget s.units uid).any fun u => decide (u.core = w.core)
  let s := if w.host || inside then s else spend s (stackOf w.core) 1
  if hasHome phys then spend s (sliceOf s phys / 16) 2 else s

/-- Keep the bytes that memory behind a home slice still holds, until they are written back
(R348, R352). -/
def keepBehind (s : State) (phys : Nat) : Nat → List Host.Cell → List Host.Cell
  | 0, b => b
  | n + 1, b =>
    let b := keepBehind s phys n b
    let a := phys + n
    if hasHome a then
      if b.any fun c => decide (c.1 = a) then b else cellIns b a (cellGet s.mem a)
    else b

/-- Write bytes at a target. -/
def wr (s : State) (phys : Nat) (data : List Byte) : State :=
  { s with
    behind := keepBehind s phys data.length s.behind
    mem := cellsPut s.mem phys data }

/-- Read a 64-bit word at a target. -/
def rd64 (s : State) (phys : Nat) : Nat := natOf (rd s phys 8)

/-- Write a 64-bit word at a target. -/
def wr64 (s : State) (phys v : Nat) : State := wr s phys (bytesOf 8 v)

/-! ## Translation -/

/-- What an access does, for permissions and for the fault queue (R153, R158). -/
inductive AccKind where
  | load | store | atomic | fetch | engRead | engWrite | fill | spill
  | flintRead | flintWrite | engProp | termRead | termLoad | termWrite | termAtomic
  deriving DecidableEq, Repr

/-- The KIND of a fault-queue entry (R158). -/
def AccKind.code : AccKind → Nat
  | .load => 0 | .store => 1 | .atomic => 2 | .fetch => 3 | .engRead => 4 | .engWrite => 5 | .engProp => 5
  | .fill => 6 | .spill => 6
  | .flintRead => 7 | .flintWrite => 7 | .termRead => 7 | .termLoad => 7
  | .termWrite => 7 | .termAtomic => 7

/-- The access writes memory, so the walker sets DT (R155). -/
def AccKind.writes : AccKind → Bool
  | .store | .atomic | .engWrite | .spill | .flintWrite | .engProp | .termWrite | .termAtomic => true
  | _ => false

/-- The permission bits that an access needs, as a mask over [7:4]: X, W, R, A (R153, R309). -/
def AccKind.needs : AccKind → Nat
  | .load | .engRead | .fill | .flintRead | .termRead | .termLoad => 0x20
  | .store | .engWrite | .spill | .engProp | .termWrite => 0x40
  | .atomic | .termAtomic => 0x70
  | .fetch => 0x80
  | .flintWrite => 0x60

/-- The target types that accept an access (R154, R237, R273). -/
def AccKind.types : AccKind → List Nat
  | .load => [1, 2, 3, 4, 5, 6, 7, 8, 9, 0xA, 0xB]
  | .fill => [1, 2, 3, 4, 5, 6, 7, 8, 9, 0xA, 0xB]
  | .store => [1, 2, 3, 4, 5, 6, 7, 8, 0xA, 0xB]
  | .spill => [1, 2, 3, 4, 5, 6, 7, 8, 0xA, 0xB]
  | .atomic => [1, 2, 3, 4, 5, 7, 0xA]
  | .fetch => [1, 2]
  | .engRead => [1, 2, 3, 4, 5, 6, 7, 8, 0xA]
  | .engWrite => [1, 2, 3, 4, 5, 7, 8, 0xA]
  | .flintRead | .flintWrite | .engProp => [9]
  | .termRead => [9, 0xA]
  | .termLoad | .termWrite | .termAtomic => [0xA]

/-- The outcome of a translation. -/
inductive XRes where
  /-- Target byte and type. -/
  | ok (phys ty : Nat)
  /-- The access receives an error response when it is performed: logged at a slice with a kind, 1 for a
  target that refuses it and 0 for a walk that meets an uncorrectable error (R169). -/
  | refused (slice kind : Nat)
  | prot
  /-- A page fault: the type and level of the entry found (R158). -/
  | page (ty level : Nat)
  deriving DecidableEq, Repr

/-- Fields of a page-table entry (R153). -/
def pteType (e : Nat) : Nat := bits e 63 60
/-- NODE. -/
def pteNode (e : Nat) : Nat := bits e 59 48
/-- ADDR, as a byte address. -/
def pteAddr (e : Nat) : Nat := bits e 47 12 * 2 ^ 12

/-- An entry whose TYPE makes a page fault (R154, R155). -/
def pteFaults (e : Nat) : Bool := decide (pteType e = 0 ∨ 0xC ≤ pteType e)

/-- Where a pointer places the next table, for a walk made from a stack; none for a table that no memory
holds, which ends the walk in PROTECTION (R153, R154; DESIGN CHOICE, log 68). -/
def tableAt (stack e : Nat) : Option Nat :=
  match pteType e with
  | 1 => if pteNode e = 0 ∧ pteAddr e < 2 ^ 36 then some (dramBase stack + pteAddr e) else none
  | 2 => if pteNode e < 4 ∧ pteAddr e < 2 ^ 36 then some (dramBase (pteNode e) + pteAddr e) else none
  | 5 => if pteNode e = 0 ∧ pteAddr e < 2 ^ 38 then some (pteAddr e) else none
  | _ => none

/-- The result of a walk: a leaf with its page bits and, unless it is a cached one, the address of its entry;
a page fault; an entry with an uncorrectable error; or another failure. -/
inductive Walk where
  | leaf (e : Nat) (at_ : Option Nat) (bits_ : Nat)
  | page (ty level : Nat)
  | ecc (at_ : Nat)
  | prot
  deriving DecidableEq, Repr

/-- Walk the tables from level `n` − 1 down; `tbl` is the table of that level (R152, R153, R155). -/
def walkFrom (s : State) (stack va : Nat) : Nat → Nat → Walk
  | 0, _ => .prot
  | n + 1, tbl =>
    let shift := if n = 0 then 16 else 12 + 9 * n
    let idx := if n = 0 then va / 2 ^ 16 % 32 else va / 2 ^ shift % 512
    let at_ := tbl + 8 * idx
    let e := rd64 s at_
    if eccBad s at_ 8 then .ecc at_
    else if pteFaults e then .page (pteType e) n
    else if bitAt e 8 then
      if 3 ≤ n ∨ pteAddr e % 2 ^ shift ≠ 0 then .prot else .leaf e (some at_) shift
    else match tableAt stack e with
      | none => .prot
      | some t => walkFrom s stack va n t

/-- The tables of a job, walked from a stack: ROOT is read as a TYPE 1 pointer would place it (R153), and a
ROOT beyond a stack's DRAM ends the walk in PROTECTION (DESIGN CHOICE, log 68). -/
def walk (s : State) (job stack va : Nat) : Walk :=
  let root := bits (ctxW s job 0).toNat 56 12 * 2 ^ 12
  if root < 2 ^ 36 then walkFrom s stack va 5 (dramBase stack + root) else .prot

/-- The entries for an address in the TLB of a core and in that of its hardware cluster, which holds what the
TLBs of the cluster's cores have been filled with (R156; log 5). -/
def tlbFinds (s : State) (core job va : Nat) : List TlbEnt :=
  s.tlb.filter fun t =>
    decide (t.core / 8 = core / 8) && decide (t.job = job) && decide (va / 2 ^ t.bits = t.va / 2 ^ t.bits)

/-- The entries that a walk reads, from level `n` − 1 down (R152). -/
def walkReads (s : State) (stack va : Nat) : Nat → Nat → List Nat
  | 0, _ => []
  | n + 1, tbl =>
    let shift := if n = 0 then 16 else 12 + 9 * n
    let at_ := tbl + 8 * (if n = 0 then va / 2 ^ 16 % 32 else va / 2 ^ shift % 512)
    let e := rd64 s at_
    at_ :: if eccBad s at_ 8 || pteFaults e || bitAt e 8 then [] else ((tableAt stack e).map (walkReads s stack va n)).getD []

/-- A walk for an address that no TLB holds spends tokens at the homes of the entries that it reads (R156, R360). -/
def spendWalk (s : State) (w : Who) (va : Nat) : State :=
  let root := bits (ctxW s w.job 0).toNat 56 12 * 2 ^ 12
  if tlbFinds s w.core w.job va ≠ [] ∨ 2 ^ 36 ≤ root then s
  else
    let stack := stackOf w.core
    (walkReads s stack va 5 (dramBase stack + root)).foldl (fun s a => spend s (sliceOf s a / 16) 2) s

/-- Fill a core's TLB with a leaf. -/
def tlbFill (s : State) (core job va bits_ e : Nat) : State :=
  { s with tlb := { core := core, job := job, va := va / 2 ^ bits_ * 2 ^ bits_, bits := bits_,
                    pte := BitVec.ofNat 64 e } ::
      s.tlb.filter fun t =>
        !(decide (t.core = core) && decide (t.job = job) &&
          (decide (va / 2 ^ t.bits = t.va / 2 ^ t.bits) ||
           decide (va / 2 ^ bits_ = t.va / 2 ^ bits_))) }

/-- The entry apart from AC and DT. -/
def pteCore (e : Nat) : Nat := e / 4

/-- The walk has found what an entry of a TLB holds. -/
def Walk.same (r : Walk) (t : TlbEnt) : Bool :=
  match r with
  | .leaf e _ b => decide (pteCore e = pteCore t.pte.toNat) && decide (b = t.bits)
  | _ => false

/-- The leaf that an access uses: the walked one, or a cached one while software has changed the
tables and no TLBI has completed (R156; the choice is free, log 5). -/
def leafFor (s : State) (w : Who) (va : Nat) : State × Walk :=
  let r := walk s w.job (stackOf w.core) va
  match (tlbFinds s w.core w.job va).filter fun t => !r.same t with
  | [] => (s, r)
  | old =>
    ({ s with free := s.free + 1 },
      match Config.tlbPick s.free with
      | 0 => r
      | i + 1 => match old[i]? with
        | some t => .leaf t.pte.toNat none t.bits
        | none => r)

/-- The unit of the accessing unit's cluster with index `i` below U: admitted and neither completed nor
cancelled (R160, R164). One that a CANCEL has ended counts as cancelled once the work that it has issued is performed
(DESIGN CHOICE, log 78). -/
def clusterUnit (s : State) (uid i : Nat) : Option (Nat × UnitSt) :=
  match mget s.units uid with
  | none => none
  | some u =>
    match mget s.launches u.lid with
    | none => none
    | some l =>
      if i < l.unitsPer then
        match mget l.units (u.cluster * l.unitsPer + i) with
        | none => none
        | some uid' =>
          match mget s.units uid' with
          | none => none
          | some u' => if u'.ended || u'.isOver then none else some (uid', u')
      else none

/-- A byte of a core's whole scratchpad: in the share of the unit that holds it, or outside. -/
def wholeScratch (s : State) (core off : Nat) : Nat :=
  match s.units.find? fun p =>
      decide (p.2.core = core) && !p.2.ended && !p.2.isOver && decide (p.2.res ≠ .swapped) &&
      decide (p.2.shareBase ≤ off ∧ off < p.2.shareBase + p.2.shareSize) with
  | some (uid, u) => shareOf uid + (off - u.shareBase)
  | none => rawScratch core + off

/-- A unit holds a column of a core, on the core or in its swap image. -/
def ownsColumn (s : State) (uid core col : Nat) : Bool :=
  match mget s.units uid with
  | none => false
  | some u => decide (u.core = core) && !u.isOver && u.cols.contains col

/-- A byte of column `col` of a core for a unit of launch `lid`; `pref` is the unit that the access
names, whose image it reaches while that unit is swapped (R53, R164). -/
def columnByte (s : State) (core col lid off pref : Nat) : XRes :=
  if ¬ off < 2 ^ 18 then .prot
  else if ownsColumn s pref core col then .ok (columnOf pref col + off) 8
  else match s.units.find? fun p =>
      decide (p.2.core = core) && decide (p.2.res ≠ .swapped) && !p.2.isOver &&
      p.2.cols.contains col with
  | some (uid, u) => if u.lid = lid then .ok (columnOf uid col + off) 8 else .prot
  | none =>
    if (liveCols s core).contains col then .ok (rawColumn core col + off) 8
    else .refused (stackOf core * 16) 1

/-- The fibres that still lead to a package (R355). -/
def liveRoute (s : State) (pkg : Nat) : Bool :=
  decide (pkg ≠ s.part.pkg) &&
    (upTo 64).any fun f => bitAt (mgetD s.part.routes pkg 0).toNat f && !s.deadFibres.contains f

/-- The byte lies at a package that no route leads to, or at this package under its own number (R355). -/
def unreachable (s : State) (phys : Nat) : Bool := (peerOf phys).any fun p => !liveRoute s p

/-- A CXL port is enabled (R352, R357). -/
def cxlOn (s : State) : Bool := decide (s.part.ports.toNat / 16 ≠ 0)

/-- In an ordered launch, NODE modes 01 and 10 reach only what the unit itself holds (R334). -/
def ownOnly (s : State) (w : Who) (r : XRes) : XRes :=
  let ordered := match mget s.launches w.lid with
    | none => false
    | some l => l.ordered
  match r with
  | .ok phys _ =>
    match heldPart phys with
    | none => r
    | some (uid, _, _) => if ordered && decide (uid ≠ w.uid) then .prot else r
  | _ => r

/-- The target of a leaf: type, NODE and ADDR with the page offset; a control window only through an entry
with P = 1 (R154, R160, R164, R353; log 36). Where no memory stands the access receives an error response, and
in a scratchpad or B-slice PROTECTION; behind enabled CXL ports stand 8 TiB (DESIGN CHOICE, log 68). NODE bits
that the mode does not name are ignored in types 7 and 8 (DESIGN CHOICE, log 78). -/
def targetOf (s : State) (w : Who) (e bits_ va : Nat) : XRes :=
  let ty := pteType e
  let node := pteNode e
  let a := pteAddr e / 2 ^ bits_ * 2 ^ bits_ + va % 2 ^ bits_
  let stack := stackOf w.core
  let mode := node / 1024
  match ty with
  | 1 =>
    if node ≠ 0 then .prot
    else if a < 2 ^ 36 then .ok (dramBase stack + a) 1 else .refused (stack * 16 + lowSlice a) 1
  | 2 =>
    if ¬ node < 4 then .prot
    else if a < 2 ^ 36 then .ok (dramBase node + a) 2 else .refused (node * 16 + lowSlice a) 1
  | 3 =>
    if node ≠ 0 then .prot
    else if cxlOn s && decide (a < 2 ^ 43) then .ok (cxlBase + a) 3 else .refused (farSlice a) 1
  | 4 => if a % 2 ^ 46 < 2 ^ 36 then .ok (peerBase node + a) 4 else .refused (peerSlice s node a) 1
  | 5 =>
    if node ≠ 0 then .prot
    else if a < 2 ^ 38 then .ok a 5 else .refused (farSlice a) 1
  | 6 =>
    if ¬ node < 4 then .prot
    else if a < 2 ^ 31 then .ok (wsBase node + a) 6 else .refused (node * 16) 1
  | 7 =>
    if mode = 0 then
      match mget s.units w.uid with
      | none => .prot
      | some u => if a < u.shareSize then .ok (shareOf w.uid + a) 7 else .prot
    else if mode = 1 then
      match clusterUnit s w.uid (node % 8) with
      | none => .prot
      | some (uid', u') =>
        if a < u'.shareSize then ownOnly s w (.ok (shareOf uid' + a) 7) else .prot
    else if mode = 2 then
      if bitAt e 3 && coreLive s (node % 256) && decide (a < 2 ^ 18) then
        ownOnly s w (.ok (wholeScratch s (node % 256) a) 7)
      else .prot
    else .prot
  | 8 =>
    if mode = 0 then columnByte s w.core (node % 8) w.lid a w.uid
    else if mode = 1 then
      match clusterUnit s w.uid (node / 8 % 8) with
      | none => .prot
      | some (uid', u') => ownOnly s w (columnByte s u'.core (node % 8) w.lid a uid')
    else .prot
  | 9 =>
    if ¬ node < 4 then .prot
    else if a < 2 ^ 36 then .ok (dramBase node + a) 9 else .refused (node * 16 + lowSlice a) 1
  | 0xA =>
    if ¬ node < 4 then .prot
    else if a < 2 ^ 36 then .ok (dramBase node + a) 0xA else .refused (node * 16 + lowSlice a) 1
  | 0xB =>
    if node ≠ 0 then .prot
    else if ctlBase ≤ a ∧ a < ctlBase + 64 * 2 ^ 18 ∧ bitAt e 3 = false then .prot
    else .ok a 0xB
  | _ => .prot

/-- The permission bits of an entry allow an access (R153). -/
def permits (e : Nat) (k : AccKind) (priv : Bool) : Bool :=
  decide ((e % 256).land k.needs = k.needs) && (!bitAt e 3 || priv)

/-- Set AC, and DT for an access that writes, in the entry that the walk read, by an access of its home; a cached leaf
was read by no walk (R155, R360). -/
def setAcDt (s : State) (at_ : Option Nat) (e : Nat) (k : AccKind) : State :=
  let e1 := if bitAt e 1 then e else e + 2
  let e2 := if k.writes && !bitAt e1 0 then e1 + 1 else e1
  match at_ with
  | none => s
  | some a =>
    if e2 = e then s else { spend s (sliceOf s a / 16) 2 with mem := cellsPut s.mem a (bytesOf 8 e2) }

/-- A byte of a table of the launch such as OWNERS: the leaf that maps it, where its entry stands and the byte's target;
none where it may not be read (R153, R155). -/
def peekLeaf (s : State) (w : Who) (va : Nat) : Option (Nat × Option Nat × XRes) :=
  match walk s w.job (stackOf w.core) va with
  | .leaf e at_ b =>
    if AccKind.load.types.contains (pteType e) && permits e .load w.priv then some (e, at_, targetOf s w e b va)
    else none
  | _ => none

/-- Read bytes at rising virtual addresses, for tables of the launch such as OWNERS; none where a byte cannot
be read. -/
def peek (s : State) (w : Who) (va : Nat) : Nat → Option (List Byte)
  | 0 => some []
  | n + 1 =>
    match peekLeaf s w va with
    | some (_, _, .ok phys _) =>
      match peek s w (va + 1) n with
      | none => none
      | some t => some (cellGet s.mem phys :: t)
    | _ => none

/-- The walker sets AC for a byte that is read so, or whose target refuses the read; the reads spend tokens (R155,
R169, R360). -/
def peekAc (s : State) (w : Who) (va : Nat) : State :=
  match peekLeaf s w va with
  | some (e, at_, .ok phys _) => spendAccess (setAcDt (spendWalk s w va) at_ e .load) w phys
  | some (e, at_, .refused ..) => setAcDt (spendWalk s w va) at_ e .load
  | _ => s

/-! ## Ordered launches -/

/-- Look for a line in the regions of an ownership table (R330): `none` while no region holds it,
otherwise the map entry. -/
def ownerScan (s : State) (w : Who) (tbl line : Nat) : Nat → Nat → Option Nat
  | 0, _ => none
  | n + 1, i =>
    match peek s w (tbl + 16 + 32 * i) 32 with
    | none => none
    | some b =>
      let vbase := natOf (b.take 8) / 256 % 2 ^ 49
      let nlines := natOf ((b.drop 8).take 8)
      let map := natOf ((b.drop 16).take 8)
      if vbase ≤ line ∧ line < vbase + nlines then
        match peek s w (map + 4 * (line - vbase)) 4 with
        | none => none
        | some o => some (natOf o)
      else ownerScan s w tbl line n (i + 1)

/-- The owner of the line that holds a virtual address in an ordered launch; none for a shared
line (R330, R331). Lines are of 256 bytes (log 13). -/
def ownerOf (s : State) (w : Who) (va : Nat) : Option Nat :=
  match mget s.launches w.lid with
  | none => none
  | some l =>
    let tbl := recW l 14
    if tbl = 0 then none
    else match peek s w tbl 4 with
      | none => none
      | some h =>
        match ownerScan s w tbl (va / 256) (natOf h) 0 with
        | none => none
        | some o => if o < l.clusters * l.unitsPer then some o else none

/-- How an access of an ordered launch to a target type that the table covers is performed. -/
inductive Sharing where
  /-- At once: not ordered, not covered, or private to the accessing unit. -/
  | own
  /-- Private to another unit: an error response (R331). -/
  | foreign
  /-- Shared: reads see launch start, writes are buffered (R331, R332). -/
  | shared
  deriving DecidableEq, Repr

/-- How an access is performed under ordered mode (R330, R331, R334). -/
def sharing (s : State) (w : Who) (va : Nat) (ty : Nat) : Sharing :=
  match mget s.launches w.lid with
  | none => .own
  | some l =>
    if !l.ordered || w.priv || !([1, 2, 3, 4, 5, 0xA].contains ty) then .own
    else match ownerOf s w va with
      | none => if w.serial then .own else .shared
      | some o =>
        match mget s.units w.uid with
        | none => .foreign
        | some u => if unitIndex s u = o then .own else .foreign

/-- What finding the owner of a line reads: the addresses of the table's header, of the regions up to the one
that holds the line, and of the line's entry (R330). -/
def ownerReads (s : State) (w : Who) (tbl line : Nat) : Nat → Nat → List Nat
  | 0, _ => []
  | n + 1, i =>
    let at_ := tbl + 16 + 32 * i
    at_ :: match peek s w at_ 32 with
      | none => []
      | some b =>
        let vbase := natOf (b.take 8) / 256 % 2 ^ 49
        let nlines := natOf ((b.drop 8).take 8)
        if vbase ≤ line ∧ line < vbase + nlines then
          [natOf ((b.drop 16).take 8) + 4 * (line - vbase)]
        else ownerReads s w tbl line n (i + 1)

/-- The table covers an access of an ordered launch to a target type (R330, R334). -/
def covered (s : State) (w : Who) (ty : Nat) : Bool :=
  (match mget s.launches w.lid with
    | none => false
    | some l => l.ordered) && !w.priv && [1, 2, 3, 4, 5, 0xA].contains ty

/-- Finding the owner of a line sets AC for what it reads (R155, R330). -/
def ownerAc (s : State) (w : Who) (va ty : Nat) : State :=
  if covered s w ty then
    match mget s.launches w.lid with
    | none => s
    | some l =>
      let tbl := recW l 14
      if tbl = 0 then s
      else
        let n := natOf ((peek s w tbl 4).getD [])
        (tbl :: ownerReads s w tbl (va / 256) n 0).foldl (fun s a => peekAc s w a) s
  else s

/-! ## Translation of an access -/

/-- Translate one byte address for an access: the walk, the permissions, the target (R151 to
R156, R160, R164, R330). A target that refuses the access has been translated: AC, DT and the TLB follow (R155, R169). -/
def xlat (s : State) (w : Who) (k : AccKind) (va : Word) : State × XRes :=
  if 2 ^ 57 ≤ va.toNat then (s, .prot)
  else
    match leafFor (spendWalk s w va.toNat) w va.toNat with
    | (s, .page ty lv) => (s, .page ty lv)
    | (s, .ecc at_) => (s, .refused (sliceOf s at_) 0)
    | (s, .prot) => (s, .prot)
    | (s, .leaf e at_ b) =>
      if !(k.types.contains (pteType e)) || !permits e k w.priv then (s, .prot)
      else
        match targetOf s w e b va.toNat with
        | .ok phys ty =>
          (ownerAc (tlbFill (setAcDt s at_ e k) w.core w.job va.toNat b e) w va.toNat ty, .ok phys ty)
        | .refused sl why => (tlbFill (setAcDt s at_ e k) w.core w.job va.toNat b e, .refused sl why)
        | r => (s, r)

/-! ## The fault queue -/

/-- A ring of 2^lg entries is full when its tail is one below its head (R316). -/
def ringFull (lg head tail : Nat) : Bool := decide ((tail + 1) % 2 ^ lg = head % 2 ^ lg)

/-- Write a fault-queue entry into its job's ring if there is room (R157, R158). -/
def faultPut (s : State) (id : Nat) (f : FaultEnt) : State :=
  let w1 := (ctxW s f.job 1).toNat
  let w2 := (ctxW s f.job 2).toNat
  let lg := bits w1 63 60
  let head := bits w2 63 48
  let tail := bits w2 47 32
  if ringFull lg head tail then { s with faults := mput s.faults id { f with ring := none } }
  else
    let s := wr s (bits w1 56 0 + 32 * tail) (wordsBytes f.words)
    let tail' := (tail + 1) % 2 ^ lg
    let s := setCtxW s f.job 2 (BitVec.ofNat 64 (w2 - tail * 2 ^ 32 + tail' * 2 ^ 32))
    { s with faults := mput s.faults id { f with ring := some tail } }

/-- Enter a faulting page in the job's fault queue; the entry's number comes back (R157, R158). -/
def faultEnter (s : State) (w : Who) (k : AccKind) (va : Word) (ty level : Nat) : State × Nat :=
  let id := s.nextId
  let eng := decide (k.code = 4 ∨ k.code = 5)
  let words : List Word :=
    [BitVec.ofNat 64 (k.code * 2 ^ 60 + va.toNat % 2 ^ 57),
     BitVec.ofNat 64 (ty * 2 ^ 60 + level * 2 ^ 57),
     BitVec.ofNat 64 w.lid,
     BitVec.ofNat 64 ((if eng then w.cmd * 2 ^ 14 else 0) + w.slot * 2 ^ 8 + w.core)]
  let f : FaultEnt :=
    { job := w.job, words := words, ring := none, served := false, rejected := false }
  (faultPut { s with nextId := id + 1 } id f, id)

/-- The entries of a list that are still neither served nor rejected. -/
def pagesOpen (s : State) (ids : List Nat) : List Nat :=
  ids.filter fun i =>
    match mget s.faults i with
    | none => false
    | some f => !f.served && !f.rejected

/-- One of the entries has been rejected (R339). -/
def pagesRejected (s : State) (ids : List Nat) : List Nat :=
  ids.filter fun i =>
    match mget s.faults i with
    | none => false
    | some f => f.rejected

/-- The virtual address that a fault-queue entry names. -/
def pageVa (s : State) (id : Nat) : Word :=
  match mget s.faults id with
  | none => 0
  | some f => BitVec.ofNat 64 ((f.words.getD 0 0).toNat % 2 ^ 57)

/-! ## Presence -/

/-- Where the presence of a byte's line or block is kept: its unit (0 for none), whether it is a block, and its
number; none for a target without presence bits (R162, R164). -/
def presPlace (phys : Nat) : Option (Nat × Bool × Nat) :=
  match heldPart phys with
  | some (uid, part, off) =>
    if part = 0 then some (uid, false, off / 128) else some (uid, true, (part - 1) * 64 + off / 4096)
  | none =>
    if rawScratch 0 ≤ phys ∧ phys < rawColumn 0 0 then some (0, false, phys / 128)
    else if rawColumn 0 0 ≤ phys ∧ phys < ctlBase then some (0, true, phys / 4096)
    else none

/-- A pending count. -/
def pendCount (s : State) (uid : Nat) (blk : Bool) (idx : Nat) : Nat :=
  if uid = 0 then mgetD s.rawPend idx 0
  else match mget s.units uid with
    | none => 0
    | some u => mgetD (if blk then u.blocks else u.lines) idx 0

/-- The pending count of the line or block that holds a byte; none for a target without presence
bits (R162, R164). -/
def pendingAt (s : State) (phys : Nat) : Option Nat :=
  (presPlace phys).map fun p => pendCount s p.1 p.2.1 p.2.2

/-- Every line or block that `n` bytes touch is PRESENT. -/
def presentAll (s : State) (phys n : Nat) : Bool :=
  (pendingAt s phys).getD 0 = 0 && (pendingAt s (phys + n - 1)).getD 0 = 0

/-- A weight-store byte lies in a refreshing bank (R166). -/
def refreshing (s : State) (phys : Nat) : Bool :=
  if wsBase 0 ≤ phys ∧ phys < cxlBase then
    let b := phys / 128 % 64
    decide ((s.cycle + 72000 * 1125 - 1125 * b) % 72000 < 2700)
  else false

end Sys2Proof.Machine
end

