-- ==== Sys2Proof/Machine/Access.lean ====
section
/-! DEFINITION. What an access does at its target: plain reads and writes, ordered-launch reads,
atomics, device registers, flint cells, expert counters and serial buffers (10 R165 to R170, R179,
18 R285, R287, 20 R303 to R313, 22 R331, R332, 24 R351, R353). -/

namespace Sys2Proof.Machine

/-! ## Reads and writes -/

/-- One byte of a shared line: as at launch start, or as changed from outside since (R331). -/
def sharedByte (s : State) (snap : List Host.Cell) (a : Nat) : State × Byte :=
  let old := cellGet snap a
  let new := cellGet s.mem a
  if old = new then (s, old)
  else ({ s with free := s.free + 1 }, if Config.sharedNew s.free then new else old)

/-- Bytes of a shared line at launch start (R331). -/
def sharedBytes (s : State) (snap : List Host.Cell) : Nat → Nat → State × List Byte
  | _, 0 => (s, [])
  | a, n + 1 =>
    let (s1, b) := sharedByte s snap a
    let (s2, t) := sharedBytes s1 snap (a + 1) n
    (s2, b :: t)

/-- The memory of a launch at its start. -/
def snapOf (s : State) (lid : Nat) : List Host.Cell :=
  match mget s.launches lid with
  | none => s.mem
  | some l => l.snap

/-- The access writes: it is a store, an atomic, a flint proposal or the like. -/
def AccOp.writes : AccOp → Bool
  | .read | .pres | .fread _ | .fwait _ | .xrd _ => false
  | _ => true

/-- The request reads. -/
def AccOp.reads : AccOp → Bool
  | .write _ => false
  | _ => true

/-- The request is still to be performed. -/
def Req.open_ (r : Req) : Bool := decide (r.st = .waiting) || decide (r.st = .waiter)

/-- Read at a target; none is an error response, logged (R169, R331, R355). -/
def readTgt (s : State) (w : Who) (va : Word) (phys n : Nat) (shared : Bool) :
    State × Option (List Byte) :=
  let s := spendAccess s w phys
  if eccBad s phys n then (vlogAdd s (sliceOf s phys) 0 va w, none)
  else if unreachable s phys then (vlogAdd s (sliceOf s phys) 1 va w, none)
  else if shared then
    let (s, b) := sharedBytes s (snapOf s w.lid) phys n
    (s, some b)
  else (s, some (rd s phys n))

/-- The physical byte lies in a weight store. -/
def isWeight (phys : Nat) : Bool := decide (wsBase 0 ≤ phys ∧ phys < cxlBase)

/-! ## Scopes (R185, R188) -/

/-- Two byte ranges meet. -/
def meets (a n b m : Nat) : Bool := decide (a < b + m) && decide (b < a + n)

/-- Two crews' threads belong to one instance of a scope: crew, unit, cluster of a launch, die, and above these
the package (R185). -/
def sameInstance (s : State) (scope : Nat) (a b : Who) : Bool :=
  match scope with
  | 1 => decide (a.uid = b.uid ∧ a.core = b.core ∧ a.slot = b.slot)
  | 2 => decide (a.uid = b.uid)
  | 3 => match mget s.units a.uid, mget s.units b.uid with
    | some u, some v => decide (u.lid = v.lid ∧ u.cluster = v.cluster)
    | _, _ => decide (a.uid = b.uid)
  | 4 => decide (stackOf a.core = stackOf b.core)
  | _ => true

/-- What other threads must not touch before a store is performed: its own bytes, when a sequential order of its
thread has passed it, and those of the atomics that went ahead of it, each with the scope (R187, R188, R193). -/
def Req.veils (q : Req) : List (Nat × Nat × Nat) :=
  if q.st = .waiting then (if q.vis = 0 then q.ahead else (q.vis, q.phys, q.n) :: q.ahead) else []

/-- A store still to be performed, made by another thread, keeps bytes that a test finds from the threads of a scope in
which this one lies (R187, R188, R193). -/
def veil (s : State) (w : Who) (lane : Option Nat) (p? : Nat → Nat → Bool) : Bool :=
  s.crews.any fun d =>
    let v := whoLane s d.2 0 d.2.priv
    let own := decide (v.uid = w.uid ∧ v.core = w.core ∧ v.slot = w.slot)
    d.2.ops.any fun o => o.reqs.any fun q => q.veils.any fun b =>
      p? b.2.1 b.2.2 && !(own && decide (lane = some q.lane)) && sameInstance s b.1 v w

/-- An access of bytes has to wait for such a store. -/
def veiled (s : State) (w : Who) (lane : Option Nat) (phys n : Nat) : Bool :=
  veil s w lane fun a m => meets a m phys n

/-- A unit is running on the package. -/
def anyRunning (s : State) : Bool := s.units.any fun p => !p.2.ended && !p.2.isOver

/-- Write at a target; false is an error response, logged (R165, R169, R355). -/
def writeTgt (s : State) (w : Who) (va : Word) (phys : Nat) (data : List Byte) : State × Bool :=
  let s := spendAccess s w phys
  if eccBad s phys data.length then (vlogAdd s (sliceOf s phys) 0 va w, false)
  else if isWeight phys || unreachable s phys then (vlogAdd s (sliceOf s phys) 1 va w, false)
  else (wr s phys data, true)

/-! ## Atomics -/

/-- The new value of a location (R179); operands of the form's width. -/
def atomNew (op : Nat) (w64 : Bool) (old v x : Nat) : Nat :=
  let n := if w64 then 64 else 32
  let so := signedOf n old
  let sv := signedOf n v
  let f (r : FRes) := r.bits
  match op with
  | 0x64 => (old + v) % 2 ^ n
  | 0x65 => old.land v
  | 0x66 => old.lor v
  | 0x67 => old.xor v
  | 0x68 => if sv < so then v else old
  | 0x69 => if so < sv then v else old
  | 0x6A => if v < old then v else old
  | 0x6B => if old < v then v else old
  | 0x6C => v
  | 0x6D => if old = v then x else old
  | 0x6E =>
    let r := f (fAdd f32 1 (fdec f32 old) (fdec f32 v))
    if r % 2 ^ 31 = 0 then 0 else r
  | 0x6F => f (fMinMax f32 false true old v)
  | 0x70 => f (fMinMax f32 true true old v)
  | _ => old

/-- The width of an atomic in bytes. -/
def atomBytes (w64 : Bool) : Nat := if w64 then 8 else 4

/-- Perform an atomic at a physical address: the old bytes, or an error response (R180). -/
def atomTgt (s : State) (w : Who) (va : Word) (phys op : Nat) (w64 : Bool) (v x : Word) :
    State × Option (List Byte) :=
  let n := atomBytes w64
  let s := spendAccess s w phys
  if eccBad s phys n then (vlogAdd s (sliceOf s phys) 0 va w, none)
  else if unreachable s phys then (vlogAdd s (sliceOf s phys) 1 va w, none)
  else
    let old := rd s phys n
    let new := atomNew op w64 (natOf old) (v.toNat % 2 ^ (8 * n)) (x.toNat % 2 ^ (8 * n))
    (wr s phys (bytesOf n new), some old)

/-! ## Serial buffers -/

/-- Bytes that an entry takes in a serial buffer (log 27). -/
def serSize : SerEntry → Nat
  | .store _ _ d _ _ => 16 + d.length
  | .cmd .. => 64
  | _ => 32

/-- A launch carries ORDERED. -/
def isOrdered (s : State) (lid : Nat) : Bool :=
  match mget s.launches lid with
  | none => false
  | some l => l.ordered

/-- Append an entry to a unit's serial buffer; false when it would pass 1 MiB (R332). -/
def serAppend (s : State) (uid : Nat) (e : SerEntry) : State × Bool :=
  match mget s.units uid with
  | none => (s, true)
  | some u =>
    if 2 ^ 20 < u.serialBytes + serSize e then (s, false)
    else
      (modUnit s uid fun u =>
        { u with serial := u.serial ++ [e], serialBytes := u.serialBytes + serSize e }, true)

/-- Fold a unit's buffered atomics over the launch-start value `v` of the aligned 8-byte word with number `word`, each
at its own width and place (R332). -/
def serFold (word v : Nat) : List SerEntry → Nat
  | [] => v
  | .atom p _ op w64 a x _ _ :: t =>
    if p / 8 = word then
      let n := atomBytes w64
      let low := 2 ^ (8 * (p % 8))
      let old := v / low % 2 ^ (8 * n)
      serFold word (v - old * low + atomNew op w64 old (a.toNat % 2 ^ (8 * n)) (x.toNat % 2 ^ (8 * n)) * low) t
    else serFold word v t
  | _ :: t => serFold word v t

/-! ## Device registers (R353, R356 to R359) -/

/-- First byte of the package registers. -/
def pkgBase : Nat := 0xC1000000000

/-- The live-channel count of a stack. -/
def liveChannels (s : State) (stack : Nat) : Nat := popNat 16 (mgetD s.part.channels stack 0xFFFF).toNat

/-- CAPS (R359). -/
def capsOf (s : State) : Word :=
  let cs := (liveCores s).map fun c => (liveCols s c).length
  let chan := liveChannels s 0 - 1 + (liveChannels s 1 - 1) * 16 + (liveChannels s 2 - 1) * 256 +
    (liveChannels s 3 - 1) * 4096
  BitVec.ofNat 64 (chan * 2 ^ 32 + cs.foldl max 0 * 2 ^ 28 + cs.foldl min 8 * 2 ^ 24 + cs.length)

/-- The capability table: the live-core mask, then a column mask for each core (R359). -/
def capTable (s : State) : List Byte :=
  bytesOf 32 s.part.cores.toNat ++ (upTo 256).map fun c => mgetD s.part.columns c 0xFF

/-- The package registers that read as the specification gives: (offset, bytes). -/
def pkgRegs (s : State) : List (Nat × List Byte) :=
  [(0, bytesOf 8 s.bootst.toNat),
   (0x100, (s.meas.map fun m => bytesOf 64 m.toNat).flatten),
   (0x400, s.report),
   (0x1000, capTable s)]

/-- A byte of a device register; what the specification does not give is free (log 20). -/
def deviceByteAt (s : State) (a : Nat) : Byte :=
  match (pkgRegs s).find? fun r => decide (pkgBase + r.1 ≤ a ∧ a < pkgBase + r.1 + r.2.length) with
  | some r => r.2.getD (a - pkgBase - r.1) 0
  | none => Config.deviceByte s.free a

/-- The address is a device register's: a control window or the package registers. -/
def isDevice (a : Nat) : Bool :=
  decide ((ctlBase ≤ a ∧ a < ctlBase + 64 * 2 ^ 18) ∨ (pkgBase ≤ a ∧ a < pkgBase + 2 ^ 20))

/-- Read device registers; none is an error response (R351). -/
def mmioRead (s : State) (w : Who) (va : Word) (a n : Nat) : State × Option (List Byte) :=
  let s := spendAccess s w a
  if isDevice a then ({ s with free := s.free + 1 }, some ((upTo n).map fun i => deviceByteAt s (a + i)))
  else (vlogAdd s (slice0 w) 1 va w, none)

/-- BOOTST says that the package is ready for launches (R356). -/
def launchReady (s : State) : Bool := decide (s.bootst = 4)

/-- Who stores to a control window, as the object of the event that the store makes: 0 for the host, else the
lanes, crew slot and core, and the address that the thread used. -/
def reqCode (w : Who) (va : Word) : Nat :=
  if w.host then 0 else 1 + w.lanes.toNat + (w.core * 64 + w.slot) * 2 ^ 32 + va.toNat * 2 ^ 46

/-- The requester that `reqCode` numbers, for a job. -/
def reqWho (job n : Nat) : Who :=
  if n = 0 then whoHost job
  else { whoHost job with
    host := false, core := (n - 1) / 2 ^ 38 % 256, slot := (n - 1) / 2 ^ 32 % 64, lanes := BitVec.ofNat 32 (n - 1) }

/-- The address of the store that `reqCode` numbers, where the host's was `own` (R341). -/
def reqAddr (own : Word) (n : Nat) : Word := if n = 0 then own else BitVec.ofNat 64 ((n - 1) / 2 ^ 46)

/-- The event that a store to a control-window register makes (R353); none for an offset without a
register. -/
def ctlEvent (job off : Nat) (v : Word) : Option Instr :=
  let n := v.toNat
  if off = 0 then some (.lqtailWrite job (BitVec.ofNat 16 n) [])
  else if off = 8 then some (.ringHeadWrite job (BitVec.ofNat 16 (n / 2 ^ 48)) (BitVec.ofNat 16 (n / 2 ^ 16)))
  else if off = 0x10 then
    let id := n % 2 ^ 56
    match n / 2 ^ 56 with
    | 0 => some (.hostCancelUnit job (id / 2 ^ 32) (id % 2 ^ 32))
    | 1 => some (.hostCancelLaunch job id)
    | 2 => some (.hostCancelGraph job (BitVec.ofNat 64 id))
    | 3 => some (.hostCancelPhase job id)
    | 4 => some (.hostCancelJob job)
    | _ => none
  else if 0x1000 ≤ off ∧ off ≤ 0x20FF8 ∧ off % 8 = 0 then
    let cs := (off - 0x1000) / 8
    if n / 2 ^ 56 = 1 ∧ n % 2 ^ 56 = 0 then some (.dispResume job cs)
    else if n / 2 ^ 56 = 2 ∧ n % 2 ^ 56 = 0 then some (.dispKill job cs)
    else if n / 2 ^ 56 = 3 ∧ n % 2 ^ 56 = 0 then some (.dispFail job cs)
    else if n / 2 ^ 56 = 4 ∧ n % 2 ^ 56 < 2 ^ 16 then some (.dispReject job cs (BitVec.ofNat 16 n))
    else none
  else none

/-- The GRAPH command that a store to GRAPHCMD names, read through the job's tables (R353, R328); none before the
package is ready for launches (R356). -/
def ctlGraph (s : State) (w : Who) (job : Nat) (v : Word) : Option Instr :=
  match peek s (whoHost job) v.toNat 64 with
  | none => none
  | some b =>
    let w0 := natOf (b.take 8)
    let w1 := wordOf ((b.drop 8).take 8)
    let c : GraphCmd :=
      { job := job, stack := 0, addr := w1, task := w0 % 2 ^ 16, queued := false,
        core := 0, slot := 0, lane := 0, id := 0, req := reqCode w 0 }
    if bits w0 55 16 ≠ 0 ∨ natOf (b.drop 16) ≠ 0 ∨ launchReady s = false then none
    else match w0 / 2 ^ 56 with
      | 0 => some (.graphStart c)
      | 1 => some (.graphRetry c)
      | 2 => some (.graphAbandon c)
      | 3 => some (.graphCancel c)
      | 4 => some (.graphLaunch c)
      | _ => none

/-- A store of a word to a register of a control window makes its event the next happening; a GRAPHCMD whose
command cannot be read or has bad fields ends with an error (R328, R351, R353). -/
def ctlStore (s : State) (w : Who) (va : Word) (job off : Nat) (v : Word) : State × Bool :=
  match if off = 0x18 then ctlGraph s w job v else ctlEvent job off v with
  | some i =>
    ({ (if off = 0x18 then peekAc s (whoHost job) v.toNat else s) with
      agenda := .event i (reqCode w va) :: s.agenda }, true)
  | none =>
    if off = 0x18 then (vlogAdd s (slice0 w) 6 v w, true)
    else (vlogAdd s (slice0 w) 1 va w, decide (0x1000 ≤ off ∧ off ≤ 0x20FF8))

/-- Write device registers: a store to a control window makes its event the next happening; false is an
error response (R351, R353). -/
def mmioWrite (s : State) (w : Who) (va : Word) (a : Nat) (data : List Byte) : State × Bool :=
  let s := spendAccess s w a
  if ctlBase ≤ a ∧ a < ctlBase + 64 * 2 ^ 18 ∧ data.length = 8 then
    ctlStore s w va ((a - ctlBase) / 2 ^ 18) ((a - ctlBase) % 2 ^ 18) (wordOf data)
  else (vlogAdd s (slice0 w) 1 va w, false)

/-! ## Flint cells -/

/-- The winner id of a proposer, as the upper bits of word 1 (R303). -/
def winnerOf (core slot lane : Nat) (eng : Bool) : Nat :=
  (stackOf core * 2 ^ 62) + core % 64 * 2 ^ 56 +
    (if eng then 2 ^ 44 else slot * 2 ^ 50 + lane * 2 ^ 45)

/-- STATE of word 1. -/
def cellState (w1 : Nat) : Nat := bits w1 23 16
/-- GEN of word 1. -/
def cellGen (w1 : Nat) : Nat := w1 % 2 ^ 16
/-- The winner id in place. -/
def cellWinner (w1 : Nat) : Nat := w1 / 2 ^ 24 * 2 ^ 24

/-- A tag that no decided value carries: UNB, LNB or reserved (R303, R310). -/
def badCellTag (v : Nat) : Bool := decide (v / 2 ^ 60 = 0 ∨ 8 ≤ v / 2 ^ 60)

/-- A malformed cell (R303). -/
def cellBad (v w1 : Nat) : Bool :=
  decide (2 ≤ cellState w1) || decide (bits w1 43 24 ≠ 0) ||
    (decide (cellState w1 = 0) && (decide (v ≠ 0) || decide (w1 / 2 ^ 44 ≠ 0))) ||
    (decide (cellState w1 = 1) && badCellTag v)

/-- How a request for generation `p` meets a cell of generation `g`: 0 current, 1 ahead, 2 stale
(R304). -/
def genClass (p g : Nat) : Nat :=
  let d := (p + 2 ^ 16 - g) % 2 ^ 16
  if d = 0 then 0 else if d ≤ 32767 then 1 else 2

/-- A status word (R309). -/
def statusWord (winner status gen : Nat) : Word :=
  BitVec.ofNat 64 (winner / 2 ^ 24 * 2 ^ 24 + status * 2 ^ 16 + gen % 2 ^ 16)

/-- The reply of a home: a value and a status word, or an error response. -/
abbrev Reply := Option (Word × Word)

/-- An error response of a flint request: logged with kind 4, or kind 0 for an uncorrectable
error (R169, R303, R305). -/
def cellError (s : State) (w : Who) (va : Word) (phys : Nat) : State :=
  vlogAdd s (sliceOf s phys) (if eccBad s phys 16 then 0 else 4) va w

/-- A read of a cell for generation `p`: the reply of FREAD (R311); the last part says that FWAIT
would wait. -/
def cellRead (v w1 p : Nat) : Word × Word × Bool :=
  let g := cellGen w1
  match genClass p g with
  | 0 =>
    if cellState w1 = 1 then (BitVec.ofNat 64 v, statusWord w1 0 g, false)
    else (0, statusWord w1 1 g, true)
  | 1 => (0, statusWord w1 3 g, true)
  | _ => (BitVec.ofNat 64 v, statusWord w1 2 g, false)

/-- Answer a waiting request if its cell is decided or its generation has passed (R312). -/
def releaseReq (phys v w1 : Nat) (r : Req) : Req :=
  match r.st, r.op with
  | .waiter, .fwait p =>
    if r.phys = phys then
      let (a, b, wait) := cellRead v w1 p.toNat
      if wait then r else { r with st := .done, val := wordsBytes [a, b] }
    else r
  | _, _ => r

/-- The requests of a cell still wait. -/
def stillWaits (v w1 : Nat) (x : Waiter) : Bool := (cellRead v w1 x.gen.toNat).2.2

/-- Remember a decision in a core's flint cache (R306). -/
def cacheDecision (s : State) (core phys : Nat) (gen : BitVec 16) (v st : Word) : State :=
  if s.fcache.any fun e => decide (e.1 = core ∧ e.2.1 = phys ∧ e.2.2.1 = gen) then s
  else { s with fcache := (core, phys, gen, v, st) :: s.fcache }

/-- A reply that reports the decision of generation `p`, by status 0 or 1 with a value, fills the flint cache of
the instruction's core (R306). -/
def cacheReply (s : State) (core phys : Nat) (p : BitVec 16) (v st : Word) : State :=
  let status := st.toNat / 2 ^ 16 % 4
  if status = 0 then cacheDecision s core phys p v st
  else if status = 1 then cacheDecision s core phys p v (st - 0x10000)
  else s

/-- The cores whose crews have a waiter of a cell for a generation. -/
def waiterCores (s : State) (phys : Nat) (gen : BitVec 16) : List Nat :=
  (s.waiters.filter fun x => decide (x.phys = phys ∧ x.gen = gen)).filterMap fun x =>
    (mget s.crews x.crew).map (·.core)

/-- Release the waiters of a cell after its state has changed (R305, R306, R312). -/
def releaseWaiters (s : State) (phys : Nat) : State :=
  let v := rd64 s phys
  let w1 := rd64 s (phys + 8)
  let gen := BitVec.ofNat 16 (cellGen w1)
  let s := if cellState w1 = 1 then
      (waiterCores s phys gen).foldl (fun s core =>
        cacheDecision s core phys gen (BitVec.ofNat 64 v) (statusWord w1 0 gen.toNat)) s
    else s
  { s with
    crews := s.crews.map fun (k, c) =>
      (k, { c with ops := c.ops.map fun o => { o with reqs := o.reqs.map (releaseReq phys v w1) } })
    waiters := s.waiters.filter fun x => decide (x.phys ≠ phys) || stillWaits v w1 x }

/-- A proposal of `v` for generation `p` at its home (R305). -/
def proposeHome (s : State) (w : Who) (va : Word) (phys : Nat) (v : Word) (p : BitVec 16)
    (winner : Nat) : State × Reply :=
  let cv := rd64 s phys
  let w1 := rd64 s (phys + 8)
  if eccBad s phys 16 || cellBad cv w1 then (cellError s w va phys, none)
  else
    let g := cellGen w1
    match genClass p.toNat g with
    | 1 => (cellError s w va phys, none)
    | 0 =>
      if cellState w1 = 1 then (s, some (BitVec.ofNat 64 cv, statusWord w1 1 g))
      else
        let s := wr64 (wr64 s phys v.toNat) (phys + 8) (winner + 2 ^ 16 + g)
        (releaseWaiters s phys, some (v, statusWord winner 0 g))
    | _ => (s, some (BitVec.ofNat 64 cv, statusWord w1 2 g))

/-- FPROP's proposal: its reply fills the flint cache of its core (R305, R306). -/
def propose (s : State) (w : Who) (va : Word) (phys : Nat) (v : Word) (p : BitVec 16)
    (winner : Nat) : State × Reply :=
  match proposeHome (spendAccess s w phys) w va phys v p winner with
  | (s, some (a, st)) => (cacheReply s w.core phys p a st, some (a, st))
  | r => r

/-- FRCY of generation `g` at its home: the status word that wD receives (R305, R313). -/
def recycle (s : State) (w : Who) (va : Word) (phys : Nat) (p : BitVec 16) : State × Option Word :=
  let cv := rd64 s phys
  let w1 := rd64 s (phys + 8)
  if eccBad s phys 16 || cellBad cv w1 then (cellError s w va phys, none)
  else
    let g := cellGen w1
    if p.toNat ≠ g then (s, some (statusWord w1 2 g))
    else if cellState w1 ≠ 1 then (s, some (statusWord w1 1 g))
    else
      let g' := (g + 1) % 2 ^ 16
      let s := wr64 (wr64 s phys 0) (phys + 8) g'
      (releaseWaiters s phys, some (statusWord w1 0 g'))

/-- The decision that a core's flint cache holds, if the read is answered from it (R306, R311). -/
def cachedDecision (s : State) (core phys : Nat) (p : BitVec 16) : State × Reply :=
  match s.fcache.find? fun e => decide (e.1 = core ∧ e.2.1 = phys ∧ e.2.2.1 = p) with
  | none => (s, none)
  | some (_, _, _, v, st) =>
    if Config.flintServes s.free then ({ s with free := s.free + 1 }, some (v, st))
    else ({ s with free := s.free + 1 }, none)

/-- The outcome of a flint read: answered, an error response, or a wait. -/
inductive FRead where
  | reply (v st : Word)
  | error
  | wait
  deriving DecidableEq, Repr

/-- FREAD or FWAIT at its home, or from the flint cache (R311, R312). -/
def flintRead (s : State) (w : Who) (va : Word) (phys : Nat) (p : BitVec 16) (waits : Bool) :
    State × FRead :=
  match cachedDecision s w.core phys p with
  | (s, some (v, st)) => (s, .reply v st)
  | (s, none) =>
    let cv := rd64 s phys
    let w1 := rd64 s (phys + 8)
    if eccBad s phys 16 || cellBad cv w1 then (cellError s w va phys, .error)
    else
      let (v, st, wait) := cellRead cv w1 p.toNat
      let s := spendAccess s w phys
      let s := if st.toNat / 2 ^ 16 % 4 = 0 then cacheDecision s w.core phys p v st else s
      if wait && waits then (s, .wait) else (s, .reply v st)

/-- Register a waiter for a crew; false when the slice's table of 64 is full (R312). -/
def addWaiter (s : State) (crew phys : Nat) (p : BitVec 16) : State × Bool :=
  let sl := sliceOf s phys
  if s.waiters.any fun x => decide (x.crew = crew ∧ x.phys = phys ∧ x.gen = p) then (s, true)
  else if 64 ≤ (s.waiters.filter fun x => decide (x.slice = sl)).length then (s, false)
  else ({ s with waiters := { crew := crew, phys := phys, gen := p, slice := sl } :: s.waiters }, true)

/-- The status-1 word of an FWAIT that may not wait (R309, R312). -/
def noWaitWord (s : State) (phys : Nat) : Word :=
  let w1 := rd64 s (phys + 8)
  statusWord w1 1 (cellGen w1)

/-! ## Flint cells in an ordered launch (R315) -/

/-- The first buffered proposal of a unit to a cell and generation. -/
def firstProp (phys : Nat) (p : BitVec 16) : List SerEntry → Option (Word × Word)
  | [] => none
  | .prop a _ v g wn _ _ :: t => if a = phys ∧ g = p then some (v, wn) else firstProp phys p t
  | _ :: t => firstProp phys p t

/-- FPROP in an ordered launch: buffered, with the reply formed from launch start (R315). The last
part says that the buffer overflowed. -/
def proposeOrdered (s : State) (w : Who) (va : Word) (phys : Nat) (v : Word) (p : BitVec 16)
    (winner lane : Nat) : State × Reply × Bool :=
  let snap := snapOf s w.lid
  let cv := natOf (cellsGet snap phys 8)
  let w1 := natOf (cellsGet snap (phys + 8) 8)
  if cellBad cv w1 then (cellError s w va phys, none, false)
  else
    let first := match mget s.units w.uid with
      | none => none
      | some u => firstProp phys p u.serial
    let g := cellGen w1
    let cls := genClass p.toNat g
    if cls = 1 then (cellError s w va phys, none, false)
    else
      match serAppend s w.uid (.prop phys va v p (BitVec.ofNat 64 winner) w.slot lane) with
      | (s, false) => (s, none, true)
      | (s, true) =>
        if cls = 2 then (s, some (BitVec.ofNat 64 cv, statusWord w1 2 g), false)
        else if cellState w1 = 1 then
          (cacheReply s w.core phys p (BitVec.ofNat 64 cv) (statusWord w1 1 g),
            some (BitVec.ofNat 64 cv, statusWord w1 1 g), false)
        else match first with
          | some (v1, wn) => (s, some (v1, statusWord wn.toNat 1 g), false)
          | none => (s, some (v, statusWord winner 0 g), false)

/-- FREAD or FWAIT in an ordered launch: from launch start, never waiting (R315). -/
def flintReadOrdered (s : State) (w : Who) (phys : Nat) (p : BitVec 16) (waits : Bool) : Reply :=
  let snap := snapOf s w.lid
  let cv := natOf (cellsGet snap phys 8)
  let w1 := natOf (cellsGet snap (phys + 8) 8)
  if cellBad cv w1 then none
  else
    let (v, st, wait) := cellRead cv w1 p.toNat
    if wait && waits then some (0, statusWord w1 1 (cellGen w1)) else some (v, st)

/-! ## Expert counters -/

/-- Where a counter stands among the locations that accesses are ordered by: above every byte of memory (R287). -/
def xctrPlace (x : Nat) : Nat := 2 ^ 90 + 4 * x

/-- The package counter of counter id `c` of a job; none outside the window (R285). -/
def xIndex (s : State) (job c : Nat) : Option Nat :=
  let w := (ctxW s job 6).toNat
  if c < bits w 32 16 then some ((bits w 15 0 + c) % 65536) else none

/-- Add to an expert counter, saturating (R287). -/
def xAdd (s : State) (x inc : Nat) : State :=
  { s with xctrs := mput s.xctrs x (min (mgetD s.xctrs x 0 + inc) 0xFFFFFFFF) }

end Sys2Proof.Machine
end

