-- ==== Sys2Proof/Machine/Flags.lean ====
section
/-! DEFINITION. Results with their sticky flags: recorded float steps over a symbol (20 R294, R296),
reductions, and the conversions CVTS, CVTD, CVTU and ABSMX (08 R124, R143 to R150). -/

namespace Sys2Proof.Machine

/-! ## Float steps -/

/-- A two- or three-operand float instruction on words: a + b, a × b, or d ± a × b (R129). -/
def fopEval (op : FOp) (ng : Bool) (t mode : Nat) (a b d : Nat) : FRes :=
  let f := fmtOf t
  let x := fdec f a
  let y := fdec f b
  match op with
  | .add => fAdd f mode x y
  | .mul => fMul f mode x y
  | .fma => fFma f mode (if ng then x.flip else x) y (fdec f d)

/-- Perform a recorded step on a value at its open position (R294, R296). -/
def FStep.eval (st : FStep) (u : Nat) : FRes :=
  let xs := (st.known.take st.hole).map (·.toNat) ++ u :: (st.known.drop st.hole).map (·.toNat)
  fopEval st.op st.ng st.t st.rnd (xs.getD 0 0) (xs.getD 1 0) (xs.getD 2 0)

/-- Replay a chain on the unknown: the last step's result (R296). -/
def chainEval : List FStep → FRes → FRes
  | [], r => r
  | st :: t, r => chainEval t (st.eval r.bits)

/-- The value that a register entry receives when its symbol arrives with `u` (R293, R296). -/
def RegVal.resolve (v : RegVal) (u : Word) : Word :=
  match v with
  | .known w => w
  | .iform _ a b => a * u + b
  | .fform _ steps => BitVec.ofNat 64 (chainEval steps { bits := u.toNat, flags := 0 }).bits

/-- The flags that the recorded steps of a lane raise at arrival: each its own, once (R296). -/
def stepFlags (recs : List (List FStep)) (u : Word) : Nat :=
  recs.foldl (fun fl steps => fl.lor (chainEval steps { bits := u.toNat, flags := 0 }).flags) 0

/-! ## Reductions over the crew -/

/-- One halving pass of the fixed tree over pairs (j, j + h) (R114, R143). -/
def treePass {α : Type} (op : α → α → α) (h : Nat) (v : List α) : List α :=
  ((v.take h).zip (v.drop h)).map fun p => op p.1 p.2

/-- The root of the fixed tree over 32 values (R114). -/
def tree32 {α : Type} (op : α → α → α) (d : α) (v : List α) : α :=
  (treePass op 1 (treePass op 2 (treePass op 4 (treePass op 8 (treePass op 16 v))))).headD d

/-- FRED's operation on two values with their flags (R143). -/
def fredOp (op t mode : Nat) (a b : FRes) : FRes :=
  let f := fmtOf t
  let r := match op with
    | 0 => fAdd f mode (fdec f a.bits) (fdec f b.bits)
    | 1 => fMinMax f true true a.bits b.bits
    | _ => fMinMax f false true a.bits b.bits
  { bits := r.bits, flags := (a.flags.lor b.flags).lor r.flags }

/-- The identity of FRED: −0.0, or the canonical NaN (R143). -/
def fredId (op t : Nat) : Nat := if op = 0 then signBit (fmtOf t) true else (fmtOf t).nan

/-! ## CVTS -/

/-- A value of one format in another that holds it, or rounded (R144). -/
def fConv (src dst : Fmt) (mode w : Nat) : FRes :=
  match fdec src w with
  | .nan s => nanRes dst s
  | .inf n => { bits := infBits dst n, flags := 0 }
  | .fin n m e => roundQ dst mode n m 1 e

/-- A signed or unsigned integer bound by width. -/
def intBounds (n : Nat) (u : Bool) : Int × Int :=
  if u then (0, 2 ^ n - 1) else (-(2 ^ (n - 1)), 2 ^ (n - 1) - 1)

/-- F32 to an integer of `n` bits, extended as R120 places it (R144). -/
def fToInt (mode n : Nat) (u : Bool) (w : Nat) : Word × Nat :=
  let (lo, hi) := intBounds n u
  match fdec f32 w with
  | .nan _ => (0, flagIV)
  | .inf neg => (wordOfInt (if neg then lo else hi), flagIV)
  | .fin neg m e =>
    let r := roundInt mode neg m 1 e
    if r.1 < lo then (wordOfInt lo, flagIV)
    else if hi < r.1 then (wordOfInt hi, flagIV)
    else (wordOfInt r.1, if r.2 then flagIX else 0)

/-- A float result as a register value. -/
def FRes.out (r : FRes) : Word × Nat := (BitVec.ofNat 64 r.bits, r.flags)

/-- CVTS by its code: the register value and the flags (R144). -/
def cvtsOp (code mode : Nat) (v : Word) : Word × Nat :=
  let w := v.toNat
  let int (f : Fmt) (n : Nat) : Word × Nat := (roundI f mode (signedOf n w) 0).out
  match code with
  | 0 => (fConv f16 f32 mode w).out
  | 1 => (fConv bf16 f32 mode w).out
  | 2 => (fConv e4m3 f32 mode w).out
  | 3 => (fConv e5m2 f32 mode w).out
  | 4 => (fConv e2m1 f32 mode w).out
  | 5 => (fConv e4m3 f16 mode w).out
  | 6 => (fConv e5m2 f16 mode w).out
  | 7 => (fConv e2m1 f16 mode w).out
  | 8 => (fConv e2m1 e4m3 mode w).out
  | 9 => int e4m3 4
  | 10 => (fConv e3m2 e4m3 mode w).out
  | 11 => (fConv e2m3 e4m3 mode w).out
  | 12 => int f32 8
  | 13 => int f32 16
  | 14 => int f32 32
  | 15 => int f32 64
  | 16 => (roundI f32 mode ((w % 2 ^ 32 : Nat) : Int) 0).out
  | 17 => (roundI f32 mode (w : Int) 0).out
  | 18 => int f16 8
  | 19 => int bf16 8
  | 20 => fToInt mode 32 false w
  | 21 => fToInt mode 64 false w
  | 22 => fToInt mode 32 true w
  | _ => fToInt mode 64 true w

/-! ## Conversion through format slots -/

/-- The float format of a slot's KIND; none for the integer kinds (R126). -/
def kindFmt (kind : Nat) : Option Fmt :=
  match kind with
  | 1 => some e2m1
  | 2 => some e4m3
  | 3 => some e5m2
  | 6 => some f16
  | 7 => some bf16
  | _ => none

/-- Bits of an integer kind. -/
def kindInt (kind : Nat) : Nat := if kind = 4 then 8 else 16

/-- The policies of CVTD (R145). -/
inductive Policy where
  | sat | inf | nan | trap
  deriving DecidableEq, Repr

/-- What an overflow delivers to a float target (R147). Where the mode rounds toward zero the flags are
those of SAT under every policy, without CL (DESIGN CHOICE, log 74). -/
def overFloat (f : Fmt) (pol : Policy) (mode : Nat) (neg : Bool) : Word × Nat :=
  let big := signBit f neg + maxFinite f
  let fl := flagOF + flagIX
  if pol = .sat ∨ towardZero mode neg = true then (BitVec.ofNat 64 big, fl)
  else if f.top = 2 then (BitVec.ofNat 64 big, fl + flagCL)
  else if pol = .inf ∧ f.top = 0 then (BitVec.ofNat 64 (infBits f neg), fl)
  else (BitVec.ofNat 64 f.nan, fl)

/-- What an overflow delivers to an integer target (R147); no CL where the mode rounds toward zero
(DESIGN CHOICE, log 74). -/
def overInt (n : Nat) (pol : Policy) (mode : Nat) (neg : Bool) : Word × Nat :=
  let b := intBounds n false
  let fl := flagOF + flagIX
  (wordOfInt (if neg then b.1 else b.2),
    if pol = .sat ∨ towardZero mode neg = true then fl else fl + flagCL)

/-- CVTD of one F32 value under a scale: the register value and the flags; none where policy TRAP
raises ARITH (R145 to R148). -/
def cvtdOp (pol : Policy) (kind mode x e : Nat) : Option (Word × Nat) :=
  let isOver (r : Word × Nat) : Option (Word × Nat) := if pol = .trap then none else some r
  let sig := (fdec f32 x).isSig
  match fdec f32 x, kindFmt kind with
  | .nan _, some f =>
    if f.top = 2 then isOver (0, flagIV + flagCL)
    else some (BitVec.ofNat 64 f.nan, if sig then flagIV else 0)
  | .nan _, none => isOver (0, flagIV + flagCL)
  | .inf n, some f =>
    if e = 0xFF then (if f.top = 2 then isOver (0, flagIV + flagCL) else some (BitVec.ofNat 64 f.nan, 0))
    else isOver (overFloat f pol mode n)
  | .inf n, none =>
    if e = 0xFF then isOver (0, flagIV + flagCL) else isOver (overInt (kindInt kind) pol mode n)
  | .fin n m e0, some f =>
    if e = 0xFF then (if f.top = 2 then isOver (0, flagIV + flagCL) else some (BitVec.ofNat 64 f.nan, 0))
    else if m = 0 then some (BitVec.ofNat 64 (signBit f n), 0)
    else if (rndTo f mode n m 1 (e0 + 127 - e)).isOver then isOver (overFloat f pol mode n)
    else some (roundQ f mode n m 1 (e0 + 127 - e)).out
  | .fin n m e0, none =>
    if e = 0xFF then isOver (0, flagIV + flagCL)
    else
      let r := roundInt mode n m 1 (e0 + 127 - e)
      let b := intBounds (kindInt kind) false
      if r.1 < b.1 ∨ b.2 < r.1 then isOver (overInt (kindInt kind) pol mode n)
      else some (wordOfInt r.1, if r.2 then flagIX else 0)

/-- CVTU: an element under a scale as F32 (R149). -/
def cvtuOp (kind mode : Nat) (v : Word) (e : Nat) : FRes :=
  match kindFmt kind with
  | some f =>
    match fdec f v.toNat with
    | .nan s => nanRes f32 s
    | .inf n => if e = 0xFF then nanRes f32 false else { bits := infBits f32 n, flags := 0 }
    | .fin n m e0 => if e = 0xFF then nanRes f32 false else roundQ f32 mode n m 1 (e0 + e - 127)
  | none =>
    if e = 0xFF then nanRes f32 false
    else roundI f32 mode (signedOf (kindInt kind) v.toNat) ((e : Int) - 127)

/-- |x| of an F32 value that is not NaN; 0 for a NaN (R150). -/
def absF32 (w : Nat) : Nat := if (fdec f32 w).isNan then 0 else w % 2 ^ 31

/-- FABS, FNEG and FCPS: the sign bit replaced, a NaN made canonical (R123, R129). -/
def setSign (f : Fmt) (neg : Bool) (w : Nat) : Nat :=
  if (fdec f w).isNan then f.nan else w % 2 ^ (f.mb + f.eb) + signBit f neg

/-- The sign bit of a value. -/
def signOf (f : Fmt) (w : Nat) : Bool := bitAt w (f.mb + f.eb)

end Sys2Proof.Machine
end

