-- ==== Sys2Proof/Machine/Levels.lean ====
section
/-! DEFINITION. The levels of work: barriers, the end of threads, units and launches, cancellation and
failure, and the taking of launch records (02 R31 to R49, 22 R317 to R319, R327, R339). -/

namespace Sys2Proof.Machine

/-! ## Threads by launch index -/

/-- Live threads of a crew, by launch index. -/
def crewIds (s : State) (c : Crew) : List Nat :=
  (lanesOf (progLive c)).map (threadIndex s c)

/-- Live threads of the units of a launch that satisfy a predicate. -/
def liveIds (s : State) (lid : Nat) (p : UnitSt → Bool) : List Nat :=
  (s.crews.map fun (_, c) =>
    match mget s.units c.uid with
    | none => []
    | some u => if u.lid = lid && p u then crewIds s c else []).flatten

/-- The crew and lane of a thread of a launch. -/
def threadAt (s : State) (lid t : Nat) : Option (Nat × Nat) :=
  match mget s.launches lid with
  | none => none
  | some l =>
    match mget l.units (t / 1024) with
    | none => none
    | some uid => some (crewKey uid (t / 32 % 32), t % 32)

/-- End a thread's wait. -/
def unpark (s : State) (lid t : Nat) : State :=
  match threadAt s lid t with
  | none => s
  | some (key, lane) => modCrew s key fun c =>
      settleMeet (modProg c lane fun th => { th with park := .none })

/-- End the waits of several threads. -/
def unparkAll (s : State) (lid : Nat) (ts : List Nat) : State := ts.foldl (fun s t => unpark s lid t) s

/-! ## Hardware barriers (R40, R41) -/

/-- Complete a generation if every member has arrived: the barrier's next state and the threads
released (R41). -/
def barStep (members : List Nat) (b : Bar) : Option (Bar × List Nat) :=
  if b.arrived ≠ [] ∧ members.all b.arrived.contains then
    some ({ arrived := b.next.map (·.1), waiting := (b.next.filter (·.2)).map (·.1), next := [] },
      b.waiting ++ (b.next.filter (!·.2)).map (·.1))
  else none

/-- A barrier of a unit or launch, by level: its key in the owner's map (R40). -/
def barKey (lvl n crew cluster : Nat) : Nat :=
  match lvl with
  | 0 => crew * 16 + n
  | 1 => 512 + n
  | 2 => 4 + cluster * 8 + n
  | _ => n

/-- The state of a barrier. -/
def barGet (s : State) (uid lid lvl key : Nat) : Bar :=
  if lvl < 2 then
    match mget s.units uid with
    | none => Bar.idle
    | some u => mgetD u.bars key Bar.idle
  else
    match mget s.launches lid with
    | none => Bar.idle
    | some l => mgetD l.bars key Bar.idle

/-- Replace the state of a barrier. -/
def barPut (s : State) (uid lid lvl key : Nat) (b : Bar) : State :=
  if lvl < 2 then modUnit s uid fun u => { u with bars := mput u.bars key b }
  else modLaunch s lid fun l => { l with bars := mput l.bars key b }

/-- The live members of a barrier; none while a member's unit is not yet admitted (R40). -/
def barMembers (s : State) (uid lid lvl key : Nat) : Option (List Nat) :=
  match mget s.units uid, mget s.launches lid with
  | some u, some l =>
    match lvl with
    | 0 =>
      match mget s.crews (crewKey uid (key / 16)) with
      | none => some []
      | some c => some (crewIds s c)
    | 1 =>
      some ((crewKeys s uid).map fun k =>
        match mget s.crews k with
        | none => []
        | some c => crewIds s c).flatten
    | 2 => some (liveIds s lid fun u' => decide (u'.cluster = (key - 4) / 8))
    | _ =>
      if l.units.length < l.clusters * l.unitsPer then none
      else some (liveIds s lid fun _ => decide (u.lid = lid))
  | _, _ => none

/-- Complete a barrier's generation, if it is complete (R41). -/
def barCheck (s : State) (uid lid lvl key : Nat) : State :=
  match barMembers s uid lid lvl key with
  | none => s
  | some ms =>
    match barStep ms (barGet s uid lid lvl key) with
    | none => s
    | some (b, out) => unparkAll (barPut s uid lid lvl key b) lid out

/-- Check twice: arrivals held for the next use may complete it at once (R41). -/
def barSettle (s : State) (uid lid lvl key : Nat) : State :=
  barCheck (barCheck s uid lid lvl key) uid lid lvl key

/-- A thread leaves a barrier. -/
def Bar.drop (b : Bar) (gone : Nat → Bool) : Bar :=
  { arrived := b.arrived.filter fun t => !gone t
    waiting := b.waiting.filter fun t => !gone t
    next := b.next.filter fun t => !gone t.1 }

/-! ## Named barriers (R44 to R46) -/

/-- Complete a named-barrier use by count or short: the next state, the waiters released with
their predicates, whether by count, and the threads of NBAR.ARV released. -/
def nbarStep (members : List Nat) (b : NBar) : Option (NBar × List (Nat × Nat) × Bool × List Nat) :=
  let full := decide (b.count ≤ b.arrived.length)
  let can := (members.filter (!b.arrived.contains ·)).length
  let short := decide (can < b.count - b.arrived.length)
  if b.count ≠ 0 ∧ (full || short) then
    let nb : NBar :=
      { count := (b.next.map (·.2.2.2)).headD 0
        arrived := b.next.map (·.1)
        waiting := (b.next.filter (·.2.1)).map fun x => (x.1, x.2.2.1)
        next := [] }
    some (nb, b.waiting, full, (b.next.filter (!·.2.1)).map (·.1))
  else none

/-- Threads that have ended leave a named barrier's waits; their arrivals stay counted (R44). One that was held for the
next use has not arrived in it yet, and no longer will (DESIGN CHOICE, log 78). -/
def NBar.drop (b : NBar) (gone : Nat → Bool) : NBar :=
  { b with waiting := b.waiting.filter fun x => !gone x.1
           next := b.next.filter fun x => !gone x.1 }

/-- Release a waiter of a named barrier; its status predicate is the write of its NBAR, the latest of the
thread (R45, R71). -/
def nbarRelease (s : State) (lid : Nat) (ok : Bool) (x : Nat × Nat) : State :=
  match threadAt s lid x.1 with
  | none => s
  | some (key, lane) =>
    modCrew s key fun c =>
      let c := modProg c lane fun th => { th with park := .none }
      settleMeet (if c.priv then modProg c lane fun th => setPred th x.2 ok
        else completeW c lane (.pred x.2 ok) s.nextSeq)

/-- Complete a named barrier's use, if it is complete. -/
def nbarCheck (s : State) (uid lid n : Nat) : State :=
  match mget s.units uid with
  | none => s
  | some u =>
    match mget u.nbars n with
    | none => s
    | some b =>
      let ms := (barMembers s uid lid 1 0).getD []
      match nbarStep ms b with
      | none => s
      | some (nb, ws, ok, out) =>
        let s := modUnit s uid fun u => { u with nbars := mput u.nbars n nb }
        unparkAll (ws.foldl (fun s x => nbarRelease s lid ok x) s) lid out

/-- Check twice: arrivals held for the next use may complete it at once (R45). -/
def nbarSettle (s : State) (uid lid n : Nat) : State :=
  nbarCheck (nbarCheck s uid lid n) uid lid n

/-! ## The end of threads (R31, R38, R41, R46, R108) -/

/-- A thread that ends (R31). -/
def Thread.ended (t : Thread) : Thread := { t with live := false, held := false, park := .none }

/-- The operation is of a Granite instruction (R217). -/
def Op.granite (o : Op) : Bool :=
  match o.kind with
  | .kld .. | .kst | .mulkc .. => true
  | _ => false

/-- An access of an ended thread is withdrawn: it reads; its stores, atomics and flint proposals are performed, and
the one access of KLD is the crew's (R108). -/
def Op.drops (o : Op) (m : Mask) (lane : Nat) (op : AccOp) : Bool := inMask m lane && !op.writes && !o.granite

/-- A withdrawn access as a request that is done. -/
def Acc.gone (a : Acc) : Req :=
  { id := 0, lane := a.lane, va := a.va, phys := 0, ty := 0, n := a.n, op := a.op, st := .done, val := []
    snap := false, defer := false }

/-- An operation of which lanes have ended: their results are discarded, their loads and waits withdrawn
(R108). -/
def Op.dropLanes (m : Mask) (o : Op) : Op :=
  { o with
    dsts := o.dsts.filter fun d => !inMask m d.1
    left := o.left &&& ~~~m
    flt := o.flt.filter fun f => !inMask m f.1
    accs := o.accs.filter fun a => !o.drops m a.lane a.op
    reqs := (o.reqs.map fun r =>
      if r.open_ && (o.drops m r.lane r.op || (inMask m r.lane && decide (r.st = .waiter))) then { r with st := .done }
      else r) ++ (o.accs.filter fun a => o.drops m a.lane a.op).map Acc.gone }

/-- A recorded fault of which lanes have ended names the others; none where no lane is left (R108). A Granite
instruction's is the crew's, and a symbolic load's lanes report through its symbol. -/
def Op.keepFault (m : Mask) (o : Op) : Option Op :=
  if !o.done || o.granite then some o
  else if o.bad &&& ~~~m = 0 then none
  else some { o with bad := o.bad &&& ~~~m }

/-- A symbol of which lanes have ended (R292). -/
def Sym.dropLanes (m : Mask) (y : Sym) : Sym :=
  { y with lanes := y.lanes.filter fun x => !inMask m x.lane }

/-- End lanes of a crew: their results in flight, symbols and waits go with them (R108, R292). -/
def dropLanes (c : Crew) (m : Mask) : Crew :=
  let th : Map Thread := c.th.map fun p =>
    (p.1, if inMask m p.1 && p.2.live then p.2.ended else p.2)
  let syms : Map Sym := (c.syms.map fun p => (p.1, p.2.dropLanes m)).filter fun p =>
    !p.2.lanes.isEmpty
  let c : Crew := { c with
    th := th, syms := syms
    pend := c.pend.filter fun p => !inMask m p.lane
    ops := (c.ops.map (Op.dropLanes m)).filterMap (Op.keepFault m) }
  if lanesOf (progLive c) = [] then
    { c with priv := false, hint := Hints.none, due := none, trap := none }
  else c

/-- Remove ended threads from every barrier of their levels and complete what that completes. -/
def leaveBars (s : State) (uid lid : Nat) (gone : List Nat) : State :=
  let g : Nat → Bool := fun t => gone.contains t
  let s := modUnit s uid fun u =>
    { u with
      bars := u.bars.map fun p => (p.1, p.2.drop g)
      nbars := u.nbars.map fun p => (p.1, p.2.drop g) }
  let s := modLaunch s lid fun l => { l with bars := l.bars.map fun p => (p.1, p.2.drop g) }
  let ub : List (Nat × Nat) := match mget s.units uid with
    | none => []
    | some u => u.bars.map fun p => (if p.1 < 512 then 0 else 1, p.1)
  let lb : List (Nat × Nat) := match mget s.launches lid with
    | none => []
    | some l => l.bars.map fun p => (if p.1 < 4 then 3 else 2, p.1)
  let nb : List Nat := match mget s.units uid with
    | none => []
    | some u => u.nbars.map (·.1)
  let s := (ub ++ lb).foldl (fun s x => barSettle s uid lid x.1 x.2) s
  nb.foldl (fun s n => nbarSettle s uid lid n) s

/-- Withdraw the waiters of a crew for which no lane of it waits any more (R312). -/
def dropWaiters (s : State) (key : Nat) : State :=
  let used (x : Waiter) : Bool :=
    match mget s.crews key with
    | none => false
    | some c => c.ops.any fun o => o.reqs.any fun r =>
        decide (r.st = .waiter) && decide (r.phys = x.phys)
  { s with waiters := s.waiters.filter fun x => decide (x.crew ≠ key) || used x }

/-- End the live threads of a crew that a mask names (R108). -/
def endLanes (s : State) (key : Nat) (m : Mask) : State :=
  match mget s.crews key with
  | none => s
  | some c =>
    let m := m &&& progLive c
    let ids := (lanesOf m).map (threadIndex s c)
    match mget s.units c.uid with
    | none => putCrew s key (settleMeet (dropLanes c m))
    | some u =>
      let s := putCrew s key (settleMeet (dropLanes c m))
      let s := dropWaiters s key
      let s := modUnit s c.uid fun u => { u with ctr := u.ctr - ids.length }
      leaveBars s c.uid u.lid ids

/-- The crew index of a core and slot: the crew of the resident unit that holds the slot. -/
def crewAtSlot (s : State) (core slot : Nat) : Option Nat :=
  match s.crews.find? fun p =>
      decide (p.2.core = core) && decide (p.2.slot = slot) &&
      (match mget s.units p.2.uid with
        | none => false
        | some u => !u.isOver && decide (u.res ≠ .swapped) && !u.ended) with
  | none => none
  | some p => some p.1

/-! ## Launch records (R317, R318, R126, R127) -/

/-- A format slot is valid (R126, R127). -/
def slotOk (w : Nat) : Bool :=
  let width := bits w 16 12
  decide (w < 2 ^ 30) && decide (bits w 3 0 ≤ 7) && decide (bits w 7 4 ≤ 3) &&
    decide (bits w 11 8 ≤ 1) && decide (width = 0 ∨ (4 ≤ width ∧ width ≤ 16)) &&
    decide (width = 0 ∨ bits w 21 17 < width)

/-- Test 1 of R318: reserved fields 0 and every field in range. -/
def recFieldsOk (l : Launch) : Bool :=
  let w := recW l
  decide (w 0 < 2 ^ 57 ∧ w 0 % 4 = 0) &&
  decide (1 ≤ l.crews ∧ l.crews ≤ 32 ∧ bits (w 1) 57 54 = 0 ∧ 1 ≤ l.unitsPer ∧ l.unitsPer ≤ 8 ∧
    bits (w 1) 47 32 ≠ 0 ∧ bits (w 1) 31 16 ≠ 0 ∧ bits (w 1) 15 0 ≠ 0) &&
  decide (w 2 < 2 ^ 42 ∧ l.nbar ≤ 32 ∧ 32 ≤ l.depth ∧ l.depth ≤ 512 ∧ bits (w 2) 19 12 = 0 ∧
    l.scratch ≤ 262144) &&
  decide (w 15 < 2 ^ 36 ∧ bits (w 15) 35 32 ≤ 8 ∧ bits (w 15) 31 20 ≤ 2048 ∧ bits (w 15) 19 17 = 0 ∧
    bits (w 15) 16 8 ≤ 256 ∧ bits (w 15) 7 6 = 0 ∧ bits (w 15) 5 0 ≤ 32) &&
  decide (w 16 % 8 = 0 ∧ w 17 < 2 ^ 32 ∧ bits (w 19) 47 32 = 0) &&
  decide (l.words.length = 32) && (l.words.drop 20).all fun x => decide (x = 0)

/-- Quota fields of a record: unit slots, granules, scratchpad bytes, columns; 0 is unlimited. -/
def Launch.qUnit (l : Launch) : Nat := bits (recW l 15) 5 0
/-- QGRAN. -/
def Launch.qGran (l : Launch) : Nat := bits (recW l 15) 16 8
/-- QSCR, in bytes. -/
def Launch.qScr (l : Launch) : Nat := 128 * bits (recW l 15) 31 20
/-- QCOL. -/
def Launch.qCol (l : Launch) : Nat := bits (recW l 15) 35 32

/-- Register granules of a unit (R33). -/
def Launch.grans (l : Launch) : Nat := l.crews * (l.depth / 16)

/-- The hardware cluster of a core. -/
def hwCluster (core : Nat) : Nat := core / 8

/-- The live cores of a hardware cluster, ascending. -/
def hwCores (s : State) (h : Nat) : List Nat :=
  ((upTo 8).map fun i => 8 * h + i).filter (coreLive s)

/-- The first failing test of R318, 0 for none. -/
def recWhy (s : State) (l : Launch) : Nat :=
  if !recFieldsOk l then 1
  else if !((upTo 8).all fun i => slotOk (recW l (4 + i))) then 2
  else if 256 < l.grans ∨ 262144 < l.scratch then 3
  else if (l.qGran ≠ 0 ∧ l.qGran < l.grans) ∨ (l.qScr ≠ 0 ∧ l.qScr < l.scratch) then 4
  else if l.qCol ≠ 0 ∧ (liveCores s).any (fun c => decide ((liveCols s c).length < l.qCol)) then 5
  else if !((upTo 32).any fun h => decide (l.unitsPer ≤ (hwCores s h).length)) then 6
  else 0

/-- Change a job's completion counter JCNT (R48, R316). -/
def jobCount (s : State) (job : Nat) (d : Int) : State :=
  let w := (ctxW s job 5).toNat
  setCtxW s job 5
    (BitVec.ofNat 64 ((((w / 2 ^ 32 : Nat) : Int) + d).toNat % 2 ^ 32 * 2 ^ 32 + w % 2 ^ 32))

/-- A new launch over a record's copy. -/
def newLaunch (s : State) (job : Nat) (words : List Word) (task : Option (Nat × Word × Nat)) :
    Launch :=
  { words := words.set 18 (BitVec.ofNat 64 s.nextLid), job := job, seq := s.nextLid, task := task,
    admitted := [], units := [], bars := [], pool := [], poolReady := false, pages := [],
    anyCancelled := false, ending := false, failed := false, isOver := false, frec := none, snap := [], snapX := [] }

/-- Take a launch record from a queue: check it, give it its sequence, or refuse it (R318, R319).
The second part is 0, or the number of the failing test. -/
def takeRecord (s : State) (job : Nat) (words : List Word) (task : Option (Nat × Word × Nat)) :
    State × Nat :=
  let l := newLaunch s job words task
  let why := recWhy s l
  let l := if why = 0 then
      { l.setStatus 0 0 (l.clusters * l.unitsPer) with poolReady := decide (recW l 16 = 0) }
    else { l.setStatus 5 why 0 with isOver := true }
  let s := { s with launches := mput s.launches s.nextLid l, nextLid := s.nextLid + 1 }
  (if why ≠ 0 ∧ task = none then jobCount s job (-1) else s, why)

/-! ## The end of units and launches (R48, R212) -/

/-- A launch ends: its record's STATE, its job's counter or its task's walker (R48, R317, R324). -/
def endLaunch (s : State) (lid : Nat) : State :=
  match mget s.launches lid with
  | none => s
  | some l =>
    if l.isOver then s
    else
      let st := if l.failed then 4 else if l.anyCancelled then 3 else 2
      let s := modLaunch s lid fun l => { l.setStatus st 0 0 with isOver := true, snap := [], snapX := [] }
      match l.task with
      | none => jobCount s l.job (-1)
      | some (stack, header, task) =>
        let out := if l.failed then 1 else if l.anyCancelled then 2 else 0
        { s with walks := s.walks ++
            [{ kind := .taskEnd stack l.job header task out l.frec, pages := [] }] }

/-- Drop the cells of a range. -/
def zeroRange (m : List Host.Cell) (a n : Nat) : List Host.Cell :=
  m.filter fun c => !(decide (a ≤ c.1) && decide (c.1 < a + n))

/-- A unit that has completed or been cancelled leaves its share and its landing counters (R33,
R274). Its bytes are gone: mode 10 reads 0 there (R160; DESIGN CHOICE, log 75). -/
def freeShare (s : State) (uid : Nat) : State :=
  { s with
    mem := zeroRange s.mem (shareOf uid) (2 ^ 22)
    lctrs := s.lctrs.filter fun p => decide (p.2.owner ≠ uid) }

/-- A unit completes or is cancelled: the launch counter falls by one (R48). -/
def countUnit (s : State) (uid : Nat) : State :=
  match mget s.units uid with
  | none => s
  | some u =>
    if u.isOver then s
    else
      let s := freeShare (modUnit s uid fun u => { u with isOver := true, res := .gone, lcs := [] }) uid
      match mget s.launches u.lid with
      | none => s
      | some l =>
        let n := l.count - 1
        let s := modLaunch s u.lid fun l =>
          { l.setStatus l.status 0 n with anyCancelled := l.anyCancelled || u.cancelled }
        if n = 0 then endLaunch s u.lid else s

/-! ## Reservations (R209, R210) -/

/-- Units that hold columns of a core at present, and not in a swap image. -/
def holdsNow (core : Nat) (u : UnitSt) : Bool :=
  decide (u.core = core) && decide (u.res ≠ .swapped) && !u.isOver && !u.ended

/-- Launch priority of a unit. -/
def unitPrio (s : State) (u : UnitSt) : Nat :=
  match mget s.launches u.lid with
  | none => 0
  | some l => l.prio

/-- A column is free and no swapped unit of equal or higher priority holds it in its image (R210). -/
def columnFree (s : State) (core prio col : Nat) : Bool :=
  s.units.all fun p =>
    !(decide (p.2.core = core) && !p.2.isOver && p.2.cols.contains col &&
      (decide (p.2.res ≠ .swapped) || decide (prio ≤ unitPrio s p.2)))

/-- Columns that a launch holds on a core. -/
def launchCols (s : State) (core lid : Nat) : Nat :=
  ((s.units.filter fun p => holdsNow core p.2 && decide (p.2.lid = lid)).map
    fun p => p.2.cols.length).foldl (· + ·) 0

/-- The columns that a request for `c` would give, if it can be granted; a request within what the
unit holds gives none (R209, R210). -/
def resvPick (s : State) (u : UnitSt) (c : Nat) : Option (List Nat) :=
  let need := c - u.cols.length
  if need = 0 then some []
  else
    let free := (liveCols s u.core).filter fun j => columnFree s u.core (unitPrio s u) j
    let quota := match mget s.launches u.lid with
      | none => 0
      | some l => l.qCol
    if free.length < need ∨ (quota ≠ 0 ∧ quota < launchCols s u.core u.lid + need) then none
    else some (free.take need)

/-- The plane of a key of `zs` and `ovf`, and its column. -/
def zPlane (k : Nat) : Nat := k / 256
/-- The column of such a key. -/
def zCol (k : Nat) : Nat := k % 8

/-- Give a unit columns and planes, zeroing what is new (R208, R209). An overflow bit stays with its
physical column where a new column shifts the logical numbers (DESIGN CHOICE, log 75). -/
def resvGive (s : State) (uid : Nat) (new : List Nat) (m : Nat) : State :=
  match mget s.units uid with
  | none => s
  | some u =>
    let old := u.planes.toNat
    let fresh (z : Nat) : Bool := bitAt m z && !bitAt old z
    let keep (k : Nat) : Bool := !fresh (zPlane k) && !new.contains (zCol k)
    let u' := { u with
      cols := ((List.range 8).filter fun j => u.cols.contains j || new.contains j)
      planes := BitVec.ofNat 4 (old.lor m)
      zs := u.zs.filter fun p => keep p.1
      ovf := u.ovf.filter keep
      blocks := u.blocks.filter fun p => !new.contains (p.1 / 64) }
    { s with
      units := mput s.units uid u'
      mem := new.foldl (fun mem j => zeroRange mem (columnOf uid j) (2 ^ 18)) s.mem }

/-- Decide a request of a unit (R209): granted or not. -/
def resvTry (s : State) (uid c m : Nat) : State × Bool :=
  match mget s.units uid with
  | none => (s, false)
  | some u =>
    match resvPick s u c with
    | none => (s, false)
    | some new => (resvGive s uid new m, true)

/-- The request that a crew waits with in RESV.W. -/
def crewResv (c : Crew) : Option (Nat × Nat × Nat) :=
  (ths c).findSome? fun p =>
    match p.2.park with
    | .resv c m pd => if p.2.live then some (c, m, pd) else none
    | _ => none

/-- A crew's RESV.W is granted: it goes on, with its predicate set as the latest write of the threads
(R71, R217). -/
def resvWake (seq : Nat) (c : Crew) : Crew :=
  settleMeet (lanes.foldl (fun c l =>
    match (thOf c l).park with
    | .resv _ _ pd => completeW (modTh c l fun t => { t with park := .none }) l (.pred pd true) seq
    | _ => c) c)

/-- The order of R210 between units: higher priority, then earlier launch, then lower index. -/
def resvBefore (s : State) (a b : UnitSt) : Bool :=
  let pa := unitPrio s a
  let pb := unitPrio s b
  decide (pb < pa) || (decide (pa = pb) && (decide (a.lid < b.lid) ||
    (decide (a.lid = b.lid) && decide (unitIndex s a < unitIndex s b))))

/-- Insert a waiting crew by the order of R210, then by arrival. -/
def insResv (s : State) (x : Nat × Crew × UnitSt) : List (Nat × Crew × UnitSt) →
    List (Nat × Crew × UnitSt)
  | [] => [x]
  | y :: t =>
    if resvBefore s x.2.2 y.2.2 || (!resvBefore s y.2.2 x.2.2 && decide (x.2.1.stamp < y.2.1.stamp)) then
      x :: y :: t
    else y :: insResv s x t

/-- The crews of a core that wait in RESV.W, in the order of R210. -/
def resvWaiters (s : State) (core : Nat) : List (Nat × Crew × UnitSt) :=
  s.crews.foldl (fun l p =>
    match mget s.units p.2.uid with
    | none => l
    | some u =>
      if holdsNow core u && decide (u.res = .resident) && (crewResv p.2).isSome then
        insResv s (p.1, p.2, u) l
      else l) []

/-- Try the waiting requests of a core in the order of R210. -/
def grantWaiting (s : State) (core : Nat) : State :=
  (resvWaiters s core).foldl (fun s x =>
    match crewResv x.2.1 with
    | none => s
    | some (c, m, _) =>
      match resvTry s x.2.1.uid c m with
      | (s', true) => modCrew s' x.1 (resvWake s'.nextSeq)
      | (_, false) => s) s

/-- Release what an ended unit holds on its core (R33, R212): columns, planes and crew slots. The
bytes of its share stay for its serial phase until it completes. -/
def releaseUnit (s : State) (uid : Nat) : State :=
  let s := modUnit s uid fun u =>
    { u with cols := [], planes := 0, zs := [], ovf := [], lines := [], blocks := [], ended := true }
  let core := match mget s.units uid with
    | none => 0
    | some u => u.core
  grantWaiting { s with crews := s.crews.filter fun p => decide (p.2.uid ≠ uid) } core

/-- Lower a pending count (R162). -/
def countDown (m : Map Nat) (k : Nat) : Map Nat :=
  let c := mgetD m k 0
  if c ≤ 1 then mdel m k else mput m k (c - 1)

/-- Lower the pending count of one line or block. -/
def Pres.release (s : State) (p : Pres) : State :=
  if p.uid = 0 then { s with rawPend := countDown s.rawPend p.idx }
  else modUnit s p.uid fun u =>
    if p.blk then { u with blocks := countDown u.blocks p.idx }
    else { u with lines := countDown u.lines p.idx }

/-- Release a command's pending counts (R162). -/
def releasePresence (s : State) (c : Cmd) : State := c.pres.foldl Pres.release s

/-- Forget the collective groups of which no command is left that has joined and is not complete (R288). -/
def tidyColls (s : State) : State :=
  { s with colls := s.colls.filter fun g => s.cmds.any fun c =>
      decide (c.queue = 1) && c.joined && c.err.isNone && !c.started &&
        decide (c.words.getD 4 0 = g.group) && (match mget s.launches c.lid with
          | none => false
          | some l => decide (l.job = g.job)) }

/-- Discard the commands of a unit that have read no source byte (R49). -/
def discardCmds (s : State) (uid : Nat) : State :=
  let (keep, gone) := s.cmds.partition fun c => decide (c.uid ≠ uid) || (c.hasRead && !c.deferred)
  let s := gone.foldl releasePresence s
  tidyColls { s with cmds := keep, klists := s.klists.filter fun k => decide (k.uid ≠ uid) }

/-- What is left of a cancelled crew's operation: the stores, atomics and proposals that it has issued are
performed; loads are of no more account, since their results are discarded (R49). -/
def Op.cancel (o : Op) : Op :=
  { o with accs := o.accs.filter (·.op.writes), reqs := o.reqs.filter (·.op.writes)
           dsts := [], bad := 0, flag := none }

/-- Operations of a cancelled crew that are still to be performed. -/
def cancelOps (away : Bool) (c : Crew) : Crew :=
  { c with ops := if away then [] else
      (c.ops.map Op.cancel).filter fun o => !o.done && (!o.accs.isEmpty || !o.reqs.isEmpty) }

/-- The work of a unit has drained: its operations are performed, its symbols resolved, its commands landed
or refused (R48). -/
def workDone (s : State) (uid : Nat) : Bool :=
  s.crews.all (fun p => decide (p.2.uid ≠ uid) || (p.2.ops.all (·.done) && p.2.syms.isEmpty)) &&
  s.cmds.all (fun c => decide (c.uid ≠ uid) || c.deferred) &&
  s.klists.all (fun k => decide (k.uid ≠ uid))

/-- A cancelled unit whose issued work has been performed is released and counted as CANCELLED; its
completion is a release of that work (R48, R49, R203). -/
def endCancelled (s : State) (uid : Nat) : State :=
  match mget s.units uid with
  | none => s
  | some u => if u.cancelled && !u.isOver && workDone s uid then countUnit (releaseUnit s uid) uid else s

/-- Cancel a unit: its threads are killed, its buffers and waiting commands discarded; the image of one
that is away is discarded too. It is counted once what it has issued is performed (R49). -/
def cancelUnit (s : State) (uid : Nat) : State :=
  match mget s.units uid with
  | none => s
  | some u =>
    if u.isOver || u.cancelled then s
    else
      let away := decide (u.res = .saving ∨ u.res = .swapped ∨ u.res = .restoring)
      let s := (crewKeys s uid).foldl (fun s k => endLanes s k (BitVec.allOnes 32)) s
      let s := (crewKeys s uid).foldl (fun s k => modCrew s k (cancelOps away)) s
      let s := discardCmds s uid
      let s := modUnit s uid fun u =>
        { u with cancelled := true, serial := [], serialBytes := 0 }
      endCancelled s uid

/-- Cancel a launch, or fail it with a fault record: its units are cancelled, and those that have not been
admitted never run; it ends when its last unit does (R48, R49, R339). -/
def cancelLaunch (s : State) (lid : Nat) (fail : Bool) (frec : Option (List Word)) : State :=
  match mget s.launches lid with
  | none => s
  | some l =>
    if l.isOver || l.ending then s
    else
      let s := modLaunch s lid fun l =>
        { l with anyCancelled := true, ending := true, failed := l.failed || fail,
                 frec := if fail then frec else l.frec }
      let s := l.units.foldl (fun s p => cancelUnit s p.2) s
      let left := (s.units.filter fun p => decide (p.2.lid = lid) && !p.2.isOver).length
      let s := modLaunch s lid fun l => l.setStatus l.status 0 left
      if left = 0 then endLaunch s lid else s

/-- The unit's threads have ended and its listed work has drained (R48, R290): also the GRAPH and HOST
commands that it pushed have left their queues. -/
def unitDrained (s : State) (uid : Nat) : Bool :=
  match mget s.units uid with
  | none => false
  | some u =>
    decide (u.ctr = 0) && !u.isOver && !u.ended && workDone s uid &&
    s.graphQ.all (fun q => decide (q.2.uid ≠ uid)) && s.hostQ.all (fun q => decide (q.2.2 ≠ uid))

end Sys2Proof.Machine
end

