-- ==== Sys2Proof/Machine/Ops.lean ====
section
/-! DEFINITION. The shared operations: taking a trap and returning from one (22 R336 to R340, R345),
faults recorded by operations in flight (04 R74), and accesses through virtual addresses that may
fault or wait (10 R157). -/

namespace Sys2Proof.Machine

/-! ## Trap classes (R336) -/

/-- ILLEGAL-OPCODE. -/
def clsOpcode : Nat := 0
/-- ILLEGAL-ENCODING. -/
def clsEncoding : Nat := 1
/-- ILLEGAL-HINT. -/
def clsHint : Nat := 2
/-- POOL-EXECUTE. -/
def clsPool : Nat := 3
/-- ILLEGAL-RETURN. -/
def clsReturn : Nat := 4
/-- ILLEGAL-CONVERGENCE. -/
def clsConvergence : Nat := 5
/-- PAGE-FAULT. -/
def clsPage : Nat := 8
/-- PROTECTION. -/
def clsProt : Nat := 9
/-- GUARD-OVERFLOW. -/
def clsGuard : Nat := 10
/-- ARITH. -/
def clsArith : Nat := 11
/-- TERM-TAG. -/
def clsTag : Nat := 12
/-- SYMBOL-FAULT. -/
def clsSymbol : Nat := 13
/-- RESERVATION. -/
def clsResv : Nat := 14
/-- BREAKPOINT. -/
def clsBreak : Nat := 15
/-- TRAP. -/
def clsTrap : Nat := 16

/-- A trap with the fields that most classes leave at 0 (R338). -/
def mkTrap (cls : Nat) (pc next addr : Word) (flanes active : Mask) : TrapInfo :=
  { cls := cls, pc := pc, addr := addr, clanes := 0, flanes := flanes, sec := 63, resume := pc,
    cmd := 0, sym := none, bytes := 0, active := active, rule := 0, next := next }

/-- The same trap taken after the instruction: RESUME is the next word (R336). -/
def TrapInfo.afterIt (t : TrapInfo) : TrapInfo := { t with resume := t.next, rule := 1 }

/-! ## Taking a trap -/

/-- Address of a crew's fault record: FREC + 64 × (64c + s), in host DRAM (R338, log 9). -/
def frecAt (s : State) (job core slot : Nat) : Nat :=
  (ctxW s job 3).toNat + 64 * (64 * core + slot)

/-- The eight words of a fault record (R338). -/
def frecWords (lid : Nat) (c : Crew) (t : TrapInfo) : List Word :=
  [BitVec.ofNat 64 (t.cls * 2 ^ 58 + 2 ^ 57 + t.pc.toNat % 2 ^ 57),
   t.addr,
   BitVec.ofNat 64 (t.clanes.toNat * 2 ^ 32 + t.flanes.toNat),
   BitVec.ofNat 64 (t.sec * 2 ^ 58 + t.resume.toNat % 2 ^ 57),
   BitVec.ofNat 64 (t.cmd.toNat * 2 ^ 14 + (match t.sym with
     | none => 0
     | some y => 16 + y)),
   t.bytes,
   BitVec.ofNat 64 lid,
   BitVec.ofNat 64 (t.active.toNat * 2 ^ 32 + c.idx * 2 ^ 14 + c.slot * 2 ^ 8 + c.core)]

/-- The threads of the resident routine when it starts: its own registers, all 0 (R337, log 7). -/
def routineThreads : Map Thread := lanes.map fun l => (l, Thread.init)

/-- Set the program's PCs at trap entry (R338). -/
def trapPcs (t : TrapInfo) (c : Crew) : Crew :=
  match t.rule with
  | 0 => (lanesOf t.active).foldl (fun c l =>
      modProg c l fun th => { th with pc := if inMask t.clanes l then t.next else t.resume }) c
  | 1 => (lanesOf t.active).foldl (fun c l => modProg c l fun th => { th with pc := t.resume }) c
  | _ => c

/-- The crew after trap entry: TRAPPED, its slot running the resident routine in privileged mode
(R337). -/
def trapCrew (t : TrapInfo) (c : Crew) : Crew :=
  settleMeet { trapPcs t (settleAll c) with
    priv := true, rt := routineThreads, trap := some t, due := none, answered := false, disp := none,
    hint := Hints.none, rej := [] }

/-- Take a trap (R337, R338): write the fault record, append the trap-ring entry and enter the
routine; while the ring is full the trap stays due. A trap inside a routine fails the launch. -/
def takeTrap (s : State) (key : Nat) (t : TrapInfo) : State :=
  match mget s.crews key with
  | none => s
  | some c =>
    let w := whoLane s c t.flanes c.priv
    let rec_ := frecWords w.lid c t
    if c.priv then
      cancelLaunch (vlogAdd s (slice0 w) 7 t.addr w) w.lid true (some rec_)
    else
      let w4 := (ctxW s w.job 4).toNat
      let w2 := (ctxW s w.job 2).toNat
      let head := bits w2 31 16
      let tail := bits w2 15 0
      let lg := bits w4 63 60
      if ringFull lg head tail then putCrew s key { c with due := some t, hint := Hints.none }
      else
        let at_ := frecAt s w.job c.core c.slot
        let s := wr s at_ (wordsBytes rec_)
        let entry : List Word :=
          [BitVec.ofNat 64 at_, BitVec.ofNat 64 (t.cls * 2 ^ 58 + c.core * 2 ^ 6 + c.slot)]
        let s := wr s (bits w4 56 0 + 16 * tail) (wordsBytes entry)
        let s := setCtxW s w.job 2 (BitVec.ofNat 64 (w2 - tail + (tail + 1) % 2 ^ lg))
        putCrew s key (trapCrew t c)

/-- ERET: the crew leaves TRAPPED, its threads go on from their own PCs, VALID is cleared (R345). -/
def eret (s : State) (key : Nat) : State :=
  match mget s.crews key with
  | none => s
  | some c =>
    let w := whoLane s c 0 true
    let at_ := frecAt s w.job c.core c.slot
    let w0 := rd64 s at_
    let s := if bitAt w0 57 then wr64 s at_ (w0 - 2 ^ 57) else s
    let c := settleAll c
    putCrew s key (settleMeet
      { c with priv := false, rt := [], trap := none, answered := false, hint := Hints.none,
               ops := c.ops.map fun o => if o.priv then { o with dsts := [] } else o })

/-! ## Faults of operations in flight (R74, R340) -/

/-- The trap that a recorded fault of an operation makes (R340, R88, R216). -/
def opTrap (o : Op) (point : Word) : TrapInfo :=
  let t : TrapInfo :=
    { cls := o.cls, pc := o.start, addr := o.addr, clanes := o.fin, flanes := o.bad, sec := 63,
      resume := o.start, cmd := 0, sym := none, bytes := 0, active := o.active, rule := 0,
      next := o.next }
  match o.kind with
  | .pstore => { t with resume := o.next, rule := 1 }
  | .mulkc .. => { t with resume := point, rule := 2 }
  | _ => if o.after then { t with resume := point, rule := 2 } else t

/-- Take an operation's recorded fault as a trap at a point (R74). -/
def takeOpTrap (s : State) (key : Nat) (o : Op) (point : Word) : State :=
  let s := modCrew s key fun c =>
    freeReply o.id { c with ops := c.ops.filter fun p => decide (p.id ≠ o.id) }
  takeTrap s key (opTrap o point)

/-- The live thread that a crew would issue next, by R103: least recently issued, then lowest
address. -/
def nextPc (c : Crew) : Word :=
  let better (a b : Thread) : Bool :=
    decide (a.stamp < b.stamp) || (decide (a.stamp = b.stamp) && decide (a.pc.toNat < b.pc.toNat))
  let pick := lanes.foldl (fun (best : Option Thread) l =>
    let t := thOf c l
    if t.free then
      match best with
      | none => some t
      | some b => if better t b then some t else best
    else best) none
  match pick with
  | some t => t.pc
  | none => ((lanes.map (thOf c)).find? fun t => t.live).elim 0 (·.pc)

/-- The SYMBOL-FAULT trap of a symbol (R298). -/
def symTrap (c : Crew) (sym : Nat) (y : Sym) (resume : Word) : TrapInfo :=
  let bad := maskOf fun l => y.lanes.any fun x => decide (x.lane = l) && x.faulted
  { cls := clsSymbol, pc := y.pc, addr := mgetD y.faddr (lowLane bad) 0, clanes := y.arrived,
    flanes := bad, sec := y.cls, resume := resume, cmd := 0, sym := some sym, bytes := 0,
    active := y.active, rule := 2, next := nextPc c }

/-- The symbol whose fault is to be reported first: known earliest, then lowest number (R298). -/
def dueSym (c : Crew) : Option (Nat × Sym) :=
  c.syms.foldl (fun (best : Option (Nat × Sym)) p =>
    match p.2.due.filter fun _ => p.2.lanes.any (·.faulted) with
    | none => best
    | some d =>
      match best with
      | none => some p
      | some b => if (b.2.due.elim false fun e => decide (e ≤ d)) then best else some p) none

/-- Raise SYMBOL-FAULT for a symbol; it counts as reported (R298). -/
def takeSymTrap (s : State) (key sym : Nat) (resume : Word) : State :=
  match mget s.crews key with
  | none => s
  | some c =>
    match mget c.syms sym with
    | none => s
    | some y =>
      let s := putCrew s key { c with syms := mput c.syms sym { y with due := none } }
      takeTrap s key (symTrap c sym y resume)

/-! ## Accesses through virtual addresses -/

/-- The runtime has rejected the page of an address for the instruction at hand of a crew (R339). -/
def rejHit (s : State) (c : Crew) (va : Word) : Bool :=
  c.rej.any fun i => decide ((pageVa s i).toNat / 2 ^ 16 = va.toNat / 2 ^ 16)

/-- The outcome of work that accesses memory through translation. -/
inductive VRes (α : Type) where
  | ok (s : State) (a : α)
  /-- A page fault: nothing of the work stands; the access that faulted. -/
  | page (s : State) (w : Who) (k : AccKind) (va : Word) (ty level : Nat)
  /-- Any other fault, with its class and address; the work done so far stands. -/
  | err (s : State) (cls : Nat) (addr : Word)
  /-- The access waits on an absent line or a refreshing bank at these target bytes. -/
  | wait (s : State) (phys n : Nat)

/-- Work that accesses memory. -/
abbrev VM (α : Type) := State → VRes α

/-- Work that only answers. -/
def vpure {α : Type} (a : α) : VM α := fun s => .ok s a

/-- One piece of work after another. -/
def vbind {α β : Type} (m : VM α) (f : α → VM β) : VM β := fun s =>
  match m s with
  | .ok s a => f a s
  | .page s w k va ty lv => .page s w k va ty lv
  | .err s c a => .err s c a
  | .wait s p n => .wait s p n

/-- Fail with a class and an address. -/
def verr {α : Type} (cls : Nat) (addr : Word) : VM α := fun s => .err s cls addr

/-- Read the state. -/
def vget : VM State := fun s => .ok s s

/-- Change the state. -/
def vmod (f : State → State) : VM Unit := fun s => .ok (f s) ()

/-- Work over a list, in order. -/
def vfold {α β : Type} (f : β → α → VM β) : β → List α → VM β
  | b, [] => vpure b
  | b, a :: t => vbind (f b a) fun b' => vfold f b' t

/-- The sector parts of an access of `n` bytes, the lowest first (R167); `fuel` bounds their number. -/
def partsOf : Nat → Word → Nat → List (Word × Nat)
  | 0, _, _ => []
  | fuel + 1, va, n =>
    let room := 32 - va.toNat % 32
    if n = 0 then []
    else if n ≤ room then [(va, n)]
    else (va, room) :: partsOf fuel (va + BitVec.ofNat 64 room) (n - room)

/-- The parts of an access. -/
def parts (va : Word) (n : Nat) : List (Word × Nat) := partsOf (n / 32 + 2) va n

/-- Translate for work. -/
def vxlat (w : Who) (k : AccKind) (va : Word) : VM (Nat × Nat) := fun s =>
  match xlat s w k va with
  | (s, .ok phys ty) => .ok s (phys, ty)
  | (s, .refused sl kind) => .err (vlogAdd s sl kind va w) clsProt va
  | (s, .prot) => .err s clsProt va
  | (s, .page ty lv) => .page s w k va ty lv

/-- An MMIO access that is not a naturally aligned one of 4 or 8 bytes: PROTECTION (R170). -/
def mmioBad (ty : Nat) (va : Word) (n : Nat) : Bool :=
  decide (ty = 0xB) && decide ((n ≠ 4 ∧ n ≠ 8) ∨ va.toNat % n ≠ 0)

/-- The one lane that makes an access; none for several or for the crew's. -/
def soleLane (w : Who) : Option Nat :=
  if w.lanes ≠ 0 ∧ w.lanes = oneLane (lowLane w.lanes) then some (lowLane w.lanes) else none

/-- Read one part; `waits` says that an absent line, a refreshing bank or a store that must come first makes it
wait. -/
def vreadPart (w : Who) (k : AccKind) (waits : Bool) (va : Word) (n : Nat) : VM (List Byte) :=
  vbind (vxlat w k va) fun (phys, ty) s =>
    if waits && (!presentAll s phys n || refreshing s phys || veiled s w (soleLane w) phys n) then .wait s phys n
    else if ty = 0xB then
      if mmioBad ty va n then .err s clsProt va
      else match mmioRead s w va phys n with
      | (s, some b) => .ok s b
      | (s, none) => .err s clsProt va
    else
      match sharing s w va.toNat ty with
      | .foreign => .err (vlogAdd s (sliceOf s phys) 2 va w) clsProt va
      | sh =>
        match readTgt s w va phys n (decide (sh = .shared)) with
        | (s, some b) => .ok s b
        | (s, none) => .err s clsProt va

/-- Read bytes at a virtual address. -/
def vread (w : Who) (k : AccKind) (waits : Bool) (va : Word) (n : Nat) : VM (List Byte) :=
  vfold (fun acc p => vbind (vreadPart w k waits p.1 p.2) fun b => vpure (acc ++ b)) [] (parts va n)

/-- The word `i` words above an address. -/
def wordAt (a : Word) (i : Nat) : Word := a + BitVec.ofNat 64 (8 * i)

/-- Read a 64-bit word. -/
def vread64 (w : Who) (k : AccKind) (va : Word) : VM Word :=
  vbind (vread w k false va 8) fun b => vpure (wordOf b)

/-- Write one part; `strict` makes a write of a shared line of an ordered launch fail (R265), where
otherwise it goes to the serial buffer (R332). -/
def vwritePart (w : Who) (k : AccKind) (strict : Bool) (lane : Nat) (va : Word) (data : List Byte) :
    VM Unit :=
  vbind (vxlat w k va) fun (phys, ty) s =>
    if ty = 0xB then
      if mmioBad ty va data.length then .err s clsProt va
      else match mmioWrite s w va phys data with
      | (s, true) => .ok s ()
      | (s, false) => .err s clsProt va
    else
      match sharing s w va.toNat ty with
      | .foreign => .err (vlogAdd s (sliceOf s phys) 2 va w) clsProt va
      | .shared =>
        if strict then .err s clsProt va
        else
          match serAppend s w.uid (.store phys va data w.slot lane) with
          | (s, true) => .ok s ()
          | (s, false) => .err s clsProt va
      | .own =>
        match writeTgt s w va phys data with
        | (s, true) => .ok s ()
        | (s, false) => .err s clsProt va

/-- Write bytes at a virtual address. -/
def vwrite (w : Who) (k : AccKind) (strict : Bool) (lane : Nat) (va : Word) (data : List Byte) :
    VM Unit :=
  vbind (vfold (fun (rest : List Byte) (p : Word × Nat) =>
    vbind (vwritePart w k strict lane p.1 (rest.take p.2)) fun _ => vpure (rest.drop p.2))
    data (parts va data.length)) fun _ => vpure ()

/-- Write a 64-bit word. -/
def vwrite64 (w : Who) (k : AccKind) (va : Word) (v : Word) : VM Unit :=
  vwrite w k true 0 va (bytesOf 8 v.toNat)

/-- A term instruction's compare-and-swap, AND or OR on a word: the old value; `f` gives the new
one, or none to leave it (R249). -/
def vatomic64 (w : Who) (va : Word) (f : Word → Option Word) : VM Word :=
  vbind (vxlat w .termAtomic va) fun (phys, ty) s =>
    if sharing s w va.toNat ty ≠ .own then .err s clsProt va
    else if eccBad s phys 8 then .err (vlogAdd s (sliceOf s phys) 0 va w) clsProt va
    else if unreachable s phys then .err (vlogAdd s (sliceOf s phys) 1 va w) clsProt va
    else
      let s := spendAccess s w phys
      let old := BitVec.ofNat 64 (rd64 s phys)
      match f old with
      | none => .ok s old
      | some v => .ok (wr64 s phys v.toNat) old

end Sys2Proof.Machine
end

