-- ==== Sys2Proof/Machine/Operands.lean ====
section
/-! DEFINITION. Operand forms: what each instruction reads and which hints it takes (04 R60, R72 to R81,
12 R189), the gate before every instruction, its retirement, stream ports (04 R63, R64), symbolic
sources (20 R293 to R295) and destinations (04 R71, 06 R86 to R90). -/

namespace Sys2Proof.Machine

/-! ## What instructions read, and the hints that they take -/

/-- Reads, hints and control transfer of an instruction. -/
structure Uses where
  h : Hdr
  /-- Register and port codes that it reads. -/
  srcs : List Nat
  ximm : Bool := false
  track : Bool := false
  rnd : Bool := false
  /-- Nonzero MOD orderings accepted; none where MOD ordering and scope are not used. -/
  ords : Option (List Nat) := none
  cache : Bool := false
  /-- A control transfer (R72). -/
  ctl : Bool := false
  /-- Refuses WAIT too: hints before REGION and POOL (R61, R76). -/
  bare : Bool := false
  deriving DecidableEq, Repr

/-- A header without spacing or guard. -/
def hdr0 : Hdr := { sp := 0, pg := 7, pn := 0 }

/-- An instruction that reads registers and takes only WAIT. -/
def uses (h : Hdr) (l : List Code) : Uses := { h := h, srcs := l.map (·.toNat) }

/-- The orderings of loads, stores and atomics (R189). -/
def ordLoad : Option (List Nat) := some [1, 3]
/-- Release or sequential. -/
def ordStore : Option (List Nat) := some [2, 3]
/-- All. -/
def ordAll : Option (List Nat) := some [1, 2, 3]

/-- An atomic's uses. -/
def usesAtom (h : Hdr) (d a : Code) (la : Look) : Uses :=
  { uses h [d, a] with ximm := true, track := decide (la = 15), ords := ordAll }

/-- What an instruction reads and which hints it takes (R60, R72, R77, R189). -/
def usesOf : Instr → Uses
  | .add h _ a b _ | .sub h _ a b _ | .mul h _ a b _ | .mulh h _ a b _ _ | .div h _ a b _ _
  | .rem h _ a b _ _ | .min h _ a b _ _ | .max h _ a b _ _ | .and h _ a b _ | .or h _ a b _
  | .xor h _ a b _ | .andn h _ a b _ | .shl h _ a b _ | .shr h _ a b _ | .sar h _ a b _
  | .rot h _ a b _ | .bfx h _ a b _ _ | .lea h _ a b _ _ | .sel h _ a b _ => uses h [a, b]
  | .neg h _ a _ | .bitc h _ a _ _ | .mov h _ a => uses h [a]
  | .mad h d a b _ | .bfi h d a b _ => uses h [d, a, b]
  | .movi h _ _ => { uses h [] with ximm := true }
  | .addi h _ a _ | .andi h _ a _ | .ori h _ a _ | .xori h _ a _ | .shi h _ a _ _ =>
    { uses h [a] with ximm := true }
  | .cmpi h _ a _ _ _ _ => { uses h [a] with ximm := true }
  | .cmp h _ a b _ _ _ => uses h [a, b]
  | .pset h _ _ _ _ => uses h []
  | .pmovRead h _ => uses h []
  | .pmovWrite h a => uses h [a]
  | .bra h _ => { uses h [] with ximm := true, ctl := true }
  | .brx h a => { uses h [a] with ctl := true }
  | .call h _ => { uses h [] with ximm := true, ctl := true }
  | .callx h a => { uses h [a] with ctl := true }
  | .ret h => { uses h [27] with ctl := true }
  | .meet h _ _ => { uses h [] with ximm := true }
  | .meetr h _ a => uses h [a]
  | .exit h => { uses h [] with ctl := true }
  | .kill h a => { uses h [a] with ctl := true }
  | .loop h d _ => { uses h [d] with ximm := true, ctl := true }
  | .brk h _ | .trap h _ | .nop h | .yield h => uses h []
  | .vote h _ _ _ _ => uses h []
  | .shfl h _ a b _ => uses h [a, b]
  | .shflImm h _ a _ _ | .cred h _ a _ | .cscan h _ a _ _ | .matchl h _ a _ => uses h [a]
  | .isect h _ a b _ _ => uses h [a, b]
  | .movs h _ _ => uses h []
  | .movsw h _ a => uses h [a]
  | .fadd h _ a b _ | .fsub h _ a b _ | .fmul h _ a b _ | .fdiv h _ a b _ =>
    { uses h [a, b] with rnd := true }
  | .ffma h d a b _ _ => { uses h [d, a, b] with rnd := true }
  | .fmin h _ a b _ _ | .fmax h _ a b _ _ => uses h [a, b]
  | .fcmp h _ a b _ _ => uses h [a, b]
  | .fcps h _ a b _ => uses h [a, b]
  | .fabs h _ a _ | .fneg h _ a _ | .frcp h _ a _ | .frsq h _ a _ | .fexp2 h _ a _
  | .flog2 h _ a _ | .ftanh h _ a _ | .fsinpi h _ a _ | .fcospi h _ a _ | .fcls h _ a _ =>
    uses h [a]
  | .fsqrt h _ a _ => { uses h [a] with rnd := true }
  | .frnd h _ a _ _ => { uses h [a] with rnd := true }
  | .fred h _ a _ _ => { uses h [a] with rnd := true }
  | .cvts h _ a _ => { uses h [a] with rnd := true }
  | .cvtdSat h _ a b _ | .cvtdInf h _ a b _ | .cvtdNan h _ a b _ | .cvtdTrap h _ a b _
  | .cvtu h _ a b _ => { uses h [a, b] with rnd := true }
  | .absmx h _ a _ => uses h [a]
  | .ld h _ a la _ _ _ =>
    { uses h [a] with ximm := true, track := decide (la = 15), ords := ordLoad, cache := true }
  | .st h d a la size q =>
    { uses h (if size = 3 ∧ q = 1 then [d, d + 1, a] else [d, a]) with ximm := true, track := decide (la = 15), ords := ordStore, cache := true }
  | .pref h a _ => { uses h [a] with ximm := true, cache := true }
  | .pres h _ a la => { uses h [a] with ximm := true, track := decide (la = 15) }
  | .aadd h d a la _ _ _ | .aand h d a la _ _ _ | .aor h d a la _ _ _ | .axor h d a la _ _ _
  | .amin h d a la _ _ _ | .amax h d a la _ _ _ | .aminn h d a la _ _ _ | .amaxn h d a la _ _ _
  | .axch h d a la _ _ _ => usesAtom h d a la
  | .acas h d a la _ _ _ => { usesAtom h d a la with srcs := [d.toNat, d.toNat + 1, a.toNat] }
  | .afadd h d a la _ _ | .afmin h d a la _ _ | .afmax h d a la _ _ => usesAtom h d a la
  | .fence h _ _ => uses h []
  | .bar h _ _ | .barArv h _ _ => uses h []
  | .nbar h _ _ b | .nbarArv h _ b => uses h [b]
  | .fprop h d a => { uses h [d, d + 1, a] with track := true, ords := ordAll }
  | .frcy h d a => { uses h [d, a] with track := true, ords := ordAll }
  | .fread h d a | .fwait h d a => { uses h [d + 1, a] with track := true, ords := ordLoad }
  | .xcnt h a b => uses h [a, b]
  | .xrd h _ a | .xsnap h _ a => { uses h [a] with track := true }
  | .push h _ a _ => { uses h ((List.range 8).map fun i => a + BitVec.ofNat 5 i) with ords := ordStore }
  | .kick h _ a b => { uses h [a, b] with ords := ordStore }
  | .lcset h _ a b | .lcsetZ h _ a b => uses h [a, b]
  | .lcsetFree h _ a | .lcwait h a _ | .lcrd h _ a _ | .strm h _ a | .strms h _ a _ | .layh h a =>
    uses h [a]
  | .strmsRd h _ _ _ | .layhAll h => uses h []
  | .resv h _ _ _ | .resvW h _ _ _ | .rls h | .guard h _ _ => uses h []
  | .guardReg h a _ => uses h [a]
  | .pack h _ a b _ => { uses h [a, b] with ximm := true, rnd := true }
  | .unpk h _ _ b _ => { uses h [b] with ximm := true }
  | .kld h _ a => { uses h [a] with ximm := true, track := true, ords := ordLoad, cache := true }
  | .kst h _ a => { uses h [a] with ximm := true, track := true, ords := ordStore, cache := true }
  | .kldB h _ a => { uses h [a] with track := true, ords := ordLoad, cache := true }
  | .kstB h _ a => { uses h [a] with track := true, ords := ordStore, cache := true }
  | .kadd h _ _ _ _ => uses h []
  | .ksls h _ _ b _ | .kext h _ _ b _ => uses h [b]
  | .bptr h a b => uses h [a, b]
  | .bptrRd h _ => uses h []
  | .mulkS h _ a => uses h [a]
  | .mulkC h _ _ _ => { uses h [] with track := true }
  | .accrd h _ _ b => uses h [b]
  | .accrdOv h _ _ | .accz h _ => uses h []
  | .acccv h _ _ b _ => { uses h [b] with rnd := true }
  | .tagGet h _ a | .tagVal h _ a | .deref h _ a | .func h _ a => uses h [a]
  | .mkt h _ a t => uses h (if t = 0 then [] else [a])
  | .tagSet h _ a b | .arg h _ a b _ => uses h [a, b]
  | .unify h _ a b _ | .bind h _ a b => { uses h [a, b] with track := true }
  | .unifyc h _ => { uses h [] with track := true }
  | .choice h a | .retry h a | .cut h a | .commit h a => uses h [a]
  | .retryTrust h => uses h []
  | .failb h _ => { uses h [] with ctl := true }
  | .tmark h _ => uses h []
  | .unwind h a => uses h [a, a + 1]
  | .halloc h _ b _ _ => uses h [b]
  | .symq h _ | .symqR h _ _ => uses h []
  | .symw h a => uses h [a]
  | .symset h a b => uses h [a, b]
  | .csrr h _ _ => uses h []
  | .csrw h d _ => uses h [d]
  | .eret h => { uses h [] with ctl := true }
  | .tlbiVa h a | .ctxs h a | .ctxl h a | .cflushWb h a | .cflushInv h a => uses h [a]
  | .tlbiJob h | .tlbiAll h | .cflushAll h | .cancel h _ => uses h []
  | .cndw h a b => uses h [a, b]
  | .region _ => { uses hdr0 [] with bare := true }
  | .pool _ => { uses hdr0 [] with bare := true, ctl := true }
  | _ => uses hdr0 []

/-- The hints read so far may stand before an instruction (R76, R77, R189). -/
def hintsOk (u : Uses) (hn : Hints) : Bool :=
  (!u.bare || decide (hn.start = none)) &&
  (decide (hn.ximm = none) || u.ximm) &&
  (decide (hn.track = none) || u.track) &&
  (match hn.mod with
    | none => true
    | some (r, o, sc, ca) =>
      (u.rnd || u.ords.isSome || u.cache) && (decide (r = 0) || u.rnd) &&
        (decide (o = 0 ∧ sc = 0) || u.ords.isSome) &&
        (decide (o = 0) || (u.ords.getD []).contains o) && (decide (ca = 0) || u.cache))

/-- The XIMM payload in force, 0 without the hint. -/
def Hints.payload (hn : Hints) : Nat :=
  match hn.ximm with
  | .none => 0
  | some n => n.toNat

/-- The combined immediate of R14, sign-extended: payload × 2^w + field, or the field alone. -/
def immOf (hn : Hints) (w field : Nat) : Int :=
  match hn.ximm with
  | .none => signedOf w field
  | some n => signedOf (24 + w) (n.toNat * 2 ^ w + field)

/-- The combined immediate of R14, zero-extended. -/
def uimmOf (hn : Hints) (w field : Nat) : Nat := hn.payload * 2 ^ w + field

/-- The rounding mode in force (R15, R81). -/
def Hints.mode (hn : Hints) : Nat :=
  match hn.mod with
  | some (r, _, _, _) => if r = 0 then 1 else r
  | .none => 1

/-- The ordering in force (R15, R189). -/
def Hints.sem (hn : Hints) : Nat :=
  match hn.mod with
  | some (_, o, _, _) => o
  | .none => 0

/-- The scope in force, where the instruction's own is `own` (R15, R189). -/
def Hints.scope (hn : Hints) (own : Nat) : Nat :=
  match hn.mod with
  | some (_, _, sc, _) => if sc = 0 then own else sc
  | .none => own

/-- A format slot of the launch (R126). -/
def slotWord (l : Option Launch) (n : Nat) : Nat :=
  match l with
  | none => 0
  | some l => recW l (4 + n)

/-- ILLEGAL-ENCODING that depends on the hints or on the launch's slots: LA = 15 without TRACK (R73),
an XIMM before SHI (R98), payload bits of PACK and UNPK (R219, R220), a slot without a kind or
width (R127, R214). -/
def contextBad (l : Option Launch) (hn : Hints) : Instr → Bool
  | .ld _ _ _ la _ _ _ | .st _ _ _ la _ _ | .pres _ _ _ la
  | .aadd _ _ _ la _ _ _ | .aand _ _ _ la _ _ _ | .aor _ _ _ la _ _ _ | .axor _ _ _ la _ _ _
  | .amin _ _ _ la _ _ _ | .amax _ _ _ la _ _ _ | .aminn _ _ _ la _ _ _ | .amaxn _ _ _ la _ _ _
  | .axch _ _ _ la _ _ _ | .acas _ _ _ la _ _ _ | .afadd _ _ _ la _ _ | .afmin _ _ _ la _ _
  | .afmax _ _ _ la _ _ => decide (la = 15) && decide (hn.track = none)
  | .shi .. => decide (hn.payload ≠ 0)
  | .cvtdSat _ _ _ _ n | .cvtdInf _ _ _ _ n | .cvtdNan _ _ _ _ n | .cvtdTrap _ _ _ _ n
  | .cvtu _ _ _ _ n | .absmx _ _ _ n | .acccv _ _ _ _ n => decide (slotWord l n.toNat % 16 = 0)
  | .pack _ _ _ _ n => decide (slotWord l n.toNat % 16 = 0) || decide (bits hn.payload 22 11 ≠ 0)
  | .unpk _ _ _ _ n => decide (slotWord l n.toNat % 16 = 0) || decide (bits hn.payload 23 11 ≠ 0)
  | .guard _ _ n => decide (slotWord l n.toNat % 16 = 0) || decide (bits (slotWord l n.toNat) 16 12 = 0)
  | _ => false

/-! ## Waiting before an instruction -/

/-- An operation is still to be waited for by the crew that issued it. -/
def Op.open_ (o : Op) : Bool := !o.done

/-- The flags of a WAIT mask that are not set (R79, R80). -/
def flagsOpen (c : Crew) (m : BitVec 12) : Bool :=
  (upTo 12).any fun f => bitAt m.toNat f && decide (mgetD c.flags f 0 ≠ 0)

/-- A recorded fault that a WAIT takes: the first in program order on a named flag (R80). -/
def waitFault (c : Crew) (m : BitVec 12) : Option Op :=
  c.ops.find? fun o =>
    o.done && decide (o.bad ≠ 0) &&
      (match o.flag with
        | none => false
        | some f => bitAt m.toNat f)

/-- An FWAIT under way: its group waits for the replies and the crew does not (R103, R312). -/
def Op.parksGroup (o : Op) : Bool :=
  !o.done && decide (o.pages = []) && o.reqs.any fun r => match r.op with
    | .fwait _ => true
    | _ => false

/-- The operations that a control transfer waits for: all but detached and tracked ones and symbolic
loads (R72, R73). -/
def ctlOps (c : Crew) : List Op :=
  c.ops.filter fun o => o.la.isSome && decide (o.priv = c.priv) && !o.parksGroup

/-- Why an instruction does not issue now: it waits, or a recorded fault is taken. -/
inductive Hold where
  | go
  | wait
  | fault (o : Op)
  deriving DecidableEq, Repr

/-- Decide whether an instruction may issue: WAIT (R80), TRACK at 63 (R79), control transfer (R72). -/
def holdOf (c : Crew) (u : Uses) (hn : Hints) (act : Mask) : Hold :=
  let w := match hn.wait with
    | none => Hold.go
    | some m =>
      if flagsOpen c m then .wait
      else match waitFault c m with
        | some o => .fault o
        | none => .go
  match w with
  | .go =>
    let full := match hn.track with
      | none => false
      | some f => decide (63 ≤ mgetD c.flags f 0) && decide (act ≠ 0)
    if full then .wait
    else if u.ctl then
      match (ctlOps c).find? fun o => o.done && decide (o.bad ≠ 0) with
      | some o => .fault o
      | none => if (ctlOps c).any Op.open_ then .wait else .go
    else .go
  | r => r

/-! ## The gate -/

/-- What an instruction's meaning works with. -/
structure Ctx where
  key : Nat
  c : Crew
  /-- Active lanes and the group's lanes (R62). -/
  act : Mask
  grp : Mask
  pc : Word
  start : Word
  next : Word
  hn : Hints
  u : Uses
  w : Who
  /-- Place in program order. -/
  seq : Nat
  deriving DecidableEq, Repr

/-- Trap at an instruction that has had no effect (R336: Before). -/
def trapAt (x : Ctx) (s : State) (cls : Nat) (addr : Word) (lanes : Mask) : State :=
  takeTrap s x.key { mkTrap cls x.start x.next addr lanes x.act with resume := x.start }

/-- The source registers include one that the staging buffer does not hold (R60). -/
def unstaged (c : Crew) (srcs : List Nat) : Bool :=
  srcs.any fun r => decide (r < 24) && !bitAt c.region.toNat r

/-- Issue cycles of an instruction: two when it reads an unstaged register, and one when no lane is active
and so none is read (R60, R62). -/
def issueCycles (c : Crew) (srcs : List Nat) (act : Mask) : Nat :=
  if unstaged c srcs && decide (act ≠ 0) then 2 else 1

/-- An earlier operation of the crew sees an instruction issue (R72, R340). -/
def Op.passed (priv : Bool) (grp : Mask) (o : Op) : Op :=
  if o.priv ≠ priv then o
  else
    let la := match o.la with
      | some (n + 1) => if o.active &&& grp ≠ 0 then some n else o.la
      | la => la
    { o with la := la, after := true }

/-- The crew after an instruction has issued: PCs, stamps, the next issue cycle, lookahead counts,
no hint pending (R60, R70, R72, R103, R321). -/
def retireCrew (now seq : Nat) (u : Uses) (grp act : Mask) (next : Word) (tgt : Nat → Word)
    (c : Crew) : Crew :=
  let c := modThs c (lanesOf grp) fun l t =>
    { t with pc := if inMask act l then tgt l else next, stamp := seq }
  let c := { c with
    hint := Hints.none, rej := []
    ready := now + issueCycles c u.srcs act
    stamp := seq
    ops := c.ops.map (Op.passed c.priv grp) }
  settleMeet c

/-- Retire an instruction; `tgt` gives each active lane its next PC. -/
def retireTo (x : Ctx) (s : State) (tgt : Nat → Word) : State :=
  let s := modCrew s x.key (retireCrew s.cycle x.seq x.u x.grp x.act x.next tgt)
  { s with sched := mput s.sched (x.c.core * 4 + x.c.slot % 4) (s.cycle + issueCycles x.c x.u.srcs x.act) }

/-- Retire an instruction that goes on to the next word. -/
def retire (x : Ctx) (s : State) : State := retireTo x s fun _ => x.next

/-- The context of the instruction at hand. -/
def ctxOf (i : Instr) (s : State) (c : Crew) : Ctx :=
  let u := usesOf i
  let grp := groupAt c s.iss.start
  { key := s.iss.crew, c := c, act := guarded c u.h grp, grp := grp, pc := s.iss.pc,
    start := s.iss.start, next := s.iss.pc + 4, hn := c.hint, u := u,
    w := whoLane s c (guarded c u.h grp) c.priv, seq := s.nextSeq }

/-- Every instruction passes the gate: the crew's due results complete, hints and encoding are
checked in the order of R83, waits are honoured, and an instruction with no active lane only takes
its slot (R62). Then its own meaning runs. -/
def gate (i : Instr) (k : Ctx → State → State) (s : State) : Host.Outcome State Fault Refusal :=
  match mget s.crews s.iss.crew with
  | none => .fault .noCrew
  | some c0 =>
    let c := settle s.cycle c0
    let s := putCrew s s.iss.crew c
    let x := ctxOf i s c
    if !hintsOk x.u x.hn then
      .next (takeTrap s x.key (mkTrap clsHint x.start x.next x.pc x.grp x.grp))
    else if contextBad (launchOf s c) x.hn i then
      .next (takeTrap s x.key (mkTrap clsEncoding x.start x.next 0 x.grp x.grp))
    else
      match holdOf c x.u x.hn x.act with
      | .wait => .next s
      | .fault o => .next (takeOpTrap s x.key o x.start)
      | .go =>
        let s := { s with nextSeq := s.nextSeq + 1 }
        if x.act = 0 then .next (retire x s) else .next (k x s)

/-- Park the group's active lanes; the instruction runs again when the wait is over. Its hints are
read again with it (R75). -/
def parkGroup (x : Ctx) (s : State) (p : Park) : State :=
  modCrew s x.key fun c =>
    { modThs c (lanesOf x.grp) (fun _ t => { t with park := p }) with hint := Hints.none }

/-- Enter the pages that work met in the fault queue and park the group on them (R157). -/
def parkPages (x : Ctx) (s : State) (ids : List Nat) : State := parkGroup x s (.page ids)

/-! ## Stream ports (R63, R64) -/

/-- The port of a code 28–31. -/
def portOf (c : Crew) (code : Nat) : Port := mgetD c.ports (code - 28) Port.unbound

/-- Lane L's coordinate: position 0 advanced by the lane. -/
def portCoord (p : Port) (l : Nat) : List Nat :=
  match p.pos with
  | a :: t => (a + l) :: t
  | [] => []

/-- A coordinate lies inside the extents. -/
def portInside (p : Port) (c : List Nat) : Bool :=
  (c.zip p.ext).all fun x => decide (x.1 < x.2)

/-- Address of an element. -/
def portAddr (p : Port) (c : List Nat) : Word :=
  let off : Int := ((c.zip p.stride).map fun x => (x.1 : Int) * x.2.toInt).foldl (· + ·) 0
  BitVec.ofInt 64 ((p.base.toNat : Int) + p.size * off)

/-- Carry positions upward (R64). -/
def carryPos : List Nat → List Nat → List Nat
  | a :: b :: t, e :: es =>
    if e = 0 then a :: b :: t else (a % e) :: carryPos ((b + a / e) :: t) es
  | l, _ => l

/-- Advance a port by one issue: the carry is exact, and each position keeps 32 bits (R63, R64; log 65). -/
def advancePort (p : Port) : Port :=
  match p.pos with
  | a :: t => { p with pos := (carryPos ((a + 32) :: t) p.ext).map (· % 2 ^ 32) }
  | [] => p

/-- Replace a port. -/
def setPort (c : Crew) (code : Nat) (p : Port) : Crew := { c with ports := mput c.ports (code - 28) p }

/-- Port elements read by an instruction, at port·32 + lane. -/
abbrev PortVals := Map Word

/-- The outcome of reading an instruction's sources. -/
inductive SrcRes where
  /-- The values of ports; registers are read from the crew. -/
  | ok (s : State) (v : PortVals)
  /-- The instruction does not run now: it is parked or has trapped. -/
  | stop (s : State)
  deriving DecidableEq, Repr

/-- An operation has accesses of a lane not yet performed: reads or writes; every later access waits for a symbol
with acquire (R191, R194). -/
def opBusy (c : Crew) (l : Nat) (reads writes : Bool) (o : Op) : Bool :=
  !o.done && decide (o.priv = c.priv) &&
  (match o.kind with
    | .ld .. | .pres | .kld .. => reads
    | .ldsym .. => reads || (writes && decide (o.sem = 1 ∨ o.sem = 3))
    | .xcounter => reads || (writes && (o.accs.any (·.op.writes) || o.reqs.any (·.op.writes)))
    | .st | .kst | .pstore => writes
    | .atom .. | .flint | .frcy | .term _ => reads || writes
    | .mulkc .. => false) &&
  (o.accs.any (fun a => decide (a.lane = l)) ||
    o.reqs.any (fun r => decide (r.lane = l) && (decide (r.st = .waiting) || decide (r.st = .waiter))) ||
    (match o.kind with
      | .term _ => inMask o.left l
      | .ldsym .. => inMask o.active l && !inMask (o.fin ||| o.bad) l
      | _ => false))

/-- Accesses not yet performed that one lane has made. -/
def laneBusy (c : Crew) (l : Nat) (reads writes : Bool) : Bool := c.ops.any (opBusy c l reads writes)

/-- All of an operation's accesses of a lane that are still to be performed are stores whose targets are known. -/
def storesOnly (o : Op) (l : Nat) : Bool :=
  (match o.kind with
    | .st | .kst | .pstore => true
    | _ => false) && o.accs.all fun a => decide (a.lane ≠ l)

/-- The stores of a lane that an operation has still to perform. -/
def storesOf (l : Nat) (p : Op) : List Req := p.reqs.filter fun q => q.open_ && !q.op.reads && decide (q.lane = l)

/-- A lane's earlier accesses that a load does not pass: reads, atomics, stores whose targets are not known, and MMIO
(R170, R186, R188). -/
def loadHeld (c : Crew) (l : Nat) : Bool :=
  c.ops.any fun o => opBusy c l true false o ||
    (opBusy c l false true o && !(storesOnly o l && (storesOf l o).all fun q => decide (q.ty ≠ 0xB)))

/-- The type that a request of a cord in a B-slice carries, which no translation gives (R224). -/
def tyCord : Nat := 0xFE

/-- A crew has stores of B-slices still to be performed (R224). -/
def cordStores (c : Crew) : Bool :=
  c.ops.any fun o => !o.done && o.reqs.any fun r => r.op.writes && decide (r.ty = tyCord ∧ r.st = .waiting)

/-- Granite instructions of a unit that have not yet taken effect: operations in flight, and a MULK.S that waits
for a block (R217). A waiting RESV.W of another crew has not taken effect and is not waited for (DESIGN CHOICE,
log 78). -/
def graniteBusy (s : State) (uid : Nat) : Bool :=
  s.crews.any fun p => decide (p.2.uid = uid) &&
    (p.2.ops.any (fun o => !o.done && o.granite) ||
      p.2.th.any fun q => q.2.live && (match q.2.park with
        | .lines phys _ => (heldPart phys).any fun h => decide (h.2.1 ≠ 0)
        | _ => false))

/-- A crew has operations whose accesses are not translated yet, so that they have not entered the serial buffer
(R332). -/
def appendsOpen (c : Crew) : Bool :=
  c.ops.any fun o => !o.accs.isEmpty && decide (o.priv = c.priv)

/-- Some lane of a mask has an earlier access still to be performed. -/
def maskBusy (c : Crew) (m : Mask) (reads writes : Bool) : Bool :=
  (lanesOf m).any fun l => laneBusy c l reads writes

/-- Read one port for the active lanes, lowest lane first; page faults of all lanes are found before
any lane is read (R157). -/
def readPort (x : Ctx) (p : Port) (code : Nat) : PortVals → List Nat → VM PortVals
  | v, [] => vpure v
  | v, l :: t =>
    let c := portCoord p l
    if portInside p c then
      vbind (vread { x.w with lanes := oneLane l } .load true (portAddr p c) p.size) fun b =>
        readPort x p code (mput v (code * 32 + l) (wordOf b)) t
    else readPort x p code (mput v (code * 32 + l) p.pad) t

/-- The page faults that the lanes of a port access meet, one for each 64 KiB page (R157, R158). -/
def portPages (w : Who) (k : AccKind) : State → List Word → List Nat → State × List Nat
  | s, [], ids => (s, ids)
  | s, va :: t, ids =>
    match xlat s { w with lanes := 0 } k va with
    | (s, .page ty lv) =>
      if ids.any fun i => decide ((pageVa s i).toNat / 2 ^ 16 = va.toNat / 2 ^ 16) then portPages w k s t ids
      else
        let (s, id) := faultEnter s w k va ty lv
        portPages w k s t (ids ++ [id])
    | (s, _) => portPages w k s t ids

/-- Sort addresses ascending. -/
def insAddr (a : Word) : List Word → List Word
  | [] => [a]
  | b :: t => if a.toNat ≤ b.toNat then a :: b :: t else b :: insAddr a t

/-- The lanes whose port element an access refuses at translation: PROTECTION, or an MMIO access that is not
a naturally aligned one of 4 or 8 bytes (R157, R170). -/
def portRefused (w : Who) (k : AccKind) (s : State) (p : Port) (m : Mask) : Mask :=
  maskOf fun l =>
    inMask m l && portInside p (portCoord p l) &&
      (parts (portAddr p (portCoord p l)) p.size).any fun q =>
        match xlat s w k q.1 with
        | (_, .prot) => true
        | (_, .ok _ ty) => mmioBad ty (portAddr p (portCoord p l)) p.size
        | _ => false

/-- Put the element addresses of the lanes inside the extents into an ascending list. -/
def portAddrs (p : Port) (m : Mask) (acc : List Word) : List Word :=
  ((lanesOf m).filter fun l => portInside p (portCoord p l)).foldl
    (fun acc l => (parts (portAddr p (portCoord p l)) p.size).foldl (fun acc q => insAddr q.1 acc) acc) acc

/-- Read several ports, one after another, each at its position. -/
def readAll (x : Ctx) (c : Crew) (ls : List Nat) : List Nat → PortVals → VM PortVals
  | [], v => vpure v
  | code :: t, v => vbind (readPort x (portOf c code) code v ls) fun v => readAll x c ls t v

/-- The lanes in which reading the ports ends in an error response or a refusal, with their addresses; each
is logged (R157, R169). -/
def portErrs (x : Ctx) (c : Crew) (codes : List Nat) : State → List Nat → State × List (Nat × Word)
  | s, [] => (s, [])
  | s, l :: t =>
    let r : State × List (Nat × Word) := match readAll x c [l] codes [] s with
      | .err s _ a => (s, [(l, a)])
      | _ => (s, [])
    let r' := portErrs x c codes r.1 t
    (r'.1, r.2 ++ r'.2)

/-- A port read that some lanes are refused: PROTECTION, those lanes faulting, the lowest one's address
in the record (R157, R169). -/
def portTrap (x : Ctx) (s : State) (c : Crew) (codes : List Nat) (ls : List Nat) : State :=
  let r := portErrs x c codes s ls
  trapAt x r.1 clsProt ((r.2.map (·.2)).headD 0) (maskOf fun l => r.2.any fun e => decide (e.1 = l))

/-- A lane's port element meets a page fault. -/
def portPaged (w : Who) (k : AccKind) (s : State) (m : Mask) (p : Port) : Bool :=
  (lanesOf m).any fun l => portInside p (portCoord p l) &&
    (parts (portAddr p (portCoord p l)) p.size).any fun q =>
      match xlat s w k q.1 with
      | (_, .page _ _) => true
      | _ => false

/-- A lane's port element may not be read yet: the lane's own stores to its bytes come first, and so do the crew's
accesses of MMIO where it is MMIO (R170, R186). -/
def portHeld (w : Who) (s : State) (c : Crew) (m : Mask) (p : Port) : Bool :=
  (lanesOf m).any fun l => portInside p (portCoord p l) &&
    (parts (portAddr p (portCoord p l)) p.size).any fun e =>
      match xlat s w .load e.1 with
      | (_, .ok phys ty) =>
        c.ops.any fun o => decide (o.priv = c.priv) && !o.done &&
          ((storesOf l o).any (fun q => meets q.phys q.n phys e.2) ||
            (decide (ty = 0xB) && (!o.accs.isEmpty || o.reqs.any fun q => q.open_ && decide (q.ty = 0xB))))
      | _ => false

/-- The lanes of a mask whose port element lies on a page that the runtime has rejected (R339). -/
def portHits (s : State) (c : Crew) (m : Mask) (p : Port) : Mask :=
  maskOf fun l => inMask m l && portInside p (portCoord p l) &&
    (parts (portAddr p (portCoord p l)) p.size).any fun q => rejHit s c q.1

/-- Port reads meet page faults: they are entered once each and the group parks; where the runtime has
rejected one, PAGE-FAULT for the lanes with bytes on its page (R157, R339). -/
def portPark (x : Ctx) (s : State) (c : Crew) (ps : List Port) : State :=
  let hit := ps.foldl (fun m p => m ||| portHits s c x.act p) 0
  if hit ≠ 0 then
    let l := lowLane hit
    let va := match ps.find? fun p => inMask (portHits s c x.act p) l with
      | some p => portAddr p (portCoord p l)
      | none => 0
    trapAt x s clsPage va hit
  else
    let (s, ids) := portPages x.w .load s (ps.foldl (fun acc p => portAddrs p x.act acc) []) []
    parkPages x s ids

/-- Read every port among the sources once: the translation of every lane of every port is settled before
any is read, the lanes' own stores to the elements come first, and only then does each port advance (R64, R157, R186). A park on rejected fault-queue entries
raises PAGE-FAULT (R339). -/
def readPorts (x : Ctx) (codes : List Nat) (s : State) : SrcRes :=
  match mget s.crews x.key with
  | none => .stop s
  | some c =>
    let ps := codes.map (portOf c)
    let bad := ps.foldl (fun m p => m ||| portRefused x.w .load s p x.act) 0
    if ps.any fun p => decide (p.handle = 0) then .stop (trapAt x s clsProt 0 x.act)
    else if bad ≠ 0 then .stop (portTrap x s c codes (lanesOf bad))
    else if ps.any (portPaged x.w .load s x.act) then .stop (portPark x s c ps)
    else if ps.any (portHeld x.w s c x.act) then .stop (parkGroup x s (.quiet (BitVec.allOnes 32) true true))
    else
      match readAll x c (lanesOf x.act) codes [] s with
      | .ok s v =>
        .ok (modCrew s x.key fun c => codes.foldl (fun c code =>
          setPort c code { advancePort (portOf c code) with wr := false }) c) v
      | .page .. => .stop (portPark x s c ps)
      | .err .. => .stop (portTrap x s c codes (lanesOf x.act))
      | .wait s phys n => .stop (parkGroup x s (.lines phys n))

/-! ## Symbolic sources (R293 to R295) -/

/-- What a source code holds in a lane. -/
def srcOf (c : Crew) (v : PortVals) (l code : Nat) : RegVal :=
  if code < 28 then regOf (thOf c l) code else .known (mgetD v (code * 32 + l) 0)

/-- The value of a source code in a lane, known. -/
def srcW (c : Crew) (v : PortVals) (l code : Nat) : Word := (srcOf c v l code).word

/-- The symbols that sources hold in the lanes of a mask, as a mask of symbols. -/
def srcSyms (c : Crew) (m : Mask) (codes : List Nat) : Nat :=
  ((lanesOf m).map fun l => codes.map fun r =>
    if r < 28 then
      match (regOf (thOf c l) r).symbol with
      | none => 0
      | some y => 2 ^ y
    else 0).flatten.foldl Nat.lor 0

/-- The lowest symbol that is FAULTED in a lane of the mask whose own set names it. -/
def faultedSym (c : Crew) (m : Mask) (set : Nat → Nat) : Option Nat :=
  (upTo 16).find? fun y =>
    match mget c.syms y with
    | none => false
    | some r => r.lanes.any fun x => inMask m x.lane && bitAt (set x.lane) y && x.faulted

/-- The symbols that the sources of a lane hold. -/
def laneSyms (c : Crew) (codes : List Nat) (l : Nat) : Nat := srcSyms c (oneLane l) codes

/-- Park the group until the symbols of each active lane have arrived in it; the other lanes wait for the group
(R295, R301). -/
def parkSyms (x : Ctx) (s : State) (set : Nat → Nat) : State :=
  modCrew s x.key fun c =>
    { modThs c (lanesOf x.grp) (fun l t => { t with park := .syms (if inMask x.act l then set l else 0) }) with
      hint := Hints.none }

/-- Block the group on each active lane's symbols, or raise SYMBOL-FAULT when one is FAULTED there (R295,
R298). -/
def blockOn (x : Ctx) (s : State) (set : Nat → Nat) : State :=
  match faultedSym x.c x.act set with
  | some y => takeSymTrap s x.key y x.start
  | none => parkSyms x s set

/-- The port codes of a list, each once, in order. -/
def portCodes : List Nat → List Nat
  | [] => []
  | a :: t => if 28 ≤ a then a :: (portCodes t).filter (fun b => decide (b ≠ a)) else portCodes t

/-- A destination names a port that is not bound (R86). -/
def unboundPort (c : Crew) (d : Nat) : Bool := decide (28 ≤ d) && decide ((portOf c d).handle = 0)

/-- Read the sources of an instruction that takes known values: block on forms, check that the
destination port `dport` is bound, read ports (R64, R86, R295). -/
def fetchSources (x : Ctx) (s : State) (codes : List Nat) (dport : Option Nat) : SrcRes :=
  let set := srcSyms x.c x.act codes
  if set ≠ 0 then .stop (blockOn x s (laneSyms x.c codes))
  else
    let ps := portCodes codes
    if dport.any (unboundPort x.c) then .stop (trapAt x s clsProt 0 x.act)
    else if ps = [] then .ok s []
    else if maskBusy x.c x.act true false then .stop (parkGroup x s (.quiet x.act true false))
    else if (lanesOf x.act).any (loadHeld x.c) then .stop (parkGroup x s (.quiet x.act true true))
    else readPorts x ps s

/-! ## Destinations -/

/-- Latency of class A (R71). -/
def latA : Nat := 4
/-- Latency of class B. -/
def latB : Nat := 12
/-- Latency of class C. -/
def latC : Nat := 24

/-- Write results of one target kind in the active lanes: at once, or pending for a latency (R71,
R88). -/
def writeTgts (x : Ctx) (s : State) (lat : Nat) (tgt : Nat → Option PTgt) : State :=
  modCrew s x.key fun c =>
    (lanesOf x.act).foldl (fun c l =>
      match tgt l with
      | none => c
      | some t =>
        if lat = 0 then completeW c l t x.seq
        else { c with pend := c.pend ++
          [{ lane := l, tgt := t, seq := x.seq, due := s.cycle + lat, born := s.cycle }] }) c

/-- The entry that a destination names when its instruction issues (R89). -/
def dstEntry (x : Ctx) (l i : Nat) : Nat := entryOf (thOf x.c l) i

/-- Write window register `d` in the active lanes. -/
def writeReg (x : Ctx) (s : State) (lat d : Nat) (v : Nat → RegVal) : State :=
  writeTgts x s lat fun l => some (.reg (dstEntry x l d) (v l))

/-- Write a predicate in the active lanes; writes of p7 are discarded (R62). -/
def writePred (x : Ctx) (s : State) (lat p : Nat) (v : Nat → Bool) : State :=
  if p = 7 then s else writeTgts x s lat fun l => some (.pred p (v l))

/-- OR flags into %fpstat of the active lanes (R124, R125). -/
def writeFlags (x : Ctx) (s : State) (lat : Nat) (f : Nat → Nat) : State :=
  writeTgts x s lat fun l => if f l = 0 then none else some (.flags (BitVec.ofNat 64 (f l)))

end Sys2Proof.Machine
end

