-- ==== Sys2Proof/Machine/LongOps.lean ====
section
/-! DEFINITION. Operations in flight: translation of all lanes, the order in which requests may be
performed, what a request does at its target, completion, port stores and the arrival of symbols
(04 R72 to R74, 06 R88, 10 R157 to R183, 12 R186 to R194, 20 R291 to R298, 22 R331, R332). -/

namespace Sys2Proof.Machine

/-! ## Translation -/

/-- The parts of an access by sector, a store's bytes divided among them (R167). -/
def accParts (a : Acc) : List (Word × Nat × AccOp) :=
  match a.op with
  | .write data =>
    ((parts a.va a.n).foldl (fun (r : List (Word × Nat × AccOp) × List Byte) p =>
      (r.1 ++ [(p.1, p.2, .write (r.2.take p.2))], r.2.drop p.2)) ([], data)).1
  | .fprop .. | .fread _ | .fwait _ | .frcy _ => [(a.va, 16, a.op)]
  | .atom .. | .pres => [(a.va, a.n, a.op)]
  | .xrd _ | .xsnap _ => []
  | .read => (parts a.va a.n).map fun p => (p.1, p.2, a.op)

/-- What an access needs of its page (R153, R309). -/
def accKind : AccOp → AccKind
  | .write _ => .store
  | .atom .. => .atomic
  | .fprop .. | .frcy _ => .flintWrite
  | .fread _ | .fwait _ => .flintRead
  | _ => .load

/-- Target types that KLD and KST do not accept beyond those of loads and stores (R224). -/
def kindBars (k : OpKind) (ty : Nat) : Bool :=
  match k with
  | .kld .. | .kst => decide (ty = 9 ∨ ty = 0xB)
  | _ => false

/-- An MMIO access that is not a naturally aligned one of 4 or 8 bytes (R170). -/
def accBad (a : Acc) (ty : Nat) : Bool :=
  match a.op with
  | .read | .write _ => mmioBad ty a.va a.n
  | _ => false

/-- An address that the instruction refuses whatever it maps to: an atomic or flint request that is not naturally
aligned (R180, R309). -/
def accMis (a : Acc) : Bool :=
  match a.op with
  | .atom _ w64 _ _ => decide (a.va.toNat % atomBytes w64 ≠ 0)
  | .fprop .. | .fread _ | .fwait _ | .frcy _ => decide (a.va.toNat % 16 ≠ 0)
  | _ => false

/-- The type that a request carries whose target refuses it: it receives an error response when it is performed,
logged at the slice and with the kind that its target byte encodes (R169). -/
def tyRefused : Nat := 0xFF

/-- The target byte of a refused request. -/
def refusedAt (slice kind : Nat) : Nat := 2 ^ 80 + slice * 2 + kind

/-- What translating an operation's accesses has found so far. -/
structure Xl where
  s : State
  reqs : List Req
  /-- Lanes refused for another reason than a page fault. -/
  bad : Mask
  /-- Lanes whose proposed word carries a tag that no value has (R310). -/
  tag : Mask
  /-- Faulting pages: lane, kind, address, type and level found. -/
  pages : List (Nat × AccKind × Word × Nat × Nat)

/-- A new request. -/
def newReq (id : Nat) (a : Acc) (p : Word × Nat × AccOp) (phys ty : Nat) (st : ReqSt) : Req :=
  { id := id, lane := a.lane, va := p.1, phys := phys, ty := ty, n := p.2.1, op := p.2.2, st := st,
    val := [], snap := false, defer := false }

/-- Translate one part of an access. -/
def xlPart (w : Who) (k : OpKind) (a : Acc) (x : Xl) (p : Word × Nat × AccOp) : Xl :=
  let w := { w with lanes := oneLane a.lane }
  let kind := accKind p.2.2
  match xlat x.s w kind p.1 with
  | (s, .ok phys ty) =>
    if accBad a ty || kindBars k ty then { x with s := s, bad := x.bad ||| oneLane a.lane }
    else { x with
      s := { s with nextId := s.nextId + 1 }
      reqs := x.reqs ++ [newReq s.nextId a p phys ty .waiting] }
  | (s, .refused sl why) =>
    { x with
      s := { s with nextId := s.nextId + 1 }
      reqs := x.reqs ++ [newReq s.nextId a p (refusedAt sl why) tyRefused .waiting] }
  | (s, .prot) => { x with s := s, bad := x.bad ||| oneLane a.lane }
  | (s, .page ty lv) => { x with s := s, pages := x.pages ++ [(a.lane, kind, p.1, ty, lv)] }

/-- Translate one access. -/
def xlAcc (w : Who) (k : OpKind) (x : Xl) (a : Acc) : Xl :=
  match a.op with
  | .fprop v _ =>
    let x := if badCellTag v.toNat then { x with tag := x.tag ||| oneLane a.lane } else x
    (accParts a).foldl (xlPart w k a) x
  | .xrd i | .xsnap i =>
    { x with
      s := { x.s with nextId := x.s.nextId + 1 }
      reqs := x.reqs ++ [newReq x.s.nextId a (0, 4, a.op) (xctrPlace i) 0 .waiting] }
  | _ => (accParts a).foldl (xlPart w k a) x

/-- Translate every access of an operation. -/
def xlAll (s : State) (w : Who) (o : Op) : Xl :=
  o.accs.foldl (xlAcc w o.kind) { s := s, reqs := [], bad := 0, tag := 0, pages := [] }

/-- Keep the lowest address of each faulting 64 KiB page. -/
def lowPages : List (Nat × AccKind × Word × Nat × Nat) → List (AccKind × Word × Nat × Nat) →
    List (AccKind × Word × Nat × Nat)
  | [], acc => acc
  | (_, k, va, ty, lv) :: t, acc =>
    let same (e : AccKind × Word × Nat × Nat) : Bool :=
      decide (e.2.1.toNat / 2 ^ 16 = va.toNat / 2 ^ 16)
    if acc.any same then
      lowPages t (acc.map fun e => if same e && decide (va.toNat < e.2.1.toNat) then (k, va, ty, lv) else e)
    else lowPages t (acc ++ [(k, va, ty, lv)])

/-- Enter faulting pages in the fault queue, each once (R157). -/
def enterPages (w : Who) : State → List (AccKind × Word × Nat × Nat) → State × List Nat
  | s, [] => (s, [])
  | s, (k, va, ty, lv) :: t =>
    let (s, id) := faultEnter s w k va ty lv
    let (s, ids) := enterPages w s t
    (s, id :: ids)

/-- The lowest address that a lane of an operation accesses. -/
def accAddr (o : Op) (lane : Nat) : Word :=
  match o.accs.find? fun a => decide (a.lane = lane) with
  | some a => a.va
  | none =>
    match o.reqs.find? fun r => decide (r.lane = lane) with
    | some r => r.va
    | none => 0

/-- Record a fault of an operation none of whose lanes is performed (R74, R175). -/
def Op.failAll (o : Op) (cls : Nat) (bad : Mask) (addr : Word) : Op :=
  { o with bad := bad, fin := 0, cls := cls, addr := addr, done := true, accs := [], reqs := [],
           pages := [], dsts := [] }

/-! ## Serial buffers (R331, R332, R315) -/

/-- Memory as a unit's buffered atomics see a location: the launch-start value of the 8 bytes around it, folded with
them (R332). -/
def bufferedOld (s : State) (w : Who) (phys n : Nat) : Nat :=
  let base := natOf (cellsGet (snapOf s w.lid) (phys / 8 * 8) 8)
  let v := match mget s.units w.uid with
    | none => base
    | some u => serFold (phys / 8) base u.serial
  v / 2 ^ (8 * (phys % 8)) % 2 ^ (8 * n)

/-- Perform or buffer a translated request at once where ordered mode says so; false when the
serial buffer would overflow. -/
def deferReq (w : Who) (s : State) (r : Req) : State × Req × Bool :=
  if r.ty = tyRefused then (s, r, true)
  else
    let sh := sharing s w r.va.toNat r.ty
    let ordered := match mget s.launches w.lid with
      | none => false
      | some l => l.ordered && !w.priv
    match r.op with
    | .write data =>
      if sh = .shared then
        let (s, ok) := serAppend s w.uid (.store r.phys r.va data w.slot r.lane)
        (s, { r with st := .done, defer := true }, ok)
      else (s, r, true)
    | .atom op w64 v x =>
      if sh = .shared then
        let old := bufferedOld s w r.phys (atomBytes w64)
        let (s, ok) := serAppend s w.uid (.atom r.phys r.va op w64 v x w.slot r.lane)
        (s, { r with st := .done, defer := true, val := bytesOf (atomBytes w64) old }, ok)
      else (s, r, true)
    | .fprop v p =>
      if ordered then
        match proposeOrdered { s with } { w with lanes := oneLane r.lane } r.va r.phys v p
            (winnerOf w.core w.slot r.lane false) r.lane with
        | (s, some (a, b), _) => (s, { r with st := .done, defer := true, val := wordsBytes [a, b] }, true)
        | (s, none, isOver) => (s, { r with st := .bad, defer := true }, !isOver)
      else (s, r, true)
    | .fread p | .fwait p =>
      if ordered then
        let waits := match r.op with
          | .fwait _ => true
          | _ => false
        match flintReadOrdered s w r.phys p waits with
        | some (a, b) =>
          (if b.toNat / 2 ^ 16 % 4 = 0 then cacheDecision s w.core r.phys p a b else s, { r with st := .done, defer := true, val := wordsBytes [a, b] }, true)
        | none =>
          (cellError s { w with lanes := oneLane r.lane } r.va r.phys,
            { r with st := .bad, defer := true }, true)
      else (s, r, true)
    | .read => (s, { r with snap := decide (sh = .shared) }, true)
    | _ => (s, r, true)

/-- Buffer what ordered mode buffers, lanes ascending; the lane of the first overflow comes back. -/
def deferAll (w : Who) : State → List Req → State × List Req × Option Nat
  | s, [] => (s, [], none)
  | s, r :: t =>
    match deferReq w s r with
    | (s, r, true) =>
      let (s, rs, bad) := deferAll w s t
      (s, r :: rs, bad)
    | (s, r, false) => (s, [], some r.lane)

/-! ## Symbols: faults (R292, R298) -/

/-- Lanes of a symbol become FAULTED; the crew raises SYMBOL-FAULT before it next issues (R298). -/
def symFail (now : Nat) (c : Crew) (sym : Nat) (m : Mask) (cls : Nat) (addr : Nat → Word) : Crew :=
  { c with syms := mmod c.syms sym fun y =>
      { y with
        lanes := y.lanes.map fun x => if inMask m x.lane then { x with faulted := true } else x
        cls := cls
        faddr := (lanesOf m).foldl (fun f l => mput f l (addr l)) y.faddr
        due := some (y.due.getD now) } }

/-! ## Translating an operation -/

/-- The address checks and translations of an operation, all lanes together; an atomic's alignment before its
translation, a flint request's in the same check (R157, R175, R180, R309). A symbolic load's lanes are checked one by
one (R298), and a lane that turns out to access MMIO makes the crew wait for the load as for LA = 0 (R170). -/
def translateOp (s : State) (c : Crew) (o : Op) : State × Crew × Op :=
  let w := { whoLane s c o.active o.priv with lanes := o.active }
  let x := xlAll s w o
  match o.kind with
  | .ldsym sym _ _ =>
    let paged := maskOf fun l => x.pages.any fun p => decide (p.1 = l) && !inMask x.bad l
    let ps := x.pages.filter fun p => inMask paged p.1
    let (s, ids) := enterPages w x.s (lowPages ps [])
    let c := if x.bad = 0 then c else symFail s.cycle c sym x.bad clsProt (accAddr o)
    let keep (l : Nat) : Bool := !inMask x.bad l && !inMask paged l
    (s, c, { o with
      la := if o.accs.any fun a => x.reqs.any fun r => decide (r.lane = a.lane ∧ r.ty = 0xB) then some 0 else o.la
      accs := o.accs.filter fun a => inMask paged a.lane
      reqs := o.reqs ++ ((x.reqs.filter fun r => keep r.lane).map fun r =>
        { r with snap := decide (sharing s w r.va.toNat r.ty = .shared) })
      pages := ids
      bad := o.bad ||| x.bad })
  | _ =>
    let frcyOrdered := (match o.kind with
      | .frcy => true
      | _ => false) && (match mget s.launches w.lid with
      | none => false
      | some l => l.ordered && !o.priv)
    let snapOrdered := o.accs.any (fun a => match a.op with
      | .xsnap _ => true
      | _ => false) && (match mget s.launches w.lid with
      | none => false
      | some l => l.ordered && !o.priv)
    let mis := maskOf fun l => o.accs.any fun a => decide (a.lane = l) && accMis a
    let atomic := match o.kind with
      | .atom .. => true
      | _ => false
    let bad := x.bad ||| mis
    if frcyOrdered || snapOrdered then
      (s, c, o.failAll clsProt o.active (accAddr o (lowLane o.active)))
    else if atomic && decide (mis ≠ 0) then (s, c, o.failAll clsProt mis (accAddr o (lowLane mis)))
    else if bad ≠ 0 then (x.s, c, o.failAll clsProt bad (accAddr o (lowLane bad)))
    else if x.tag ≠ 0 then (x.s, c, o.failAll clsTag x.tag 0)
    else if x.pages ≠ [] then
      let (s, ids) := enterPages w x.s (lowPages x.pages [])
      (s, c, { o with pages := ids })
    else
      match deferAll w x.s x.reqs with
      | (s, rs, none) => (s, c, { o with accs := [], reqs := o.reqs ++ rs, pages := [] })
      | (_, _, some l) => (x.s, c, o.failAll clsProt (oneLane l) (accAddr o l))

/-- The first entry of a unit's serial buffer about a cell and generation is a proposal that a copy has still to make,
as far as the copy's cell can be translated (R315, R335). -/
def placeFirst (s : State) (w : Who) (phys : Nat) (p : BitVec 16) : List SerEntry → Bool
  | [] => false
  | .prop a _ _ g _ _ _ :: t => !decide (a = phys ∧ g = p) && placeFirst s w phys p t
  | .cprop _ _ cell g :: t =>
    (decide (g = p) && (match (xlat s w .engProp cell).2 with
      | .ok a _ => decide (a = phys)
      | .page .. => true
      | _ => false)) || placeFirst s w phys p t
  | _ :: t => placeFirst s w phys p t

/-- A lane's proposal comes after one that a copy has still to make (R315, R335). -/
def propWaits (s : State) (w : Who) (a : Acc) : Bool :=
  match a.op, (xlat s w .flintWrite a.va).2, mget s.units w.uid with
  | .fprop _ p, .ok phys _, some u => placeFirst s w phys p u.serial
  | _, _, _ => false

/-- In an ordered launch a crew's operations enter the serial buffer in issue order (R332): one
waits for the translation of those before it, and a proposal for a copy's before it. -/
def mayTranslate (s : State) (c : Crew) (o : Op) : Bool :=
  match launchOf s c with
  | none => true
  | some l =>
    !l.ordered || ((c.ops.all fun p => !decide (p.seq < o.seq) || p.accs.isEmpty || decide (p.priv ≠ o.priv)) &&
      (o.priv || !o.accs.any (propWaits s (whoLane s c 0 o.priv))))

/-- A fault of an operation that becomes known while its unit drains is taken when the crew next issues
(R54). -/
def Op.reported (s : State) (c : Crew) (o : Op) : Op :=
  match mget s.units c.uid with
  | none => o
  | some u => if o.done && decide (o.bad ≠ 0 ∧ u.res = .draining) then { o with la := some 0, drained := true } else o

/-- Replace an operation of a crew. -/
def putOp (c : Crew) (o : Op) : Crew :=
  { c with ops := c.ops.map fun p => if p.id = o.id then o else p }

/-- The operation loses a fault that every lane of a flag's operation has recorded: its flag falls
(R79). -/
def dropFlag (c : Crew) (o : Op) : Crew :=
  match o.flag with
  | none => c
  | some f => { c with flags := mput c.flags f (mgetD c.flags f 0 - 1) }

/-- A symbolic load of which no lane is left leaves the crew (R79, R292). -/
def symTidy (c : Crew) (o : Op) : Crew :=
  match o.kind with
  | .ldsym .. =>
    if o.accs.isEmpty && o.reqs.isEmpty then
      dropFlag { c with ops := c.ops.filter fun p => decide (p.id ≠ o.id) } o
    else c
  | _ => c

/-- Translate one operation of a crew and put it back; a fault found is recorded (R74, R79). -/
def translateIn (s : State) (key : Nat) (o : Op) : State :=
  match mget s.crews key with
  | none => s
  | some c =>
    let (s, c, o') := translateOp s c o
    let o' := o'.reported s c
    let c := symTidy (putOp c o') o'
    putCrew s key (if o'.done then dropFlag c o' else c)

/-- Give up an operation whose page the runtime has rejected: PAGE-FAULT for the lanes with bytes on
a rejected page, each with its own address there (R298, R339). -/
def rejectOp (s : State) (key : Nat) (o : Op) (ids : List Nat) : State :=
  match mget s.crews key with
  | none => s
  | some c =>
    let pages := ids.map fun i => (pageVa s i).toNat / 2 ^ 16
    let hits (l : Nat) : List Word := ((o.accs.filter fun a => decide (a.lane = l)).map fun a =>
      ((accParts a).map (·.1)).filter fun va => pages.contains (va.toNat / 2 ^ 16)).flatten
    let bad := maskOf fun l => !(hits l).isEmpty
    let addr (l : Nat) : Word := (hits l).headD (accAddr o l)
    match o.kind with
    | .ldsym sym _ _ =>
      let c := symFail s.cycle c sym bad clsPage addr
      let o' := { o with
        accs := o.accs.filter fun a => !inMask bad a.lane, pages := [], bad := o.bad ||| bad }
      putCrew s key (symTidy (putOp c o') o')
    | _ =>
      putCrew s key (dropFlag (putOp c ((o.failAll clsPage bad (addr (lowLane bad))).reported s c)) o)

/-- A crew's operations may be translated: its unit is not being saved, away or being restored (R53). -/
def mayReissue (s : State) (key : Nat) : Bool :=
  match mget s.crews key with
  | none => false
  | some c =>
    match mget s.units c.uid with
    | none => true
    | some u => decide (u.res ≠ .saving ∧ u.res ≠ .swapped ∧ u.res ≠ .restoring)

/-- Go on with an operation that waits for pages: reject, replay, or wait on (R157, R339). -/
def resumeOp (s : State) (key : Nat) (o : Op) : State :=
  if o.accs.isEmpty || o.done || !mayReissue s key then s
  else
    match pagesRejected s o.pages with
    | id :: t => rejectOp s key o (id :: t)
    | [] =>
      if pagesOpen s o.pages ≠ [] then s
      else match mget s.crews key with
        | none => s
        | some c => if mayTranslate s c o then translateIn s key o else s

/-- Go on with every operation of a crew that waits for pages, in program order. -/
def resumeOps (s : State) (key : Nat) : State :=
  match mget s.crews key with
  | none => s
  | some c => c.ops.foldl (fun s o => resumeOp s key o) s

/-- Issue a long-latency operation: its flag counts, it is translated at once, and the instruction
retires (R72, R79). -/
def issueOp (x : Ctx) (s : State) (o : Op) : State :=
  let o := { o with flag := x.hn.track }
  let s := retire x s
  let s := { s with nextId := s.nextId + 1 }
  let s := modCrew s x.key fun c =>
    { c with
      ops := c.ops ++ [o]
      flags := match o.flag with
        | none => c.flags
        | some f => mput c.flags f (mgetD c.flags f 0 + 1) }
  resumeOp s x.key o

/-- A fresh operation of an instruction. -/
def newOp (x : Ctx) (s : State) (kind : OpKind) (la : Option Nat) (accs : List Acc)
    (dsts : List (Nat × Nat × Nat)) : Op :=
  { id := s.nextId, seq := x.seq, kind := kind, pc := x.pc, start := x.start, next := x.next,
    active := x.act, priv := x.c.priv, la := la, flag := none, ord := false, sem := x.hn.sem, scope := x.hn.scope 5,
    accs := accs, reqs := [], pages := [], dsts := dsts, res := [], args := [], fin := 0, bad := 0,
    cls := 0, addr := 0, done := false, after := false }

/-- The lookahead of formats L and A: 15 is detached (R72, R73). -/
def laOf (la : Look) : Option Nat := if la = 15 then none else some la.toNat

/-- The other long-latency instructions: detached when tracked, otherwise LA = 0 (R72). -/
def laTrack (hn : Hints) : Option Nat := if hn.track.isSome then none else some 0

/-! ## The order in which requests are performed (R186 to R195) -/

/-- A load may pass an earlier store of its lane (R188). -/
def mayPass (xop yop : AccOp) : Bool := !xop.reads && !yop.writes

/-- A store of bytes in memory. -/
def Req.stores (r : Req) : Bool :=
  match r.op with
  | .write _ => decide (r.ty ≠ 0xB ∧ r.ty ≠ tyRefused)
  | _ => false

/-- An atomic, a flint proposal or the like that memory may take ahead of its lane's earlier stores, since kept edges do
not chain: the store and a load after the atomic are no kept pair (R187, R188). The order of the atomic itself must not
reach beyond the die, and a proposal with release leaves after them (R202). -/
def goesAhead (o : Op) (r : Req) : Bool :=
  match r.op with
  | .atom .. => decide (r.ty ≠ tyRefused ∧ (o.sem < 2 ∨ o.scope ≤ 4))
  | .fprop .. | .frcy _ => decide (r.ty ≠ tyRefused ∧ o.sem < 2)
  | .xsnap _ => true
  | _ => false

/-- An earlier operation of the lane holds a request back; `fw` says that it takes its bytes from the lane's own
stores (R186, R187, R188, R191). -/
def heldBy (fw : Bool) (o : Op) (r : Req) (p : Op) : Bool :=
  p.accs.any (fun a => decide (a.lane = r.lane) &&
    (!mayPass a.op r.op || decide (p.sem = 3 ∧ o.sem = 3) ||
      meets (a.va.toNat % 2 ^ 16) a.n (r.va.toNat % 2 ^ 16) r.n)) ||
  p.reqs.any (fun q => decide (q.lane = r.lane) && q.open_ &&
    (!(mayPass q.op r.op || (q.stores && decide (q.fenced ≤ 4) && goesAhead o r)) || (!fw && meets q.phys q.n r.phys r.n))) ||
  (match p.kind with
    | .ldsym .. => decide (p.sem = 1 ∨ p.sem = 3) && inMask p.active r.lane &&
        !inMask (p.fin ||| p.bad) r.lane
    | .term _ => inMask p.left r.lane
    | _ => false)

/-- A request of a flint cell. -/
def AccOp.flint : AccOp → Bool
  | .fprop .. | .fread _ | .fwait _ | .frcy _ => true
  | _ => false

/-- Requests of one operation that come before one of its requests: lower parts of its lane, and
lower lanes that write the same bytes, name the same cell or access MMIO (R167, R168, R170, R180, R309). -/
def heldWithin (r : Req) : List Req → Bool
  | [] => false
  | q :: t =>
    if q.id = r.id then false
    else (q.open_ && (decide (q.lane = r.lane) || decide (q.ty = 0xB ∧ r.ty = 0xB) ||
        ((q.op.writes || r.op.writes) && meets q.phys q.n r.phys r.n)) ||
      (decide (q.st = .waiting ∧ q.phys = r.phys) && q.op.flint && r.op.flint)) || heldWithin r t

/-- Earlier parts of a request's lane that are still to be performed. -/
def openBefore (r : Req) (rs : List Req) : List Req :=
  (rs.takeWhile fun q => decide (q.id ≠ r.id)).filter fun q => q.open_ && decide (q.lane = r.lane)

/-- A store of an instruction to a sector, still to be performed. -/
def storeIn (sector : Nat) (q : Req) : Bool := q.stores && decide (q.st = .waiting ∧ q.phys / 32 = sector)

/-- The sectors whose stores go before those of some sectors, since they hold earlier parts of the same lanes' accesses,
in at most `n` rounds; the sectors themselves are among them (R167). -/
def sectorsBefore (rs : List Req) : Nat → List Nat → List Nat
  | 0, ss => ss
  | n + 1, ss =>
    let more := ((rs.filter fun q => ss.any fun t => storeIn t q).map fun q =>
      ((openBefore q rs).filter (·.stores)).map (·.phys / 32)).flatten
    let new := more.filter fun t => !ss.contains t
    if new = [] then ss else sectorsBefore rs n (new ++ ss)

/-- The stores of one instruction that are performed together, the highest lane last: those of one sector, and of the
sectors that must go both before and after it (R167, R168). -/
def mates (r : Req) (rs : List Req) : List Req :=
  let own := r.phys / 32
  let ss := (sectorsBefore rs rs.length [own]).filter fun t => (sectorsBefore rs rs.length [t]).contains own
  rs.filter fun q => ss.any fun t => storeIn t q

/-- The request waits for its bytes: an absent line, or a refreshing bank (R163, R166). -/
def waitsForBytes (s : State) (r : Req) : Bool :=
  match r.op with
  | .read => !presentAll s r.phys r.n || (decide (r.ty = 6) && refreshing s r.phys)
  | .atom .. => !presentAll s r.phys r.n
  | _ => false

/-! ### A lane's own stores, and sequential order (R186 to R188, R193) -/

/-- The operations of a crew before one of its operations, in program order. -/
def opsBefore (c : Crew) (o : Op) : List Op := c.ops.filter fun p => decide (p.priv = o.priv ∧ p.seq < o.seq)

/-- The bytes that a load takes from the youngest store of its own lane to them, before memory sees it: that store
holds all of them, and memory will take it (R186, R187). -/
def forwarded (s : State) (c : Crew) (o : Op) (r : Req) : Option (List Byte) :=
  let near := (((opsBefore c o).map (storesOf r.lane)).flatten).filter fun q => meets q.phys q.n r.phys r.n
  match r.op, near.getLast? with
  | .read, some q =>
    let plain := decide (q.ty = r.ty ∧ r.ty ≠ 0xB ∧ r.ty ≠ tyRefused ∧ r.ty ≠ tyCord ∧
        sharing s (whoLane s c (oneLane r.lane) o.priv) r.va.toNat r.ty = .own) &&
      !isWeight r.phys && !unreachable s r.phys && !eccBad s q.phys q.n
    match q.op with
    | .write d =>
      if plain && decide (q.phys ≤ r.phys ∧ r.phys + r.n ≤ q.phys + q.n) then some ((d.drop (r.phys - q.phys)).take r.n)
      else none
    | _ => none
  | _, _ => none

/-- No thread of a scope but a lane's own has an access of some bytes on its way, or one whose target is not known; the
requests named by `ids` do not count, nor term instructions, whose steps wait for such stores (R185). -/
def quietBytes (s : State) (c : Crew) (l scope : Nat) (ids : List Nat) (qs : List (Nat × Nat)) : Bool :=
  let w := whoLane s c 0 c.priv
  s.crews.all fun d =>
    let v := whoLane s d.2 0 d.2.priv
    let own := decide (v.uid = w.uid ∧ v.core = w.core ∧ v.slot = w.slot)
    !sameInstance s scope w v || d.2.ops.all fun o => o.done ||
      ((o.accs.all fun a => own && decide (a.lane = l)) &&
        o.reqs.all fun r => !r.open_ || (own && (decide (r.lane = l) || ids.contains r.id)) ||
          qs.all fun q => !meets q.1 q.2 r.phys r.n)

/-- A sequential order within a scope may pass stores of a lane: the scope is narrower than the package, the
targets are known, and no thread of the scope has an access of these bytes on its way (R188, R193; log 4). -/
def mayVeil (s : State) (c : Crew) (l scope : Nat) (qs : List Req) : Bool :=
  decide (scope ≤ 4) && qs.all (·.stores) && quietBytes s c l scope [] (qs.map fun q => (q.phys, q.n))

/-- The stores of its lane that an atomic goes ahead of (R187, R188). -/
def aheadOf (c : Crew) (o : Op) (r : Req) : List Req :=
  if goesAhead o r then (((opsBefore c o).map (storesOf r.lane)).flatten).filter (·.stores) else []

/-- The sequential stores of its lane that a sequential load comes after, with the narrower of the two scopes
(R188). -/
def seqBefore (c : Crew) (o : Op) (r : Req) : List (Nat × List Req) :=
  if o.sem = 3 ∧ r.op.writes = false then
    (((opsBefore c o).filter fun p => decide (p.sem = 3)).map fun p => (min p.scope o.scope, storesOf r.lane p)).filter
      fun x => x.2 ≠ []
  else []

/-- Stores that a sequential order has passed are marked with its scope. -/
def markVeil (s : State) (key : Nat) (xs : List (Nat × List Req)) : State :=
  if xs = [] then s
  else modCrew s key fun c => { c with ops := c.ops.map fun o => { o with reqs := o.reqs.map fun q =>
    match (xs.find? fun x => x.2.any fun p => decide (p.id = q.id)) with
    | some x => { q with vis := max q.vis x.1 }
    | none => q } }

/-- A store that a write of some bytes goes ahead of, if it is one of `qs`: the threads of the die wait for it at these
bytes (R187, R188). -/
def Req.passed (phys n : Nat) (qs : List Req) (q : Req) : Req :=
  if qs.any (fun p => decide (p.id = q.id)) then { q with ahead := (4, phys, n) :: q.ahead } else q

/-- Mark the stores that a write goes ahead of. -/
def markAhead (s : State) (key phys n : Nat) (qs : List Req) : State :=
  if qs = [] then s
  else modCrew s key fun c =>
    { c with ops := c.ops.map fun o => { o with reqs := o.reqs.map (Req.passed phys n qs) } }

/-- No earlier operation of the crew holds a request back. -/
def freeOf (fw : Bool) (c : Crew) (o : Op) (r : Req) : Bool :=
  c.ops.all fun p =>
    decide (p.id = o.id) || decide (p.priv ≠ o.priv) || !decide (p.seq < o.seq) ||
    (!heldBy fw o r p &&
      !(decide (r.ty = 0xB) && (!p.accs.isEmpty || p.reqs.any fun q => q.open_ && decide (q.ty = 0xB))) &&
      !(o.ord && p.ord && (!p.accs.isEmpty || p.reqs.any Req.open_)))

/-- The crew's unit is neither being saved, nor away, nor being restored (R53). -/
def unitHere (s : State) (c : Crew) : Bool :=
  (mget s.units c.uid).elim true fun u => decide (u.res ≠ .saving ∧ u.res ≠ .swapped ∧ u.res ≠ .restoring)

/-- The requests of an operation that are performed with one of them: every atomic of the same
location, and the stores that go with a store, lanes ascending (R168, R180). -/
def together (o : Op) (r : Req) : List Req :=
  match r.op with
  | .atom .. => o.reqs.filter fun q => decide (q.st = .waiting) && decide (q.phys = r.phys)
  | _ => if r.stores then mates r o.reqs else [r]

/-- A request stands in the way of no store that no other thread must see it before: it goes ahead of none, or it is
the last of those performed with it and no other access of its bytes is on its way (R187, R188). -/
def aheadOk (s : State) (c : Crew) (o : Op) (rs : List Req) (r : Req) : Bool :=
  (aheadOf c o r).isEmpty ||
    (rs.getLast?.any (fun q => decide (q.id = r.id)) && quietBytes s c r.lane 4 (rs.map (·.id)) [(r.phys, r.n)])

/-- A request may be performed now: it and those performed with it are held by nothing before them (R168, R180). PRES
waits for nothing (R163, R177). -/
def canPerform (s : State) (c : Crew) (o : Op) (r : Req) : Bool :=
  let seen (q : Req) : Bool := !veiled s (whoLane s c 0 o.priv) (some q.lane) q.phys q.n
  let rs := together o r
  decide (r.st = .waiting) && unitHere s c && (decide (r.op = .pres) ||
    (!waitsForBytes s r && seen r && (rs.all fun q => freeOf (forwarded s c o q).isSome c o q && seen q) &&
      if r.stores then rs.all fun q => (openBefore q o.reqs).all fun p => rs.any fun m => decide (m.id = p.id)
      else !heldWithin r o.reqs && (rs.all (aheadOk s c o rs)) &&
        (seqBefore c o r).all fun x => mayVeil s c r.lane x.1 x.2))

/-! ## Performing a request -/

/-- A request answered. -/
def Req.answer (r : Req) (val : List Byte) : Req := { r with st := .done, val := val }

/-- A request refused. -/
def Req.refuse (r : Req) : Req := { r with st := .bad }

/-- PRES of a target (R177). -/
def presWord (s : State) (phys : Nat) : Word :=
  match pendingAt s phys with
  | none => 1
  | some n => BitVec.ofNat 64 (n * 256 + 2 + (if n = 0 then 1 else 0))

/-- What a request does at its target (R165 to R170, R177, R179, R287, R305, R311, R312). -/
def performReq (s : State) (key : Nat) (w : Who) (r : Req) : State × Req :=
  let w := { w with lanes := oneLane r.lane }
  if r.ty = tyRefused then (vlogAdd s ((r.phys - 2 ^ 80) / 2) (r.phys % 2) r.va w, r.refuse)
  else
  let foreign := decide (sharing s w r.va.toNat r.ty = .foreign)
  match r.op with
  | .read =>
    if r.ty = 0xB then
      match mmioRead s w r.va r.phys r.n with
      | (s, some b) => (s, r.answer b)
      | (s, none) => (s, r.refuse)
    else if foreign then (vlogAdd s (sliceOf s r.phys) 2 r.va w, r.refuse)
    else match readTgt s w r.va r.phys r.n r.snap with
      | (s, some b) => (s, r.answer b)
      | (s, none) => (s, r.refuse)
  | .write data =>
    if r.ty = 0xB then
      match mmioWrite s w r.va r.phys data with
      | (s, true) => (s, r.answer [])
      | (s, false) => (s, r.refuse)
    else if foreign then (vlogAdd s (sliceOf s r.phys) 2 r.va w, r.refuse)
    else match writeTgt s w r.va r.phys data with
      | (s, true) => (s, r.answer [])
      | (s, false) => (s, r.refuse)
  | .atom op w64 v x =>
    if foreign then (vlogAdd s (sliceOf s r.phys) 2 r.va w, r.refuse)
    else match atomTgt s w r.va r.phys op w64 v x with
      | (s, some b) => (s, r.answer b)
      | (s, none) => (s, r.refuse)
  | .pres => (spendAccess s w r.phys, r.answer (bytesOf 8 (presWord s r.phys).toNat))
  | .fprop v p =>
    match propose s w r.va r.phys v p (winnerOf w.core w.slot r.lane false) with
    | (s, some (a, b)) => (s, r.answer (wordsBytes [a, b]))
    | (s, none) => (s, r.refuse)
  | .frcy p =>
    match recycle (spendAccess s w r.phys) w r.va r.phys p with
    | (s, some a) => (s, r.answer (bytesOf 8 a.toNat))
    | (s, none) => (s, r.refuse)
  | .fread p =>
    match flintRead s w r.va r.phys p false with
    | (s, .reply a b) => (s, r.answer (wordsBytes [a, b]))
    | (s, _) => (s, r.refuse)
  | .fwait p =>
    match flintRead s w r.va r.phys p true with
    | (s, .reply a b) => (s, r.answer (wordsBytes [a, b]))
    | (s, .error) => (s, r.refuse)
    | (s, .wait) =>
      match addWaiter s key r.phys p with
      | (s, true) => (s, { r with st := .waiter })
      | (s, false) => (s, r.answer (wordsBytes [0, noWaitWord s r.phys]))
  | .xrd x =>
    let snap := match mget s.launches w.lid with
      | none => none
      | some l => if l.ordered && !w.priv then some (mgetD l.snapX x 0) else none
    (spend s (stackOf w.core) 1, r.answer (bytesOf 8 (snap.getD (mgetD s.xctrs x 0))))
  | .xsnap x => ({ spend s (stackOf w.core) 1 with xctrs := mdel s.xctrs x }, r.answer (bytesOf 8 (mgetD s.xctrs x 0)))

/-- A request of an operation, replaced. -/
def withReq (c : Crew) (oid : Nat) (r : Req) : Crew :=
  { c with ops := c.ops.map fun o =>
    if o.id = oid then { o with reqs := o.reqs.map fun q => if q.id = r.id then r else q } else o }

/-- Perform a list of requests and put them back. -/
def performList (key : Nat) (w : Who) (oid : Nat) : State → List Req → State
  | s, [] => s
  | s, r :: t =>
    let (s, r') := performReq s key w r
    performList key w oid (modCrew s key fun c => withReq c oid r') t

/-- A request of an operation. -/
def reqOf (o : Op) (id : Nat) : Option Req := o.reqs.find? fun r => decide (r.id = id)

/-- An operation of a crew. -/
def opOf (c : Crew) (id : Nat) : Option Op := c.ops.find? fun o => decide (o.id = id)

/-- A request arrives at its target and is performed, if it may be; a load may take its bytes from an earlier store
of its lane (R168, R186). -/
def arrive (s : State) (key oid rid : Nat) (want : AccOp → Bool) : State :=
  match mget s.crews key with
  | none => s
  | some c =>
    match opOf c oid with
    | none => s
    | some o =>
      match reqOf o rid with
      | none => s
      | some r =>
        if want r.op && canPerform s c o r then
          let s1 := (together o r).foldl (fun s q => markAhead s key q.phys q.n (aheadOf c o q)) (markVeil s key (seqBefore c o r))
          match forwarded s c o r with
          | some b => modCrew s1 key fun c => withReq c oid (r.answer b)
          | none => performList key (whoLane s c 0 o.priv) oid s1 (together o r)
        else s

/-! ## Faults of term instructions (R249) -/

/-- The class that a trap of several lanes reports: the first in the order of R336. -/
def faultCls (flt : List (Nat × Nat × Word)) : Nat := (flt.map (·.2.1)).foldl min 63

/-- The lanes that raised a class. -/
def faultMask (flt : List (Nat × Nat × Word)) (cls : Nat) : Mask :=
  maskOf fun l => flt.any fun f => decide (f.1 = l ∧ f.2.1 = cls)

/-- The address of the lowest lane that raised a class. -/
def faultAddr (flt : List (Nat × Nat × Word)) (cls : Nat) : Word :=
  let m := faultMask flt cls
  match flt.find? fun f => decide (f.1 = lowLane m ∧ f.2.1 = cls) with
  | none => 0
  | some f => f.2.2

/-! ## Completion (R72, R79, R296) -/

/-- The answer of an operation in a lane: its requests' bytes in order. -/
def laneBytes (o : Op) (lane : Nat) : List Byte :=
  ((o.reqs.filter fun r => decide (r.lane = lane)).map (·.val)).flatten

/-- The result that a lane's register receives (R173, R177, R179, R309, R313, R287). -/
def laneResult (o : Op) (lane part : Nat) : Word :=
  let b := laneBytes o lane
  match o.kind with
  | .ld sx n | .ldsym _ sx n =>
    if n = 16 then wordOf ((b.drop (8 * part)).take 8)
    else if sx then sext (wordOf b) (8 * n) else wordOf b
  | .atom sx w64 => if sx && !w64 then sext (wordOf b) 32 else wordOf b
  | .term _ => mgetD o.res lane 0
  | _ => wordOf ((b.drop (8 * part)).take 8)

/-- Every access of an operation is performed or refused, and every lane of a term instruction has ended its work. -/
def Op.settled (o : Op) : Bool :=
  o.accs.isEmpty && (o.reqs.all fun r => !r.open_) && decide (o.left = 0)

/-- Lanes of an operation with a refused request. -/
def Op.refused (o : Op) : Mask :=
  maskOf fun l => o.reqs.any fun r => decide (r.lane = l) && decide (r.st = .bad)

/-- Write a result of an operation in flight, for the threads that issued it (R71, R89). -/
def writeDone (o : Op) (c : Crew) (d : Nat × Nat × Nat) : Crew :=
  let was := c.priv
  let c := completeW { c with priv := o.priv } d.1
    (.reg d.2.2 (.known (laneResult o d.1 d.2.1))) o.seq
  { c with priv := was }

/-- Places of a cord under place width `s` (R205). -/
def placesOf (s : Nat) : Nat := 1024 / s

/-- A cord with the bits above its places 0 (R205). -/
def trimCord (s : Nat) (k : BitVec 1024) : BitVec 1024 :=
  BitVec.ofNat 1024 (k.toNat % 2 ^ (s * placesOf s))

/-- A write of a cord is complete: earlier ones still in flight are discarded (R71, R215). -/
def writeCord (c : Crew) (k : Nat) (v : BitVec 1024) (seq : Nat) : Crew :=
  { c with
    cords := mput c.cords k v
    ops := c.ops.map fun o => if o.seq < seq then { o with kdst := o.kdst.filter fun j => decide (j ≠ k) } else o }

/-- What completion does beyond registers: the cords that no later write has completed over (R215, R224,
R227). -/
def finishCords (o : Op) (c : Crew) : Crew :=
  let put (c : Crew) (k : Nat) (v : BitVec 1024) : Crew := if o.kdst.contains k then writeCord c k v o.seq else c
  match o.kind with
  | .kld k sw =>
    if o.refused = 0 then put c k (trimCord sw (BitVec.ofNat 1024 (natOf (laneBytes o (lowLane o.active)))))
    else c
  | .mulkc k lo hi none => put (put c k lo) (k + 1) hi
  | _ => c

/-- Lanes whose access was performed when others were refused: of the one access of KLD and KST, none, and
of a port store those whose elements lie inside the extents (R88, R169, R224, R340). -/
def Op.lanesDone (o : Op) (bad : Mask) : Mask :=
  match o.kind with
  | .kld .. | .kst => 0
  | .pstore => maskOf fun l => inMask o.active l && !inMask bad l && o.reqs.any fun r => decide (r.lane = l)
  | _ => o.active &&& ~~~bad

/-- An operation in flight has ended: the fault that its lanes report, of those that are heard (R108, R169, R249). -/
def Op.termDone (o : Op) (heard : Mask) : Op :=
  match o.kind with
  | .term _ =>
    if o.flt = [] then o
    else
      let cls := faultCls o.flt
      { o with bad := faultMask o.flt cls, cls := cls, addr := faultAddr o.flt cls }
  | _ =>
    let bad := o.refused &&& heard
    { o with bad := bad, fin := if bad = 0 then o.fin else o.lanesDone o.refused }

/-- What FAILB writes when it completes after its issue: the predicate, and the PCs of the lanes that go back
(R260). -/
def finishFail (o : Op) (c : Crew) : Crew :=
  match o.kind with
  | .term (.failb _ pd) =>
    (lanesOf o.fin).foldl (fun c l =>
      let c := if pd = 7 then c else completeW c l (.pred pd.toNat (mget o.res l).isNone) o.seq
      match mget o.res l with
      | some a => if o.priv then modTh c l fun t => { t with pc := a } else modProg c l fun t => { t with pc := a }
      | none => c) c
  | _ => c

/-- The lanes whose refusals an operation of a crew reports: those of threads that have not ended; the one access of
KLD and KST is the crew's (R108, R224). -/
def Op.heard (o : Op) (c : Crew) : Mask :=
  if o.granite then BitVec.allOnes 32 else maskOf fun l => (thOf { c with priv := o.priv } l).live

/-- Complete an operation whose accesses are settled: results are written in the lanes performed,
the flag falls, and a refused lane's fault is recorded if its thread has not ended (R74, R79, R108, R169). -/
def completeOp (s : State) (key : Nat) (o : Op) : State :=
  modCrew s key fun c =>
    let e := o.termDone (o.heard c)
    let term := match o.kind with
      | .term _ => true
      | _ => false
    let ds := o.dsts.filter fun d => if term then inMask o.fin d.1 else !inMask e.bad d.1
    let c := finishFail o (ds.foldl (writeDone o) c)
    let c := dropFlag (finishCords o c) o
    let overflow := match o.kind with
      | .mulkc _ _ _ (some p) => some p
      | _ => none
    let o := (opOf c o.id).getD o
    let put (o : Op) : Crew := putOp c (o.reported s c)
    if e.bad ≠ 0 then
      put { o with done := true, bad := e.bad, fin := e.fin, cls := if term then e.cls else clsProt,
                   addr := if term then e.addr else accAddr o (lowLane e.bad) }
    else match overflow with
      | some p => put { o with done := true, bad := o.active, cls := clsGuard,
                               addr := BitVec.ofNat 64 p }
      | none => settleMeet <| freeReply o.id { c with ops := c.ops.filter fun p => decide (p.id ≠ o.id) }

/-! ## Arrival of symbols (R296) -/

/-- Resolve what a stack entry or a pending result holds over a symbol. -/
def RegVal.arrive (v : RegVal) (sym : Nat) (u : Word) : RegVal :=
  if v.symbol = some sym then .known (v.resolve u) else v

/-- A pending result of a lane over the symbol receives its value and is complete. -/
def PendW.arrive (p : PendW) (lane sym : Nat) (u : Word) : PendW :=
  match p.tgt with
  | .reg slot v =>
    if p.lane = lane ∧ v.symbol = some sym then
      { p with tgt := .reg slot (v.arrive sym u), due := 0 }
    else p
  | _ => p

/-- A symbol leaves a lane; it is free when it has left every lane (R291, R292). -/
def symLeave (c : Crew) (sym lane : Nat) : Crew :=
  match mget c.syms sym with
  | none => c
  | some y =>
    let ls := y.lanes.filter fun x => decide (x.lane ≠ lane)
    if ls.isEmpty then { c with syms := mdel c.syms sym }
    else { c with syms := mput c.syms sym { y with lanes := ls, arrived := y.arrived ||| oneLane lane } }

/-- The symbol resolves in a lane with `u`: every register, pending result and recorded step over it
receives its value, and its flags are ORed once, also into a %fpstat that an earlier MOVSW still has in flight:
a later one waits for the recorded steps (R125, R295, R296, R302). -/
def resolveSym (now : Nat) (c : Crew) (sym lane : Nat) (u : Word) : Crew :=
  match mget c.syms sym with
  | none => c
  | some y =>
    match y.lanes.find? fun x => decide (x.lane = lane) with
    | none => c
    | some sl =>
      let was := c.priv
      let c := { c with priv := false }
      let c := modTh c lane fun t =>
        { t with
          rf := t.rf.map fun p => (p.1, p.2.arrive sym u)
          fpstat := t.fpstat ||| BitVec.ofNat 64 (stepFlags sl.recs u) }
      let flags (p : PendW) : PendW := flagsInto lane (p.seq + 1) (BitVec.ofNat 64 (stepFlags sl.recs u)) p
      let c := if was then c
        else settle now { c with pend := c.pend.map fun p => flags (p.arrive lane sym u) }
      { symLeave c sym lane with priv := was }

/-- The data of a symbolic load has reached a lane: its requests there are settled. -/
def symReady (o : Op) (lane : Nat) : Bool :=
  o.accs.all (fun a => decide (a.lane ≠ lane)) && o.reqs.any (fun r => decide (r.lane = lane)) &&
    o.reqs.all fun r => decide (r.lane ≠ lane) || !r.open_

/-- The symbolic load has ended in a lane; when it has in all, it completes (R79, R292). -/
def symOpLane (c : Crew) (o : Op) (lane : Nat) (ok : Bool) : Crew :=
  let o' := { o with
    reqs := o.reqs.filter fun r => decide (r.lane ≠ lane)
    fin := if ok then o.fin ||| oneLane lane else o.fin
    bad := if ok then o.bad else o.bad ||| oneLane lane }
  if o'.accs.isEmpty && o'.reqs.isEmpty then
    dropFlag { c with ops := c.ops.filter fun p => decide (p.id ≠ o.id) } o
  else putOp c o'

/-- The symbolic load of a symbol. -/
def symOp (c : Crew) (sym : Nat) : Option Op :=
  c.ops.find? fun o => match o.kind with
    | .ldsym y _ _ => decide (y = sym)
    | _ => false

/-- The data of a symbolic load arrives in a lane, or its error response does (R296, R298). -/
def arriveSym (s : State) (key sym lane : Nat) : State :=
  match mget s.crews key with
  | none => s
  | some c =>
    match symOp c sym with
    | none => s
    | some o =>
      if symReady o lane then
        let live := (progTh c lane).live && (match mget c.syms sym with
          | none => false
          | some y => y.lanes.any fun x => decide (x.lane = lane) && !x.faulted)
        if inMask o.refused lane then
          let c := if live then symFail s.cycle c sym (oneLane lane) clsProt (accAddr o) else c
          putCrew s key (symOpLane c o lane false)
        else
          let u := laneResult o lane 0
          let c := symOpLane c o lane true
          putCrew s key (if live then resolveSym s.cycle c sym lane u else c)
      else s

/-! ## Port stores (R64, R88, R157) -/

/-- The accesses of a port store: the lanes inside the extents, ascending. -/
def portStores (p : Port) (m : Mask) (v : Nat → Word) : List Acc :=
  ((lanesOf m).filter fun l => portInside p (portCoord p l)).map fun l =>
    { lane := l, va := portAddr p (portCoord p l), n := p.size,
      op := .write (bytesOf p.size (v l).toNat) }

/-- Finish an instruction whose result goes to a destination code: a window register at its
latency, or a relaxed store through the port, which advances once more; its trap is taken after the
instruction (R64, R86, R88). -/
def finish (x : Ctx) (s : State) (lat d : Nat) (v : Nat → RegVal) : State :=
  if d < 28 then retire x (writeReg x s lat d v)
  else
    match mget s.crews x.key with
    | none => s
    | some c =>
      let p := portOf c d
      let o := { newOp x s .pstore (some 0) (portStores p x.act fun l => (v l).word) [] with
        sem := 0, scope := 5, next := x.next }
      let s := putCrew s x.key (setPort c d { advancePort p with wr := true })
      let s := retire x s
      let s := { s with nextId := s.nextId + 1 }
      let s := modCrew s x.key fun c => { c with ops := c.ops ++ [o] }
      resumeOp s x.key o

/-- Run an instruction on known sources, or block, park or trap as its sources say. -/
def withSources (x : Ctx) (s : State) (codes : List Nat) (dport : Option Nat)
    (k : State → (Nat → Nat → Word) → State) : State :=
  match fetchSources x s codes dport with
  | .stop s => s
  | .ok s v => k s fun l code => srcW x.c v l code

end Sys2Proof.Machine
end

