-- ==== Sys2Proof/Machine/Integer.lean ====
section
/-! DEFINITION. Integer arithmetic and logic, opcodes 0x00 to 0x1D (06 R86 to R99), with the integer
forms over symbols that pass through them (20 R293). -/

namespace Sys2Proof.Machine

/-! ## Instructions that carry forms -/

/-- A register entry as a·u + b over a symbol, or a known value with no symbol (R293). -/
def RegVal.linear : RegVal → Option (Option Nat × Word × Word)
  | .known w => some (none, 0, w)
  | .iform y a b => some (some y, a, b)
  | .fform .. => none

/-- The form a·u + b; a scale of 0 is the known value b (R293). -/
def mkForm (y : Option Nat) (a b : Word) : RegVal :=
  match y with
  | none => .known b
  | some n => if a = 0 then .known b else .iform n a b

/-- One symbol for two operands: none where they are over different symbols. -/
def joinSym (x y : Option Nat) : Option (Option Nat) :=
  match x, y with
  | none, z => some z
  | z, none => some z
  | some a, some b => if a = b then some (some a) else none

/-- Combine two linear operands with coefficients (R293). -/
def linComb (p q : Word) (x y : RegVal) : Option RegVal :=
  match x.linear, y.linear with
  | some (sx, ax, bx), some (sy, ay, by_) =>
    (joinSym sx sy).map fun z => mkForm z (p * ax + q * ay) (p * bx + q * by_)
  | _, _ => none

/-- A linear operand times a known value (R293). -/
def linScale (x : RegVal) (k : Word) : Option RegVal :=
  x.linear.map fun (y, a, b) => mkForm y (a * k) (b * k)

/-- A computation on known values only. -/
def onKnown (f : List Word → Word) (xs : List RegVal) : Option RegVal :=
  if xs.all fun x => decide (x.symbol = none) then some (.known (f (xs.map (·.word)))) else none

/-- The first operand. -/
def op0 {α : Type} (d : α) (xs : List α) : α := xs.getD 0 d
/-- The second operand. -/
def op1 {α : Type} (d : α) (xs : List α) : α := xs.getD 1 d
/-- The third operand. -/
def op2 {α : Type} (d : α) (xs : List α) : α := xs.getD 2 d

/-- Run an instruction that computes one result a lane from its sources `codes`, some of which may
hold forms that `f` carries through; where `f` has no result, or the destination is a port, the group
blocks (R86, R90, R293, R295). -/
def compute (x : Ctx) (s : State) (lat d : Nat) (codes : List Nat)
    (f : Nat → List RegVal → Option RegVal) : State :=
  let set := srcSyms x.c x.act codes
  let probe (l : Nat) : List RegVal := codes.map fun r => srcOf x.c [] l r
  let stuck := (lanesOf x.act).any fun l => (f l (probe l)).isNone
  if set ≠ 0 ∧ (28 ≤ d ∨ stuck = true) then blockOn x s (laneSyms x.c codes)
  else
    match fetchSources x s (codes.filter fun r => decide (28 ≤ r)) (some d) with
    | .stop s => s
    | .ok s v =>
      finish x s lat d fun l => (f l (codes.map fun r => srcOf x.c v l r)).getD (.known 0)

/-! ## Widths (R87) -/

/-- Width in bits of an instruction's W field. -/
def widthOf (w : BitVec 1) : Nat := if w = 1 then 64 else 32

/-- A result at a width, sign-extended from 32 bits (R87). -/
def atWidth (w : BitVec 1) (v : Word) : Word := if w = 1 then v else sext v 32

/-- The low n bits as a number. -/
def lowBits (w : BitVec 1) (v : Word) : Nat := v.toNat % 2 ^ widthOf w

/-- The low n bits, signed, or unsigned when u = 1 (R92). -/
def readInt (w u : BitVec 1) (v : Word) : Int :=
  if u = 1 then (lowBits w v : Int) else signedOf (widthOf w) v.toNat

/-! ## Values -/

/-- MULH: bits [2n−1:n] of the exact product (R92). -/
def mulhVal (w u : BitVec 1) (a b : Word) : Word :=
  atWidth w (wordOfInt (readInt w u a * readInt w u b / 2 ^ widthOf w))

/-- Quotient and remainder of DIV and REM (R93). -/
def divRem (w u : BitVec 1) (a b : Word) : Int × Int :=
  let x := readInt w u a
  let y := readInt w u b
  if y = 0 then (-1, x)
  else if u = 0 ∧ x = -(2 ^ (widthOf w - 1)) ∧ y = -1 then (x, 0)
  else (Int.tdiv x y, x - Int.tdiv x y * y)

/-- DIV (R93). -/
def divVal (w u : BitVec 1) (a b : Word) : Word := atWidth w (wordOfInt (divRem w u a b).1)
/-- REM (R93). -/
def remVal (w u : BitVec 1) (a b : Word) : Word := atWidth w (wordOfInt (divRem w u a b).2)

/-- MIN (R92). -/
def minVal (w u : BitVec 1) (a b : Word) : Word :=
  atWidth w (if readInt w u b < readInt w u a then b else a)
/-- MAX (R92). -/
def maxVal (w u : BitVec 1) (a b : Word) : Word :=
  atWidth w (if readInt w u a < readInt w u b then b else a)

/-- A shift amount: wB modulo n (R94). -/
def shiftAmt (w : BitVec 1) (b : Word) : Nat := b.toNat % widthOf w

/-- SHL by an amount below the width (R94). -/
def shlVal (w : BitVec 1) (a : Word) (c : Nat) : Word := atWidth w (a <<< c)
/-- SHR (R94). -/
def shrVal (w : BitVec 1) (a : Word) (c : Nat) : Word :=
  atWidth w (BitVec.ofNat 64 (lowBits w a / 2 ^ c))
/-- SAR (R94). -/
def sarVal (w : BitVec 1) (a : Word) (c : Nat) : Word :=
  atWidth w (wordOfInt (signedOf (widthOf w) a.toNat / 2 ^ c))
/-- ROT left (R94). -/
def rotVal (w : BitVec 1) (a : Word) (c : Nat) : Word :=
  let n := widthOf w
  let v := lowBits w a
  atWidth w (BitVec.ofNat 64 ((v * 2 ^ c + v / 2 ^ (n - c)) % 2 ^ n))

/-- Leading zero bits of an n-bit number. -/
def clzN (n v : Nat) : Nat := if v = 0 then n else n - 1 - Nat.log2 v

/-- Trailing zero bits of an n-bit number. -/
def ctzN : Nat → Nat → Nat
  | 0, _ => 0
  | n + 1, v => if v % 2 = 1 then 0 else 1 + ctzN n (v / 2)

/-- An n-bit number with its bits reversed. -/
def revN : Nat → Nat → Nat
  | 0, _ => 0
  | n + 1, v => v % 2 * 2 ^ n + revN n (v / 2)

/-- BITC (R95). -/
def bitcVal (f : BitVec 3) (w : BitVec 1) (a : Word) : Word :=
  let n := widthOf w
  let v := lowBits w a
  match f.toNat with
  | 0 => BitVec.ofNat 64 (clzN n v)
  | 1 => BitVec.ofNat 64 (ctzN n v)
  | 2 => BitVec.ofNat 64 (popNat n v)
  | 3 => atWidth w (BitVec.ofNat 64 (revN n v))
  | 4 => atWidth w (BitVec.ofNat 64 (natOf (bytesOf (n / 8) v).reverse))
  | 5 => sext a 8
  | 6 => sext a 16
  | _ => sext a 32

/-- pos and len of BFX and BFI (R96). -/
def bfPos (b : Word) : Nat := b.toNat % 64
/-- len. -/
def bfLen (b : Word) : Nat := bits b.toNat 14 8

/-- BFX (R96). -/
def bfxVal (w u : BitVec 1) (a b : Word) : Word :=
  let n := widthOf w
  let pos := bfPos b
  let len := bfLen b
  if n ≤ pos ∨ len = 0 then 0
  else
    let k := min len (n - pos)
    let f := lowBits w a / 2 ^ pos % 2 ^ k
    atWidth w (if u = 1 then BitVec.ofNat 64 f else wordOfInt (signedOf k f))

/-- BFI (R96). -/
def bfiVal (w : BitVec 1) (d a b : Word) : Word :=
  let n := widthOf w
  let pos := bfPos b
  let len := bfLen b
  if n ≤ pos ∨ len = 0 then atWidth w d
  else
    let k := min len (n - pos)
    let v := lowBits w d
    let f := v / 2 ^ pos % 2 ^ k
    atWidth w (BitVec.ofNat 64 (v - f * 2 ^ pos + a.toNat % 2 ^ k * 2 ^ pos))

/-- LEA's index: the sign-extended low word, or all of wB, scaled (R97). -/
def leaIdx (w : BitVec 1) (sc : BitVec 2) (b : Word) : Word :=
  (if w = 1 then b else sext b 32) <<< sc.toNat

/-! ## Meanings -/

/-- A form only at width 64, otherwise known values (R293). -/
def wide (w : BitVec 1) (form : Option RegVal) (known : Option RegVal) : Option RegVal :=
  if w = 1 then form else known

/-- A two-source instruction on known values. -/
def two (f : Word → Word → Word) (xs : List RegVal) : Option RegVal :=
  onKnown (fun v => f (op0 0 v) (op1 0 v)) xs

/-- The codes of two sources. -/
def cod2 (a b : Code) : List Nat := [a.toNat, b.toNat]

/-- ILL: ILLEGAL-OPCODE at the word, or at the first hint of its group (R83). -/
def execIll (s : State) : Host.Outcome State Fault Refusal :=
  match mget s.crews s.iss.crew with
  | none => .fault .noCrew
  | some c =>
    let grp := groupAt c s.iss.start
    .next (takeTrap s s.iss.crew (mkTrap clsOpcode s.iss.start (s.iss.pc + 4) 0 grp grp))

/-- ADD (R92, R293). -/
def execAdd (h : Hdr) (d a b : Code) (w : BitVec 1) : State → Host.Outcome State Fault Refusal :=
  gate (.add h d a b w) fun x s => compute x s latA d.toNat (cod2 a b) fun _ xs =>
    wide w (linComb 1 1 (op0 (.known 0) xs) (op1 (.known 0) xs))
      (two (fun p q => atWidth w (p + q)) xs)

/-- SUB (R92, R293). -/
def execSub (h : Hdr) (d a b : Code) (w : BitVec 1) : State → Host.Outcome State Fault Refusal :=
  gate (.sub h d a b w) fun x s => compute x s latA d.toNat (cod2 a b) fun _ xs =>
    wide w (linComb 1 (-1) (op0 (.known 0) xs) (op1 (.known 0) xs))
      (two (fun p q => atWidth w (p - q)) xs)

/-- NEG (R92, R293). -/
def execNeg (h : Hdr) (d a : Code) (w : BitVec 1) : State → Host.Outcome State Fault Refusal :=
  gate (.neg h d a w) fun x s => compute x s latA d.toNat [a.toNat] fun _ xs =>
    wide w (linScale (op0 (.known 0) xs) (-1))
      (onKnown (fun v => atWidth w (0 - op0 0 v)) xs)

/-- The form of a product: one known factor (R293). -/
def mulForm (x y : RegVal) : Option RegVal :=
  match x, y with
  | .known k, v => linScale v k
  | v, .known k => linScale v k
  | _, _ => none

/-- MUL (R92, R293). -/
def execMul (h : Hdr) (d a b : Code) (w : BitVec 1) : State → Host.Outcome State Fault Refusal :=
  gate (.mul h d a b w) fun x s => compute x s latA d.toNat (cod2 a b) fun _ xs =>
    wide w (mulForm (op0 (.known 0) xs) (op1 (.known 0) xs))
      (two (fun p q => atWidth w (p * q)) xs)

/-- MULH (R92). -/
def execMulh (h : Hdr) (d a b : Code) (w u : BitVec 1) : State → Host.Outcome State Fault Refusal :=
  gate (.mulh h d a b w u) fun x s => compute x s latB d.toNat (cod2 a b) fun _ =>
    two (mulhVal w u)

/-- MAD (R92). -/
def execMad (h : Hdr) (d a b : Code) (w : BitVec 1) : State → Host.Outcome State Fault Refusal :=
  gate (.mad h d a b w) fun x s => compute x s latA d.toNat [d.toNat, a.toNat, b.toNat] fun _ =>
    onKnown fun v => atWidth w (op0 0 v + op1 0 v * op2 0 v)

/-- DIV (R93). -/
def execDiv (h : Hdr) (d a b : Code) (w u : BitVec 1) : State → Host.Outcome State Fault Refusal :=
  gate (.div h d a b w u) fun x s => compute x s latC d.toNat (cod2 a b) fun _ =>
    two (divVal w u)

/-- REM (R93). -/
def execRem (h : Hdr) (d a b : Code) (w u : BitVec 1) : State → Host.Outcome State Fault Refusal :=
  gate (.rem h d a b w u) fun x s => compute x s latC d.toNat (cod2 a b) fun _ =>
    two (remVal w u)

/-- MIN (R92). -/
def execMin (h : Hdr) (d a b : Code) (w u : BitVec 1) : State → Host.Outcome State Fault Refusal :=
  gate (.min h d a b w u) fun x s => compute x s latA d.toNat (cod2 a b) fun _ =>
    two (minVal w u)

/-- MAX (R92). -/
def execMax (h : Hdr) (d a b : Code) (w u : BitVec 1) : State → Host.Outcome State Fault Refusal :=
  gate (.max h d a b w u) fun x s => compute x s latA d.toNat (cod2 a b) fun _ =>
    two (maxVal w u)

/-- AND (R92). -/
def execAnd (h : Hdr) (d a b : Code) (w : BitVec 1) : State → Host.Outcome State Fault Refusal :=
  gate (.and h d a b w) fun x s => compute x s latA d.toNat (cod2 a b) fun _ =>
    two fun p q => atWidth w (p &&& q)

/-- OR (R92). -/
def execOr (h : Hdr) (d a b : Code) (w : BitVec 1) : State → Host.Outcome State Fault Refusal :=
  gate (.or h d a b w) fun x s => compute x s latA d.toNat (cod2 a b) fun _ =>
    two fun p q => atWidth w (p ||| q)

/-- XOR (R92). -/
def execXor (h : Hdr) (d a b : Code) (w : BitVec 1) : State → Host.Outcome State Fault Refusal :=
  gate (.xor h d a b w) fun x s => compute x s latA d.toNat (cod2 a b) fun _ =>
    two fun p q => atWidth w (p ^^^ q)

/-- ANDN (R92). -/
def execAndn (h : Hdr) (d a b : Code) (w : BitVec 1) : State → Host.Outcome State Fault Refusal :=
  gate (.andn h d a b w) fun x s => compute x s latA d.toNat (cod2 a b) fun _ =>
    two fun p q => atWidth w (p &&& ~~~q)

/-- SHL, which carries a form by a known amount at width 64 (R94, R293). -/
def execShl (h : Hdr) (d a b : Code) (w : BitVec 1) : State → Host.Outcome State Fault Refusal :=
  gate (.shl h d a b w) fun x s => compute x s latA d.toNat (cod2 a b) fun _ xs =>
    match op1 (.known 0) xs with
    | .known k =>
      wide w (linScale (op0 (.known 0) xs) (1 <<< shiftAmt w k))
        (two (fun p q => shlVal w p (shiftAmt w q)) xs)
    | _ => none

/-- SHR (R94). -/
def execShr (h : Hdr) (d a b : Code) (w : BitVec 1) : State → Host.Outcome State Fault Refusal :=
  gate (.shr h d a b w) fun x s => compute x s latA d.toNat (cod2 a b) fun _ =>
    two fun p q => shrVal w p (shiftAmt w q)

/-- SAR (R94). -/
def execSar (h : Hdr) (d a b : Code) (w : BitVec 1) : State → Host.Outcome State Fault Refusal :=
  gate (.sar h d a b w) fun x s => compute x s latA d.toNat (cod2 a b) fun _ =>
    two fun p q => sarVal w p (shiftAmt w q)

/-- ROT (R94). -/
def execRot (h : Hdr) (d a b : Code) (w : BitVec 1) : State → Host.Outcome State Fault Refusal :=
  gate (.rot h d a b w) fun x s => compute x s latA d.toNat (cod2 a b) fun _ =>
    two fun p q => rotVal w p (shiftAmt w q)

/-- BITC (R95). -/
def execBitc (h : Hdr) (d a : Code) (w : BitVec 1) (f : BitVec 3) :
    State → Host.Outcome State Fault Refusal :=
  gate (.bitc h d a w f) fun x s => compute x s latA d.toNat [a.toNat] fun _ =>
    onKnown fun v => bitcVal f w (op0 0 v)

/-- BFX (R96). -/
def execBfx (h : Hdr) (d a b : Code) (w u : BitVec 1) : State → Host.Outcome State Fault Refusal :=
  gate (.bfx h d a b w u) fun x s => compute x s latA d.toNat (cod2 a b) fun _ =>
    two (bfxVal w u)

/-- BFI (R96). -/
def execBfi (h : Hdr) (d a b : Code) (w : BitVec 1) : State → Host.Outcome State Fault Refusal :=
  gate (.bfi h d a b w) fun x s => compute x s latA d.toNat [d.toNat, a.toNat, b.toNat] fun _ =>
    onKnown fun v => bfiVal w (op0 0 v) (op1 0 v) (op2 0 v)

/-- LEA (R97, R293). -/
def execLea (h : Hdr) (d a b : Code) (w : BitVec 1) (sc : BitVec 2) :
    State → Host.Outcome State Fault Refusal :=
  gate (.lea h d a b w sc) fun x s => compute x s latA d.toNat (cod2 a b) fun _ xs =>
    match op1 (.known 0) xs with
    | .known k => linComb 1 1 (op0 (.known 0) xs) (.known (leaIdx w sc k))
    | y => wide w (linComb 1 (1 <<< sc.toNat) (op0 (.known 0) xs) y) none

/-- SEL (R97). -/
def execSel (h : Hdr) (d a b : Code) (p : PCode) : State → Host.Outcome State Fault Refusal :=
  gate (.sel h d a b p) fun x s => compute x s latA d.toNat (cod2 a b) fun l =>
    two fun u v => if predOf (thOf x.c l) p.toNat then u else v

/-- MOV, which copies a form as it is (R92, R293, R294). -/
def execMov (h : Hdr) (d a : Code) : State → Host.Outcome State Fault Refusal :=
  gate (.mov h d a) fun x s => compute x s latA d.toNat [a.toNat] fun _ xs => xs.head?

/-- MOVI (R99). -/
def execMovi (h : Hdr) (d : Code) (imm : BitVec 13) : State → Host.Outcome State Fault Refusal :=
  gate (.movi h d imm) fun x s => compute x s latA d.toNat [] fun _ _ =>
    some (.known (wordOfInt (immOf x.hn 13 imm.toNat)))

/-- ADDI (R98, R293). -/
def execAddi (h : Hdr) (d a : Code) (imm : BitVec 8) : State → Host.Outcome State Fault Refusal :=
  gate (.addi h d a imm) fun x s => compute x s latA d.toNat [a.toNat] fun _ xs =>
    linComb 1 1 (op0 (.known 0) xs) (.known (wordOfInt (immOf x.hn 8 imm.toNat)))

/-- ANDI (R98). -/
def execAndi (h : Hdr) (d a : Code) (imm : BitVec 8) : State → Host.Outcome State Fault Refusal :=
  gate (.andi h d a imm) fun x s => compute x s latA d.toNat [a.toNat] fun _ =>
    onKnown fun v => op0 0 v &&& BitVec.ofNat 64 (uimmOf x.hn 8 imm.toNat)

/-- ORI (R98). -/
def execOri (h : Hdr) (d a : Code) (imm : BitVec 8) : State → Host.Outcome State Fault Refusal :=
  gate (.ori h d a imm) fun x s => compute x s latA d.toNat [a.toNat] fun _ =>
    onKnown fun v => op0 0 v ||| BitVec.ofNat 64 (uimmOf x.hn 8 imm.toNat)

/-- XORI (R98). -/
def execXori (h : Hdr) (d a : Code) (imm : BitVec 8) : State → Host.Outcome State Fault Refusal :=
  gate (.xori h d a imm) fun x s => compute x s latA d.toNat [a.toNat] fun _ =>
    onKnown fun v => op0 0 v ^^^ BitVec.ofNat 64 (uimmOf x.hn 8 imm.toNat)

/-- SHI; SHI.SHL carries a form (R98, R293). -/
def execShi (h : Hdr) (d a : Code) (kind : BitVec 2) (amt : BitVec 6) :
    State → Host.Outcome State Fault Refusal :=
  gate (.shi h d a kind amt) fun x s => compute x s latA d.toNat [a.toNat] fun _ xs =>
    match kind.toNat with
    | 0 => linScale (op0 (.known 0) xs) (1 <<< amt.toNat)
    | 1 => onKnown (fun v => shrVal 1 (op0 0 v) amt.toNat) xs
    | 2 => onKnown (fun v => sarVal 1 (op0 0 v) amt.toNat) xs
    | _ => onKnown (fun v => rotVal 1 (op0 0 v) amt.toNat) xs

end Sys2Proof.Machine
end

