-- ==== Sys2Proof/Machine/Control.lean ====
section
/-! DEFINITION. Comparison and predicates, control transfer and the window, opcodes 0x1E to 0x2F
(06 R100 to R110, 04 R57, R58). -/

namespace Sys2Proof.Machine

/-! ## Comparison and predicates -/

/-- A condition of CMP on two integers (R100). -/
def condHolds (cond : Nat) (a b : Int) : Bool :=
  match cond with
  | 0 => decide (a = b)
  | 1 => decide (a ≠ b)
  | 2 => decide (a < b)
  | 3 => decide (b ≤ a)
  | 4 => decide (a ≤ b)
  | _ => decide (b < a)

/-- CMP (R100). -/
def execCmp (h : Hdr) (pd : PCode) (a b : Code) (cond : BitVec 3) (w u : BitVec 1) :
    State → Host.Outcome State Fault Refusal :=
  gate (.cmp h pd a b cond w u) fun x s =>
    withSources x s (cod2 a b) none fun s v =>
      retire x (writePred x s latA pd.toNat fun l =>
        condHolds cond.toNat (readInt w u (v l a.toNat)) (readInt w u (v l b.toNat)))

/-- CMPI; the immediate is compared at the instruction's width (R100). -/
def execCmpi (h : Hdr) (pd : PCode) (a : Code) (imm : BitVec 5) (cond : BitVec 3) (w u : BitVec 1) :
    State → Host.Outcome State Fault Refusal :=
  gate (.cmpi h pd a imm cond w u) fun x s =>
    withSources x s [a.toNat] none fun s v =>
      let k : Word := BitVec.ofNat 64 (uimmOf x.hn 5 imm.toNat)
      retire x (writePred x s latA pd.toNat fun l =>
        condHolds cond.toNat (readInt w u (v l a.toNat)) (readInt w u k))

/-- The function of PSET (R101). -/
def psetFn (f : Nat) (a b : Bool) : Bool :=
  match f with
  | 0 => a && b
  | 1 => a || b
  | 2 => a != b
  | 3 => a && !b
  | 4 => !(a && b)
  | 5 => !(a || b)
  | 6 => a == b
  | _ => a || !b

/-- PSET (R101). -/
def execPset (h : Hdr) (pd pa pb : PCode) (f : BitVec 3) : State → Host.Outcome State Fault Refusal :=
  gate (.pset h pd pa pb f) fun x s =>
    retire x (writePred x s latA pd.toNat fun l =>
      psetFn f.toNat (predOf (thOf x.c l) pa.toNat) (predOf (thOf x.c l) pb.toNat))

/-- p7 to p0 as a number; p7 reads 1 (R62, R102). -/
def predByte (t : Thread) : Nat := 128 + t.preds.toNat % 128

/-- PMOV wD, P (R102). -/
def execPmovRead (h : Hdr) (d : Code) : State → Host.Outcome State Fault Refusal :=
  gate (.pmovRead h d) fun x s => compute x s latA d.toNat [] fun l _ =>
    some (.known (BitVec.ofNat 64 (predByte (thOf x.c l))))

/-- Write the predicates p0 to p6 from a value, each at its latency (R102). -/
def writePreds (x : Ctx) (s : State) (v : Nat → Word) : State :=
  (upTo 7).foldl (fun s p => writePred x s latA p fun l => bitAt (v l).toNat p) s

/-- PMOV P, wA (R102). -/
def execPmovWrite (h : Hdr) (a : Code) : State → Host.Outcome State Fault Refusal :=
  gate (.pmovWrite h a) fun x s =>
    withSources x s [a.toNat] none fun s v => retire x (writePreds x s fun l => v l a.toNat)

/-! ## The window (04 R56 to R58) -/

/-- Address of block `j` of a thread's spill area (R58). -/
def spillAddr (s : State) (c : Crew) (l j : Nat) : Word :=
  match launchOf s c with
  | none => 0
  | some la => la.words.getD 13 0 + BitVec.ofNat 64 (threadIndex s c l * 32768 + j * 128)

/-- The launch's register-stack depth. -/
def depthOf (s : State) (c : Crew) : Nat :=
  match launchOf s c with
  | none => 512
  | some l => l.depth

/-- The value of stack entry `e`. -/
def entryW (t : Thread) (e : Nat) : Word := (mgetD t.rf e (.known 0)).word

/-- The target of a part of a spill or fill: MMIO takes no access of a block's width, and a line that is private to
another unit of an ordered launch gives an error response (R58, R170, R331). -/
def blockTgt (w : Who) (k : AccKind) (va : Word) : VM Nat :=
  vbind (vxlat w k va) fun (phys, ty) s =>
    if ty = 0xB then .err s clsProt va
    else if sharing s w va.toNat ty = .foreign then .err (vlogAdd s (sliceOf s phys) 2 va w) clsProt va
    else .ok s phys

/-- A part of a spill store, at once whatever the launch's mode (R58). -/
def spillPart (w : Who) (va : Word) (data : List Byte) : VM Unit :=
  vbind (blockTgt w .spill va) fun phys s =>
    match writeTgt s w va phys data with
    | (s, true) => .ok s ()
    | (s, false) => .err s clsProt va

/-- Write bytes to the spill area. -/
def spillWrite (w : Who) (va : Word) (data : List Byte) : VM Unit :=
  vbind (vfold (fun (rest : List Byte) (p : Word × Nat) =>
    vbind (spillPart w p.1 (rest.take p.2)) fun _ => vpure (rest.drop p.2))
    data (parts va data.length)) fun _ => vpure ()

/-- A part of a fill load, which waits for its line or weight bank as every read (R58, R163, R166). -/
def fillPart (w : Who) (va : Word) (n : Nat) : VM (List Byte) :=
  vbind (blockTgt w .fill va) fun phys s =>
    if !presentAll s phys n || refreshing s phys then .wait s phys n
    else match readTgt s w va phys n false with
      | (s, some b) => .ok s b
      | (s, none) => .err s clsProt va

/-- Read bytes of the spill area. -/
def fillRead (w : Who) (va : Word) (n : Nat) : VM (List Byte) :=
  vfold (fun acc p => vbind (fillPart w p.1 p.2) fun b => vpure (acc ++ b)) [] (parts va n)

/-- Spill blocks of a lane until window F + 28 fits above its base (R58). -/
def spillLane (x : Ctx) (l f depth : Nat) : Nat → Thread → VM Thread
  | 0, t => vpure t
  | n + 1, t =>
    if f + 28 - t.base ≤ depth then vpure t
    else
      vbind vget fun s =>
        let a := spillAddr s x.c l (t.base / 16)
        let block := wordsBytes ((upTo 16).map fun k => entryW t (t.base + k))
        vbind (spillWrite { x.w with lanes := oneLane l } a block) fun _ =>
          spillLane x l f depth n
            { t with base := t.base + 16, rf := t.rf.filter fun e => decide (t.base + 16 ≤ e.1) }

/-- Fill blocks of a lane until its base is at or below the window (R58). -/
def fillLane (x : Ctx) (l f : Nat) : Nat → Thread → VM Thread
  | 0, t => vpure t
  | n + 1, t =>
    if t.base ≤ f then vpure t
    else
      vbind vget fun s =>
        let a := spillAddr s x.c l (t.base / 16 - 1)
        vbind (fillRead { x.w with lanes := oneLane l } a 128) fun b =>
          let rf := (upTo 16).foldl (fun (rf : Map RegVal) k =>
            mput rf (t.base - 16 + k) (.known (wordOf ((b.drop (8 * k)).take 8)))) t.rf
          fillLane x l f n { t with base := t.base - 16, rf := rf }

/-- Stack entries of the blocks that a slide up spills in a lane. -/
def spillRange (t : Thread) (depth : Nat) : Nat × Nat :=
  (t.base, if t.frame + 44 ≤ t.base + depth then t.base
    else t.base + (t.frame + 44 - t.base - depth + 15) / 16 * 16)

/-- Symbols that the blocks to be spilled of a lane hold, results still pending among them, as a mask (R58,
R297). -/
def spillSyms (x : Ctx) (depth l : Nat) : Nat :=
  let t := thOf x.c l
  let r := spillRange t depth
  let holds := t.rf ++ x.c.pend.filterMap fun p => match p.tgt with
    | .reg e v => if p.lane = l then some (e, v) else none
    | _ => none
  (holds.map fun e => if r.1 ≤ e.1 ∧ e.1 < r.2 then
      match e.2.symbol with
      | none => 0
      | some y => 2 ^ y
    else 0).foldl Nat.lor 0

/-- An operation in flight writes into a block that lanes of a crew are to spill; one that is complete with a
recorded fault writes nothing more (R58, R79). -/
def spillBusy (c : Crew) (m : Mask) (depth : Nat) : Bool :=
  c.ops.any fun o => !o.done && decide (o.priv = c.priv) && o.dsts.any fun d =>
    inMask m d.1 &&
      (let r := spillRange (thOf c d.1) depth
       decide (r.1 ≤ d.2.2) && decide (d.2.2 < r.2))

/-- Run work of an instruction that accesses memory: a page fault parks the group with nothing of the
work standing, another fault traps at the instruction (R58, R157). -/
def vrun {α : Type} (x : Ctx) (s : State) (bad : Mask) (m : VM α) (k : State → α → State) : State :=
  match m s with
  | .ok s a => k s a
  | .page _ w kind va ty lv =>
    if rejHit s x.c va then trapAt x s clsPage va bad
    else
    let (s, id) := faultEnter s w kind va ty lv
    parkPages x s [id]
  | .err s cls a => trapAt x s cls a bad
  | .wait _ phys n => parkGroup x s (.lines phys n)

/-! ## Accesses that an instruction performs itself -/

/-- What checking an instruction's accesses has found: lanes refused, with their addresses, and
faulting pages. -/
structure Chk where
  s : State
  /-- Lanes refused before any access is performed. -/
  bad : List (Nat × Word)
  /-- Lanes whose access receives an error response when it is performed. -/
  err : List (Nat × Word × Nat × Nat)
  pages : List (Nat × AccKind × Word × Nat × Nat)

/-- Check one sector part of a lane's access; `bars` are target types that the instruction refuses. A line that is
private to another unit of an ordered launch gives an error response (R331). -/
def chkPart (w : Who) (k : AccKind) (bars : Nat → Bool) (l : Nat) (x : Chk) (p : Word × Nat) : Chk :=
  let w := { w with lanes := oneLane l }
  match xlat x.s w k p.1 with
  | (s, .ok phys ty) =>
    if bars ty then { x with s := s, bad := x.bad ++ [(l, p.1)] }
    else if sharing s w p.1.toNat ty = .foreign then { x with s := s, err := x.err ++ [(l, p.1, sliceOf s phys, 2)] }
    else { x with s := s }
  | (s, .refused sl kind) => { x with s := s, err := x.err ++ [(l, p.1, sl, kind)] }
  | (s, .prot) => { x with s := s, bad := x.bad ++ [(l, p.1)] }
  | (s, .page ty lv) => { x with s := s, pages := x.pages ++ [(l, k, p.1, ty, lv)] }

/-- The lanes of a list of places. -/
def lanesIn (ls : List Nat) : Mask := maskOf fun l => ls.any fun j => decide (j = l)

/-- Check the accesses of every lane, as (lane, address, bytes), before any is performed (R157): refused
lanes trap, else a rejected page traps, else faulting pages are entered once each and the group parks, else
lanes whose access receives an error response are logged and trap. -/
def checked (x : Ctx) (s : State) (k : AccKind) (bars : Nat → Bool) (bad0 : List (Nat × Word))
    (accs : List (Nat × Word × Nat)) (go : State → State) : State :=
  let r := accs.foldl (fun (r : Chk) a => (parts a.2.1 a.2.2).foldl (chkPart x.w k bars a.1) r)
    { s := s, bad := bad0, err := [], pages := [] }
  match r.bad with
  | b :: _ => trapAt x r.s clsProt b.2 (lanesIn (r.bad.map (·.1)))
  | [] =>
    match r.pages.filter fun p => rejHit s x.c p.2.2.1 with
    | p :: ps => trapAt x r.s clsPage p.2.2.1 (lanesIn ((p :: ps).map (·.1)))
    | [] =>
      if r.pages = [] then
        match r.err with
        | [] => go r.s
        | e :: _ =>
          let s := r.err.foldl (fun s e => vlogAdd s e.2.2.1 e.2.2.2 e.2.1 { x.w with lanes := oneLane e.1 }) r.s
          trapAt x s clsProt e.2.1 (lanesIn (r.err.map (·.1)))
      else
        let (s, ids) := enterPages x.w r.s (lowPages r.pages [])
        parkPages x s ids

/-- Accesses of blocks `lo` to `hi` − 1 of a lane's spill area. -/
def blockAccs (s : State) (c : Crew) (l lo hi : Nat) : List (Nat × Word × Nat) :=
  (upTo (hi - lo)).map fun i => (l, spillAddr s c l (lo + i), 128)

/-- The launch names no spill area. -/
def noSpill (s : State) (c : Crew) : Bool :=
  match launchOf s c with
  | none => true
  | some la => decide (la.words.getD 13 0 = 0)

/-- Check the spill or fill accesses of a slide: a spill pointer of 0 refuses them all, and MMIO takes no access of
their width (R58, R170). -/
def checkBlocks (x : Ctx) (s : State) (k : AccKind) (accs : List (Nat × Word × Nat))
    (go : State → State) : State :=
  if noSpill s x.c then checked x s k (fun _ => false) (accs.map fun a => (a.1, a.2.1)) [] go
  else checked x s k (fun ty => decide (ty = 0xB)) [] accs go

/-- Slide every active lane of a crew, one after another, through work on its thread. -/
def slideLanes (x : Ctx) (f : Nat → Thread → VM Thread) (k : State → State) : List Nat → State → State
  | [], s => k s
  | l :: t, s =>
    match mget s.crews x.key with
    | none => s
    | some c =>
      vrun x s (oneLane l) (f l (thOf c l)) fun s th =>
        slideLanes x f k t (modCrew s x.key fun c => setTh c l th)

/-- Move a lane's window up by one frame: the new registers become 0 and w27 the link, writes that an
earlier one still in flight does not overtake (R57, R71). -/
def slideUp (link : Word) (seq : Nat) (c : Crew) (l : Nat) : Crew :=
  let f := (thOf c l).frame + 16
  let c := modTh c l fun t => { t with frame := f }
  (upTo 16).foldl (fun c k =>
    completeW c l (.reg (f + 12 + k) (.known (if k = 15 then link else 0))) seq) c

/-- CALL and CALLX: the checks of every lane come before any lane slides; spills, then the slide
(R57, R58, R104, R105). Of several lanes at the deepest frame the record's ADDR is the lowest one's
spill address (DESIGN CHOICE, log 66). `fin` is what else the instruction does when nothing makes it wait or trap. -/
def doCall (x : Ctx) (s : State) (fin : State → State) (tgt : Nat → Word) : State :=
  let deep := maskOf fun l => inMask x.act l && decide ((thOf x.c l).frame = 4080)
  let depth := depthOf s x.c
  if deep ≠ 0 then trapAt x s clsProt (spillAddr s x.c (lowLane deep) 255) deep
  else
    let needs := (lanesOf x.act).any fun l =>
      decide ((spillRange (thOf x.c l) depth).1 < (spillRange (thOf x.c l) depth).2)
    if needs && (lanesOf x.act).any (fun l => decide (spillSyms x depth l ≠ 0)) then
      blockOn x s (spillSyms x depth)
    else if needs && spillBusy x.c x.act depth then parkGroup x s (.spill x.act)
    else
      let s := if needs then modCrew s x.key settleAll else s
      let accs := ((lanesOf x.act).map fun l =>
        let r := spillRange (thOf x.c l) depth
        blockAccs s x.c l (r.1 / 16) (r.2 / 16)).flatten
      checkBlocks x s .spill accs
        (slideLanes x (fun l t => spillLane x l (t.frame + 16) depth 48 t) (fun s =>
          let s := modCrew s x.key fun c => (lanesOf x.act).foldl (slideUp x.next x.seq) c
          retireTo x (fin s) tgt) (lanesOf x.act))

/-- CALL (R104). -/
def execCall (h : Hdr) (off : BitVec 18) : State → Host.Outcome State Fault Refusal :=
  gate (.call h off) fun x s =>
    doCall x s id fun _ => x.pc + wordOfInt (4 * immOf x.hn 18 off.toNat)

/-- The ports of a crew are as they stand in another state. -/
def portsFrom (key : Nat) (t s : State) : State :=
  match mget t.crews key with
  | none => s
  | some ct => modCrew s key fun c => { c with ports := ct.ports }

/-- CALLX: the target is read before the slide; a port source has advanced once the call goes on (R64,
R105). -/
def execCallx (h : Hdr) (a : Code) : State → Host.Outcome State Fault Refusal :=
  gate (.callx h a) fun x s =>
    withSources x s [a.toNat] none fun s1 v =>
      doCall x (portsFrom x.key s s1) (portsFrom x.key s1) fun l => v l a.toNat

/-- RET: every lane's check comes before w27 is read, then fills and the slide; ILLEGAL-RETURN has ADDR 0
(R57, R105; log 66). -/
def execRet (h : Hdr) : State → Host.Outcome State Fault Refusal :=
  gate (.ret h) fun x s =>
    let none_ := maskOf fun l => inMask x.act l && decide ((thOf x.c l).frame = 0)
    if none_ ≠ 0 then trapAt x s clsReturn 0 none_
    else
      withSources x s [27] none fun s v =>
        let needs := (lanesOf x.act).any fun l =>
          decide ((thOf x.c l).frame < (thOf x.c l).base + 16)
        let s := if needs then modCrew s x.key settleAll else s
        let accs := ((lanesOf x.act).map fun l =>
          let t := thOf x.c l
          blockAccs s x.c l (min ((t.frame - 16) / 16) (t.base / 16)) (t.base / 16)).flatten
        checkBlocks x s .fill accs
          (slideLanes x (fun l t => fillLane x l (t.frame - 16) 48 t) (fun s =>
            let s := modCrew s x.key fun c => modThs c (lanesOf x.act) fun _ t =>
              { t with frame := t.frame - 16 }
            retireTo x s fun l => v l 27) (lanesOf x.act))

/-! ## Control transfer -/

/-- BRA (R104). -/
def execBra (h : Hdr) (off : BitVec 18) : State → Host.Outcome State Fault Refusal :=
  gate (.bra h off) fun x s =>
    retireTo x s fun _ => x.pc + wordOfInt (4 * immOf x.hn 18 off.toNat)

/-- BRX (R105). -/
def execBrx (h : Hdr) (a : Code) : State → Host.Outcome State Fault Refusal :=
  gate (.brx h a) fun x s =>
    withSources x s [a.toNat] none fun s v => retireTo x s fun l => v l a.toNat

/-- LOOP (R106). -/
def execLoop (h : Hdr) (d : Code) (off : BitVec 13) : State → Host.Outcome State Fault Refusal :=
  gate (.loop h d off) fun x s =>
    withSources x s [d.toNat] none fun s v =>
      let n (l : Nat) : Word := v l d.toNat - 1
      let s := writeReg x s 0 d.toNat fun l => .known (n l)
      retireTo x s fun l =>
        if n l ≠ 0 then x.pc + wordOfInt (4 * immOf x.hn 13 off.toNat) else x.next

/-- Set the meeting register and return its old value (R107). -/
def doMeet (x : Ctx) (s : State) (d : Nat) (m : Nat → Word) : State :=
  let s := writeReg x s 0 d fun l => .known (thOf x.c l).mr
  retire x (modCrew s x.key fun c => modThs c (lanesOf x.act) fun l t => { t with mr := m l })

/-- MEET (R107). -/
def execMeet (h : Hdr) (d : Code) (off : BitVec 13) : State → Host.Outcome State Fault Refusal :=
  gate (.meet h d off) fun x s =>
    doMeet x s d.toNat fun _ => x.pc + wordOfInt (4 * immOf x.hn 13 off.toNat)

/-- MEETR: a misaligned address raises PROTECTION and no lane is changed (R107). ADDR is wA of the lowest
faulting lane (DESIGN CHOICE, log 72). -/
def execMeetr (h : Hdr) (d a : Code) : State → Host.Outcome State Fault Refusal :=
  gate (.meetr h d a) fun x s =>
    withSources x s [a.toNat] none fun s1 v =>
      let bad := maskOf fun l => inMask x.act l && decide ((v l a.toNat).toNat % 4 ≠ 0)
      if bad ≠ 0 then trapAt x s clsProt (v (lowLane bad) a.toNat) bad
      else doMeet x s1 d.toNat fun l => v l a.toNat

/-- EXIT: every active lane ends (R108). -/
def execExit (h : Hdr) : State → Host.Outcome State Fault Refusal :=
  gate (.exit h) fun x s =>
    let s := retire x s
    if x.c.priv then
      modCrew s x.key fun c => modThs c (lanesOf x.act) fun _ t => { t with live := false }
    else endLanes s x.key x.act

/-- KILL: the OR of the active lanes' masks names the threads that end (R108). -/
def execKill (h : Hdr) (a : Code) : State → Host.Outcome State Fault Refusal :=
  gate (.kill h a) fun x s =>
    withSources x s [a.toNat] none fun s v =>
      let m := (lanesOf x.act).foldl (fun (m : Nat) l => m.lor ((v l a.toNat).toNat % 2 ^ 32)) 0
      endLanes (retire x s) x.key (BitVec.ofNat 32 m)

/-- BRK: BREAKPOINT, taken after the instruction (R109). -/
def execBrk (h : Hdr) (n : BitVec 5) : State → Host.Outcome State Fault Refusal :=
  gate (.brk h n) fun x s =>
    takeTrap (retire x s) x.key
      (mkTrap clsBreak x.start x.next (BitVec.ofNat 64 n.toNat) x.act x.act).afterIt

/-- TRAP: the class TRAP, taken after the instruction (R109). -/
def execTrap (h : Hdr) (n : BitVec 5) : State → Host.Outcome State Fault Refusal :=
  gate (.trap h n) fun x s =>
    takeTrap (retire x s) x.key
      (mkTrap clsTrap x.start x.next (BitVec.ofNat 64 n.toNat) x.act x.act).afterIt

/-- NOP (R110). -/
def execNop (h : Hdr) : State → Host.Outcome State Fault Refusal :=
  gate (.nop h) fun x s => retire x s

/-- YIELD: the crew counts as issued more recently than every other (R110). -/
def execYield (h : Hdr) : State → Host.Outcome State Fault Refusal :=
  gate (.yield h) fun x s => modCrew (retire x s) x.key fun c => { c with stamp := x.seq }

end Sys2Proof.Machine
end

