-- ==== Sys2Proof/Machine/Exchange.lean ====
section
/-! DEFINITION. Crew exchange and special registers, opcodes 0x30 to 0x37 (06 R111 to R117, 04 R65,
02 R32). -/

namespace Sys2Proof.Machine

/-- Write the validity predicate p6 in every active lane (R111). -/
def writeValid (x : Ctx) (s : State) (v : Nat → Bool) : State := writePred x s latB 6 v

/-- VOTE (R112). -/
def execVote (h : Hdr) (d : Code) (pa : PCode) (nt : BitVec 1) (form : BitVec 2) :
    State → Host.Outcome State Fault Refusal :=
  gate (.vote h d pa nt form) fun x s =>
    let m := maskOf fun l => inMask x.act l && (predOf (thOf x.c l) pa.toNat != decide (nt = 1))
    let pred (b : Bool) : State :=
      retire x (writeValid x (writePred x s latB d.toNat fun _ => b) fun _ => true)
    match form.toNat with
    | 0 => pred (decide (m = x.act))
    | 1 => pred (decide (m ≠ 0))
    | 2 => pred (decide (m = 0) || decide (m = x.act))
    | _ =>
      match fetchSources x s [] (some d.toNat) with
      | .stop s => s
      | .ok s _ =>
        finish x (writeValid x s fun _ => true) latB d.toNat fun _ =>
          .known (BitVec.ofNat 64 m.toNat)

/-- The source lane of SHFL; none when it falls outside the crew (R113). -/
def shflLane (mode l b : Nat) : Option Nat :=
  match mode with
  | 0 => some (b % 32)
  | 1 => if b % 64 ≤ l then some (l - b % 64) else none
  | 2 => if l + b % 64 < 32 then some (l + b % 64) else none
  | _ => some (l.xor (b % 32))

/-- SHFL with the amount of each lane (R113). -/
def doShfl (x : Ctx) (s : State) (d a : Nat) (mode : Nat) (v : Nat → Nat → Word) (b : Nat → Nat) :
    State :=
  let src (l : Nat) : Option Nat :=
    match shflLane mode l (b l) with
    | some j => if inMask x.act j then some j else none
    | none => none
  finish x (writeValid x s fun l => (src l).isSome) latB d fun l => .known (v ((src l).getD l) a)

/-- SHFL by a register (R113). -/
def execShfl (h : Hdr) (d a b : Code) (mode : BitVec 2) : State → Host.Outcome State Fault Refusal :=
  gate (.shfl h d a b mode) fun x s =>
    withSources x s (cod2 a b) (some d.toNat) fun s v =>
      doShfl x s d.toNat a.toNat mode.toNat v fun l => (v l b.toNat).toNat

/-- SHFL by an immediate (R113). -/
def execShflImm (h : Hdr) (d a : Code) (c : BitVec 5) (mode : BitVec 2) :
    State → Host.Outcome State Fault Refusal :=
  gate (.shflImm h d a c mode) fun x s =>
    withSources x s [a.toNat] (some d.toNat) fun s v =>
      doShfl x s d.toNat a.toNat mode.toNat v fun _ => c.toNat

/-- The operation of CRED and CSCAN (R114). -/
def credOp (op : Nat) (a b : Word) : Word :=
  match op with
  | 0 => a + b
  | 1 => if b.toInt < a.toInt then b else a
  | 2 => if a.toInt < b.toInt then b else a
  | 3 => if b.toNat < a.toNat then b else a
  | 4 => if a.toNat < b.toNat then b else a
  | 5 => a &&& b
  | 6 => a ||| b
  | _ => a ^^^ b

/-- The identity (R114). -/
def credId (op : Nat) : Word :=
  match op with
  | 1 => 0x7FFFFFFFFFFFFFFF
  | 2 => 0x8000000000000000
  | 3 => 0xFFFFFFFFFFFFFFFF
  | 5 => 0xFFFFFFFFFFFFFFFF
  | _ => 0

/-- The values of lanes 0 to 31, an unavailable lane's the identity (R111, R114). -/
def crewVals (x : Ctx) (op : Nat) (v : Nat → Word) : List Word :=
  lanes.map fun l => if inMask x.act l then v l else credId op

/-- CRED (R114). -/
def execCred (h : Hdr) (d a : Code) (op : BitVec 3) : State → Host.Outcome State Fault Refusal :=
  gate (.cred h d a op) fun x s =>
    withSources x s [a.toNat] (some d.toNat) fun s v =>
      let r := tree32 (credOp op.toNat) 0 (crewVals x op.toNat fun l => v l a.toNat)
      finish x (writeValid x s fun _ => true) latB d.toNat fun _ => .known r

/-- CSCAN, inclusive or exclusive (R114). -/
def execCscan (h : Hdr) (d a : Code) (excl : BitVec 1) (op : BitVec 3) :
    State → Host.Outcome State Fault Refusal :=
  gate (.cscan h d a excl op) fun x s =>
    withSources x s [a.toNat] (some d.toNat) fun s v =>
      let vals := crewVals x op.toNat fun l => v l a.toNat
      let upto (l : Nat) : Word :=
        (vals.take (if excl = 1 then l else l + 1)).foldl (credOp op.toNat) (credId op.toNat)
      finish x (writeValid x s fun _ => true) latB d.toNat fun l => .known (upto l)

/-- MATCH (R115). -/
def execMatchl (h : Hdr) (d a : Code) (w : BitVec 1) : State → Host.Outcome State Fault Refusal :=
  gate (.matchl h d a w) fun x s =>
    withSources x s [a.toNat] (some d.toNat) fun s v =>
      let key (l : Nat) : Nat := lowBits w (v l a.toNat)
      let same (l : Nat) : Mask := maskOf fun j => inMask x.act j && decide (key j = key l)
      finish x (writeValid x s fun _ => true) latB d.toNat fun l =>
        .known (BitVec.ofNat 64 (same l).toNat)

/-- A live lane of the crew is not active: a crew-collective instruction raises
ILLEGAL-CONVERGENCE (R62). -/
def diverged (x : Ctx) : Bool := decide (liveMask x.c &&& ~~~x.act ≠ 0)

/-- Run a crew-collective instruction (R62). Its ILLEGAL-CONVERGENCE names the active lanes, with ADDR 0
(DESIGN CHOICE, log 72). -/
def collective (x : Ctx) (s : State) (k : State → State) : State :=
  if diverged x then trapAt x s clsConvergence 0 x.act else k s

/-- The largest key of ISECT's compare type (R116). -/
def topKey (w u : BitVec 1) : Int := if u = 1 then 2 ^ widthOf w - 1 else 2 ^ (widthOf w - 1) - 1

/-- ISECT (R116). -/
def execIsect (h : Hdr) (d a b : Code) (w u : BitVec 1) : State → Host.Outcome State Fault Refusal :=
  gate (.isect h d a b w u) fun x s =>
    collective x s fun s => withSources x s (cod2 a b) none fun s v =>
      let key (c : Code) (l : Nat) : Int :=
        if inMask x.act l then readInt w u (v l c.toNat) else topKey w u
      let m := min (key a 31) (key b 31)
      let advA := (lanes.filter fun l => decide (key a l ≤ m)).length
      let advB := (lanes.filter fun l => decide (key b l ≤ m)).length
      let hit (l : Nat) : Option Nat :=
        if key a l ≤ m then lanes.find? fun j => inMask x.act j && decide (key b j = key a l) else none
      let s := writeReg x s latB d.toNat fun l =>
        .known ((hit l).elim 0xFFFFFFFFFFFFFFFF fun j => BitVec.ofNat 64 j)
      let s := writeReg x s latB (d.toNat + 1) fun _ =>
        .known (BitVec.ofNat 64 (advB * 2 ^ 32 + advA))
      retire x (writeValid x s fun l => (hit l).isSome)

/-! ## Special registers -/

/-- The value of a special register as a lane reads it (R32, R65). -/
def specVal (s : State) (x : Ctx) (l code : Nat) : Word :=
  let t := progTh x.c l
  let unit := mget s.units x.c.uid
  let la := launchOf s x.c
  let n (v : Nat) : Word := BitVec.ofNat 64 v
  match code with
  | 0 => n l
  | 1 => n x.c.idx
  | 2 => n (unit.elim 0 (·.u))
  | 3 => n (unit.elim 0 (·.cluster))
  | 4 => n x.c.core
  | 5 => n (stackOf x.c.core)
  | 6 => n s.part.pkg
  | 7 => n s.cycle
  | 8 => la.elim 0 fun r => r.words.getD 18 0
  | 9 => la.elim 0 fun r => r.words.getD 3 0
  | 10 => t.mr
  | 11 => n x.act.toNat
  | 12 => n (t.frame / 16)
  | 15 => x.c.cheap
  | 19 => n (la.elim 0 (·.crews))
  | 20 => n (la.elim 0 (·.unitsPer))
  | 21 => n (la.elim 0 (·.clusters))
  | _ => specOf t code

/-- Symbols with recorded steps that still await arrival in the lanes of a mask (R295). -/
def stepSyms (c : Crew) (m : Mask) : Nat :=
  (c.syms.filter fun p => p.2.lanes.any fun x => inMask m x.lane && !x.recs.isEmpty).foldl
    (fun a p => a.lor (2 ^ p.1)) 0

/-- MOVS; of %fpstat it blocks while a recorded step awaits arrival (R117, R295). -/
def execMovs (h : Hdr) (d : Code) (sr : BitVec 5) : State → Host.Outcome State Fault Refusal :=
  gate (.movs h d sr) fun x s =>
    let set := if sr = 13 then stepSyms x.c x.act else 0
    if set ≠ 0 then blockOn x s fun l => stepSyms x.c (oneLane l)
    else compute x s latA d.toNat [] fun l _ => some (.known (specVal s x l sr.toNat))

/-- MOVSW; a crew-scope register takes the value of the highest active lane (R117, R65, R295). -/
def execMovsw (h : Hdr) (sr : BitVec 5) (a : Code) : State → Host.Outcome State Fault Refusal :=
  gate (.movsw h sr a) fun x s =>
    let set := if sr = 13 then stepSyms x.c x.act else 0
    if set ≠ 0 then blockOn x s fun l => stepSyms x.c (oneLane l)
    else withSources x s [a.toNat] none fun s v =>
      retire x (writeTgts x s latA fun l =>
        if sr = 15 ∧ l ≠ highLane x.act then none else some (.spec sr.toNat (v l a.toNat)))

end Sys2Proof.Machine
end

