-- ==== Sys2Proof/Machine/FloatOps.lean ====
section
/-! DEFINITION. Floating-point and conversion instructions, opcodes 0x38 to 0x54 (08 R128 to R150), with
the float forms that FADD, FMUL and FFMA record (20 R294). -/

namespace Sys2Proof.Machine

/-- Write float results and their flags at a latency (R124, R125). -/
def finishFloat (x : Ctx) (s : State) (lat d : Nat) (r : Nat → FRes) : State :=
  finish x (writeFlags x s lat fun l => (r l).flags) lat d fun l =>
    .known (BitVec.ofNat 64 (r l).bits)

/-- Write converted results and their flags at a latency. -/
def finishConv (x : Ctx) (s : State) (lat d : Nat) (r : Nat → Word × Nat) : State :=
  finish x (writeFlags x s lat fun l => (r l).2) lat d fun l => .known (r l).1

/-- A one-source float instruction. -/
def float1 (x : Ctx) (s : State) (lat : Nat) (d a : Code) (f : Nat → FRes) : State :=
  withSources x s [a.toNat] (some d.toNat) fun s v =>
    finishFloat x s lat d.toNat fun l => f (v l a.toNat).toNat

/-- A two-source float instruction. -/
def float2 (x : Ctx) (s : State) (lat : Nat) (d a b : Code) (f : Nat → Nat → FRes) : State :=
  withSources x s (cod2 a b) (some d.toNat) fun s v =>
    finishFloat x s lat d.toNat fun l => f (v l a.toNat).toNat (v l b.toNat).toNat

/-! ## Recorded steps (R294) -/

/-- The chain of a float form or of the raw form; none for another integer form. -/
def chainOf : RegVal → Option (Nat × List FStep)
  | .iform y a b => if a = 1 ∧ b = 0 then some (y, []) else none
  | .fform y st => some (y, st)
  | .known _ => none

/-- Positions of operands that hold forms. -/
def holes (xs : List RegVal) : List Nat :=
  (upTo xs.length).filter fun i => ((xs.getD i (.known 0)).symbol).isSome

/-- Steps already recorded over a symbol in a lane. -/
def recCount (c : Crew) (y l : Nat) : Nat :=
  match mget c.syms y with
  | none => 0
  | some sy =>
    match sy.lanes.find? fun x => decide (x.lane = l) with
    | none => 0
    | some x => x.recs.length

/-- The form that a step records: one open position, at most three steps a chain and eight a symbol
(R294). -/
def recordStep (c : Crew) (l : Nat) (op : FOp) (ng : Bool) (t mode : Nat) (xs : List RegVal) :
    Option (Nat × List FStep) :=
  match holes xs with
  | [i] =>
    match chainOf (xs.getD i (.known 0)) with
    | none => none
    | some (y, st) =>
      if 3 ≤ st.length ∨ 8 ≤ recCount c y l then none
      else some (y, st ++ [{ op := op, ng := ng, t := t, rnd := mode, hole := i,
                             known := ((xs.take i) ++ xs.drop (i + 1)).map (·.word) }])
  | _ => none

/-- Enter a recorded step in its symbol. -/
def addRec (c : Crew) (l : Nat) (r : Nat × List FStep) : Crew :=
  { c with syms := mmod c.syms r.1 fun y =>
      { y with lanes := y.lanes.map fun x =>
          if x.lane = l then { x with recs := x.recs ++ [r.2] } else x } }

/-- FADD, FMUL and FFMA: on values, or recording a step where one source holds a form (R129, R130,
R294). -/
def floatStep (x : Ctx) (s : State) (d : Nat) (codes : List Nat) (op : FOp) (ng : Bool) (t : Nat) :
    State :=
  let mode := x.hn.mode
  let set := srcSyms x.c x.act codes
  let probe (l : Nat) : List RegVal := codes.map fun r => srcOf x.c [] l r
  let stuck := (lanesOf x.act).any fun l =>
    !(holes (probe l)).isEmpty && (recordStep x.c l op ng t mode (probe l)).isNone
  if set ≠ 0 ∧ (28 ≤ d ∨ stuck = true) then blockOn x s (laneSyms x.c codes)
  else
    match fetchSources x s (codes.filter fun r => decide (28 ≤ r)) (some d) with
    | .stop s => s
    | .ok s v =>
      let vals (l : Nat) : List RegVal := codes.map fun r => srcOf x.c v l r
      let form (l : Nat) : Option (Nat × List FStep) :=
        if (holes (vals l)).isEmpty then none else recordStep x.c l op ng t mode (vals l)
      let val (l : Nat) : FRes :=
        fopEval op ng t mode (op0 (.known 0) (vals l)).word.toNat (op1 (.known 0) (vals l)).word.toNat
          (op2 (.known 0) (vals l)).word.toNat
      let s := modCrew s x.key fun c => (lanesOf x.act).foldl (fun c l =>
        match form l with
        | none => c
        | some r => addRec c l r) c
      let s := writeFlags x s latA fun l => if (form l).isNone then (val l).flags else 0
      finish x s latA d fun l =>
        match form l with
        | some (y, st) => .fform y st
        | none => .known (BitVec.ofNat 64 (val l).bits)

/-- FADD (R129). -/
def execFadd (h : Hdr) (d a b : Code) (t : BitVec 2) : State → Host.Outcome State Fault Refusal :=
  gate (.fadd h d a b t) fun x s => floatStep x s d.toNat (cod2 a b) .add false t.toNat

/-- FSUB (R129). -/
def execFsub (h : Hdr) (d a b : Code) (t : BitVec 2) : State → Host.Outcome State Fault Refusal :=
  gate (.fsub h d a b t) fun x s => float2 x s latA d a b fun p q =>
    fAdd (fmtOf t.toNat) x.hn.mode (fdec (fmtOf t.toNat) p) (fdec (fmtOf t.toNat) q).flip

/-- FMUL (R129). -/
def execFmul (h : Hdr) (d a b : Code) (t : BitVec 2) : State → Host.Outcome State Fault Refusal :=
  gate (.fmul h d a b t) fun x s => floatStep x s d.toNat (cod2 a b) .mul false t.toNat

/-- FFMA and FFMA.NEG (R129). -/
def execFfma (h : Hdr) (d a b : Code) (ng : BitVec 1) (t : BitVec 2) :
    State → Host.Outcome State Fault Refusal :=
  gate (.ffma h d a b ng t) fun x s =>
    floatStep x s d.toNat [a.toNat, b.toNat, d.toNat] .fma (decide (ng = 1)) t.toNat

/-- FMIN (R131). -/
def execFmin (h : Hdr) (d a b : Code) (num : BitVec 1) (t : BitVec 2) :
    State → Host.Outcome State Fault Refusal :=
  gate (.fmin h d a b num t) fun x s =>
    float2 x s latA d a b (fMinMax (fmtOf t.toNat) false (decide (num = 1)))

/-- FMAX (R131). -/
def execFmax (h : Hdr) (d a b : Code) (num : BitVec 1) (t : BitVec 2) :
    State → Host.Outcome State Fault Refusal :=
  gate (.fmax h d a b num t) fun x s =>
    float2 x s latA d a b (fMinMax (fmtOf t.toNat) true (decide (num = 1)))

/-- FCMP (R132). -/
def execFcmp (h : Hdr) (pd : PCode) (a b : Code) (cond : BitVec 3) (t : BitVec 2) :
    State → Host.Outcome State Fault Refusal :=
  gate (.fcmp h pd a b cond t) fun x s =>
    withSources x s (cod2 a b) none fun s v =>
      let r (l : Nat) : Bool × Nat :=
        fCmp (fmtOf t.toNat) cond.toNat (v l a.toNat).toNat (v l b.toNat).toNat
      let s := writeFlags x s latA fun l => (r l).2
      retire x (writePred x s latA pd.toNat fun l => (r l).1)

/-- FABS (R129). -/
def execFabs (h : Hdr) (d a : Code) (t : BitVec 2) : State → Host.Outcome State Fault Refusal :=
  gate (.fabs h d a t) fun x s => float1 x s latA d a fun p =>
    { bits := setSign (fmtOf t.toNat) false p, flags := 0 }

/-- FNEG (R129). -/
def execFneg (h : Hdr) (d a : Code) (t : BitVec 2) : State → Host.Outcome State Fault Refusal :=
  gate (.fneg h d a t) fun x s => float1 x s latA d a fun p =>
    { bits := setSign (fmtOf t.toNat) (!signOf (fmtOf t.toNat) p) p, flags := 0 }

/-- FCPS (R129). -/
def execFcps (h : Hdr) (d a b : Code) (t : BitVec 2) : State → Host.Outcome State Fault Refusal :=
  gate (.fcps h d a b t) fun x s => float2 x s latA d a b fun p q =>
    { bits := setSign (fmtOf t.toNat) (signOf (fmtOf t.toNat) q) p, flags := 0 }

/-- FDIV (R129, R134). -/
def execFdiv (h : Hdr) (d a b : Code) (t : BitVec 2) : State → Host.Outcome State Fault Refusal :=
  gate (.fdiv h d a b t) fun x s => float2 x s latC d a b fun p q =>
    fDiv (fmtOf t.toNat) x.hn.mode (fdec (fmtOf t.toNat) p) (fdec (fmtOf t.toNat) q)

/-- FSQRT (R129, R134). -/
def execFsqrt (h : Hdr) (d a : Code) (t : BitVec 2) : State → Host.Outcome State Fault Refusal :=
  gate (.fsqrt h d a t) fun x s => float1 x s latC d a fun p =>
    fSqrt (fmtOf t.toNat) x.hn.mode (fdec (fmtOf t.toNat) p)

/-- FRCP (R134, R136). -/
def execFrcp (h : Hdr) (d a : Code) (t : BitVec 2) : State → Host.Outcome State Fault Refusal :=
  gate (.frcp h d a t) fun x s => float1 x s latB d a (fTrans (fmtOf t.toNat) .rcp)

/-- FRSQ (R134, R137). -/
def execFrsq (h : Hdr) (d a : Code) (t : BitVec 2) : State → Host.Outcome State Fault Refusal :=
  gate (.frsq h d a t) fun x s => float1 x s latB d a (fTrans (fmtOf t.toNat) .rsq)

/-- FEXP2 (R134, R138). -/
def execFexp2 (h : Hdr) (d a : Code) (t : BitVec 2) : State → Host.Outcome State Fault Refusal :=
  gate (.fexp2 h d a t) fun x s => float1 x s latB d a (fTrans (fmtOf t.toNat) .exp2)

/-- FLOG2 (R134, R139). -/
def execFlog2 (h : Hdr) (d a : Code) (t : BitVec 2) : State → Host.Outcome State Fault Refusal :=
  gate (.flog2 h d a t) fun x s => float1 x s latB d a (fTrans (fmtOf t.toNat) .log2)

/-- FTANH (R134, R140). -/
def execFtanh (h : Hdr) (d a : Code) (t : BitVec 2) : State → Host.Outcome State Fault Refusal :=
  gate (.ftanh h d a t) fun x s => float1 x s latB d a (fTrans (fmtOf t.toNat) .tanh)

/-- FSINPI (R134, R141). -/
def execFsinpi (h : Hdr) (d a : Code) (t : BitVec 2) : State → Host.Outcome State Fault Refusal :=
  gate (.fsinpi h d a t) fun x s => float1 x s latB d a (fTrans (fmtOf t.toNat) .sinpi)

/-- FCOSPI (R134, R141). -/
def execFcospi (h : Hdr) (d a : Code) (t : BitVec 2) : State → Host.Outcome State Fault Refusal :=
  gate (.fcospi h d a t) fun x s => float1 x s latB d a (fTrans (fmtOf t.toNat) .cospi)

/-- FRND (R133). -/
def execFrnd (h : Hdr) (d a : Code) (xf : BitVec 1) (t : BitVec 2) :
    State → Host.Outcome State Fault Refusal :=
  gate (.frnd h d a xf t) fun x s =>
    float1 x s latA d a (fRnd (fmtOf t.toNat) x.hn.mode (decide (xf = 1)))

/-- FCLS (R133). -/
def execFcls (h : Hdr) (d a : Code) (t : BitVec 2) : State → Host.Outcome State Fault Refusal :=
  gate (.fcls h d a t) fun x s => float1 x s latA d a fun p =>
    { bits := fClass (fmtOf t.toNat) p, flags := 0 }

/-- FRED: the fixed tree over the crew; its flags go to every active lane (R143). -/
def execFred (h : Hdr) (d a : Code) (op : BitVec 5) (t : BitVec 2) :
    State → Host.Outcome State Fault Refusal :=
  gate (.fred h d a op t) fun x s =>
    withSources x s [a.toNat] (some d.toNat) fun s v =>
      let f := fmtOf t.toNat
      let leaf (l : Nat) : FRes :=
        { bits := if inMask x.act l then (v l a.toNat).toNat % 2 ^ f.bits else fredId op.toNat t.toNat
          flags := 0 }
      let r := tree32 (fredOp op.toNat t.toNat x.hn.mode) { bits := 0, flags := 0 } (lanes.map leaf)
      finishFloat x s latB d.toNat fun _ => r

/-! ## Conversions -/

/-- CVTS (R144). -/
def execCvts (h : Hdr) (d a : Code) (conv : BitVec 5) : State → Host.Outcome State Fault Refusal :=
  gate (.cvts h d a conv) fun x s =>
    withSources x s [a.toNat] (some d.toNat) fun s v =>
      finishConv x s latA d.toNat fun l => cvtsOp conv.toNat x.hn.mode (v l a.toNat)

/-- KIND, SCALE and BLOCK of a launch's slot (R126). -/
def slotKind (s : State) (c : Crew) (n : BitVec 3) : Nat × Bool × Nat :=
  let w := slotWord (launchOf s c) n.toNat
  (bits w 3 0, decide (bits w 11 8 = 1), bits w 7 4)

/-- Run a conversion that reads its scale only where the slot has one (R145). -/
def withScale (x : Ctx) (s : State) (a b : Code) (scale : Bool) (d : Code)
    (k : Ctx → State → (Nat → Word) → (Nat → Nat) → State) : State :=
  let codes := if scale then cod2 a b else [a.toNat]
  let x := { x with u := { x.u with srcs := codes } }
  withSources x s codes (some d.toNat) fun s v =>
    k x s (fun l => v l a.toNat) fun l => if scale then (v l b.toNat).toNat % 256 else 127

/-- CVTD under a policy; under TRAP, ARITH before any lane is written and before a port advances
(R145 to R148; log 28). R338 gives ARITH no address: ADDR is 0 (DESIGN CHOICE, log 79). -/
def doCvtd (x : Ctx) (s : State) (d a b : Code) (slot : BitVec 3) (pol : Policy) : State :=
  let (kind, scale, _) := slotKind s x.c slot
  withScale x s a b scale d fun x s1 v e =>
    let r (l : Nat) : Option (Word × Nat) :=
      cvtdOp pol kind x.hn.mode ((v l).toNat % 2 ^ 32) (e l)
    let bad := maskOf fun l => inMask x.act l && (r l).isNone
    if bad ≠ 0 then trapAt x s clsArith 0 bad
    else finishConv x s1 latB d.toNat fun l => (r l).getD (0, 0)

/-- CVTD.SAT (R145). -/
def execCvtdSat (h : Hdr) (d a b : Code) (slot : BitVec 3) : State → Host.Outcome State Fault Refusal :=
  gate (.cvtdSat h d a b slot) fun x s => doCvtd x s d a b slot .sat

/-- CVTD.INF (R145). -/
def execCvtdInf (h : Hdr) (d a b : Code) (slot : BitVec 3) : State → Host.Outcome State Fault Refusal :=
  gate (.cvtdInf h d a b slot) fun x s => doCvtd x s d a b slot .inf

/-- CVTD.NAN (R145). -/
def execCvtdNan (h : Hdr) (d a b : Code) (slot : BitVec 3) : State → Host.Outcome State Fault Refusal :=
  gate (.cvtdNan h d a b slot) fun x s => doCvtd x s d a b slot .nan

/-- CVTD.TRAP (R145, R148). -/
def execCvtdTrap (h : Hdr) (d a b : Code) (slot : BitVec 3) :
    State → Host.Outcome State Fault Refusal :=
  gate (.cvtdTrap h d a b slot) fun x s => doCvtd x s d a b slot .trap

/-- CVTU (R149). -/
def execCvtu (h : Hdr) (d a b : Code) (slot : BitVec 3) : State → Host.Outcome State Fault Refusal :=
  gate (.cvtu h d a b slot) fun x s =>
    let (kind, scale, _) := slotKind s x.c slot
    withScale x s a b scale d fun x s v e =>
      finishFloat x s latB d.toNat fun l => cvtuOp kind x.hn.mode (v l) (e l)

/-- ABSMX: the largest magnitude over the available lanes of a lane's block (R150). -/
def execAbsmx (h : Hdr) (d a : Code) (slot : BitVec 3) : State → Host.Outcome State Fault Refusal :=
  gate (.absmx h d a slot) fun x s =>
    let (_, _, block) := slotKind s x.c slot
    withSources x s [a.toNat] (some d.toNat) fun s v =>
      let mates (l : Nat) : List Nat :=
        (lanesOf x.act).filter fun j => decide (block ≠ 1) || decide (j / 16 = l / 16)
      let big (l : Nat) : Nat :=
        ((mates l).map fun j => absF32 (v j a.toNat).toNat).foldl max 0
      finishFloat x s latB d.toNat fun l => { bits := big l, flags := 0 }

end Sys2Proof.Machine
end

