-- ==== Sys2Proof/Machine/MemoryOps.lean ====
section
/-! DEFINITION. Memory instructions and atomics, opcodes 0x60 to 0x70 (10 R171 to R183, 20 R291). -/

namespace Sys2Proof.Machine

/-- The offset that XIMM carries (R172). -/
def memOff (hn : Hints) : Word := wordOfInt (immOf hn 0 0)

/-- The active lanes' addresses as accesses. -/
def memAccs (x : Ctx) (addr : Nat → Word) (n : Nat) (op : Nat → AccOp) : List Acc :=
  (lanesOf x.act).map fun l => { lane := l, va := addr l + memOff x.hn, n := n, op := op l }

/-- Destination entries of one register in the active lanes. -/
def dstsOf (x : Ctx) (d part : Nat) : List (Nat × Nat × Nat) :=
  (lanesOf x.act).map fun l => (l, part, dstEntry x l d)

/-- Bytes of an access: 16 for `.Q` (R173, R174). -/
def sizeOf_ (size : BitVec 2) (q : BitVec 1) : Nat :=
  if size = 3 ∧ q = 1 then 16 else 2 ^ size.toNat

/-- The lowest-numbered free symbol of a crew (R291). -/
def freeSym (c : Crew) : Option Nat := (upTo 16).find? fun y => (mget c.syms y).isNone

/-- Some lane's address is MMIO; a page that becomes MMIO only after the load has met a page fault there leaves
the load its symbol (R170, R291; log 70). -/
def anyMmio (s : State) (x : Ctx) (addr : Nat → Word) : Bool :=
  (lanesOf x.act).any fun l =>
    match xlat s x.w .load (addr l + memOff x.hn) with
    | (_, .ok _ ty) => decide (ty = 0xB)
    | _ => false

/-- A symbolic load whose number is taken again has nothing more to give: its data is discarded (R292, R302). -/
def orphanSym (y : Nat) (o : Op) : Op :=
  match o.kind with
  | .ldsym n sx b => if n = y then { o with kind := .ldsym (16 + o.id) sx b } else o
  | _ => o

/-- A symbolic load with its symbol taken: raw forms are in place at once (R291, R292). -/
def doLdSym (x : Ctx) (s : State) (d y n : Nat) (sx : Bool) (addr : Nat → Word) : State :=
  let sym : Sym :=
    { lanes := (lanesOf x.act).map fun l => { lane := l, faulted := false, recs := [] }
      arrived := 0, pc := x.start, active := x.act, cls := 0, faddr := [], due := none }
  let s := modCrew s x.key fun c => { c with syms := mput c.syms y sym, ops := c.ops.map (orphanSym y) }
  let s := writeReg x s 0 d fun _ => .iform y 1 0
  issueOp x s (newOp x s (.ldsym y sx n) none (memAccs x addr n fun _ => .read) [])

/-- LD (R173, R291). -/
def execLd (h : Hdr) (d a : Code) (la : Look) (size : BitVec 2) (sx sym : BitVec 1) :
    State → Host.Outcome State Fault Refusal :=
  gate (.ld h d a la size sx sym) fun x s =>
    withSources x s [a.toNat] none fun s v =>
      let n := sizeOf_ size sx
      let addr (l : Nat) : Word := v l a.toNat
      let plainLd (la : Option Nat) : State :=
        let ds := dstsOf x d.toNat 0 ++ (if n = 16 then dstsOf x (d.toNat + 1) 1 else [])
        issueOp x s (newOp x s (.ld (decide (sx = 1)) n) la (memAccs x addr n fun _ => .read) ds)
      if sym = 1 then
        match freeSym x.c with
        | some y =>
          if x.c.priv || anyMmio s x addr then plainLd (some 0)
          else doLdSym x s d.toNat y n (decide (sx = 1)) addr
        | none => plainLd (some 0)
      else plainLd (laOf la)

/-- ST (R174). -/
def execSt (h : Hdr) (d a : Code) (la : Look) (size : BitVec 2) (q : BitVec 1) :
    State → Host.Outcome State Fault Refusal :=
  gate (.st h d a la size q) fun x s =>
    let n := sizeOf_ size q
    let codes := if n = 16 then [d.toNat, d.toNat + 1, a.toNat] else [d.toNat, a.toNat]
    withSources x s codes none fun s v =>
      let data (l : Nat) : List Byte :=
        if n = 16 then bytesOf 8 (v l d.toNat).toNat ++ bytesOf 8 (v l (d.toNat + 1)).toNat
        else bytesOf n (v l d.toNat).toNat
      issueOp x s (newOp x s .st (laOf la)
        (memAccs x (fun l => v l a.toNat) n fun l => .write (data l)) [])

/-- Bytes of a cache line (log 13). -/
def lineBytes : Nat := 256

/-- Prefetch lines: their translations enter the TLB; none where the access to one of them faults or is not
served by a home-slice cache (R176). -/
def prefLines (w : Who) : State → List Word → Option State
  | s, [] => some s
  | s, va :: t =>
    match xlat s w .load va with
    | (s, .ok _ ty) => if [1, 2, 3, 5, 0xA].contains ty then prefLines w s t else none
    | _ => none

/-- PREF: it does all of its work, or nothing (R176). -/
def execPref (h : Hdr) (a : Code) (size : BitVec 2) : State → Host.Outcome State Fault Refusal :=
  gate (.pref h a size) fun x s =>
    withSources x s [a.toNat] none fun s v =>
      let lines := upTo (4 ^ size.toNat)
      let start (l : Nat) : Word :=
        BitVec.ofNat 64 ((v l a.toNat + memOff x.hn).toNat / lineBytes * lineBytes)
      let vas := ((lanesOf x.act).map fun l =>
        lines.map fun i => start l + BitVec.ofNat 64 (lineBytes * i)).flatten
      retire x ((prefLines x.w s vas).getD s)

/-- PRES (R177). -/
def execPres (h : Hdr) (d a : Code) (la : Look) : State → Host.Outcome State Fault Refusal :=
  gate (.pres h d a la) fun x s =>
    withSources x s [a.toNat] none fun s v =>
      issueOp x s (newOp x s .pres (laOf la)
        (memAccs x (fun l => v l a.toNat) 1 fun _ => .pres) (dstsOf x d.toNat 0))

/-- The scope that the SCOPE field of an atomic gives (R185). -/
def atomScope (sc : BitVec 2) : Nat := if sc = 3 then 3 else 4 + sc.toNat

/-- An atomic: its operands, the sign of its 4-byte result and its order (R178 to R183). -/
def doAtom (x : Ctx) (s : State) (op : Nat) (d a : Code) (la : Look) (w64 sx : Bool)
    (ord : BitVec 1) (sc : BitVec 2) : State :=
  let cas := decide (op = 0x6D)
  let codes := if cas then [d.toNat, d.toNat + 1, a.toNat] else [d.toNat, a.toNat]
  withSources x s codes none fun s v =>
    let acc (l : Nat) : AccOp :=
      .atom op w64 (v l d.toNat) (if cas then v l (d.toNat + 1) else 0)
    let o := newOp x s (.atom sx w64) (laOf la)
      (memAccs x (fun l => v l a.toNat) (atomBytes w64) acc) (dstsOf x d.toNat 0)
    issueOp x s { o with ord := decide (ord = 1), scope := x.hn.scope (atomScope sc) }

/-- AADD (R179). -/
def execAadd (h : Hdr) (d a : Code) (la : Look) (w ord : BitVec 1) (scope : BitVec 2) :
    State → Host.Outcome State Fault Refusal :=
  gate (.aadd h d a la w ord scope) fun x s => doAtom x s 0x64 d a la (decide (w = 1)) true ord scope

/-- AAND (R179). -/
def execAand (h : Hdr) (d a : Code) (la : Look) (w ord : BitVec 1) (scope : BitVec 2) :
    State → Host.Outcome State Fault Refusal :=
  gate (.aand h d a la w ord scope) fun x s => doAtom x s 0x65 d a la (decide (w = 1)) true ord scope

/-- AOR (R179). -/
def execAor (h : Hdr) (d a : Code) (la : Look) (w ord : BitVec 1) (scope : BitVec 2) :
    State → Host.Outcome State Fault Refusal :=
  gate (.aor h d a la w ord scope) fun x s => doAtom x s 0x66 d a la (decide (w = 1)) true ord scope

/-- AXOR (R179). -/
def execAxor (h : Hdr) (d a : Code) (la : Look) (w ord : BitVec 1) (scope : BitVec 2) :
    State → Host.Outcome State Fault Refusal :=
  gate (.axor h d a la w ord scope) fun x s => doAtom x s 0x67 d a la (decide (w = 1)) true ord scope

/-- AMIN (R179). -/
def execAmin (h : Hdr) (d a : Code) (la : Look) (w ord : BitVec 1) (scope : BitVec 2) :
    State → Host.Outcome State Fault Refusal :=
  gate (.amin h d a la w ord scope) fun x s => doAtom x s 0x68 d a la (decide (w = 1)) true ord scope

/-- AMAX (R179). -/
def execAmax (h : Hdr) (d a : Code) (la : Look) (w ord : BitVec 1) (scope : BitVec 2) :
    State → Host.Outcome State Fault Refusal :=
  gate (.amax h d a la w ord scope) fun x s => doAtom x s 0x69 d a la (decide (w = 1)) true ord scope

/-- AMINN: its 4-byte result is zero-extended (R179). -/
def execAminn (h : Hdr) (d a : Code) (la : Look) (w ord : BitVec 1) (scope : BitVec 2) :
    State → Host.Outcome State Fault Refusal :=
  gate (.aminn h d a la w ord scope) fun x s => doAtom x s 0x6A d a la (decide (w = 1)) false ord scope

/-- AMAXN (R179). -/
def execAmaxn (h : Hdr) (d a : Code) (la : Look) (w ord : BitVec 1) (scope : BitVec 2) :
    State → Host.Outcome State Fault Refusal :=
  gate (.amaxn h d a la w ord scope) fun x s => doAtom x s 0x6B d a la (decide (w = 1)) false ord scope

/-- AXCH (R179). -/
def execAxch (h : Hdr) (d a : Code) (la : Look) (w ord : BitVec 1) (scope : BitVec 2) :
    State → Host.Outcome State Fault Refusal :=
  gate (.axch h d a la w ord scope) fun x s => doAtom x s 0x6C d a la (decide (w = 1)) true ord scope

/-- ACAS: wD is compared, wD+1 replaces (R179). -/
def execAcas (h : Hdr) (d a : Code) (la : Look) (w ord : BitVec 1) (scope : BitVec 2) :
    State → Host.Outcome State Fault Refusal :=
  gate (.acas h d a la w ord scope) fun x s => doAtom x s 0x6D d a la (decide (w = 1)) true ord scope

/-- AFADD (R179). -/
def execAfadd (h : Hdr) (d a : Code) (la : Look) (ord : BitVec 1) (scope : BitVec 2) :
    State → Host.Outcome State Fault Refusal :=
  gate (.afadd h d a la ord scope) fun x s => doAtom x s 0x6E d a la false false ord scope

/-- AFMIN (R179). -/
def execAfmin (h : Hdr) (d a : Code) (la : Look) (ord : BitVec 1) (scope : BitVec 2) :
    State → Host.Outcome State Fault Refusal :=
  gate (.afmin h d a la ord scope) fun x s => doAtom x s 0x6F d a la false false ord scope

/-- AFMAX (R179). -/
def execAfmax (h : Hdr) (d a : Code) (la : Look) (ord : BitVec 1) (scope : BitVec 2) :
    State → Host.Outcome State Fault Refusal :=
  gate (.afmax h d a la ord scope) fun x s => doAtom x s 0x70 d a la false false ord scope

end Sys2Proof.Machine
end

