-- ==== Sys2Proof/Machine/SyncOps.lean ====
section
/-! DEFINITION. FENCE, barriers, flint instructions and expert counters, opcodes 0x71 to 0x7A
(02 R40 to R47, 12 R192 to R194, 18 R285 to R287, 20 R308 to R315). -/

namespace Sys2Proof.Machine

/-- Wait until earlier accesses of the active lanes are performed, then go on (R194, R203). -/
def whenQuiet (x : Ctx) (s : State) (reads writes : Bool) (k : State → State) : State :=
  if maskBusy x.c x.act reads writes then parkGroup x s (.quiet x.act reads writes) else k s

/-- The stores of a lane that are still to be performed. -/
def ownStores (c : Crew) (l : Nat) : List Req := ((c.ops.filter fun o => decide (o.priv = c.priv)).map (storesOf l)).flatten

/-- The stores of the active lanes still to be performed. -/
def fenceStores (x : Ctx) : List Req := ((lanesOf x.act).map (ownStores x.c)).flatten

/-- Of a release or sequential FENCE only stores stand in the way that may stay in their store buffers: no kind
but SEQ orders a store before a load, and SEQ does so within its scope (R193 to R195; log 4). -/
def mayLeave (x : Ctx) (s : State) (scope kind : Nat) : Bool :=
  !maskBusy x.c x.act (decide (kind ≠ 1)) false &&
  ((lanesOf x.act).all fun l => x.c.ops.all fun o => !opBusy x.c l false true o || storesOnly o l) &&
  (decide (kind ≠ 3) ||
    (lanesOf x.act).all fun l => mayVeil s x.c l scope (ownStores x.c l))

/-- A store of the lanes of a FENCE with release that the fence leaves behind is marked with its scope (R194). -/
def Req.fence (act : Mask) (scope : Nat) (q : Req) : Req :=
  if q.open_ && !q.op.reads && inMask act q.lane then { q with fenced := max q.fenced scope } else q

/-- Mark the stores that a FENCE with release leaves behind. -/
def markFenced (x : Ctx) (scope : Nat) (s : State) : State :=
  modCrew s x.key fun c =>
    { c with ops := c.ops.map fun o =>
        if o.priv = c.priv then { o with reqs := o.reqs.map (Req.fence x.act scope) } else o }

/-- FENCE: 0 waits for earlier reads, 1 for earlier writes, 2 and 3 for both; whether it waits for stores that may
stay in their store buffers is free (R193 to R195; log 4). -/
def execFence (h : Hdr) (scope : BitVec 3) (kind : BitVec 2) :
    State → Host.Outcome State Fault Refusal :=
  gate (.fence h scope kind) fun x s =>
    let waits (s : State) : State := whenQuiet x s (decide (kind ≠ 1)) (decide (kind ≠ 0)) fun s => retire x s
    if maskBusy x.c x.act (decide (kind ≠ 1)) (decide (kind ≠ 0)) && mayLeave x s scope.toNat kind.toNat then
      let s1 := { s with free := s.free + 1 }
      if Config.storeStays s.free then
        let s2 := markFenced x scope.toNat s1
        retire x (if kind = 3 then markVeil s2 x.key [(scope.toNat, fenceStores x)] else s2)
      else waits s1
    else waits s

/-! ## Barriers -/

/-- A thread arrives at a hardware barrier: its new state, and whether the thread is held
(R41, R42). -/
def Bar.arrive (b : Bar) (t : Nat) (waits : Bool) : Bar × Bool :=
  if b.arrived.contains t then ({ b with next := b.next ++ [(t, waits)] }, true)
  else
    ({ b with arrived := b.arrived ++ [t], waiting := if waits then b.waiting ++ [t] else b.waiting },
      waits)

/-- Park threads of the program. -/
def parkLanes (s : State) (key : Nat) (ls : List Nat) (p : Nat → Park) : State :=
  modCrew s key fun c => ls.foldl (fun c l => modProg c l fun t => { t with park := p l }) c

/-- BAR and BAR.ARV (R41, R42, R47, R203). -/
def doBar (x : Ctx) (s : State) (n lvl : Nat) (waits : Bool) : State :=
  whenQuiet x s true true fun s =>
    match mget s.units x.c.uid with
    | none => retire x s
    | some u =>
      let key := barKey lvl n x.c.idx u.cluster
      let r := (lanesOf x.act).foldl (fun (r : Bar × List Nat) l =>
        let (b, held) := r.1.arrive (threadIndex s x.c l) waits
        (b, if held then r.2 ++ [l] else r.2)) (barGet s x.c.uid u.lid lvl key, [])
      let s := parkLanes s x.key r.2 fun _ => .bar lvl n (if lvl < 2 then x.c.uid else u.lid)
      barSettle (barPut (retire x s) x.c.uid u.lid lvl key r.1) x.c.uid u.lid lvl key

/-- BAR (R42). -/
def execBar (h : Hdr) (n : BitVec 4) (lvl : BitVec 2) : State → Host.Outcome State Fault Refusal :=
  gate (.bar h n lvl) fun x s => doBar x s n.toNat lvl.toNat true

/-- BAR.ARV (R42). -/
def execBarArv (h : Hdr) (n : BitVec 4) (lvl : BitVec 2) : State → Host.Outcome State Fault Refusal :=
  gate (.barArv h n lvl) fun x s => doBar x s n.toNat lvl.toNat false

/-- A named barrier that is idle. -/
def NBar.idle : NBar := { count := 0, arrived := [], waiting := [], next := [] }

/-- A thread arrives at a named barrier: its new state, and whether the thread is held (R45). -/
def NBar.arrive (b : NBar) (t pd c : Nat) (waits : Bool) : NBar × Bool :=
  if b.arrived.contains t then ({ b with next := b.next ++ [(t, waits, pd, c)] }, true)
  else
    ({ b with arrived := b.arrived ++ [t]
              waiting := if waits then b.waiting ++ [(t, pd)] else b.waiting }, waits)

/-- NBAR and NBAR.ARV (R44 to R46). -/
def doNbar (x : Ctx) (s : State) (n pd : Nat) (b : Code) (waits : Bool) : State :=
  withSources x s [b.toNat] none fun s v =>
    match mget s.units x.c.uid, launchOf s x.c with
    | some u, some la =>
      let c := bits (v (lowLane x.act) b.toNat).toNat 10 0
      let nb := mgetD u.nbars n NBar.idle
      let again := (lanesOf x.act).any fun l => nb.arrived.contains (threadIndex s x.c l)
      if la.nbar ≤ n then trapAt x s clsProt 0 x.act
      else if (decide (nb.count = 0) || again) && decide (c = 0 ∨ 32 * la.crews < c) then
        trapAt x s clsProt 0 x.act
      else whenQuiet x s true true fun s =>
        let nb := if nb.count = 0 then { nb with count := c } else nb
        let r := (lanesOf x.act).foldl (fun (r : NBar × List Nat) l =>
          let (b, held) := r.1.arrive (threadIndex s x.c l) pd c waits
          (b, if held then r.2 ++ [l] else r.2)) (nb, [])
        let s := parkLanes s x.key r.2 fun _ => .nbar n pd
        let s := modUnit (retire x s) x.c.uid fun u => { u with nbars := mput u.nbars n r.1 }
        nbarSettle s x.c.uid u.lid n
    | _, _ => retire x s

/-- NBAR (R45). -/
def execNbar (h : Hdr) (pd : PCode) (n : BitVec 5) (b : Code) :
    State → Host.Outcome State Fault Refusal :=
  gate (.nbar h pd n b) fun x s => doNbar x s n.toNat pd.toNat b true

/-- NBAR.ARV (R45). -/
def execNbarArv (h : Hdr) (n : BitVec 5) (b : Code) : State → Host.Outcome State Fault Refusal :=
  gate (.nbarArv h n b) fun x s => doNbar x s n.toNat 7 b false

/-! ## Flint instructions -/

/-- A flint instruction with the request of each lane (R308, R309); `before` acts on the group as it
issues. -/
def doFlint (x : Ctx) (s : State) (kind : OpKind) (codes : List Nat) (a : Code)
    (dsts : List (Nat × Nat × Nat)) (op : (Nat → Nat → Word) → Nat → AccOp)
    (before : State → State := id) : State :=
  withSources x s codes none fun s v =>
    let accs := (lanesOf x.act).map fun l =>
      { lane := l, va := v l a.toNat, n := 16, op := op v l : Acc }
    issueOp x (before s) (newOp x s kind (laTrack x.hn) accs dsts)

/-- The generation that a word carries (R309). -/
def genOf (w : Word) : BitVec 16 := BitVec.ofNat 16 w.toNat

/-- The pair of destinations wD and wD+1. -/
def pairDsts (x : Ctx) (d : Code) : List (Nat × Nat × Nat) :=
  dstsOf x d.toNat 0 ++ dstsOf x (d.toNat + 1) 1

/-- FPROP (R310). -/
def execFprop (h : Hdr) (d a : Code) : State → Host.Outcome State Fault Refusal :=
  gate (.fprop h d a) fun x s =>
    doFlint x s .flint [d.toNat, d.toNat + 1, a.toNat] a (pairDsts x d) fun v l =>
      .fprop (v l d.toNat) (genOf (v l (d.toNat + 1)))

/-- FREAD (R311). -/
def execFread (h : Hdr) (d a : Code) : State → Host.Outcome State Fault Refusal :=
  gate (.fread h d a) fun x s =>
    doFlint x s .flint [d.toNat + 1, a.toNat] a (pairDsts x d) fun v l =>
      .fread (genOf (v l (d.toNat + 1)))

/-- The group of an FWAIT waits from its issue until every active lane has its reply (R312). -/
def awaitReply (x : Ctx) (id : Nat) (s : State) : State :=
  modCrew s x.key fun c => modThs c (lanesOf x.grp) fun _ t => { t with park := .reply id }

/-- An FWAIT that is answered or faulted at once lets its group go on. -/
def endReply (x : Ctx) (id : Nat) (s : State) : State :=
  modCrew s x.key fun c =>
    if c.ops.any fun o => decide (o.id = id) && !o.done then c else settleMeet (freeReply id c)

/-- FWAIT (R312). -/
def execFwait (h : Hdr) (d a : Code) : State → Host.Outcome State Fault Refusal :=
  gate (.fwait h d a) fun x s =>
    let op (v : Nat → Nat → Word) (l : Nat) : AccOp := .fwait (genOf (v l (d.toNat + 1)))
    if x.hn.track.isSome then doFlint x s .flint [d.toNat + 1, a.toNat] a (pairDsts x d) op
    else endReply x s.nextId
      (doFlint x s .flint [d.toNat + 1, a.toNat] a (pairDsts x d) op (awaitReply x s.nextId))

/-- FRCY (R313). -/
def execFrcy (h : Hdr) (d a : Code) : State → Host.Outcome State Fault Refusal :=
  gate (.frcy h d a) fun x s =>
    doFlint x s .frcy [d.toNat, a.toNat] a (dstsOf x d.toNat 0) fun v l => .frcy (genOf (v l d.toNat))

/-! ## Expert counters -/

/-- The package counter that a lane names, none outside the job's window (R285). -/
def laneCounter (s : State) (x : Ctx) (v : Word) : Option Nat := xIndex s x.w.job (v.toNat % 2 ^ 16)

/-- An operation that is issued with its fault recorded at once (R74). -/
def issueFailed (x : Ctx) (s : State) (o : Op) (cls : Nat) (bad : Mask) (addr : Word) : State :=
  let s := retire x s
  let s := { s with nextId := s.nextId + 1 }
  modCrew s x.key fun c => { c with ops := c.ops ++ [{ o with flag := x.hn.track }.failAll cls bad addr] }

/-- Add one lane's increment, or buffer it in an ordered launch; false when the buffer overflows
(R287). -/
def countLane (x : Ctx) (s : State) (i inc : Nat) : State × Bool :=
  let ordered := match launchOf s x.c with
    | none => false
    | some l => l.ordered && !x.c.priv
  if ordered then serAppend s x.c.uid (.count i inc x.c.slot) else (xAdd (spend s (stackOf x.c.core) 1) i inc, true)

/-- The active lanes may write places of memory or counters now: what they made before is performed, or stands behind
as stores that no other thread can tell from earlier ones (R187, R188). -/
def mayWrite (x : Ctx) (s : State) (place : Nat → Nat × Nat) : Bool :=
  !maskBusy x.c x.act true false && (lanesOf x.act).all fun l =>
    (x.c.ops.all fun o => !opBusy x.c l false true o || storesOnly o l) &&
    (let qs := ownStores x.c l
     qs = [] || (qs.all (fun q => q.stores && decide (q.fenced ≤ 4)) && quietBytes s x.c l 4 [] [place l]))

/-- XCNT: completes at issue, after the lanes' earlier accesses as far as other threads can see (R186 to R188,
R287). -/
def execXcnt (h : Hdr) (a b : Code) : State → Host.Outcome State Fault Refusal :=
  gate (.xcnt h a b) fun x s =>
    withSources x s (cod2 a b) none fun s v =>
      let bad := maskOf fun l => inMask x.act l && (laneCounter s x (v l a.toNat)).isNone
      let place (l : Nat) : Nat × Nat := (xctrPlace ((laneCounter s x (v l a.toNat)).getD 0), 4)
      if bad ≠ 0 then trapAt x s clsProt 0 bad
      else if isOrdered s x.w.lid && !x.c.priv && appendsOpen x.c then parkGroup x s .appends
      else if !(isOrdered s x.w.lid && !x.c.priv) && !mayWrite x s place then parkGroup x s (.quiet x.act true true)
      else if (lanesOf x.act).any (fun l => veiled s x.w (some l) (place l).1 4) then parkGroup x s .veil
      else
        let r := (lanesOf x.act).foldl (fun (r : State × Mask) l =>
          let (s', ok) := countLane x r.1 ((laneCounter s x (v l a.toNat)).getD 0)
            ((v l b.toNat).toNat % 2 ^ 32)
          (s', if ok then r.2 else r.2 ||| oneLane l))
          ((lanesOf x.act).foldl (fun s l => markAhead s x.key (place l).1 4 (ownStores x.c l)) s, 0)
        if r.2 ≠ 0 then trapAt x s clsProt 0 r.2 else retire x r.1

/-- XRD and XSNAP, to a register or through a port (R286, R287). -/
def doCounter (x : Ctx) (s : State) (d a : Code) (op : Nat → AccOp) : State :=
  withSources x s [a.toNat] (some d.toNat) fun s v =>
    let bad := maskOf fun l => inMask x.act l && (laneCounter s x (v l a.toNat)).isNone
    let accs := (lanesOf x.act).map fun l =>
      { lane := l, va := 0, n := 4, op := op ((laneCounter s x (v l a.toNat)).getD 0) : Acc }
    let o := newOp x s .xcounter (laTrack x.hn) accs
      (if d.toNat < 28 then dstsOf x d.toNat 0 else [])
    if bad ≠ 0 then issueFailed x s o clsProt bad 0
    else if d.toNat < 28 then issueOp x s o
    else
      let p := portOf x.c d.toNat
      let args : Map (Word × Word × Word) :=
        ((lanesOf x.act).filter fun l => portInside p (portCoord p l)).map fun l =>
          (l, portAddr p (portCoord p l), BitVec.ofNat 64 p.size, 0)
      let s := modCrew s x.key fun c => setPort c d.toNat { advancePort p with wr := true }
      issueOp x s { o with args := args }

/-- XRD (R287). -/
def execXrd (h : Hdr) (d a : Code) : State → Host.Outcome State Fault Refusal :=
  gate (.xrd h d a) fun x s => doCounter x s d a .xrd

/-- XSNAP (R287). -/
def execXsnap (h : Hdr) (d a : Code) : State → Host.Outcome State Fault Refusal :=
  gate (.xsnap h d a) fun x s => doCounter x s d a .xsnap

/-- An XRD or XSNAP whose result goes through a port becomes the port's store (R88). -/
def Op.toPort (o : Op) : Op :=
  { o with
    kind := .pstore, reqs := [], args := []
    accs := o.args.map fun p =>
      { lane := p.1, va := p.2.1, n := p.2.2.1.toNat
        op := .write (bytesOf p.2.2.1.toNat (laneResult o p.1 0).toNat) } }

/-- LONG_LATENCY_COMPLETE's work: complete an operation whose accesses are settled (R72). -/
def longComplete (s : State) (key oid : Nat) : State :=
  match mget s.crews key with
  | none => s
  | some c =>
    match opOf c oid with
    | none => s
    | some o =>
      if o.done || !o.settled then s
      else
        match o.kind with
        | .ldsym .. => s
        | .xcounter =>
          if o.args.isEmpty then completeOp s key o
          else resumeOp (putCrew s key (putOp c o.toPort)) key o.toPort
        | _ => completeOp s key o

end Sys2Proof.Machine
end

