-- ==== Sys2Proof/Machine/Streams.lean ====
section
/-! DEFINITION. Layout records, the layout cache, stream-port instructions and landing counters,
opcodes 0x82 to 0x87 (18 R274 to R276, R283, R284). -/

namespace Sys2Proof.Machine

/-! ## Layout records -/

/-- A layout record as its readers take it (R283). -/
structure LayRec where
  /-- Element size in bytes. -/
  size : Nat
  dims : Nat
  base : Word
  pad : Word
  ext : List Nat
  stride : List (BitVec 32)
  deriving DecidableEq, Repr

/-- The five extents of a record's words. -/
def layExts (w : Nat → Nat) : List Nat :=
  [w 2 % 2 ^ 32, w 2 / 2 ^ 32, w 3 % 2 ^ 32, w 3 / 2 ^ 32, w 4 % 2 ^ 32]

/-- The five strides of a record's words. -/
def layStrides (w : Nat → Nat) : List (BitVec 32) :=
  [w 5 % 2 ^ 32, w 5 / 2 ^ 32, w 6 % 2 ^ 32, w 6 / 2 ^ 32, w 7 % 2 ^ 32].map (BitVec.ofNat 32)

/-- The record that eight words stand for; none when they are not valid (R283). -/
def layOf (words : List Word) : Option LayRec :=
  let w (i : Nat) : Nat := (words.getD i 0).toNat
  let elem := bits (w 0) 63 60
  let dims := bits (w 0) 59 57
  let used := (layExts w).take dims
  if 4 < elem ∨ dims = 0 ∨ 5 < dims ∨ used.contains 0 ∨ w 4 / 2 ^ 32 ≠ 0 ∨ w 7 / 2 ^ 32 ≠ 0 then none
  else some
    { size := 2 ^ elem, dims := dims, base := BitVec.ofNat 64 (bits (w 0) 56 0)
      pad := words.getD 1 0
      ext := used ++ List.replicate (5 - dims) 1
      stride := (layStrides w).take dims ++ List.replicate (5 - dims) 0 }

/-- The eight words of a record in a core's layout cache (R284). -/
def layCached (s : State) (core job : Nat) (h : Word) : Option (List Word) :=
  (s.lcache.find? fun e => decide (e.1 = core ∧ e.2.1 = job ∧ e.2.2.1 = h)).map (·.2.2.2)

/-- Put a record into a core's layout cache. -/
def layFill (s : State) (core job : Nat) (h : Word) (ws : List Word) : State :=
  { s with lcache := (core, job, h, ws) :: s.lcache.filter fun e =>
      !decide (e.1 = core ∧ e.2.1 = job ∧ e.2.2.1 = h) }

/-- Read one sector part for an engine; a refreshing bank makes it wait (R166). -/
def engReadPart (w : Who) (va : Word) (n : Nat) : VM (List Byte) :=
  vbind (vxlat w .engRead va) fun (phys, _) s =>
    if refreshing s phys then .wait s phys n else vreadPart w .engRead false va n s

/-- Read bytes for an engine. -/
def engRead (w : Who) (va : Word) (n : Nat) : VM (List Byte) :=
  vfold (fun acc p => vbind (engReadPart w p.1 p.2) fun b => vpure (acc ++ b)) [] (parts va n)

/-- Read a record through the layout cache: the cached words may serve although memory holds others
(R284; log 6). -/
def layRead (w : Who) (k : AccKind) (h : Word) : VM (List Word) := fun s =>
  let m : VM (List Word) :=
    vbind (if k = .engRead then engRead w h 64 else vread w k true h 64) fun b => vpure (bytesWords 8 b)
  match layCached s w.core w.job h with
  | none =>
    match m s with
    | .ok s ws => .ok (layFill s w.core w.job h ws) ws
    | r => r
  | some old =>
    let keeps := Config.layoutKeeps s.free
    let s1 := { s with free := s.free + 1 }
    match m s with
    | .ok s2 ws =>
      if ws = old then .ok s2 ws
      else if keeps then .ok s1 old
      else .ok (layFill { s2 with free := s2.free + 1 } w.core w.job h ws) ws
    | r => if keeps then .ok s1 old else r

/-! ## STRM, STRMS and LAYH (R284) -/

/-- A port bound from a record. -/
def bindPort (h : Word) (r : LayRec) : Port :=
  { handle := h, base := r.base, size := r.size, pad := r.pad, stride := r.stride, ext := r.ext,
    pos := [0, 0, 0, 0, 0], wr := false }

/-- STRM reads its record after its lanes' earlier reads, and after their stores to its bytes (R186, R188). -/
def whenRead (x : Ctx) (s : State) (h : Word) (k : State → State) : State :=
  let own (phys n : Nat) : Bool := (fenceStores x).any fun q => meets q.phys q.n phys n
  let meet := (parts h 64).any fun e => match xlat s x.w .load e.1 with
    | (_, .ok phys _) => own phys e.2
    | _ => false
  whenQuiet x s true false fun s =>
    if (lanesOf x.act).any (loadHeld x.c) || meet then parkGroup x s (.quiet x.act true true) else k s

/-- STRM (R284). -/
def execStrm (h : Hdr) (q : BitVec 2) (a : Code) : State → Host.Outcome State Fault Refusal :=
  gate (.strm h q a) fun x s =>
    withSources x s [a.toNat] none fun s v =>
      let l := lowLane x.act
      let hd := v l a.toNat
      let code := 28 + q.toNat
      if hd = 0 then retire x (modCrew s x.key fun c => setPort c code Port.unbound)
      else if hd.toNat % 64 ≠ 0 then trapAt x s clsProt hd x.act
      else whenRead x s hd fun s =>
        vrun x s x.act (layRead { x.w with lanes := oneLane l } .load hd) fun s ws =>
          match layOf ws with
          | none => trapAt x s clsProt hd x.act
          | some r =>
            if r.size = 16 then trapAt x s clsProt hd x.act
            else retire x (modCrew s x.key fun c => setPort c code (bindPort hd r))

/-- Carry positions upward from dimension `d` (R64, R284). -/
def carryFrom : Nat → List Nat → List Nat → List Nat
  | 0, pos, ext => carryPos pos ext
  | d + 1, p :: ps, _ :: es => p :: carryFrom d ps es
  | _, pos, _ => pos

/-- STRMS; positions keep 32 bits (R63, R284; log 65). -/
def execStrms (h : Hdr) (q : BitVec 2) (a : Code) (dim : BitVec 3) :
    State → Host.Outcome State Fault Refusal :=
  gate (.strms h q a dim) fun x s =>
    withSources x s [a.toNat] none fun s v =>
      let p := portOf x.c (28 + q.toNat)
      if p.handle = 0 then trapAt x s clsProt 0 x.act
      else
        let n := (v (lowLane x.act) a.toNat).toNat % 2 ^ 32
        let pos := (carryFrom dim.toNat (p.pos.set dim.toNat n) p.ext).map (· % 2 ^ 32)
        retire x (modCrew s x.key fun c => setPort c (28 + q.toNat) { p with pos := pos })

/-- STRMS.RD, to a register or through a port (R284). -/
def execStrmsRd (h : Hdr) (d : Code) (q : BitVec 2) (dim : BitVec 3) :
    State → Host.Outcome State Fault Refusal :=
  gate (.strmsRd h d q dim) fun x s =>
    withSources x s [] (some d.toNat) fun s _ =>
      let p := portOf x.c (28 + q.toNat)
      if p.handle = 0 then trapAt x s clsProt 0 x.act
      else finish x s 0 d.toNat fun _ => .known (BitVec.ofNat 64 (p.pos.getD dim.toNat 0 % 2 ^ 32))

/-- LAYH drops entries of the core's layout cache (R284). -/
def execLayh (h : Hdr) (a : Code) : State → Host.Outcome State Fault Refusal :=
  gate (.layh h a) fun x s =>
    withSources x s [a.toNat] none fun s v =>
      let hs := (lanesOf x.act).map fun l => v l a.toNat
      retire x { s with lcache := s.lcache.filter fun e =>
        !(decide (e.1 = x.c.core) && decide (e.2.1 = x.w.job) && hs.contains e.2.2.1) }

/-- LAYH.ALL drops every entry of the core's layout cache (R284). -/
def execLayhAll (h : Hdr) : State → Host.Outcome State Fault Refusal :=
  gate (.layhAll h) fun x s =>
    retire x { s with lcache := s.lcache.filter fun e => decide (e.1 ≠ x.c.core) }

/-! ## Landing counters (R274 to R276) -/

/-- A counter that is free, with its state zeroed. -/
def LCtr.zero (owner : Nat) : LCtr :=
  { owner := owner, err := false, expect := 0, landed := 0, cst := 0, dropped := 0, skipped := 0,
    ecmd := 0, eaddr := 0, ebytes := 0 }

/-- Key of counter `n` of a core. -/
def lcKey (core n : Nat) : Nat := core * 64 + n

/-- The counters that the active lanes name, each with the lowest lane that names it. -/
def lcNames (x : Ctx) (v : Nat → Word) : List (Nat × Nat) :=
  (lanesOf x.act).foldl (fun (acc : List (Nat × Nat)) l =>
    let n := (v l).toNat % 64
    if acc.any fun p => decide (p.1 = n) then acc else acc ++ [(n, l)]) []

/-- The unit owns the counter. -/
def lcOwned (s : State) (core uid n : Nat) : Bool :=
  match mget s.lctrs (lcKey core n) with
  | none => false
  | some c => decide (c.owner = uid)

/-- Another unit owns the counter: one on the core, or a swapped one in whose image it stands (R274, R276). -/
def lcForeign (s : State) (core uid n : Nat) : Bool :=
  (mget s.lctrs (lcKey core n)).any (fun c => decide (c.owner ≠ uid)) ||
  s.units.any fun p => decide (p.1 ≠ uid ∧ p.2.core = core ∧ p.2.res = .swapped) && !p.2.isOver &&
    (mget p.2.lcs n).isSome

/-- The counter number that a lane names. -/
def lcNum (v : Word) : Nat := v.toNat % 64

/-- LCSET and LCSET.Z (R276). -/
def doLcset (x : Ctx) (s : State) (pd : PCode) (a b : Code) (zero : Bool) : State :=
  withSources x s [a.toNat, b.toNat] none fun s v =>
    let core := x.c.core
    let uid := x.c.uid
    let ok (l : Nat) : Bool := !lcForeign s core uid (lcNum (v l a.toNat))
    let set (s : State) (p : Nat × Nat) : State :=
      if lcForeign s core uid p.1 then s
      else
        let old := mgetD s.lctrs (lcKey core p.1) (LCtr.zero uid)
        let c := if zero then LCtr.zero uid else { old with owner := uid }
        let c := { c with expect := (v p.2 b.toNat).toNat % 2 ^ 31 }
        { s with lctrs := mput s.lctrs (lcKey core p.1) c }
    let s1 := (lcNames x fun l => v l a.toNat).foldl set s
    retire x (writePred x s1 0 pd.toNat ok)

/-- LCSET (R276). -/
def execLcset (h : Hdr) (pd : PCode) (a b : Code) : State → Host.Outcome State Fault Refusal :=
  gate (.lcset h pd a b) fun x s => doLcset x s pd a b false

/-- LCSET.Z (R276). -/
def execLcsetZ (h : Hdr) (pd : PCode) (a b : Code) : State → Host.Outcome State Fault Refusal :=
  gate (.lcsetZ h pd a b) fun x s => doLcset x s pd a b true

/-- LCSET.FREE (R276). -/
def execLcsetFree (h : Hdr) (pd : PCode) (a : Code) : State → Host.Outcome State Fault Refusal :=
  gate (.lcsetFree h pd a) fun x s =>
    withSources x s [a.toNat] none fun s v =>
      let core := x.c.core
      let uid := x.c.uid
      let ok (l : Nat) : Bool := !lcForeign s core uid (lcNum (v l a.toNat))
      let s1 := (lcNames x fun l => v l a.toNat).foldl (fun (s : State) p =>
        if lcForeign s core uid p.1 then s else { s with lctrs := mdel s.lctrs (lcKey core p.1) }) s
      retire x (writePred x s1 0 pd.toNat ok)

/-- Every counter of a list has reached its expected total or holds an error (R276). -/
def lcReached (s : State) (core : Nat) (ns : List Nat) : Bool :=
  ns.all fun n =>
    match mget s.lctrs (lcKey core n) with
    | none => true
    | some c => c.err || decide (c.expect ≤ c.landed)

/-- LCWAIT's error: PROTECTION with the counter's error record (R276). -/
def lcTrap (x : Ctx) (s : State) (bad : Mask) (c : LCtr) : State :=
  takeTrap s x.key { mkTrap clsProt x.start x.next c.eaddr bad x.act with
    resume := x.start, cmd := c.ecmd, bytes := c.ebytes }

/-- LCWAIT.C takes the expected total away. -/
def lcConsume (core : Nat) (m : Map LCtr) (n : Nat) : Map LCtr :=
  mmod m (lcKey core n) fun c => { c with landed := c.landed - c.expect }

/-- LCWAIT and LCWAIT.C (R276). -/
def execLcwait (h : Hdr) (a : Code) (c : BitVec 1) : State → Host.Outcome State Fault Refusal :=
  gate (.lcwait h a c) fun x s =>
    withSources x s [a.toNat] none fun s v =>
      let core := x.c.core
      let num (l : Nat) : Nat := lcNum (v l a.toNat)
      let bad := maskOf fun l => inMask x.act l && !lcOwned s core x.c.uid (num l)
      let ns := (lcNames x fun l => v l a.toNat).map (·.1)
      if bad ≠ 0 then trapAt x s clsProt 0 bad
      else if !lcReached s core ns then parkGroup x s (.lcwait ns)
      else
        let err := maskOf fun l => inMask x.act l &&
          (mgetD s.lctrs (lcKey core (num l)) (LCtr.zero 0)).err
        if err ≠ 0 then
          lcTrap x s err (mgetD s.lctrs (lcKey core (num (lowLane err))) (LCtr.zero 0))
        else if c = 1 then
          retire x { s with lctrs := ns.foldl (lcConsume core) s.lctrs }
        else retire x s

/-- The words that LCRD and LCRD.S return (R274). -/
def LCtr.word (c : LCtr) (second : Bool) : Word :=
  if second then BitVec.ofNat 64 (c.cst * 2 ^ 62 + c.dropped * 2 ^ 24 + c.skipped)
  else BitVec.ofNat 64 ((if c.err then 2 ^ 63 else 0) + c.expect * 2 ^ 32 + c.landed)

/-- LCRD and LCRD.S, to a register or through a port; another unit's counter reads as 0 (R276). -/
def execLcrd (h : Hdr) (d a : Code) (sec : BitVec 1) : State → Host.Outcome State Fault Refusal :=
  gate (.lcrd h d a sec) fun x s =>
    withSources x s [a.toNat] (some d.toNat) fun s v =>
      finish x s 0 d.toNat fun l =>
        let n := lcNum (v l a.toNat)
        if lcForeign s x.c.core x.c.uid n then .known 0
        else .known ((mgetD s.lctrs (lcKey x.c.core n) (LCtr.zero 0)).word (decide (sec = 1)))

end Sys2Proof.Machine
end

