-- ==== Sys2Proof/Machine/Engines.lean ====
section
/-! DEFINITION. Engine commands: taking them, PUSH and KICK, and the copy engine's work
(12 R197, R202, 18 R266 to R273, R275, R277 to R282, R290). -/

namespace Sys2Proof.Machine

/-! ## Fields of a command (R271, R272) -/

/-- Word `i` of a command. -/
def Cmd.w (c : Cmd) (i : Nat) : Nat := (c.words.getD i 0).toNat

/-- KIND. -/
def Cmd.kind (c : Cmd) : Nat := bits (c.w 0) 63 59
/-- LC. -/
def Cmd.lc (c : Cmd) : Nat := bits (c.w 0) 58 53
/-- CNT: it counts rows. -/
def Cmd.rows (c : Cmd) : Bool := bitAt (c.w 0) 52
/-- DL. -/
def Cmd.dl (c : Cmd) : Bool := bitAt (c.w 0) 49
/-- PROP. -/
def Cmd.prop (c : Cmd) : Bool := bitAt (c.w 0) 48
/-- ESZ code. -/
def Cmd.code (c : Cmd) : Nat := bits (c.w 0) 47 45
/-- Element size in bytes; none of the reserved codes has one. -/
def Cmd.esz (c : Cmd) : Nat := if c.code ≤ 4 then 2 ^ c.code else 0
/-- COP. -/
def Cmd.cop (c : Cmd) : Nat := bits (c.w 0) 44 40
/-- COUNT. -/
def Cmd.count (c : Cmd) : Nat := c.w 0 % 2 ^ 32
/-- The kind counts rows (R271). -/
def Cmd.rowKind (c : Cmd) : Bool := [1, 2, 4, 5].contains c.kind
/-- The command id (R272). -/
def Cmd.id (c : Cmd) : Nat := c.core % 256 * 2 ^ 42 + c.seq % 2 ^ 42
/-- The kind of the COLL queue. -/
def Cmd.isColl (c : Cmd) : Bool := decide (8 ≤ c.kind ∧ c.kind ≤ 12)

/-- The job of a launch. -/
def jobOf (s : State) (lid : Nat) : Nat :=
  match mget s.launches lid with
  | none => 0
  | some l => l.job

/-- Who makes an engine's accesses (R273, R341). -/
def cmdWho (s : State) (c : Cmd) (serial : Bool) : Who :=
  { job := jobOf s c.lid, core := c.core, uid := c.uid, lid := c.lid, slot := c.slot, lanes := 0,
    priv := false, cmd := c.id, host := false, serial := serial }

/-- Reserved or inconsistent fields, or an address of the wrong alignment, of a kind of the COPY queue
(R271 to R273, R277 to R281). -/
def copyBad (s : State) (c : Cmd) : Bool :=
  let size := c.esz
  let w := c.w
  let base := decide (5 < c.kind ∨ 4 < c.code ∨ c.cop ≠ 0 ∨ bits (w 0) 39 32 ≠ 0) ||
    (c.dl && !c.prop) || (c.rows && !c.rowKind)
  let tail := if c.prop then decide (bits (w 5) 47 32 ≠ 0) else decide (w 5 ≠ 0 ∨ w 6 ≠ 0 ∨ w 7 ≠ 0)
  if base then true
  else match c.kind with
    | 0 => tail || decide (w 3 ≠ 0 ∨ (w 4 = 0 ∧ w 1 % size ≠ 0) ∨ w 2 % size ≠ 0)
    | 1 => tail || decide (w 1 / 2 ^ 33 ≠ 0 ∨ w 2 % size ≠ 0 ∨ w 3 % 4 ≠ 0 ∨ w 4 = 0)
    | 2 => tail || decide (w 2 / 2 ^ 33 ≠ 0 ∨ w 1 % size ≠ 0 ∨ w 3 % 4 ≠ 0 ∨ w 4 = 0)
    | 3 =>
      let u := match mget s.launches c.lid with
        | none => 0
        | some l => l.unitsPer
      tail || decide (w 1 % size ≠ 0 ∨ w 2 % size ≠ 0 ∨ w 3 = 0 ∨ 2 ^ u ≤ w 3 ∨ w 4 ≠ 0)
    | 4 => tail || decide (w 1 % size ≠ 0 ∨ w 2 % size ≠ 0 ∨ w 3 ≠ 0 ∨ w 4 = 0 ∨ 64 < w 4)
    | _ =>
      let e := bits (w 4) 47 32
      let xlim := bits (ctxW s (jobOf s c.lid) 6).toNat 32 16
      c.prop || decide (w 7 ≠ 0 ∨ w 4 / 2 ^ 48 ≠ 0 ∨ e = 0 ∨ 4096 < e ∨ w 6 / 2 ^ 17 ≠ 0 ∨
        w 1 % size ≠ 0 ∨ w 2 % size ≠ 0 ∨ w 3 % 4 ≠ 0 ∨ w 5 % 4 ≠ 0 ∨
        (bitAt (w 6) 16 = true ∧ xlim < w 6 % 2 ^ 16 + e))

/-- The size that a reduction allows (R289). -/
def copOk (cop code : Nat) : Bool :=
  if cop ≤ 4 then decide (code ≤ 3)
  else if cop = 5 ∨ cop = 8 then decide (code = 2)
  else if cop = 6 ∨ cop = 7 then decide (code = 1)
  else false

/-- P of a collective. -/
def Cmd.collP (c : Cmd) : Nat := c.w 3 % 2 ^ 16
/-- Its rank. -/
def Cmd.rank (c : Cmd) : Nat := bits (c.w 3) 31 16
/-- Its root. -/
def Cmd.root (c : Cmd) : Nat := bits (c.w 3) 47 32
/-- NL; 0 is read as 1 (R288). -/
def Cmd.nl (c : Cmd) : Nat := max 1 (c.w 5 % 2 ^ 16)

/-- The kind reduces, so that COP names a reduction. -/
def Cmd.reduces (c : Cmd) : Bool := decide (c.kind = 8 ∨ c.kind = 9 ∨ c.kind = 12)

/-- Reserved or inconsistent fields of a COLL command (R271 to R273, R289). -/
def collBad (c : Cmd) : Bool :=
  let w := c.w
  !c.isColl || decide (4 < c.code ∨ bits (w 0) 39 32 ≠ 0 ∨ w 3 / 2 ^ 48 ≠ 0 ∨ w 5 / 2 ^ 16 ≠ 0 ∨
    w 6 ≠ 0 ∨ w 7 ≠ 0) || c.prop || c.dl || c.rows ||
  (if c.reduces then !copOk c.cop c.code else decide (c.cop ≠ 0)) ||
  (decide (c.code ≤ 4) && decide (w 1 % c.esz ≠ 0 ∨ w 2 % c.esz ≠ 0))

/-- The command is wrong in itself: bad fields, or a kind that its queue does not accept (R266, R273). -/
def cmdBad (s : State) (c : Cmd) : Bool := if c.queue = 1 then collBad c else copyBad s c

/-! ## Destination and total (R272, R275) -/

/-- Bytes of a row, or of an element for the kinds without rows. -/
def Cmd.rowBytes (c : Cmd) (r : Option LayRec) : Nat :=
  match c.kind with
  | 1 | 2 => (r.map fun r => r.ext.getD 0 1 * c.esz).getD 0
  | 4 => c.w 4 % 128 * c.esz
  | 5 => c.w 4 % 2 ^ 32 * c.esz
  | _ => c.esz

/-- The total of R275. -/
def Cmd.totalOf (c : Cmd) (r : Option LayRec) : Nat :=
  if c.rows && c.rowKind then c.count else c.count * c.rowBytes r

/-- Address of element `j` of table row `i` (R278). -/
def rowAddr (r : LayRec) (i j : Nat) : Word :=
  portAddr (bindPort 1 r) [j, i, 0, 0, 0]

/-- Runs of a table row as (offset in the packed row, address, bytes). -/
def rowRuns (r : LayRec) (i : Nat) : List (Nat × Word × Nat) :=
  let e := r.ext.getD 0 1
  if r.stride.getD 0 0 = 1 then [(0, rowAddr r i 0, e * r.size)]
  else (upTo e).map fun j => (j * r.size, rowAddr r i j, r.size)

/-- The runs of a whole table, rows ascending; one run when the rows follow each other. -/
def tableRuns (r : LayRec) : List (Word × Nat) :=
  let e := r.ext.getD 0 1
  if r.stride.getD 0 0 = 1 ∧ (r.stride.getD 1 0).toNat = e then [(rowAddr r 0 0, e * r.ext.getD 1 1 * r.size)]
  else ((upTo (r.ext.getD 1 1)).map fun i => (rowRuns r i).map (·.2)).flatten

/-- First addresses and lengths of the runs of the destination range, none for a table whose record is not read yet;
a multicast's stands in each share (R272). -/
def Cmd.ranges (c : Cmd) (r : Option LayRec) : List (Word × Nat) :=
  match c.kind with
  | 2 => (r.map tableRuns).getD []
  | 11 => [(c.words.getD 2 0, c.collP * c.count * c.esz)]
  | _ => [(c.words.getD 2 0, c.count * c.rowBytes r)]

/-- Pieces of a range that lie in one 64 KiB page each. -/
def pageChunks (va : Word) (n : Nat) : List (Word × Nat) :=
  if n = 0 then []
  else
    let first := va.toNat / 2 ^ 16
    let last := (va.toNat + n - 1) / 2 ^ 16
    (upTo (last - first + 1)).map fun i =>
      let a := max va.toNat ((first + i) * 2 ^ 16)
      let e := min (va.toNat + n) ((first + i + 1) * 2 ^ 16)
      (BitVec.ofNat 64 a, e - a)

/-- Add a line or block to a command's list. -/
def addPres (l : List Pres) (uid : Nat) (blk : Bool) (idx : Nat) (va : Word) : List Pres :=
  if l.any fun p => decide (p.uid = uid ∧ p.blk = blk ∧ p.idx = idx) then
    l.map fun p => if p.uid = uid ∧ p.blk = blk ∧ p.idx = idx then { p with vas := p.vas ++ [va] } else p
  else l ++ [{ uid := uid, blk := blk, idx := idx, vas := [va] }]

/-- The lines or blocks that a chunk of the destination range spans (R162, R164, R272). -/
def presChunk (w : Who) (x : State × List Pres) (p : Word × Nat) : State × List Pres :=
  match xlat x.1 w .engWrite p.1 with
  | (s, .ok phys _) =>
    match presPlace phys with
    | none => (s, x.2)
    | some (uid, blk, idx) =>
      let size := if blk then 4096 else 128
      (s, (upTo ((phys + p.2 - 1) / size - phys / size + 1)).foldl (fun l i =>
        addPres l uid blk (idx + i) (BitVec.ofNat 64 (p.1.toNat / size * size + size * i))) x.2)
  | (s, _) => (s, x.2)

/-- The receivers of a multicast: units of the mask that are admitted and go on (R279). -/
def castUnits (s : State) (c : Cmd) : List (Nat × Nat) :=
  ((upTo 8).filter fun i => bitAt (c.w 3) i).filterMap fun i =>
    (clusterUnit s c.uid i).map fun p => (i, p.1)

/-- Every line or block that the command makes ABSENT when it is taken (R272). -/
def presOf (s : State) (w : Who) (c : Cmd) (r : Option LayRec) : State × List Pres :=
  if c.kind = 3 then
    let n := c.count * c.esz
    let off := c.w 2
    if n = 0 then (s, [])
    else (s, (castUnits s c).foldl (fun l u =>
      (upTo ((off + n - 1) / 128 - off / 128 + 1)).foldl (fun l i =>
        addPres l u.2 false (off / 128 + i) 0) l) [])
  else
    (c.ranges r).foldl (fun x p => (pageChunks p.1 p.2).foldl (presChunk w) x) (s, [])

/-- The pending count of a line or block. -/
def presCount (s : State) (p : Pres) : Nat := pendCount s p.uid p.blk p.idx

/-- Raise the pending count of a line or block (R162). -/
def Pres.raise (s : State) (p : Pres) : State :=
  if p.uid = 0 then { s with rawPend := mput s.rawPend p.idx (mgetD s.rawPend p.idx 0 + 1) }
  else modUnit s p.uid fun u =>
    if p.blk then { u with blocks := mput u.blocks p.idx (mgetD u.blocks p.idx 0 + 1) }
    else { u with lines := mput u.lines p.idx (mgetD u.lines p.idx 0 + 1) }

/-- Some line of a range is shared in the command's ordered launch; on a page that faults the ownership table alone
says so (R290, R330). -/
def rangeShared (s : State) (w : Who) (va : Word) (n : Nat) : Bool :=
  n != 0 && (upTo ((va.toNat + n - 1) / 256 - va.toNat / 256 + 1)).any fun i =>
    let a := (va.toNat / 256 + i) * 256
    match xlat s w .engWrite (BitVec.ofNat 64 (max a va.toNat)) with
    | (_, .ok _ ty) => decide (sharing s w a ty = .shared)
    | (_, .page _ _) => decide (sharing s w a 2 = .shared)
    | _ => false

/-- The unit that receives what goes to an address: the holder of the scratchpad or B-slice byte, else
the pusher; 0 for a scratchpad byte that no unit holds, and none while the page faults (R275). -/
def holderOf (s : State) (w : Who) (va : Word) : Option Nat :=
  match xlat s w .engWrite va with
  | (_, .ok phys ty) =>
    match heldPart phys with
    | some (uid, _, _) => some uid
    | none => some (if ty = 7 ∨ ty = 8 then 0 else w.uid)
  | (_, .page _ _) => none
  | _ => some w.uid

/-- The receiving units of a command; none while a page fault hides them or a table's record is not read (R275,
R279). -/
def recvOf (s : State) (w : Who) (c : Cmd) (r : Option LayRec) : List Nat :=
  if c.kind = 3 then (castUnits s c).map (·.2)
  else if 12 < c.kind ∨ c.kind = 6 ∨ c.kind = 7 then [c.uid]
  else match c.ranges r with
    | [] => []
    | p :: _ => ((holderOf s w p.1).map fun u => [u]).getD []

/-! ## Counting (R275) -/

/-- Change landing counter LC of a unit, if the unit owns it. -/
def atCounter (s : State) (uid n : Nat) (f : LCtr → LCtr) : State :=
  match mget s.units uid with
  | none => s
  | some u =>
    if u.res = .swapped then modUnit s uid fun u => { u with lcs := mmod u.lcs n f }
    else match mget s.lctrs (lcKey u.core n) with
      | none => s
      | some c =>
        if c.owner = uid then { s with lctrs := mput s.lctrs (lcKey u.core n) (f c) } else s

/-- LANDED saturates (R274). -/
def LCtr.land (n : Nat) (c : LCtr) : LCtr := { c with landed := min (c.landed + n) 0xFFFFFFFF }

/-- Add to LANDED of a receiving unit. -/
def countLanded (s : State) (uid lc n : Nat) : State := atCounter s uid lc (LCtr.land n)

/-! ## Taking a command (R269, R272, R290) -/

/-- Commands that stand in a core's queue (R266). -/
def queueLen (s : State) (core queue : Nat) : Nat :=
  (s.cmds.filter fun c => decide (c.core = core ∧ c.queue = queue) && !c.deferred).length

/-- Why a command's layout record cannot be read when the command is to be taken: a page fault, with what the walk
found, or a refreshing bank (R157, R166). -/
inductive RecWait where
  | page (w : Who) (k : AccKind) (va : Word) (ty level : Nat)
  | lines (phys n : Nat)

/-- The layout record that a command names, read when the command is taken, since its destination range rests on it
(R272); none for a command without one or a record that cannot be read. -/
def takeRec (s : State) (w : Who) (c : Cmd) : State × Option LayRec × Option RecWait :=
  if c.kind = 1 ∨ c.kind = 2 then
    match layRead w .engRead (c.words.getD 4 0) s with
    | .ok s ws => (s, layOf ws, none)
    | .page _ w k va ty lv => (s, none, some (.page w k va ty lv))
    | .wait _ phys n => (s, none, some (.lines phys n))
    | .err .. => (s, none, none)
  else (s, none, none)

/-- The destination range includes a shared line. -/
def destShared (s : State) (w : Who) (c : Cmd) (r : Option LayRec) : Bool :=
  (c.ranges r).any fun p => rangeShared s w p.1 p.2

/-- An ordered launch bars the command: a multicast that names another unit, or a collective whose destination
includes a shared line (R334). -/
def orderedBars (s : State) (w : Who) (c : Cmd) (r : Option LayRec) : Bool :=
  isOrdered s c.lid &&
    (decide (c.kind = 3) && (upTo 8).any (fun i => bitAt (c.w 3) i &&
        ((mget s.units c.uid).elim true fun u => decide (u.u ≠ i))) ||
     c.isColl && destShared s w c r)

/-- How taking a command ends. -/
inductive Taken where
  | ok (s : State)
  /-- The queue is full, or a pending count would pass 255. -/
  | full
  /-- The serial buffer would overflow (R332). -/
  | isOver
  /-- Its layout record cannot be read yet. -/
  | later (why : RecWait)

/-- Where a command comes from. -/
structure From where
  core : Nat
  uid : Nat
  lid : Nat
  slot : Nat
  lane : Nat
  crew : Nat
  pseq : Nat
  rel : Bool

/-- A command as it is taken. -/
def newCmd (s : State) (f : From) (queue : Nat) (words : List Word) : Cmd :=
  { words := words, queue := queue, core := f.core, seq := mgetD s.cmdSeq f.core 0, uid := f.uid,
    lid := f.lid, slot := f.slot, lane := f.lane, crew := f.crew, pseq := f.pseq, taken := s.cycle,
    rel := f.rel || bitAt (words.getD 0 0).toNat 51, pres := [], recv := [], total := 0,
    started := false, todo := [], land := [], landed := 0, counted := [], skipped := 0,
    dropped := 0, err := none, logged := false, late := false, proposed := false,
    deferred := false, hasRead := false, pages := [], joined := false, cst := 0, adds := [] }

/-- Use up a command sequence number of a core (R272). -/
def bumpSeq (s : State) (core : Nat) : State :=
  { s with cmdSeq := mput s.cmdSeq core (mgetD s.cmdSeq core 0 + 1) }

/-- Take a command with an error at an address (R273). -/
def takeBad (s : State) (w : Who) (c : Cmd) (r : Option LayRec) (addr : Word) : State :=
  bumpSeq { s with cmds := s.cmds ++ [{ c with err := some addr, total := c.totalOf r, recv := recvOf s w c r }] } c.core

/-- A command is about to make a proposal in an ordered launch to a cell that can be reached: the proposal's place in
the serial buffer (R315, R332, R335). -/
def Cmd.propPlace (s : State) (c : Cmd) : Option SerEntry :=
  if isOrdered s c.lid && c.prop && !c.isColl then
    some (.cprop c.core c.seq (c.words.getD 6 0) (BitVec.ofNat 16 (bits (c.w 5) 63 48)))
  else none

/-- Append an entry, if there is one; none when the buffer would overflow. -/
def serPut (s : State) (uid : Nat) (e : Option SerEntry) : Option State :=
  match e with
  | none => some s
  | some e =>
    match serAppend s uid e with
    | (s, true) => some s
    | (_, false) => none

/-- Take a command into the COPY or COLL queue; `hit` says that the runtime has rejected the page of an address (R266,
R269, R272, R290, R339). -/
def takeCmd (s : State) (f : From) (hit : Word → Bool) (queue : Nat) (words : List Word) : Taken :=
  let c := newCmd s f queue words
  let w := cmdWho s c false
  if (if queue = 1 then 16 else 64) ≤ queueLen s f.core queue then .full
  else
  match takeRec s w c with
  | (s1, r, why) =>
  if cmdBad s c then .ok (takeBad s1 w c r (words.getD 1 0))
  else match why with
  | some (.page w' k va ty lv) => if hit va then .ok (takeBad s1 w c r va) else .later (.page w' k va ty lv)
  | some (.lines phys n) => .later (.lines phys n)
  | none =>
    let c := { c with total := c.totalOf r, recv := recvOf s1 w c r }
    if orderedBars s1 w c r then
      .ok (bumpSeq { s1 with cmds := s1.cmds ++ [{ c with err := some (words.getD 2 0) }] } f.core)
    else if isOrdered s f.lid && decide (queue = 0 ∧ c.kind ≠ 3) && destShared s1 w c r then
      match serAppend s1 f.uid (.cmd c.core c.seq) with
      | (_, false) => .isOver
      | (s2, true) =>
        let us := if c.recv = [] then [f.uid] else c.recv
        let s3 := us.foldl (fun s u => countLanded s u c.lc c.total) s2
        .ok (bumpSeq { s3 with cmds := s3.cmds ++ [{ c with deferred := true }] } f.core)
    else
      let (s2, ps) := presOf s1 w c r
      if ps.any (fun p => decide (255 ≤ presCount s2 p)) then .full
      else match serPut s2 f.uid (c.propPlace s2) with
        | none => .isOver
        | some s2 =>
          let s3 := ps.foldl Pres.raise s2
          .ok (bumpSeq { s3 with cmds := s3.cmds ++ [{ c with pres := ps }] } f.core)

/-- A GRAPH command as it is taken, with its kind; kind 255 stands for bad fields (R328). -/
def graphFields (s : State) (f : From) (words : List Word) : Nat × GraphCmd :=
  let w0 := (words.getD 0 0).toNat
  let bad := decide (bits w0 55 16 ≠ 0 ∨ 4 < w0 / 2 ^ 56) || (words.drop 2).any fun x => decide (x ≠ 0)
  (if bad then 255 else w0 / 2 ^ 56,
    { job := jobOf s f.lid, stack := stackOf f.core, addr := words.getD 1 0, task := w0 % 2 ^ 16,
      queued := true, core := f.core, slot := f.slot, lane := f.lane
      id := f.core % 256 * 2 ^ 42 + mgetD s.cmdSeq f.core 0 % 2 ^ 42
      uid := f.uid })

/-- The requester of a GRAPH command, for the violation log: the lane that pushed it, or who stored to the control
window (R341, R353). -/
def graphWho (c : GraphCmd) : Who :=
  if c.queued then
    { job := c.job, core := c.core, uid := 0, lid := 0, slot := c.slot
      lanes := oneLane c.lane, priv := false, cmd := c.id, host := false }
  else reqWho c.job c.req

/-- A GRAPH command ends with an error (R328). -/
def graphError (s : State) (c : GraphCmd) (addr : Word) : State :=
  vlogAdd s (if c.queued then c.stack * 16 else slice0 (graphWho c)) 6 addr (graphWho c)

/-- Take one command into a queue. -/
def takeInto (s : State) (f : From) (hit : Word → Bool) (queue : Nat) (words : List Word) : Taken :=
  match queue with
  | 2 =>
    let g := graphFields s f words
    if 32 ≤ (s.graphQ.filter fun q => decide (q.2.stack = g.2.stack)).length then .full
    else if g.1 = 255 then .ok (bumpSeq (graphError s g.2 g.2.addr) f.core)
    else .ok (bumpSeq { s with graphQ := s.graphQ ++ [g] } f.core)
  | 3 =>
    let job := jobOf s f.lid
    if 256 ≤ (s.hostQ.filter fun q => decide (q.1 = job)).length then .full
    else .ok (bumpSeq { s with hostQ := s.hostQ ++ [(job, words, f.uid)] } f.core)
  | _ => takeCmd s f hit queue words

/-! ## PUSH and KICK -/

/-- A release ordering code (R189). -/
def semRel (sem : Nat) : Bool := decide (2 ≤ sem)

/-- Why a PUSH does not complete now: a lane's command overflows the serial buffer (R332), or its layout record cannot
be read yet (R272). -/
inductive PushStop where
  | isOver (lane : Nat)
  | later (why : RecWait)

/-- Take the lanes' commands in order; the lanes from the first refused one on come back, or why the PUSH stops. -/
def pushLanes (x : Ctx) (queue : Nat) (cmd : Nat → List Word) :
    List Nat → State → State × List Nat × Option PushStop
  | [], s => (s, [], none)
  | l :: t, s =>
    let f : From :=
      { core := x.c.core, uid := x.c.uid, lid := x.w.lid, slot := x.c.slot, lane := l,
        crew := x.key, pseq := x.seq, rel := semRel x.hn.sem }
    match takeInto s f (rejHit s x.c) queue (cmd l) with
    | .ok s => pushLanes x queue cmd t s
    | .full => (s, l :: t, none)
    | .isOver => (s, [], some (.isOver l))
    | .later why => (s, [], some (.later why))

/-- A PUSH waits until a lane's layout record can be read, and has no effect before; a page that faults is entered as
the command's (R157, R158, R166, R272). -/
def pushWaits (x : Ctx) (s : State) : RecWait → State
  | .page w k va ty lv =>
    let (s, id) := faultEnter s w k va ty lv
    parkPages x s [id]
  | .lines phys n => parkGroup x s (.lines phys n)

/-- Bytes of a unit's serial buffer (R332). -/
def serialUsed (s : State) (uid : Nat) : Nat :=
  match mget s.units uid with
  | none => 0
  | some u => u.serialBytes

/-- PUSH (R269); what enters the serial buffer does so after the crew's earlier operations (R332). -/
def execPush (h : Hdr) (pd : PCode) (a : Code) (queue : BitVec 2) :
    State → Host.Outcome State Fault Refusal :=
  gate (.push h pd a queue) fun x s =>
    let regs := (upTo 8).map fun i => a.toNat + i
    withSources x s regs none fun s v =>
      match pushLanes x queue.toNat (fun l => regs.map (v l)) (lanesOf x.act) s with
      | (_, _, some (.later why)) => pushWaits x s why
      | (_, _, some (.isOver l)) =>
        if appendsOpen x.c then parkGroup x s .appends else trapAt x s clsProt 0 (oneLane l)
      | (s', left, none) =>
        if appendsOpen x.c && decide (serialUsed s x.c.uid ≠ serialUsed s' x.c.uid) then parkGroup x s .appends
        else retire x (writePred x s' 0 pd.toNat fun l => left.contains l)

/-- The lane's list lies in the unit's own share and is aligned, its page fault apart (R270). -/
def kickOk (x : Ctx) (s : State) (va : Word) : Bool :=
  decide (va.toNat % 64 = 0) &&
    match (xlat s x.w .engRead va).2 with
    | .ok phys ty => decide (ty = 7) &&
      (match heldPart phys with
        | some (uid, 0, _) => decide (uid = x.c.uid)
        | _ => false)
    | .page .. => true
    | _ => false

/-- The lanes whose list meets a page fault, with what the walk found (R157). -/
def kickPages (x : Ctx) (s : State) (va : Nat → Word) : List (Nat × AccKind × Word × Nat × Nat) :=
  (lanesOf x.act).filterMap fun l =>
    match (xlat s x.w .engRead (va l)).2 with
    | .page ty lv => some (l, .load, va l, ty, lv)
    | _ => none

/-- KICK waits for its lists' pages, or meets one that the runtime has rejected (R157, R339). -/
def kickWaits (x : Ctx) (s : State) (pages : List (Nat × AccKind × Word × Nat × Nat)) : State :=
  match pages.filter fun p => rejHit s x.c p.2.2.1 with
  | p :: ps => trapAt x s clsPage p.2.2.1 (maskOf fun l => (p :: ps).any fun q => decide (q.1 = l))
  | [] =>
    let (s, ids) := enterPages x.w s (lowPages pages [])
    parkPages x s ids

/-- The count word of KICK is in order (R270). -/
def kickCountOk (b : Word) : Bool :=
  let n := b.toNat
  decide (n % 256 ≠ 0) && decide (n < 2 ^ 15)

/-- KICK (R270). -/
def execKick (h : Hdr) (pd : PCode) (a b : Code) : State → Host.Outcome State Fault Refusal :=
  gate (.kick h pd a b) fun x s =>
    withSources x s [a.toNat, b.toNat] none fun s v =>
      let bad := maskOf fun l => inMask x.act l &&
        (!kickOk x s (v l a.toNat) || !kickCountOk (v l b.toNat))
      let pages := kickPages x s fun l => v l a.toNat
      if bad ≠ 0 then trapAt x s clsProt (v (lowLane bad) a.toNat) bad
      else if pages ≠ [] then kickWaits x s pages
      else
        let held := (s.klists.filter fun k => decide (k.core = x.c.core)).length
        let ls := lanesOf x.act
        let lists := (ls.take (8 - held)).map fun l =>
          let n := (v l b.toNat).toNat
          { core := x.c.core, uid := x.c.uid, lid := x.w.lid, slot := x.c.slot, lane := l,
            addr := v l a.toNat, left := n % 256, bump := if bitAt n 14 then some (bits n 13 8) else none,
            sem := x.hn.sem, crew := x.key, kseq := x.seq, pages := [] : KList }
        let s1 := { s with klists := s.klists ++ lists }
        retire x (writePred x s1 0 pd.toNat fun l => (ls.drop (8 - held)).contains l)

/-- A lane's accesses before a place in its crew's program order are performed (R197, R200). -/
def quietBefore (s : State) (crew lane seq : Nat) : Bool :=
  match mget s.crews crew with
  | none => true
  | some c => !laneBusy { c with ops := (c.ops.filter fun o => decide (o.seq < seq)).map fun o =>
      { o with priv := c.priv } } lane true true

/-- Replace a kicked list by its rest, or drop it and count it when it is finished. -/
def kickNext (s : State) (k : KList) : State :=
  if k.left ≤ 1 then
    let s := { s with klists := s.klists.erase k }
    match k.bump with
    | none => s
    | some n => countLanded s k.uid n 1
  else
    let k' := { k with left := k.left - 1, addr := k.addr + 64, pages := [] }
    { s with klists := s.klists.map fun j => if j = k then k' else j }

/-- Wait on fault-queue entries with a kicked list. -/
def kickWait (s : State) (k : KList) (ids : List Nat) : State :=
  { s with klists := s.klists.map fun j => if j = k then { k with pages := ids } else j }

/-- Take one entry of a kicked list whose bytes are read; its layout record's page may have been rejected. -/
def kickTake (s : State) (k : KList) (words : List Word) : State :=
  let rel := semRel k.sem || bitAt (words.getD 0 0).toNat 51
  let f : From :=
    { core := k.core, uid := k.uid, lid := k.lid, slot := k.slot, lane := k.lane, crew := k.crew,
      pseq := k.kseq, rel := rel }
  let hit (va : Word) : Bool := (pagesRejected s k.pages).any fun i =>
    decide ((pageVa s i).toNat / 2 ^ 16 = va.toNat / 2 ^ 16)
  match takeCmd s f hit 0 words with
  | .ok s' => kickNext s' k
  | .full | .later (.lines ..) => s
  | .later (.page w kind va ty lv) =>
    let (s, id) := faultEnter s w kind va ty lv
    kickWait s k [id]
  | .isOver =>
    let c := newCmd s f 0 words
    let w := cmdWho s c false
    match takeRec s w c with
    | (s1, r, _) => kickNext (takeBad s1 w c r k.addr) k

/-- The request reader of a core takes the next entry of its first list (R270): a list whose entry it
cannot read yields a command that ends with an error. -/
def kickEntry (s : State) (core : Nat) : State :=
  match s.klists.find? fun k => decide (k.core = core) with
  | none => s
  | some k =>
    if pagesOpen s k.pages ≠ [] ∨ 64 ≤ queueLen s core 0 then s
    else
      let w : Who :=
        { job := jobOf s k.lid, core := core, uid := k.uid, lid := k.lid, slot := k.slot, lanes := 0,
          priv := false, cmd := 0, host := false }
      let failed (s : State) : State :=
        let f : From :=
          { core := k.core, uid := k.uid, lid := k.lid, slot := k.slot, lane := k.lane, crew := k.crew,
            pseq := k.kseq, rel := false }
        let c := newCmd s f 0 []
        kickNext (bumpSeq { s with cmds := s.cmds ++ [{ c with err := some k.addr, recv := [k.uid] }] } core) k
      let present := match xlat s w .engRead k.addr with
        | (_, .ok phys _) => presentAll s phys 64
        | _ => true
      if !present then s
      else
        match vread w .engRead false k.addr 64 s with
        | .ok s b => kickTake s k (bytesWords 8 b)
        | .page s w kind va ty lv =>
          if pagesRejected s k.pages ≠ [] then failed s
          else
            let (s, id) := faultEnter s w kind va ty lv
            kickWait s k [id]
        | .err s _ _ => failed s
        | .wait s _ _ => s

end Sys2Proof.Machine
end

