-- ==== Sys2Proof/Machine/CopyEngine.lean ====
section
/-! DEFINITION. The copy engine: what each kind reads and writes, landing, deadlines, proposals and the
end of a command (18 R273, R275, R277 to R282, 12 R202). -/

namespace Sys2Proof.Machine

/-! ## Plans -/

/-- An address at an offset. -/
def at_ (a : Word) (n : Nat) : Word := a + BitVec.ofNat 64 n

/-- Pieces that copy `n` bytes of memory to several places, by source sector part. -/
def copyPieces (src : Word) (n : Nat) (dsts : List (DstAt × Option Nat)) : List Piece :=
  (parts src n).map fun p =>
    let o := (p.1 - src).toNat
    { src := some p.1, n := p.2, data := []
      dsts := dsts.map fun d => match d.1 with
        | .va a => (.va (at_ a o), d.2)
        | .share u f => (.share u (f + o), d.2) }

/-- A piece of known bytes. -/
def dataPiece (data : List Byte) (dsts : List (DstAt × Option Nat)) : Piece :=
  { src := none, n := data.length, data := data, dsts := dsts }

/-- Read the parts that can be read now and are not read yet. -/
def fetchParts (w : Who) : List (Word × Nat) → Map (List Byte) → VM (Map (List Byte))
  | [], m => vpure m
  | p :: t, m => fun s =>
    if (mget m p.1.toNat).isSome then fetchParts w t m s
    else match engReadPart w p.1 p.2 s with
      | .ok s b => fetchParts w t (mput m p.1.toNat b) s
      | .wait _ _ _ => fetchParts w t m s
      | .page s w k va ty lv => .page s w k va ty lv
      | .err s c a => .err s c a

/-- The parts that one event reads of those not read yet: all of them for pick 0, else one (R188). -/
def pickParts (pick : Nat) (ps : List (Word × Nat)) : List (Word × Nat) :=
  if pick = 0 then ps else (ps.drop ((pick - 1) % ps.length)).take 1

/-- A command's read of its index vector, a mask or a collective source: each part once its bank does not refresh, the
parts in any order; the bytes, when all are read, at an event of their own if the events read parts singly (R166,
R188, R273). -/
def engFetch (pick : Nat) (w : Who) (c : Cmd) (va : Word) (n : Nat) : VM (Cmd × Option (List Byte)) :=
  let open_ := (parts va n).filter fun p => (mget c.seen p.1.toNat).isNone
  vbind (fetchParts w (pickParts pick open_) c.seen) fun m =>
    let got := (parts va n).map fun p => mget m p.1.toNat
    let now := got.all Option.isSome && (decide (pick = 0) || open_.isEmpty)
    vpure ({ c with seen := m }, if now then some (got.map (·.getD [])).flatten else none)

/-- The command has read what its plan needs: it starts with what it is to read and write. -/
def Cmd.start (c : Cmd) (todo : List Piece) : Cmd := { c with started := true, seen := [], todo := todo }

/-- The 32-bit entries of a vector. -/
def u32s : Nat → List Byte → List Nat
  | 0, _ => []
  | n + 1, b => natOf (b.take 4) :: u32s n (b.drop 4)

/-- A list with positions. -/
def withPos {α : Type} : Nat → List α → List (Nat × α)
  | _, [] => []
  | i, a :: t => (i, a) :: withPos (i + 1) t

/-- The record that a command names, in order for the command (R277, R278, R283). -/
def engRec (w : Who) (c : Cmd) (dims : Option Nat) : VM LayRec :=
  let h := c.words.getD 4 0
  if h.toNat % 64 ≠ 0 then verr clsProt h
  else vbind (layRead w .engRead h) fun ws =>
    match layOf ws with
    | none => verr clsProt h
    | some r =>
      if r.size ≠ c.esz ∨ r.base.toNat % c.esz ≠ 0 ∨ (dims.elim false fun d => decide (d ≠ r.dims)) then
        verr clsProt h
      else vpure r

/-- COPY (R277). -/
def planCopy (w : Who) (c : Cmd) : VM Cmd :=
  let src := c.words.getD 1 0
  let dst := c.words.getD 2 0
  if c.w 4 = 0 then vpure (c.start (copyPieces src (c.count * c.esz) [(.va dst, some 0)]))
  else vbind (engRec w c none) fun r =>
    let p := bindPort 1 r
    vpure (c.start ((upTo c.count).map fun k =>
      let pos := carryPos [k, 0, 0, 0, 0] r.ext
      let d := [(DstAt.va (at_ dst (k * c.esz)), some 0)]
      if portInside p pos then copyPieces (portAddr p pos) c.esz d
      else [dataPiece (bytesOf c.esz r.pad.toNat) d]).flatten)

/-- The sentinel test of an index (R278). -/
def isSent (sen : Nat) (i : Nat) : Bool := bitAt sen 32 && decide (i = sen % 2 ^ 32)

/-- GATHER with its index vector read: each distinct index is read once (R278). -/
def gatherFrom (r : LayRec) (c : Cmd) (b : List Byte) : Cmd :=
  let idx := u32s c.count b
  let rb := r.ext.getD 0 1 * c.esz
  let dst := c.words.getD 2 0
  let kept := (withPos 0 idx).filter fun p => !isSent (c.w 1) p.2
  let row (i : Nat) : List Piece :=
    let ks := (kept.filter fun p => decide (p.2 = i)).map (·.1)
    if i < r.ext.getD 1 1 then
      ((rowRuns r i).map fun q =>
        copyPieces q.2.1 q.2.2 (ks.map fun k => (.va (at_ dst (k * rb + q.1)), some k))).flatten
    else
      [dataPiece ((upTo (r.ext.getD 0 1)).map fun _ => bytesOf c.esz r.pad.toNat).flatten
        (ks.map fun k => (.va (at_ dst (k * rb)), some k))]
  { c.start ((dedup (kept.map (·.2))).map row).flatten with
    total := c.totalOf (some r), skipped := idx.length - kept.length }

/-- GATHER (R278). -/
def planGather (pick : Nat) (w : Who) (c : Cmd) : VM Cmd :=
  vbind (engRec w c (some 2)) fun r =>
  vbind (engFetch pick w c (c.words.getD 3 0) (4 * c.count)) fun (c, b) =>
    vpure (b.elim c (gatherFrom r c))

/-- SCATTER with its index vector read: of rows with one index, the highest is written (R278). -/
def scatterFrom (r : LayRec) (c : Cmd) (b : List Byte) : Cmd :=
  let idx := u32s c.count b
  let rb := r.ext.getD 0 1 * c.esz
  let src := c.words.getD 1 0
  let kept := (withPos 0 idx).filter fun p => !isSent (c.w 2) p.2
  let good := kept.filter fun p => decide (p.2 < r.ext.getD 1 1)
  let last := good.filter fun p => good.all fun q => decide (q.2 ≠ p.2 ∨ q.1 ≤ p.1)
  { c.start (last.map fun p => ((rowRuns r p.2).map fun q =>
      copyPieces (at_ src (p.1 * rb + q.1)) q.2.2 [(.va q.2.1, some p.1)]).flatten).flatten with
    total := c.totalOf (some r), skipped := idx.length - kept.length, dropped := kept.length - good.length }

/-- SCATTER (R278); the record gives the receiving unit, when taking the command could not (R275). -/
def planScatter (pick : Nat) (w : Who) (c : Cmd) : VM Cmd :=
  vbind (engRec w c (some 2)) fun r =>
  vbind (engFetch pick w c (c.words.getD 3 0) (4 * c.count)) fun (c, b) =>
  vbind vget fun s =>
    let c := { c with recv := if c.recv = [] then recvOf s w c (some r) else c.recv }
    vpure (b.elim c (scatterFrom r c))

/-- MCAST (R279). -/
def planMcast (c : Cmd) : VM Cmd := fun s =>
  let us := castUnits s c
  .ok s { c.start (copyPieces (c.words.getD 1 0) (c.count * c.esz) (us.map fun u => (.share u.2 (c.w 2), some 0))) with
    recv := us.map (·.2) }

/-- The elements of one expanded row, with the address of the next packed element. -/
def expandRow (esz row : Nat) (mask : Nat) (dst : Word) : List Nat → Word → List Piece
  | [], _ => []
  | i :: t, va =>
    let d := [(DstAt.va (at_ dst (i * esz)), some row)]
    if bitAt mask i then copyPieces va esz d ++ expandRow esz row mask dst t (at_ va esz)
    else dataPiece (List.replicate esz 0) d :: expandRow esz row mask dst t va

/-- The rows of EXPAND from row `j` on, `n` of them, as far as their masks are read; a later mask's place depends on
the earlier ones (R280). -/
def expandRows (pick : Nat) (w : Who) (m : Nat) : Nat → Nat → Word → Word → Cmd → VM (Cmd × Option (List Piece))
  | 0, _, _, _, c => vpure (c, some [])
  | n + 1, j, va, dst, c =>
    vbind (engFetch pick w c va 8) fun (c, b) =>
      match b with
      | none => vpure (c, none)
      | some b =>
        let mask := natOf b
        if 2 ^ m ≤ mask then verr clsProt va
        else
          let els := popNat 64 mask * c.esz
          vbind (expandRows pick w m n (j + 1) (at_ va (8 + (els + 7) / 8 * 8)) (at_ dst (m * c.esz)) c) fun (c', t) =>
            vpure (c', t.map fun t => expandRow c.esz j mask dst (upTo m) (at_ va 8) ++ t)

/-- EXPAND (R280). -/
def planExpand (pick : Nat) (w : Who) (c : Cmd) : VM Cmd :=
  vbind (expandRows pick w (c.w 4 % 128) c.count 0 (c.words.getD 1 0) (c.words.getD 2 0) c) fun (c, ps) =>
    vpure (ps.elim c c.start)

/-- REGROUP with its expert ids read (R281). -/
def regroupFrom (s : State) (w : Who) (c : Cmd) (b : List Byte) : Cmd :=
  let ids := withPos 0 (u32s c.count b)
  let e := bits (c.w 4) 47 32
  let rb := c.w 4 % 2 ^ 32 * c.esz
  let kept := ids.filter fun p => decide (p.2 < e)
  let below (x : Nat) : Nat := (kept.filter fun p => decide (p.2 < x)).length
  let place (p : Nat × Nat) : Nat :=
    below p.2 + (kept.filter fun q => decide (q.2 = p.2 ∧ q.1 < p.1)).length
  let offs := ((upTo (e + 1)).map fun x => bytesOf 4 (below x)).flatten
  let adds := if bitAt (c.w 6) 16 then
      (upTo e).filterMap fun x =>
        (xIndex s w.job (c.w 6 % 2 ^ 16 + x)).map fun i => (i, below (x + 1) - below x)
    else []
  { c.start ((kept.map fun p => copyPieces (at_ (c.words.getD 1 0) (p.1 * rb)) rb
        [(.va (at_ (c.words.getD 2 0) (place p * rb)), some p.1)]).flatten ++
      [dataPiece offs [(.va (c.words.getD 5 0), none)]]) with
    skipped := ids.length - kept.length, adds := adds }

/-- REGROUP (R281). -/
def planRegroup (pick : Nat) (w : Who) (c : Cmd) : VM Cmd :=
  vbind (engFetch pick w c (c.words.getD 3 0) (4 * c.count)) fun (c, b) =>
  vbind vget fun s => vpure (b.elim c (regroupFrom s w c))

/-- What a command is to read and write: it starts once it has read its vectors and masks; `pick` says which part of
them an event reads. -/
def planCmd (pick : Nat) (w : Who) (c : Cmd) : VM Cmd :=
  match c.kind with
  | 0 => planCopy w c
  | 1 => planGather pick w c
  | 2 => planScatter pick w c
  | 3 => planMcast c
  | 4 => planExpand pick w c
  | _ => planRegroup pick w c

/-! ## Reading -/

/-- AVR (R271). -/
def Cmd.avr (c : Cmd) : Bool := bitAt (c.w 0) 50

/-- The bytes of a piece go to each of its places. -/
def pieceLand (p : Piece) (b : List Byte) : List LandB :=
  (p.dsts.map fun d => (withPos 0 b).map fun x =>
    { at_ := (match d.1 with
        | .va a => .va (at_ a x.1)
        | .share u f => .share u (f + x.1))
      byte := x.2, row := d.2 : LandB }).flatten

/-- Read the pieces that can be read now; those in refreshing banks stay. With AVR they are not issued at all, and
without it they are translated and wait at their bank (R166, R271). -/
def readPieces (w : Who) (avr : Bool) : List Piece → VM (List Piece × List LandB)
  | [] => vpure ([], [])
  | p :: t => fun s =>
    match p.src with
    | none => vbind (readPieces w avr t) (fun r => vpure (r.1, pieceLand p p.data ++ r.2)) s
    | some va =>
      match engReadPart w va p.n s with
      | .ok s b => vbind (readPieces w avr t) (fun r => vpure (r.1, pieceLand p b ++ r.2)) s
      | .wait s' _ _ => vbind (readPieces w avr t) (fun r => vpure (p :: r.1, r.2)) (if avr then s else s')
      | .page s w k va ty lv => .page s w k va ty lv
      | .err s c a => .err s c a

/-- The pieces that one event reads, and the others: no order holds among a command's reads (R188). -/
def pickPieces (pick : Nat) (ps : List Piece) : List Piece × List Piece :=
  if pick = 0 then (ps, [])
  else
    let i := (pick - 1) % ps.length
    ((ps.drop i).take 1, ps.eraseIdx i)

/-- Plan a command that has not started, and read: everything for pick 0, else one part; the masks of EXPAND are bytes
of its source. -/
def advanceCmd (pick : Nat) (w : Who) (c : Cmd) : VM Cmd :=
  vbind (if c.started then vpure c else planCmd pick w c) fun c =>
    let c := { c with hasRead := c.hasRead || (decide (c.kind = 4) &&
      ((c.started && decide (c.count ≠ 0)) || !c.seen.isEmpty)) }
    if c.started then
      let ps := pickPieces pick c.todo
      vbind (readPieces w c.avr ps.1) fun r =>
        let open_ (l : List Piece) : Nat := (l.filter (·.src.isSome)).length
        vpure { c with
          todo := r.1 ++ ps.2, land := c.land ++ r.2
          hasRead := c.hasRead || decide (open_ r.1 < open_ ps.1) }
    else vpure c

/-! ## Commands of the state -/

/-- A command by core and sequence. -/
def findCmd (s : State) (core seq : Nat) : Option Cmd :=
  s.cmds.find? fun c => decide (c.core = core ∧ c.seq = seq)

/-- Replace a command. -/
def putCmd (s : State) (c : Cmd) : State :=
  { s with cmds := s.cmds.map fun d => if d.core = c.core ∧ d.seq = c.seq then c else d }

/-- Remove a command. -/
def dropCmd (s : State) (c : Cmd) : State :=
  { s with cmds := s.cmds.filter fun d => !decide (d.core = c.core ∧ d.seq = c.seq) }

/-- A command meets an error: the bytes landed stand, the rest is not written (R273). -/
def Cmd.fail (c : Cmd) (addr : Word) (logged : Bool) : Cmd :=
  { c with err := some addr, logged := logged, todo := [], land := [], pages := [] }

/-- Do a command's work on memory: a page fault makes it wait, another fault is its error. -/
def cmdRun {α : Type} (s : State) (c : Cmd) (m : VM α) (k : State → α → State) : State :=
  match m s with
  | .ok s a => k s a
  | .page _ w kind va ty lv =>
    let (s, id) := faultEnter s w kind va ty lv
    putCmd s { c with pages := [id] }
  | .err s' _ a => putCmd s' (c.fail a (decide (s'.vseq ≠ s.vseq)))
  | .wait _ _ _ => s

/-- Run a command's work unless its pages are still open; a rejected page is its error (R339). -/
def whenPaged (s : State) (c : Cmd) (k : State → Cmd → State) : State :=
  match pagesRejected s c.pages with
  | id :: _ => putCmd s (c.fail (pageVa s id) false)
  | [] => if pagesOpen s c.pages ≠ [] then s else k s { c with pages := [] }

/-- Every earlier command of the core's queue has started (R266). -/
def firstInQueue (s : State) (c : Cmd) : Bool :=
  s.cmds.all fun d =>
    !decide (d.core = c.core ∧ d.queue = c.queue ∧ d.seq < c.seq) || d.started || d.joined ||
      d.deferred || d.err.isSome

/-- The deadline of a command has passed before its last byte has landed (R282). -/
def Cmd.dueAt (now : Nat) (c : Cmd) : Bool :=
  c.dl && c.prop && !c.proposed && !c.late && c.err.isNone && !c.deferred &&
    decide (c.taken + c.w 5 % 2 ^ 32 ≤ now) &&
    !(c.started && c.todo.isEmpty && c.land.isEmpty)

/-- Note a deadline that has passed. -/
def Cmd.noteLate (now : Nat) (c : Cmd) : Cmd := if c.dueAt now then { c with late := true } else c

/-- An engine event of a kind: the command starts, or goes on reading; the object at hand picks what it reads (R188,
R277 to R281). -/
def engineEvent (s : State) (core seq kind : Nat) : State :=
  match findCmd s core seq with
  | none => s
  | some c =>
    if c.kind ≠ kind ∨ c.queue ≠ 0 ∨ c.err.isSome ∨ c.deferred = true ∨
        (c.started = true ∧ c.todo = []) then s
    else if !firstInQueue s c || (c.rel && !quietBefore s c.crew c.lane c.pseq) then s
    else whenPaged s c fun s c =>
      let c := c.noteLate s.cycle
      let w := cmdWho s c false
      cmdRun s c (advanceCmd s.subj w c) fun s c' =>
        putCmd s { c' with recv := if c'.recv = [] then recvOf s w c' none else c'.recv }

/-! ## Proposals (R282) -/

/-- The entry is the place of a command's proposal. -/
def SerEntry.placeOf (core seq : Nat) : SerEntry → Bool
  | .cprop k n _ _ => decide (k = core ∧ n = seq)
  | _ => false

/-- The place of a command's proposal in its unit's serial buffer becomes the proposal, or goes (R315, R332). -/
def setPlace (s : State) (c : Cmd) (e : Option SerEntry) : State :=
  modUnit s c.uid fun u =>
    let held := u.serial.any (SerEntry.placeOf c.core c.seq)
    { u with
      serial := u.serial.filterMap fun x => if x.placeOf c.core c.seq then e else some x
      serialBytes := if held && e.isNone then u.serialBytes - 32 else u.serialBytes }

/-- The crews of a unit go on with operations that waited for a proposal before theirs (R315). -/
def resumeUnit (s : State) (uid : Nat) : State :=
  (s.crews.filter fun p => decide (p.2.uid = uid)).foldl (fun s p => resumeOps s p.1) s

/-- A copy's proposal in an ordered launch: it takes its place in the serial buffer, checked against the cell at launch
start; false is an error response (R304, R315). -/
def placeProp (s : State) (w : Who) (c : Cmd) (cell : Word) (phys : Nat) (v : Word) (gen : BitVec 16) (wn : Nat) :
    State × Bool :=
  let snap := snapOf s w.lid
  let cv := natOf (cellsGet snap phys 8)
  let w1 := natOf (cellsGet snap (phys + 8) 8)
  if cellBad cv w1 || decide (genClass gen.toNat (cellGen w1) = 1) then (cellError s w cell phys, false)
  else (resumeUnit (setPlace s c (some (.prop phys cell v gen (BitVec.ofNat 64 wn) w.slot 0))) c.uid, true)

/-- Make a command's proposal: INT of V1, or of V2 when the deadline has passed. -/
def proposeCmd (w : Who) (c : Cmd) : VM Unit :=
  let cell := c.words.getD 6 0
  let v1 := if c.late then c.w 7 / 2 ^ 32 else c.w 7 % 2 ^ 32
  let v := BitVec.ofNat 64 (3 * 2 ^ 60 + (sext (BitVec.ofNat 64 v1) 32).toNat % 2 ^ 60)
  let gen := BitVec.ofNat 16 (bits (c.w 5) 63 48)
  if c.w 6 % 16 ≠ 0 then verr clsProt cell
  else vbind (vxlat w .engProp cell) fun (phys, _) s =>
    let wn := winnerOf c.core c.slot 0 true
    if isOrdered s c.lid && !w.serial then
      match placeProp s w c cell phys v gen wn with
      | (s, true) => .ok s ()
      | (s, false) => .err s clsProt cell
    else
      match proposeHome (spendAccess s w phys) w cell phys v gen wn with
      | (s, some _) => .ok s ()
      | (s, none) => .err s clsProt cell

/-- DEADLINE_PASS's work: propose V2 at once (R282). -/
def passDeadline (s : State) (core seq : Nat) : State :=
  match findCmd s core seq with
  | none => s
  | some c =>
    let c := c.noteLate s.cycle
    if !c.late || c.proposed || c.err.isSome then s
    else
      let s := putCmd s c
      whenPaged s c fun s c =>
        cmdRun s c (proposeCmd (cmdWho s c false) c) fun s _ => putCmd s { c with proposed := true }

/-! ## Landing (R275) -/

/-- Write bytes of one sector where they go, as one access; a multicast receiver that has completed receives
nothing (R167, R273, R279). -/
def landRun (w : Who) (lane : Nat) (at_ : DstAt) (data : List Byte) : VM Unit := fun s =>
  match at_ with
  | .va a => vwritePart w .engWrite false lane a data s
  | .share uid off =>
    match mget s.units uid with
    | none => .ok s ()
    | some u =>
      if u.isOver || u.ended then .ok s ()
      else if off + data.length ≤ u.shareSize then
        match writeTgt s w (BitVec.ofNat 64 off) (shareOf uid + off) data with
        | (s, true) => .ok s ()
        | (s, false) => .err s clsProt (BitVec.ofNat 64 off)
      else .err s clsProt (BitVec.ofNat 64 off)

/-- The sector of a place. -/
def DstAt.sector : DstAt → Option Nat × Nat
  | .va a => (none, a.toNat / 32)
  | .share u f => (some u, f / 32)

/-- One place follows another in its sector. -/
def DstAt.next (a b : DstAt) : Bool :=
  decide (a.sector = b.sector) && (match a, b with
    | .va x, .va y => decide (y = x + 1)
    | .share _ x, .share _ y => decide (y = x + 1)
    | _, _ => false)

/-- Bytes in their order, cut into the longest runs that follow each other in one sector. -/
def landRuns : List LandB → List (List LandB)
  | [] => []
  | b :: t =>
    match landRuns t with
    | (d :: ds) :: rs => if b.at_.next d.at_ then (b :: d :: ds) :: rs else [b] :: (d :: ds) :: rs
    | rs => [b] :: rs

/-- Write a run. -/
def landBs (w : Who) (lane : Nat) : List LandB → VM Unit
  | [] => vpure ()
  | b :: t => landRun w lane b.at_ ((b :: t).map (·.byte))

/-- Land runs in order until one meets a fault: the state, the bytes landed, those left, and the
fault. -/
def landList (w : Who) (lane : Nat) : List (List LandB) → State → List LandB →
    State × List LandB × List LandB × Option (VRes Unit)
  | [], s, done => (s, done, [], none)
  | b :: t, s, done =>
    match landBs w lane b s with
    | .ok s () => landList w lane t s (done ++ b)
    | r => (s, done, b ++ t.flatten, some r)

/-- A piece still to be read goes to a sector. -/
def Piece.touches (p : Piece) (x : Option Nat × Nat) : Bool :=
  p.dsts.any fun d => match d.1 with
    | .va a => decide (x.1 = none ∧ a.toNat / 32 ≤ x.2 ∧ x.2 ≤ (a.toNat + p.n - 1) / 32)
    | .share u f => decide (x.1 = some u ∧ f / 32 ≤ x.2 ∧ x.2 ≤ (f + p.n - 1) / 32)

/-- The bytes that land when the agenda names `n` after the first `skip`: all that the command has read for their
sectors, but for sectors of which a byte is still to be read, so that each sector part is seen whole (R167, R273);
and the others. -/
def Cmd.landing (c : Cmd) (skip n : Nat) : List LandB × List LandB :=
  if c.todo.isEmpty && decide (skip = 0 ∧ c.land.length ≤ n) then (c.land, [])
  else
    let want := (landRuns ((c.land.drop skip).take n)).filterMap fun r => r.head?.map (·.at_.sector)
    c.land.partition fun b => want.contains b.at_.sector && !c.todo.any (·.touches b.at_.sector)

/-- Where a byte goes, compared with a line or block. -/
def Pres.hit (p : Pres) : DstAt → Bool
  | .va a =>
    let size := if p.blk then 4096 else 128
    p.vas.contains (BitVec.ofNat 64 (a.toNat / size * size))
  | .share u off => !p.blk && decide (u = p.uid ∧ off / 128 = p.idx)

/-- The places that a command has still to write. -/
def Cmd.left (c : Cmd) : List DstAt :=
  c.land.map (·.at_) ++ (c.todo.map fun p => (p.dsts.map fun d => (upTo p.n).map fun i => match d.1 with
    | .va a => DstAt.va (at_ a i)
    | .share u f => .share u (f + i)).flatten).flatten

/-- The rows that a command has still to write bytes of. -/
def Cmd.leftRows (c : Cmd) : List Nat :=
  (c.land.filterMap (·.row)) ++ (c.todo.map fun p => p.dsts.filterMap (·.2)).flatten

/-- Lines whose last byte of the command has landed become less ABSENT (R162). -/
def landPres (s : State) (c : Cmd) (done : List LandB) : State × Cmd :=
  let left := c.left
  let (out, keep) := c.pres.partition fun p =>
    done.any (fun b => p.hit b.at_) && !left.any p.hit
  (out.foldl Pres.release s, { c with pres := keep })

/-- Count landed bytes for a unit (R275). -/
def countFor (s : State) (c : Cmd) (uid n : Nat) : State × Cmd :=
  (countLanded s uid c.lc n, { c with counted := mput c.counted uid (mgetD c.counted uid 0 + n) })

/-- Count what has landed, by bytes or by rows (R275). -/
def landCount (s : State) (c : Cmd) (done : List LandB) : State × Cmd :=
  let uid := c.recv.headD c.uid
  if c.rows && c.rowKind then
    let left := c.leftRows
    let rows := (dedup (done.filterMap (·.row))).filter fun r => !left.contains r
    countFor s c uid rows.length
  else
    done.foldl (fun (x : State × Cmd) b =>
      if b.row.isNone then x
      else match b.at_ with
        | .va _ => countFor x.1 x.2 uid 1
        | .share u _ => countFor x.1 x.2 u 1) (s, c)

/-- COPY_BYTES_LAND's work: the sector parts of `n` bytes land, after the first `skip` (R273, R275). -/
def landBytes (s : State) (core seq skip n : Nat) : State :=
  match findCmd s core seq with
  | none => s
  | some c =>
    if c.err.isSome || !c.started || c.deferred || c.land.isEmpty then s
    else whenPaged s c fun s c =>
      let c := c.noteLate s.cycle
      let w := cmdWho s c false
      let (pick, others) := c.landing skip n
      let (s', done, rest, fault) := landList w c.lane (landRuns pick) s []
      let c := { c with
        land := rest ++ others
        landed := c.landed + done.length
        recv := if c.recv = [] then recvOf s' w c none else c.recv }
      let (s', c) := landPres s' c done
      let (s', c) := landCount s' c done
      match fault with
      | none => putCmd s' c
      | some (.page _ w kind va ty lv) =>
        let (s2, id) := faultEnter s' w kind va ty lv
        putCmd s2 { c with pages := [id] }
      | some (.err s2 _ a) =>
        putCmd { s' with vlog := s2.vlog, vseq := s2.vseq } (c.fail a (decide (s2.vseq ≠ s'.vseq)))
      | some _ => putCmd s' c

/-! ## The end of a command (R273, R275) -/

/-- What the end of a command does to a receiver's counter. -/
def LCtr.endOf (c : Cmd) (missing : Nat) (k : LCtr) : LCtr :=
  let k := { k.land missing with
    skipped := min (k.skipped + c.skipped) 0xFFFFFF
    dropped := min (k.dropped + c.dropped) 0xFFFFFF
    cst := if c.isColl then c.cst else k.cst }
  match c.err with
  | none => k
  | some a =>
    if k.err then k
    else { k with err := true, ecmd := BitVec.ofNat 64 c.id, eaddr := a,
                  ebytes := BitVec.ofNat 64 c.landed }

/-- Add a finished REGROUP's counts to the expert counters, or buffer them in an ordered launch; none when the
serial buffer would overflow (R281, R287, R332). -/
def endAdds (s : State) (c : Cmd) (serial : Bool) : Option State :=
  c.adds.foldl (fun (s : Option State) a => s.bind fun s =>
    if isOrdered s c.lid && !serial then
      match serAppend s c.uid (.count a.1 a.2 c.slot) with
      | (s, true) => some s
      | (_, false) => none
    else some (xAdd s a.1 a.2)) (some s)

/-- The units on whose counter a command that ends counts: its receivers; where they are hidden until its end, or an
MCAST in error has none, the pusher (R275, R279). -/
def Cmd.counts (c : Cmd) (s : State) : List Nat :=
  if c.recv ≠ [] then c.recv
  else if c.kind = 3 ∧ c.err = none then []
  else match recvOf s (cmdWho s c false) c none with
    | [] => [c.uid]
    | us => us

/-- A command ends: its missing total, its error and its pending counts (R273, R275). -/
def closeCmd (s : State) (c : Cmd) : State :=
  let (s, c) := if c.err.isSome then (s, c) else
    match endAdds s c false with
    | some s => (s, c)
    | none => (s, { c with err := some (c.words.getD 6 0) })
  let s := (c.counts s).foldl (fun s u =>
    atCounter s u c.lc (LCtr.endOf c (c.total - mgetD c.counted u 0))) s
  let s := match c.err with
    | some a => if c.logged then s else
        let w := cmdWho s c false
        vlogAdd s (slice0 w) 3 a w
    | none => s
  let s := dropCmd (releasePresence s c) c
  if (c.propPlace s).isSome && !c.proposed then resumeUnit (setPlace s c none) c.uid else s

/-- COMMAND_END's work (R273, R282). -/
def endCommand (s : State) (core seq : Nat) : State :=
  match findCmd s core seq with
  | none => s
  | some c =>
    if c.deferred then s
    else if c.err.isSome then closeCmd s c
    else if !c.started || !c.todo.isEmpty || !c.land.isEmpty then s
    else whenPaged s c fun s c =>
      if c.prop && !c.proposed && !c.isColl then
        cmdRun s c (proposeCmd (cmdWho s c false) c) fun s _ => closeCmd s { c with proposed := true }
      else closeCmd s c

/-! ## A command in the serial phase (R290, R333) -/

/-- Land every byte of a command. -/
def landAll (w : Who) (lane : Nat) (bs : List LandB) : VM Unit :=
  vfold (fun _ b => landBs w lane b) () (landRuns bs)

/-- A deferred command performed whole, its proposal included, once no bank that it reads is refreshing: nothing is
counted and no presence changes (R166, R290). -/
def serialCmd (w : Who) (c : Cmd) : VM Unit :=
  let wait : VM Unit := fun s => .wait s 0 0
  vbind (planCmd 0 w c) fun c =>
  if !c.started then wait else
  vbind (readPieces w c.avr c.todo) fun r =>
  if r.1 ≠ [] then wait else
  vbind (landAll w c.lane r.2) fun _ =>
  vbind vget fun s =>
  vbind (if c.prop then
      proposeCmd w { c with late := c.dl && decide (c.taken + c.w 5 % 2 ^ 32 ≤ s.cycle) }
    else vpure ()) fun _ =>
  vmod fun s => (endAdds s c true).getD s

end Sys2Proof.Machine
end

