-- ==== Sys2Proof/Machine/Collectives.lean ====
section
/-! DEFINITION. Collectives and the events of the engines (18 R270, R273, R277 to R282, R288, R289,
12 R200). -/

namespace Sys2Proof.Machine

/-! ## Groups (R288) -/

/-- The collective group of a job. -/
def findColl (s : State) (job : Nat) (group : Word) : Option Coll :=
  s.colls.find? fun g => decide (g.job = job ∧ g.group = group)

/-- Replace or add a group. -/
def putColl (s : State) (g : Coll) : State :=
  { s with colls := g :: s.colls.filter fun h => !decide (h.job = g.job ∧ h.group = g.group) }

/-- Forget a group that is complete. -/
def dropColl (s : State) (job : Nat) (group : Word) : State :=
  { s with colls := s.colls.filter fun h => !decide (h.job = job ∧ h.group = group) }

/-- A command of the group that is not complete. -/
def ofGroup (s : State) (job : Nat) (group : Word) (c : Cmd) : Bool :=
  decide (c.queue = 1) && c.err.isNone && !c.started && decide (jobOf s c.lid = job) &&
    decide (c.words.getD 4 0 = group)

/-- The commands of a group that are not complete. -/
def groupCmds (s : State) (job : Nat) (group : Word) : List Cmd := s.cmds.filter (ofGroup s job group)

/-- Clusters of a launch. -/
def clustersOf (s : State) (lid : Nat) : Nat :=
  match mget s.launches lid with
  | none => 0
  | some l => l.clusters

/-- The cluster of a unit. -/
def clusterOf (s : State) (uid : Nat) : Nat :=
  match mget s.units uid with
  | none => 0
  | some u => u.cluster

/-- A cluster of a launch can still send a command: it is not admitted yet, or one of its units has
neither ended nor been cancelled. -/
def clusterOpen (s : State) (lid cluster : Nat) : Bool :=
  match mget s.launches lid with
  | none => false
  | some l =>
    if l.isOver then false
    else if !l.admitted.contains cluster then true
    else l.units.any fun p => decide (p.1 / l.unitsPer = cluster) &&
      (match mget s.units p.2 with
        | none => false
        | some u => !u.isOver && !u.ended)

/-- Ranks that can still join: open clusters of the known launches that have not joined, and all
clusters of the launches still to be learnt (R288). -/
def canJoin (s : State) (g : Coll) (ms : List Cmd) (nl ncl : Nat) : Nat :=
  let free := (g.lids.map fun lid => (upTo (clustersOf s lid)).filter fun k =>
    clusterOpen s lid k && !(ms.any fun c => decide (c.lid = lid) && decide (clusterOf s c.uid = k))).flatten
  free.length + (nl - g.lids.length) * ncl

/-- Two commands of a group agree (R288). -/
def collAgree (s : State) (a b : Cmd) : Bool :=
  decide (a.kind = b.kind ∧ a.cop = b.cop ∧ a.code = b.code ∧ a.count = b.count ∧
    a.collP = b.collP ∧ a.root = b.root ∧ a.nl = b.nl ∧ clustersOf s a.lid = clustersOf s b.lid)

/-- A collective error: logged with kind 5; the command ends with it (R288, R341). -/
def collFail (cst : Nat) (s : State) (c : Cmd) : State :=
  let w := cmdWho s c false
  let a := c.words.getD 2 0
  putCmd (vlogAdd s (slice0 w) 5 a w) { c.fail a true with cst := cst }

/-! ## Results (R289) -/

/-- Cut bytes into `n` elements. -/
def elems (size : Nat) : Nat → List Byte → List Nat
  | 0, _ => []
  | n + 1, b => natOf (b.take size) :: elems size n (b.drop size)

/-- One reduction of two elements of `size` bytes (R289). -/
def redOp (cop size a b : Nat) : Nat :=
  let n := 8 * size
  let sa := signedOf n a
  let sb := signedOf n b
  let fsum (f : Fmt) : Nat := (fAdd f 1 (fdec f a) (fdec f b)).bits
  match cop with
  | 0 => (a + b) % 2 ^ n
  | 1 => if sb < sa then b else a
  | 2 => if sa < sb then b else a
  | 3 => if b < a then b else a
  | 4 => if a < b then b else a
  | 5 => fsum f32
  | 6 => fsum f16
  | 7 => fsum bf16
  | _ => (fMinMax f32 true true a b).bits

/-- Fold sources element by element, left to right (R289). -/
def redFold (cop size : Nat) : List (List Nat) → List Nat
  | [] => []
  | a :: t => t.foldl (fun acc b => (acc.zip b).map fun p => redOp cop size p.1 p.2) a

/-- Elements that a rank's source holds. -/
def srcElems (c : Cmd) : Nat := if c.kind = 12 then c.collP * c.count else c.count

/-- Bytes of elements. -/
def elemBytes (size : Nat) (l : List Nat) : List Byte := (l.map (bytesOf size)).flatten

/-- What the destination of a rank receives, as (offset in bytes, bytes), from the joined ranks'
sources in ascending rank order (R289). -/
def collOut (c : Cmd) (srcs : List (Nat × List Byte)) : List (Nat × List Byte) :=
  let size := c.esz
  let n := srcElems c
  let red := redFold c.cop size (srcs.map fun p => elems size n p.2)
  match c.kind with
  | 8 => [(0, elemBytes size red)]
  | 9 => if c.rank = c.root then [(0, elemBytes size red)] else []
  | 10 => ((srcs.find? fun p => decide (p.1 = c.root)).map fun p => [(0, p.2)]).getD []
  | 11 => srcs.map fun p => (p.1 * c.count * size, p.2)
  | _ => [(0, elemBytes size ((red.drop (c.rank * c.count)).take c.count))]

/-- The outcome of reading every source of a group. -/
inductive CollRead where
  | ok (s : State) (srcs : List (Nat × List Byte))
  /-- A member waits or has failed; the group goes on at the next event. -/
  | stop (s : State)

/-- Read the sources of the joined ranks, of each what `pick` says. -/
def readSources (pick : Nat) : List Cmd → State → List (Nat × List Byte) → CollRead
  | [], s, acc => .ok s acc
  | c :: t, s, acc =>
    if pagesOpen s c.pages ≠ [] then .stop s
    else match pagesRejected s c.pages with
      | id :: _ => .stop (putCmd s (c.fail (pageVa s id) false))
      | [] =>
        let w := cmdWho s c false
        match engFetch pick w c (c.words.getD 1 0) (srcElems c * c.esz) s with
        | .ok s (_, some b) => readSources pick t s (acc ++ [(c.rank, b)])
        | .ok s (c, none) => .stop (putCmd s c)
        | .page _ w k va ty lv =>
          let (s, id) := faultEnter s w k va ty lv
          .stop (putCmd s { c with pages := [id] })
        | .err s' _ a => .stop (putCmd s' (c.fail a (decide (s'.vseq ≠ s.vseq))))
        | .wait s _ _ => .stop s

/-- A member has read its source. -/
def srcRead (c : Cmd) : Bool := (parts (c.words.getD 1 0) (srcElems c * c.esz)).all fun p => (mget c.seen p.1.toNat).isSome

/-- The sources of the joined ranks as an event reads them: all for pick 0, else one part of one member that has not
read its source, since no order holds among their reads (R188). -/
def pickSources (pick : Nat) (ms : List Cmd) (s : State) : CollRead :=
  let open_ := ms.filter fun c => !srcRead c
  if pick = 0 ∨ open_ = [] then readSources 0 ms s []
  else match readSources ((pick - 1) / open_.length + 1) ((open_.drop ((pick - 1) % open_.length)).take 1) s [] with
    | .ok s _ => .stop s
    | r => r

/-- Insert a command by rank. -/
def insRank (c : Cmd) : List Cmd → List Cmd
  | [] => [c]
  | d :: t => if c.rank ≤ d.rank then c :: d :: t else d :: insRank c t

/-- A member of a complete group: its results are to land. -/
def collMember (cst : Nat) (srcs : List (Nat × List Byte)) (s : State) (c : Cmd) : State :=
  let dst := c.words.getD 2 0
  let ps := (collOut c srcs).map fun o => dataPiece o.2 [(.va (at_ dst o.1), none)]
  putCmd s { c with
    started := true, hasRead := true, cst := cst, pages := [], seen := []
    land := (ps.map fun p => pieceLand p p.data).flatten }

/-- Complete a group among its joined ranks (R288, R289). -/
def collComplete (s : State) (job : Nat) (group : Word) (cst : Nat) (ms : List Cmd) : State :=
  let ms := ms.foldl (fun l c => insRank c l) []
  match pickSources s.subj ms s with
  | .stop s => s
  | .ok s srcs => dropColl (ms.foldl (collMember cst srcs) s) job group

/-- A rank already taken by an earlier command of the list. -/
def rankTaken (c : Cmd) : List Cmd → Bool
  | [] => false
  | d :: t => if d.core = c.core ∧ d.seq = c.seq then false else decide (d.rank = c.rank) || rankTaken c t

/-- Settle a group whose commands agree (R288). -/
def collSettle (s : State) (job : Nat) (group : Word) (g : Coll) (js : List Cmd) : State :=
  let cap (c : Cmd) : Nat := c.nl * clustersOf s c.lid
  let bad (c : Cmd) : Bool := decide (cap c < c.collP ∨ c.collP ≤ c.rank) || rankTaken c js
  let (wrong, ms) := js.partition bad
  let s := wrong.foldl (collFail 3) s
  match ms with
  | [] => dropColl s job group
  | c :: _ =>
    if ms.length = c.collP then collComplete s job group 0 ms
    else if ms.length + canJoin s g ms c.nl (clustersOf s c.lid) < c.collP then
      collComplete s job group 2 ms
    else s

/-- First addresses and lengths of the buffers that a collective command names (R200). -/
def Cmd.buffers (c : Cmd) : List (Word × Nat) :=
  (c.words.getD 1 0, srcElems c * c.esz) :: c.ranges none

/-- A write of a lane's earlier access meets the buffers of its command. -/
def Cmd.names (c : Cmd) (va : Word) (n : Nat) : Bool :=
  c.buffers.any fun b => meets va.toNat n b.1.toNat b.2

/-- Where the bytes of a command's buffers lie, as far as the tables map them: first bytes and lengths. -/
def Cmd.placed (s : State) (c : Cmd) : List (Nat × Nat) :=
  let w := cmdWho s c false
  ((c.buffers.map fun b => pageChunks b.1 b.2).flatten).filterMap fun p =>
    match (xlat s w .engRead p.1).2, (xlat s w .engWrite p.1).2 with
    | .ok phys _, _ => some (phys, p.2)
    | _, .ok phys _ => some (phys, p.2)
    | _, _ => none

/-- Every write of the lane before the PUSH of a collective command to its buffers is performed, whatever address it
was made at; one whose target is not known yet may be such a write (R200). -/
def buffersQuiet (s : State) (c : Cmd) : Bool :=
  let ps := c.placed s
  match mget s.crews c.crew with
  | none => true
  | some k => k.ops.all fun o => o.done || decide (c.pseq ≤ o.seq) ||
      !(inMask o.left c.lane ||
        (o.accs.any fun a => a.op.writes && decide (a.lane = c.lane)) ||
        o.reqs.any fun r => r.op.writes && decide (r.lane = c.lane ∧ r.st = .waiting) &&
          (c.names r.va r.n || ps.any fun b => meets r.phys r.n b.1 b.2))

/-- A collective command joins its group: at the head of its queue, with the writes that it releases performed; an
empty one orders nothing, and a MOD release orders every earlier access (R189, R200, R266, R288). -/
def Cmd.joins (s : State) (c : Cmd) : Bool :=
  c.joined || (firstInQueue s c &&
    (decide (c.collP = 0) || (buffersQuiet s c && (!c.rel || quietBefore s c.crew c.lane c.pseq))))

/-- A collective event of a kind on a group: commands at the heads of their queues join, and the group
is settled if it can be (R288, R289). -/
def collEvent (s : State) (job : Nat) (group : Word) (kind : Nat) : State :=
  let all := groupCmds s job group
  if (all.head?.map (·.kind)) ≠ some kind then s
  else
    let js := (all.filter (Cmd.joins s)).map fun c => { c with joined := true }
    let s := js.foldl putCmd s
    let (empty, js) := js.partition fun c => decide (c.collP = 0)
    let s := empty.foldl (fun s c => putCmd s { c with started := true, cst := 1 }) s
    match js with
    | [] => s
    | c :: _ =>
      let old := ((findColl s job group).map (·.lids)).getD []
      let g : Coll := { job := job, group := group, lids := dedup (old ++ js.map (·.lid)) }
      let s := putColl s g
      if c.nl < g.lids.length ∨ js.any (fun d => !collAgree s c d) then
        dropColl (js.foldl (collFail 0) s) job group
      else collSettle s job group g js

/-! ## The events -/

/-- COPY (R277). -/
def execCopy (core cmd : Nat) (s : State) : Host.Outcome State Fault Refusal :=
  .next (engineEvent s core cmd 0)

/-- GATHER (R278). -/
def execGather (core cmd : Nat) (s : State) : Host.Outcome State Fault Refusal :=
  .next (engineEvent s core cmd 1)

/-- SCATTER (R278). -/
def execScatter (core cmd : Nat) (s : State) : Host.Outcome State Fault Refusal :=
  .next (engineEvent s core cmd 2)

/-- MCAST (R279). -/
def execMcast (core cmd : Nat) (s : State) : Host.Outcome State Fault Refusal :=
  .next (engineEvent s core cmd 3)

/-- EXPAND (R280). -/
def execExpand (core cmd : Nat) (s : State) : Host.Outcome State Fault Refusal :=
  .next (engineEvent s core cmd 4)

/-- REGROUP (R281). -/
def execRegroup (core cmd : Nat) (s : State) : Host.Outcome State Fault Refusal :=
  .next (engineEvent s core cmd 5)

/-- ALLREDUCE (R289). -/
def execAllreduce (job : Nat) (group : Word) (s : State) : Host.Outcome State Fault Refusal :=
  .next (collEvent s job group 8)

/-- REDUCE (R289). -/
def execReduce (job : Nat) (group : Word) (s : State) : Host.Outcome State Fault Refusal :=
  .next (collEvent s job group 9)

/-- BCAST (R289). -/
def execBcast (job : Nat) (group : Word) (s : State) : Host.Outcome State Fault Refusal :=
  .next (collEvent s job group 10)

/-- ALLGATHER (R289). -/
def execAllgather (job : Nat) (group : Word) (s : State) : Host.Outcome State Fault Refusal :=
  .next (collEvent s job group 11)

/-- REDSCAT (R289). -/
def execRedscat (job : Nat) (group : Word) (s : State) : Host.Outcome State Fault Refusal :=
  .next (collEvent s job group 12)

/-- COPY_BYTES_LAND (R275). -/
def execCopyBytesLand (core cmd skip n : Nat) (s : State) : Host.Outcome State Fault Refusal :=
  .next (landBytes s core cmd skip n)

/-- COMMAND_END (R273). -/
def execCommandEnd (core cmd : Nat) (s : State) : Host.Outcome State Fault Refusal :=
  .next (endCommand s core cmd)

/-- DEADLINE_PASS (R282). -/
def execDeadlinePass (core cmd : Nat) (s : State) : Host.Outcome State Fault Refusal :=
  .next (passDeadline s core cmd)

/-- KICK_ENTRY_TAKE, on the core at hand (R270). -/
def execKickEntryTake (s : State) : Host.Outcome State Fault Refusal := .next (kickEntry s s.subj)

end Sys2Proof.Machine
end

