-- ==== Sys2Proof/Machine/Graph.lean ====
section
/-! DEFINITION. The graph walker: task control blocks, marks, ready queues, GRAPH commands, phases and
cancelling (22 R323 to R329, R349, 02 R48, R49). A walker's work is done whole, or again once the page
that it met is served. -/

namespace Sys2Proof.Machine

/-! ## Access to a graph (R323) -/

/-- A graph at hand: the walker's stack, the job and the header's address. -/
structure GAt where
  stack : Nat
  job : Nat
  header : Word
  deriving DecidableEq, Repr

/-- Who makes a walker's accesses (R323). -/
def walkWho (stack job : Nat) : Who :=
  { job := job, core := stack * 64, uid := 0, lid := 0, slot := 0, lanes := 0, priv := false,
    cmd := 0, host := false }

/-- Who makes the accesses to a graph. -/
def GAt.w (g : GAt) : Who := walkWho g.stack g.job

/-- Read a word of the graph. -/
def gld (g : GAt) (a : Word) : VM Word := vread64 g.w .load a

/-- Write a word of the graph. -/
def gst (g : GAt) (a v : Word) : VM Unit := vwrite g.w .store false 0 a (bytesOf 8 v.toNat)

/-- Word `w` of TCB `i`. -/
def GAt.tcb (g : GAt) (i w : Nat) : Word := wordAt (g.header + 64) (8 * i + w)

/-- A number with bits `hi` to `lo` replaced. -/
def setBits (w hi lo v : Nat) : Nat := w - bits w hi lo * 2 ^ lo + v % 2 ^ (hi + 1 - lo) * 2 ^ lo

/-- Replace bits of a word of the graph. -/
def gset (g : GAt) (a : Word) (hi lo v : Nat) : VM Unit :=
  vbind (gld g a) fun w => gst g a (BitVec.ofNat 64 (setBits w.toNat hi lo v))

/-- NTASK. -/
def gtasks (g : GAt) : VM Nat := vbind (gld g g.header) fun w => vpure (w.toNat % 2 ^ 16)

/-- GSTATE. -/
def gstate (g : GAt) : VM Nat := vbind (gld g g.header) fun w => vpure (bits w.toNat 35 32)

/-- Set GSTATE. -/
def gsetState (g : GAt) (v : Nat) : VM Unit := gset g g.header 35 32 v

/-- GCNT. -/
def gcount (g : GAt) : VM Nat := vbind (gld g (g.header + 8)) fun w => vpure (w.toNat % 2 ^ 32)

/-- Set GCNT. -/
def gsetCount (g : GAt) (n : Nat) : VM Unit := gset g (g.header + 8) 31 0 n

/-- STATUS of a task (R324). -/
def tstatus (g : GAt) (i : Nat) : VM Nat := vbind (gld g (g.tcb i 0)) fun w => vpure (bits w.toNat 59 56)

/-- Set a task's STATUS. -/
def tsetStatus (g : GAt) (i v : Nat) : VM Unit := gset g (g.tcb i 0) 59 56 v

/-! ## The walker's record of a running graph (R325) -/

/-- The record is of the graph at hand. -/
def GraphRun.is (r : GraphRun) (job : Nat) (header : Word) : Bool :=
  decide (r.job = job ∧ r.header = header)

/-- The record of a graph. -/
def graphRun (s : State) (g : GAt) : GraphRun :=
  match s.graphs.find? fun r => r.is g.job g.header with
  | some r => r
  | none => { stack := g.stack, job := g.job, header := g.header, ready := [], ran := [], parent := none }

/-- Replace the record of a graph. -/
def putRun (s : State) (r : GraphRun) : State :=
  { s with graphs := s.graphs.filter (fun q => !q.is r.job r.header) ++ [r] }

/-- Insert a task into a ready queue: higher PRIO, then lower INDEX (R325). -/
def insReady (t : Nat × Nat × Bool) : List (Nat × Nat × Bool) → List (Nat × Nat × Bool)
  | [] => [t]
  | u :: r =>
    if u.2.1 < t.2.1 ∨ (u.2.1 = t.2.1 ∧ t.1 < u.1) then t :: u :: r else u :: insReady t r

/-- A task becomes READY; it runs if one of its marks was a run mark. -/
def makeReady (g : GAt) (i : Nat) : VM Unit :=
  vbind (tsetStatus g i 1) fun _ =>
    vbind (gld g (g.tcb i 0)) fun w =>
      vmod fun s =>
        let r := graphRun s g
        putRun s { r with ready := insReady (i, bits w.toNat 55 48, !r.ran.contains i) r.ready }

/-- A task receives a mark and a decrement of CUR (R325). -/
def giveMark (g : GAt) (i : Nat) (run : Bool) : VM Unit :=
  vbind (vmod fun s =>
    let r := graphRun s g
    if run && !r.ran.contains i then putRun s { r with ran := i :: r.ran } else s) fun _ =>
  vbind (gld g (g.tcb i 0)) fun w =>
    let cur := bits w.toNat 31 16
    if cur = 0 ∨ bits w.toNat 59 56 ≠ 0 then vpure ()
    else
      vbind (gset g (g.tcb i 0) 31 16 (cur - 1)) fun _ =>
        if cur = 1 then makeReady g i else vpure ()

/-- Successor `k` of a task. -/
def successor (g : GAt) (list : Word) (k : Nat) : VM Nat :=
  vbind (vread g.w .load false (list + BitVec.ofNat 64 (4 * k)) 4) fun b => vpure (natOf b)

/-- Give marks to a task's successors, in the order of its list (R325, R326). -/
def markAll (g : GAt) (i : Nat) (mark : Nat → VM Bool) : VM Unit :=
  vbind (gld g (g.tcb i 1)) fun list =>
    vbind (gld g (g.tcb i 2)) fun n =>
      vbind (gtasks g) fun tasks =>
        vfold (fun _ k => vbind (successor g list k) fun j =>
          if j < tasks then vbind (mark k) fun m => giveMark g j m else vpure ()) ()
          (upTo (n.toNat % 2 ^ 16))

/-- Some task of the graph is FAULTED. -/
def anyFaulted (g : GAt) (n : Nat) : VM Bool :=
  vfold (fun b i => if b then vpure true else
    vbind (tstatus g i) fun st => vpure (decide (st = 4))) false (upTo n)

/-- GSTATE after a change of a task: DONE at GCNT 0, STALLED while a task is FAULTED, otherwise RUNNING
(R327). A graph that is DONE lets its parent or its phase go on. -/
def settleGraph (g : GAt) : VM Unit :=
  vbind (gcount g) fun n =>
    if n = 0 then
      vbind (gsetState g 3) fun _ => vmod fun s =>
        { s with walks := s.walks ++ [{ kind := .isOver g.stack g.job g.header false, pages := [] }] }
    else
      vbind (gtasks g) fun k => vbind (anyFaulted g k) fun f => gsetState g (if f then 2 else 1)

/-- The graph counter falls by one (R324). -/
def countTask (g : GAt) : VM Unit := vbind (gcount g) fun n => gsetCount g (n - 1)

/-- A task ends with a STATUS and gives its successors marks. -/
def taskOver (g : GAt) (i st : Nat) (mark : Nat → VM Bool) : VM Unit :=
  vbind (tsetStatus g i st) fun _ =>
    vbind (countTask g) fun _ => vbind (markAll g i mark) fun _ => settleGraph g

/-- A task becomes FAULTED; the fault record is copied where TCB word 6 says (R327). -/
def taskFaulted (g : GAt) (i : Nat) (frec : Option (List Word)) : VM Unit :=
  vbind (tsetStatus g i 4) fun _ =>
    vbind (gsetState g 2) fun _ =>
      match frec with
      | none => vpure ()
      | some ws =>
        vbind (gld g (g.tcb i 6)) fun a =>
          if a = 0 then vpure () else vwrite g.w .store false 0 a (wordsBytes ws)

/-! ## Starting graphs and tasks -/

/-- START: every TCB to INIT and ARMED, GCNT to NTASK, RUNNING; tasks without predecessors become
READY (R325, R328). -/
def startGraph (g : GAt) (parent : Option (Word × Nat)) : VM Unit :=
  vbind (gtasks g) fun n =>
    vbind (vmod fun s => putRun s
      { stack := g.stack, job := g.job, header := g.header, ready := [], ran := [], parent := parent }) fun _ =>
    vbind (gsetCount g n) fun _ =>
      vbind (gsetState g 1) fun _ =>
        vbind (vfold (fun _ i =>
          vbind (gld g (g.tcb i 0)) fun w =>
            gst g (g.tcb i 0)
              (BitVec.ofNat 64 (setBits (setBits w.toNat 59 56 0) 31 16 (bits w.toNat 47 32)))) ()
          (upTo n)) fun _ =>
          vfold (fun _ i =>
            vbind (gld g (g.tcb i 0)) fun w =>
              if bits w.toNat 47 32 = 0 then
                vbind (vmod fun s =>
                  let r := graphRun s g
                  putRun s { r with ran := i :: r.ran }) fun _ => makeReady g i
              else vpure ()) () (upTo n)

/-- A while task reads its condition word: the body is started again, or the task is DONE (R326). -/
def whileTask (g : GAt) (i : Nat) : VM Unit :=
  vbind (gld g (g.tcb i 4)) fun c =>
    vbind (gld g c) fun v =>
      if v = 0 then taskOver g i 3 fun _ => vpure true
      else
        vbind (gld g (g.tcb i 5)) fun body =>
          startGraph { g with header := body } (some (g.header, i))

/-- Run a READY task (R325, R326). A reserved KIND names no task that could start: it stays RUNNING. -/
def runTask (g : GAt) (i : Nat) : VM Unit :=
  vbind (tsetStatus g i 2) fun _ =>
    vbind (gld g (g.tcb i 0)) fun w =>
      match w.toNat / 2 ^ 60 with
      | 0 =>
        vbind (gld g (g.tcb i 3)) fun lrec =>
          vbind (vread g.w .load false lrec 256) fun b s =>
            match takeRecord s g.job (bytesWords 32 b) (some (g.stack, g.header, i)) with
            | (s, 0) => .ok s ()
            | (s, _) => taskFaulted g i none s
      | 1 =>
        vbind (gld g (g.tcb i 4)) fun c =>
          vbind (gld g c) fun v =>
            vbind (gld g (g.tcb i 5)) fun cases =>
              taskOver g i 3 fun k =>
                vbind (gld g (wordAt cases k)) fun x => vpure (decide (x = v))
      | 2 => whileTask g i
      | 3 => taskOver g i 3 fun _ => vpure true
      | _ => vpure ()

/-- Take the head of a graph's ready queue (R325). -/
def takeReady (g : GAt) : VM Unit := fun s =>
  let r := graphRun s g
  match r.ready with
  | [] => .ok s ()
  | (i, _, skip) :: rest =>
    let s := putRun s { r with ready := rest }
    if skip then taskOver g i 5 (fun _ => vpure false) s else runTask g i s

/-! ## Cancelling (R49, R324) -/

/-- The graphs that run as bodies under a graph, with the graph itself; `n` bounds the depth. -/
def bodiesOf (s : State) (job : Nat) : Nat → List Word → List Word
  | 0, hs => hs
  | n + 1, hs =>
    let more := (s.graphs.filter fun r => decide (r.job = job) && !hs.contains r.header &&
      (match r.parent with
        | none => false
        | some p => hs.contains p.1)).map (·.header)
    if more.isEmpty then hs else bodiesOf s job n (hs ++ more)

/-- A graph that never starts: every task CANCELLED, none left to count, and GSTATE CANCELLED (R48, R49,
R324; log 67). -/
def neverStart (g : GAt) : VM Unit :=
  vbind (gtasks g) fun n =>
    vbind (vfold (fun _ i => tsetStatus g i 6) () (upTo n)) fun _ =>
      vbind (gsetCount g 0) fun _ => gsetState g 4

/-- Every task that is not final becomes CANCELLED, and GSTATE CANCELLED. -/
def cancelTasks (g : GAt) : VM Unit :=
  vbind (gtasks g) fun n =>
    vbind (vfold (fun _ i =>
      vbind (tstatus g i) fun st =>
        if st < 3 ∨ st = 4 then vbind (tsetStatus g i 6) fun _ => countTask g else vpure ()) ()
      (upTo n)) fun _ => gsetState g 4

/-- The launches that tasks of a graph have started and that have not ended. -/
def graphLaunches (s : State) (job : Nat) (hs : List Word) : List Nat :=
  (s.launches.filter fun p => decide (p.2.job = job) && !p.2.isOver &&
    (match p.2.task with
      | none => false
      | some t => hs.contains t.2.1)).map (·.1)

/-- CANCEL of a graph: its tasks and its bodies', then their launches (R49, R328). -/
def cancelGraph (g : GAt) : VM Unit := fun s =>
  let hs := bodiesOf s g.job s.graphs.length [g.header]
  match vfold (fun _ h => cancelTasks { g with header := h }) () hs s with
  | .ok s _ =>
    let s := (graphLaunches s g.job hs).foldl (fun s l => cancelLaunch s l false none) s
    let keep (r : GraphRun) : Bool := decide (r.job ≠ g.job) || decide (r.header = g.header) ||
      !hs.contains r.header
    .ok { s with
      graphs := (s.graphs.filter keep).map fun r =>
        if r.is g.job g.header then { r with ready := [] } else r
      walks := s.walks ++ [{ kind := .isOver g.stack g.job g.header true, pages := [] }] } ()
  | r => r

/-! ## GRAPH commands (R328) -/

/-- A test that a command must pass. -/
def gtest (c : GraphCmd) (ok : Bool) (k : VM Unit) : VM Unit :=
  if ok then k else verr clsProt c.addr

/-- The graph that a command names. -/
def graphAt (c : GraphCmd) : GAt := { stack := c.stack, job := c.job, header := c.addr }

/-- The graph that a command names, on the walker that runs it: that of the stack whose queue took its START. -/
def graphOn (s : State) (c : GraphCmd) : GAt := { graphAt c with stack := (graphRun s (graphAt c)).stack }

/-- The task of RETRY and ABANDON is FAULTED. -/
def faultedTask (g : GAt) (c : GraphCmd) : VM Bool :=
  vbind (gtasks g) fun n =>
    if c.task < n then vbind (tstatus g c.task) fun st => vpure (decide (st = 4)) else vpure false

/-- The effect of a GRAPH command (R328). -/
def graphCommand (c : GraphCmd) (kind : Nat) : VM Unit := fun s =>
  let g := graphOn s c
  (match kind with
  | 0 => vbind (gstate (graphAt c)) fun st => gtest c (decide (st = 0 ∨ st = 3)) (startGraph (graphAt c) none)
  | 1 =>
    vbind (faultedTask g c) fun ok => gtest c ok <|
      vbind (vmod fun s =>
        let r := graphRun s g
        putRun s { r with ran := c.task :: r.ran.filter fun i => decide (i ≠ c.task) }) fun _ =>
      vbind (makeReady g c.task) fun _ => settleGraph g
  | 2 =>
    vbind (faultedTask g c) fun ok => gtest c ok <| taskOver g c.task 5 fun _ => vpure false
  | 3 => vbind (gstate g) fun st => gtest c (decide (st = 1 ∨ st = 2)) (cancelGraph g)
  | _ =>
    vbind (vread (graphAt c).w .load false c.addr 256) fun b s =>
      let words := bytesWords 32 b
      if recWhy s (newLaunch s c.job words none) = 0 then
        .ok (takeRecord (jobCount s c.job 1) c.job words none).1 ()
      else .err s clsProt c.addr : VM Unit) s

/-! ## Tasks and graphs that end (R326, R327, R329) -/

/-- A task's launch has ended (R324, R327). -/
def taskEnded (g : GAt) (i outcome : Nat) (frec : Option (List Word)) : VM Unit :=
  vbind (tstatus g i) fun st =>
    if st ≠ 2 then vpure ()
    else if outcome = 0 then taskOver g i 3 fun _ => vpure true
    else taskFaulted g i (if outcome = 1 then frec else none)

/-- The phase that runs a graph at present. -/
def phaseOf (s : State) (job : Nat) (header : Word) : Option Phase :=
  s.phases.find? fun p =>
    decide (p.job = job) && p.started && !p.isOver && decide (p.headers.getD p.cur 0 = header) &&
      decide (p.cur < p.headers.length)

/-- Replace a phase. -/
def putPhase (s : State) (p : Phase) : State :=
  { s with phases := s.phases.map fun q => if q.job = p.job ∧ q.id = p.id then p else q }

/-- A START command of the host runtime for a phase's graph. -/
def phaseStart (p : Phase) (header : Word) : WalkJob :=
  { kind := .cmd { job := p.job, stack := p.stack, addr := header, task := 0, queued := false
                   core := 0, slot := 0, lane := 0, id := 0 } 0
    pages := [] }

/-- A phase ends: its job's counter falls (R48). -/
def endPhase (s : State) (p : Phase) : State := jobCount (putPhase s { p with isOver := true }) p.job (-1)

/-- A graph of a job runs. -/
def graphRuns (s : State) (job : Nat) (header : Word) : Bool := s.graphs.any fun r => r.is job header

/-- The work of a graph that a phase never starts. -/
def neverJob (p : Phase) (header : Word) : WalkJob := { kind := .never p.stack p.job header, pages := [] }

/-- A phase goes on after a graph of it has ended; one that has ended CANCELLED cancels the rest, whose graphs never
start (R49, R329). -/
def phaseNext (s : State) (p : Phase) (cancelled : Bool) : State :=
  if cancelled then
    let s := endPhase s p
    { s with walks := s.walks ++
        ((p.headers.drop (p.cur + 1)).filter fun h => !graphRuns s p.job h).map (neverJob p) }
  else
    match p.headers[p.cur + 1]? with
    | none => endPhase s p
    | some h =>
      let s := putPhase s { p with cur := p.cur + 1 }
      { s with walks := s.walks ++ [phaseStart p h] }

/-- A graph is DONE or CANCELLED: its while task or its phase goes on (R326, R329). -/
def graphOver (g : GAt) (cancelled : Bool) : VM Unit := fun s =>
  let r := graphRun s g
  let s := { s with graphs := s.graphs.filter fun q => !q.is g.job g.header }
  match r.parent with
  | some (h, i) =>
    if cancelled then .ok s ()
    else
      let pg := { g with header := h }
      vbind (tstatus pg i) (fun st => if st = 2 then whileTask pg i else vpure ()) s
  | none =>
    match phaseOf s g.job g.header with
    | none => .ok s ()
    | some p => .ok (phaseNext s p cancelled) ()

/-! ## The walkers at work -/

/-- What a walker's work does. -/
def walkWork : WalkKind → VM Unit
  | .cmd c kind => graphCommand c kind
  | .taskEnd stack job header task out frec =>
    taskEnded { stack := stack, job := job, header := header } task out frec
  | .next stack job header => takeReady { stack := stack, job := job, header := header }
  | .never stack job header => neverStart { stack := stack, job := job, header := header }
  | .isOver stack job header cancelled => graphOver { stack := stack, job := job, header := header } cancelled

/-- The stack whose walker does a piece of work. -/
def walkStack : WalkKind → Nat
  | .cmd c _ => c.stack
  | .taskEnd stack _ _ _ _ _ => stack
  | .next stack _ _ => stack
  | .never stack _ _ => stack
  | .isOver stack _ _ _ => stack

/-- Remove the first command of a stack's GRAPH queue. -/
def popGraph (stack : Nat) : List (Nat × GraphCmd) → List (Nat × GraphCmd)
  | [] => []
  | q :: t => if q.2.stack = stack then t else q :: popGraph stack t

/-- A queued command leaves its queue when it has ended. -/
def walkEnded (s : State) (k : WalkKind) : State :=
  match k with
  | .cmd c _ => if c.queued then { s with graphQ := popGraph c.stack s.graphQ } else s
  | _ => s

/-- A walker's work ends with an error (R328; log 23). -/
def walkError (s : State) (k : WalkKind) (addr : Word) : State :=
  match k with
  | .cmd c _ => graphError s c addr
  | _ => vlogAdd s (walkStack k * 16) 6 addr (walkWho (walkStack k) 0)

/-- Do a piece of work, or let it wait for the page that it met. -/
def walkDo (s : State) (k : WalkKind) : State :=
  match walkWork k s with
  | .ok s _ => walkEnded s k
  | .page _ w kind va ty lv =>
    let (s, id) := faultEnter s w kind va ty lv
    { s with walks := s.walks ++ [{ kind := k, pages := [id] }] }
  | .err s _ a => walkEnded (walkError s k a) k
  | .wait s _ _ => { s with walks := s.walks ++ [{ kind := k, pages := [] }] }

/-- The first piece of work that waits for no page, and the others. -/
def takeWalk (s : State) : List WalkJob → Option (WalkJob × List WalkJob)
  | [] => none
  | j :: t =>
    if pagesOpen s j.pages = [] then some (j, t)
    else match takeWalk s t with
      | none => none
      | some (k, r) => some (k, j :: r)

/-- Do the walkers' work that can be done; `n` bounds the pieces. -/
def runWalks : Nat → State → State
  | 0, s => s
  | n + 1, s =>
    match takeWalk s s.walks with
    | none => s
    | some (j, rest) =>
      let s := { s with walks := rest }
      match pagesRejected s j.pages with
      | id :: _ => runWalks n (walkEnded (walkError s j.kind (pageVa s id)) j.kind)
      | [] => runWalks n (walkDo s j.kind)

/-- Do the walkers' work that an event has left. -/
def afterWalks (s : State) : State := runWalks (s.walks.length + 8) s

/-- A command already waits for a page. -/
def cmdWaits (s : State) (c : GraphCmd) (kind : Nat) : Bool :=
  s.walks.any fun j => decide (j.kind = .cmd c kind)

/-- A GRAPH command is taken: from the head of its stack's queue, or from the control window; none before the package is
ready for launches (R328, R356; log 8). -/
def takeGraph (s : State) (c : GraphCmd) (kind : Nat) : State :=
  if cmdWaits s c kind ∨ launchReady s = false then s
  else if c.queued then
    match s.graphQ.find? fun q => decide (q.2.stack = c.stack) with
    | some q => if q.1 = kind ∧ q.2 = c then afterWalks (walkDo s (.cmd c kind)) else s
    | none => s
  else afterWalks (walkDo s (.cmd c kind))

/-- TASK_START: none before the package is ready for launches (R325, R356; log 8). -/
def execTaskStart (stack job : Nat) (header : Word) (s : State) : Host.Outcome State Fault Refusal :=
  if launchReady s = false ∨ s.walks.any (fun j => decide (j.kind = .next stack job header)) = true then .next s
  else if s.graphs.any fun r => r.is job header && decide (r.stack = stack) && !r.ready.isEmpty then
    .next (afterWalks (walkDo s (.next stack job header)))
  else .next s

/-- GRAPH_START (R328). -/
def execGraphStart (c : GraphCmd) (s : State) : Host.Outcome State Fault Refusal := .next (takeGraph s c 0)

/-- GRAPH_RETRY (R328). -/
def execGraphRetry (c : GraphCmd) (s : State) : Host.Outcome State Fault Refusal := .next (takeGraph s c 1)

/-- GRAPH_ABANDON (R328). -/
def execGraphAbandon (c : GraphCmd) (s : State) : Host.Outcome State Fault Refusal :=
  .next (takeGraph s c 2)

/-- GRAPH_CANCEL (R328). -/
def execGraphCancel (c : GraphCmd) (s : State) : Host.Outcome State Fault Refusal :=
  .next (takeGraph s c 3)

/-- GRAPH_LAUNCH (R328). -/
def execGraphLaunch (c : GraphCmd) (s : State) : Host.Outcome State Fault Refusal :=
  .next (takeGraph s c 4)

/-! ## Cancelling levels (R49, R349) -/

/-- Cancel a graph by its header. -/
def cancelGraphAt (s : State) (job stack : Nat) (header : Word) : State :=
  afterWalks (walkDo s (.cmd
    { job := job, stack := stack, addr := header, task := 0, queued := false, core := 0, slot := 0
      lane := 0, id := 0 } 3))

/-- A START command that a phase has still to give. -/
def startsOf (p : Phase) (j : WalkJob) : Bool :=
  match j.kind with
  | .cmd c 0 => !c.queued && decide (c.job = p.job) && (p.headers.drop p.cur).contains c.addr
  | _ => false

/-- Cancel a phase: the graph that it runs, and those that it has not started, which never start (R49,
R329). -/
def cancelPhase (s : State) (p : Phase) : State :=
  if p.isOver then s
  else
    let s1 := endPhase s p
    let rest := p.headers.drop p.cur
    let idle := rest.filter fun h => !graphRuns s1 p.job h
    let s2 := { s1 with walks := (s1.walks.filter fun j => !startsOf p j) ++ idle.map (neverJob p) }
    match rest with
    | [] => s2
    | h :: _ => if graphRuns s1 p.job h then cancelGraphAt s2 p.job p.stack h else afterWalks s2

/-- Cancel a job: its phases, graphs and launches. -/
def cancelJob (s : State) (job : Nat) : State :=
  let s := (s.phases.filter fun p => decide (p.job = job)).foldl cancelPhase s
  let s := (s.graphs.filter fun r => decide (r.job = job) && decide (r.parent = none)).foldl
    (fun s r => cancelGraphAt s job r.stack r.header) s
  afterWalks ((s.launches.filter fun p => decide (p.2.job = job)).foldl
    (fun s p => cancelLaunch s p.1 false none) s)

/-- The graph, without parent, under which a graph runs; `n` bounds the depth. -/
def rootGraph (s : State) (job : Nat) : Nat → Word → Word
  | 0, h => h
  | n + 1, h =>
    match s.graphs.find? fun r => r.is job h with
    | none => h
    | some r =>
      match r.parent with
      | none => h
      | some p => rootGraph s job n p.1

end Sys2Proof.Machine
end

