-- ==== Sys2Proof/Machine/Granite.lean ====
section
/-! DEFINITION. The Granite bank, opcodes 0x90 to 0x9F (14 R205 to R233). -/

namespace Sys2Proof.Machine

/-! ## Cords and places (R205) -/

/-- Place `q` of a cord. -/
def place (s : Nat) (k : BitVec 1024) (q : Nat) : Int := signedOf s (k.toNat / 2 ^ (s * q))

/-- The places of a cord. -/
def placesList (s : Nat) (k : BitVec 1024) : List Int := (upTo (placesOf s)).map (place s k)

/-- The number with places from place `q` up. -/
def cordNat (s : Nat) : List Int → Nat
  | [] => 0
  | c :: t => (BitVec.ofInt s c).toNat + 2 ^ s * cordNat s t

/-- A cord of places; the bits above them are 0. -/
def cordOf (s : Nat) (l : List Int) : BitVec 1024 := BitVec.ofNat 1024 (cordNat s l)

/-- A value lies in the place range. -/
def inPlace (s : Nat) (v : Int) : Bool := decide (-(2 ^ (s - 1)) ≤ v) && decide (v < 2 ^ (s - 1))

/-- The lowest position of a list of exact values outside the place range. -/
def firstOut (s : Nat) : Nat → List Int → Option Nat
  | _, [] => none
  | q, v :: t => if inPlace s v then firstOut s (q + 1) t else some q

/-- A cord of the crew. -/
def cord (c : Crew) (k : Nat) : BitVec 1024 := mgetD c.cords k 0

/-- Write a cord of the crew at hand. -/
def setCord (x : Ctx) (s : State) (k : Nat) (v : BitVec 1024) : State :=
  modCrew s x.key fun c => writeCord c k v x.seq

/-! ## Common rules (R215, R216) -/

/-- The unit of the crew at hand. -/
def unitAt (x : Ctx) (s : State) : Option UnitSt := mget s.units x.c.uid

/-- A Granite instruction: ILLEGAL-CONVERGENCE, then RESERVATION as the check says, then PROTECTION for
a lane-0 operand without lane 0 (R215, R216). -/
def granite (x : Ctx) (s : State) (lane0 : Bool) (ok : UnitSt → Bool) (k : UnitSt → State → State) :
    State :=
  collective x s fun s =>
    match unitAt x s with
    | none => retire x s
    | some u =>
      if !ok u then trapAt x s clsResv 0 (liveMask x.c)
      else if lane0 && !inMask (liveMask x.c) 0 then trapAt x s clsProt 0 (liveMask x.c)
      else k u s

/-- An instruction that needs no column. -/
def noCols (_ : UnitSt) : Bool := true

/-- The unit holds a column. -/
def anyCols (u : UnitSt) : Bool := !u.cols.isEmpty

/-- The unit holds a column and the plane. -/
def planeOk (z : Nat) (u : UnitSt) : Bool := anyCols u && bitAt u.planes.toNat z

/-- A trap taken after the instruction, with its completed-lane mask 0 (R216). -/
def graniteAfter (x : Ctx) (s : State) (addr : Nat) (lanes : Mask) : State :=
  takeTrap (retire x s) x.key
    (mkTrap clsGuard x.start x.next (BitVec.ofNat 64 addr) lanes x.act).afterIt

/-! ## RESV, RLS and GUARD (R209, R217, R218) -/

/-- The first test of R209 fails. -/
def resvBad (s : State) (u : UnitSt) (c : Nat) : Bool :=
  let quota := match mget s.launches u.lid with
    | none => 0
    | some l => l.qCol
  decide ((liveCols s u.core).length < c ∨ (quota ≠ 0 ∧ quota < c))

/-- RESV (R217). -/
def execResv (h : Hdr) (pd : PCode) (c m : BitVec 4) : State → Host.Outcome State Fault Refusal :=
  gate (.resv h pd c m) fun x s =>
    granite x s false (fun u => !resvBad s u c.toNat) fun _ s =>
      match resvTry s x.c.uid c.toNat m.toNat with
      | (s, ok) => retire x (writePred x s 0 pd.toNat fun _ => ok)

/-- RESV.W: a request that cannot be granted waits (R217). -/
def execResvW (h : Hdr) (pd : PCode) (c m : BitVec 4) : State → Host.Outcome State Fault Refusal :=
  gate (.resvW h pd c m) fun x s =>
    granite x s false (fun u => !resvBad s u c.toNat) fun _ s =>
      match resvTry s x.c.uid c.toNat m.toNat with
      | (s, true) => retire x (writePred x s 0 pd.toNat fun _ => true)
      | (s, false) =>
        let p : Park := .resv c.toNat m.toNat pd.toNat
        retire x (modCrew s x.key fun c =>
          modThs c (lanesOf x.act) fun _ t => { t with park := p })

/-- RLS: planes and B-slices are discarded once earlier Granite instructions of the unit have taken effect, and
waiting requests are tried (R210, R212, R217). -/
def execRls (h : Hdr) : State → Host.Outcome State Fault Refusal :=
  gate (.rls h) fun x s =>
    granite x s false noCols fun u s =>
      if graniteBusy s x.c.uid then parkGroup x s (.granite true)
      else
        let s := modUnit s x.c.uid fun u =>
          { u with cols := [], planes := 0, zs := [], ovf := [], blocks := [] }
        retire x (grantWaiting s u.core)

/-- Write the guard register of the crew at hand. -/
def setGuard (x : Ctx) (s : State) (width g : Nat) (quiet : Bool) : State :=
  modCrew s x.key fun c => { c with width := width, guard := g, quiet := quiet }

/-- GUARD n (R218). -/
def execGuard (h : Hdr) (quiet : BitVec 1) (slot : BitVec 3) :
    State → Host.Outcome State Fault Refusal :=
  gate (.guard h quiet slot) fun x s =>
    granite x s false noCols fun _ s =>
      let w := slotWord (launchOf s x.c) slot.toNat
      retire x (setGuard x s (bits w 16 12) (bits w 21 17) (decide (quiet = 1)))

/-- GUARD wA (R218). -/
def execGuardReg (h : Hdr) (a : Code) (quiet : BitVec 1) :
    State → Host.Outcome State Fault Refusal :=
  gate (.guardReg h a quiet) fun x s =>
    granite x s true noCols fun _ s0 =>
      withSources x s0 [a.toNat] none fun s v =>
        let w := (v 0 a.toNat).toNat
        let width := bits w 6 0
        let g := bits w 13 8
        if width < 4 ∨ 64 < width ∨ width ≤ g then trapAt x s0 clsProt 0 x.act
        else retire x (setGuard x s width g (decide (quiet = 1)))

/-! ## Packing and extraction (R219 to R223) -/

/-- A lane's value, 0 for a lane that is not live (R215). -/
def liveVal (x : Ctx) (v : Nat → Nat → Word) (l code : Nat) : Word :=
  if inMask x.act l then v l code else 0

/-- EXPO of a slot. -/
def slotExpo (w : Nat) : Int := signedOf 8 (bits w 29 22)

/-- The integer that PACK places for an element, and whether it is inexact; none for a NaN or an
infinity (R219). -/
def packVal (kind mode : Nat) (e : Int) (v : Word) : Option (Int × Bool) :=
  match kindFmt kind with
  | some f =>
    match fdec f v.toNat with
    | .fin n m e0 => some (roundInt mode n m 1 (e0 + e))
    | _ => none
  | none =>
    let i := signedOf (kindInt kind) v.toNat
    some (roundInt mode (decide (i < 0)) i.natAbs 1 e)

/-- The place that PACK gives a lane; none when it is dropped (R219). -/
def packPlace (payload n l : Nat) : Option Nat :=
  let off := payload % 2 ^ 11
  if bitAt payload 23 then if l ≤ off ∧ off - l < n then some (off - l) else none
  else if off + l < n then some (off + l) else none

/-- PACK (R219). -/
def execPack (h : Hdr) (k : BitVec 4) (a b : Code) (slot : BitVec 3) :
    State → Host.Outcome State Fault Refusal :=
  gate (.pack h k a b slot) fun x s =>
    granite x s false noCols fun _ s =>
      withSources x s (cod2 a b) none fun s v =>
        let w := slotWord (launchOf s x.c) slot.toNat
        let sw := x.c.width
        let bound : Int := 2 ^ (sw - x.c.guard - 1)
        let at_ (l : Nat) : Option Nat := packPlace x.hn.payload (placesOf sw) l
        let val (l : Nat) : Option (Int × Bool) :=
          packVal (w % 16) x.hn.mode (signedOf 8 (v l b.toNat).toNat + slotExpo w) (v l a.toNat)
        let bad := maskOf fun l => inMask x.act l && (at_ l).isSome &&
          (match val l with
            | none => true
            | some t => decide (t.1 < -bound) || decide (bound ≤ t.1))
        if bad ≠ 0 then
          let low := (lanesOf bad).filterMap at_
          graniteAfter x s (k.toNat * 2 ^ 16 + low.foldl min (low.headD 0)) bad
        else
          let old := placesList sw (cord x.c k.toNat)
          let new := (lanesOf x.act).foldl (fun (p : List Int) l =>
            match at_ l, val l with
            | some q, some t => p.set q t.1
            | _, _ => p) old
          let s := writeFlags x s 0 fun l =>
            if (at_ l).isSome && ((val l).elim false (·.2)) then flagIX else 0
          retire x (setCord x s k.toNat (cordOf sw new))

/-- UNPK (R220). -/
def execUnpk (h : Hdr) (d : Code) (k : BitVec 4) (b : Code) (slot : BitVec 3) :
    State → Host.Outcome State Fault Refusal :=
  gate (.unpk h d k b slot) fun x s =>
    granite x s false noCols fun _ s =>
      withSources x s [b.toNat] (some d.toNat) fun s v =>
        let w := slotWord (launchOf s x.c) slot.toNat
        let sw := x.c.width
        let off := x.hn.payload % 2 ^ 11
        let res (l : Nat) : FRes :=
          let c := if off + l < placesOf sw then place sw (cord x.c k.toNat) (off + l) else 0
          roundI f32 1 c (signedOf 16 (v l b.toNat).toNat + slotExpo w)
        finishConv x s 0 d.toNat fun l => (res l).out

/-- Place `q` of a cord or of a pair, 0 beyond its end (R221). -/
def pairPlace (c : Crew) (k : Nat) (pair : Bool) (q : Nat) : Int :=
  let n := placesOf c.width
  if q < n then place c.width (cord c k) q
  else if pair && decide (q < 2 * n) then place c.width (cord c (k + 1)) (q - n)
  else 0

/-- KEXT (R221). -/
def execKext (h : Hdr) (d : Code) (k : BitVec 4) (b : Code) (pair : BitVec 1) :
    State → Host.Outcome State Fault Refusal :=
  gate (.kext h d k b pair) fun x s =>
    granite x s false noCols fun _ s =>
      withSources x s [b.toNat] (some d.toNat) fun s v =>
        finish x s 0 d.toNat fun l =>
          .known (wordOfInt (pairPlace x.c k.toNat (decide (pair = 1)) (bits (v l b.toNat).toNat 9 0)))

/-- KSLS (R222). -/
def execKsls (h : Hdr) (d a : BitVec 4) (b : Code) (pair : BitVec 1) :
    State → Host.Outcome State Fault Refusal :=
  gate (.ksls h d a b pair) fun x s =>
    granite x s true noCols fun _ s =>
      withSources x s [b.toNat] none fun s v =>
        let p := decide (pair = 1)
        let n := placesOf x.c.width
        let cnt := signedOf 10 (v 0 b.toNat).toNat
        let at_ (q : Nat) : Int :=
          let j : Int := (q : Int) - cnt
          if j < 0 ∨ ((if p then 2 * n else n : Nat) : Int) ≤ j then 0
          else pairPlace x.c a.toNat p j.toNat
        let s := setCord x s d.toNat (cordOf x.c.width ((upTo n).map at_))
        retire x (if p then
          setCord x s (d.toNat + 1) (cordOf x.c.width ((upTo n).map fun q => at_ (n + q))) else s)

/-- KADD (R223). -/
def execKadd (h : Hdr) (d a b : BitVec 4) (sub : BitVec 1) :
    State → Host.Outcome State Fault Refusal :=
  gate (.kadd h d a b sub) fun x s =>
    granite x s false noCols fun _ s =>
      let sw := x.c.width
      let ps := (placesList sw (cord x.c a.toNat)).zip (placesList sw (cord x.c b.toNat))
      let r := ps.map fun p => if sub = 1 then p.1 - p.2 else p.1 + p.2
      match firstOut sw 0 r with
      | some q => graniteAfter x s (d.toNat * 2 ^ 16 + q) x.act
      | none => retire x (setCord x s d.toNat (cordOf sw r))

/-! ## KLD and KST (R224) -/

/-- Bytes of a cord (R205). -/
def cordBytes (v : BitVec 1024) : List Byte := bytesOf 128 v.toNat

/-- The cords that an operation writes (R224, R227). -/
def OpKind.cords : OpKind → List Nat
  | .kld k _ => [k]
  | .mulkc k _ _ _ => [k, k + 1]
  | _ => []

/-- The memory form: one 128-byte access of lane 0. -/
def doCordMem (x : Ctx) (s : State) (a : Code) (kind : OpKind) (op : AccOp) : State :=
  granite x s true noCols fun _ s =>
    withSources x s [a.toNat] none fun s v =>
      let va := v 0 a.toNat + memOff x.hn
      let acc : Acc := { lane := 0, va := va, n := 128, op := op }
      let o := { newOp x s kind (laTrack x.hn) [acc] [] with kdst := kind.cords }
      if va.toNat % 128 ≠ 0 then issueFailed x s o clsProt (oneLane 0) va
      else issueOp x s o

/-- KLD (R224). -/
def execKld (h : Hdr) (k : BitVec 4) (a : Code) : State → Host.Outcome State Fault Refusal :=
  gate (.kld h k a) fun x s => doCordMem x s a (.kld k.toNat x.c.width) .read

/-- KST (R224). -/
def execKst (h : Hdr) (k : BitVec 4) (a : Code) : State → Host.Outcome State Fault Refusal :=
  gate (.kst h k a) fun x s => doCordMem x s a .kst (.write (cordBytes (trimCord x.c.width (cord x.c k.toNat))))

/-- First byte of a cord of a logical column's B-slice. -/
def cordAt (uid : Nat) (u : UnitSt) (j idx : Nat) : Nat :=
  columnOf uid (u.cols.getD j 0) + 128 * idx

/-- KST.B waits for no block: it is performed at once, unless lane 0 has an earlier access that R188 keeps before it
(R163, R188, R191, R224; log 71). -/
def storeNow (x : Ctx) (s : State) (o : Op) (r : Req) : State :=
  match mget s.crews x.key with
  | none => s
  | some c =>
    match opOf c o.id with
    | none => s
    | some o => if r.stores && canPerform s c o r then performList x.key x.w o.id s [r] else s

/-- The B-slice form: the request goes straight to the cord. -/
def doCordB (x : Ctx) (s : State) (a : Code) (kind : OpKind) (op : AccOp) : State :=
  granite x s true anyCols fun u s0 =>
    withSources x s0 [a.toNat] none fun s v =>
      let w := v 0 a.toNat
      let j := w.toNat % 8
      let idx := bits w.toNat 26 16
      if u.cols.length ≤ j then trapAt x s0 clsResv 0 (liveMask x.c)
      else
        let o := { newOp x s kind (laTrack x.hn) [] [] with kdst := kind.cords }
        if w.toNat ≠ idx * 2 ^ 16 + j then issueFailed x s o clsProt (oneLane 0) w
        else
          let r := { newReq s.nextId { lane := 0, va := w, n := 128, op := op } (w, 128, op)
            (cordAt x.c.uid u j idx) tyCord .waiting with lane := 0 }
          let s := { s with nextId := s.nextId + 1 }
          let o := { o with id := s.nextId, reqs := [r] }
          storeNow x (issueOp x s o) o r

/-- KLD.B (R224). -/
def execKldB (h : Hdr) (k : BitVec 4) (a : Code) : State → Host.Outcome State Fault Refusal :=
  gate (.kldB h k a) fun x s => doCordB x s a (.kld k.toNat x.c.width) .read

/-- KST.B (R224). -/
def execKstB (h : Hdr) (k : BitVec 4) (a : Code) : State → Host.Outcome State Fault Refusal :=
  gate (.kstB h k a) fun x s => doCordB x s a .kst (.write (cordBytes (trimCord x.c.width (cord x.c k.toNat))))

/-! ## B-pointer (R225) -/

/-- BPTR (R225). -/
def execBptr (h : Hdr) (a b : Code) : State → Host.Outcome State Fault Refusal :=
  gate (.bptr h a b) fun x s =>
    granite x s true noCols fun _ s =>
      withSources x s (cod2 a b) none fun s v =>
        retire x (modCrew s x.key fun c =>
          { c with bptr := bits (v 0 a.toNat).toNat 10 0, bstep := bits (v 0 b.toNat).toNat 10 0 })

/-- BPTR.RD (R225). -/
def execBptrRd (h : Hdr) (d : Code) : State → Host.Outcome State Fault Refusal :=
  gate (.bptrRd h d) fun x s =>
    granite x s false noCols fun u s =>
      withSources x s [] (some d.toNat) fun s _ =>
        finish x s 0 d.toNat fun l =>
          if l < u.cols.length then
            .known (BitVec.ofNat 64 (u.cols.getD l 0 * 2 ^ 32 + x.c.bstep * 2 ^ 16 + x.c.bptr))
          else .known (BitVec.allOnes 64)

/-! ## The multiplications (R226, R227) -/

/-- Key of a plane cord or an overflow bit. -/
def zKey (z row col : Nat) : Nat := (z * 32 + row) * 8 + col

/-- One row and column of MULK.S: the unit with its plane cord updated, or its overflow bit set
(R226). -/
def mulOne (sw z row col : Nat) (a : Int) (b : List Int) (u : UnitSt) : UnitSt × Bool :=
  if a = 0 then
    match mget u.zs (zKey z row col) with
    | none => (u, false)
    | some v => ({ u with zs := mput u.zs (zKey z row col) (trimCord sw v) }, false)
  else
    let t := ((placesList sw (mgetD u.zs (zKey z row col) 0)).zip b).map fun p => p.1 + a * p.2
    match firstOut sw 0 t with
    | some _ =>
      ({ u with ovf := if u.ovf.contains (zKey z row col) then u.ovf else zKey z row col :: u.ovf }, true)
    | none => ({ u with zs := mput u.zs (zKey z row col) (cordOf sw t) }, false)

/-- Every row and column of MULK.S: the unit, and the recorded (row, logical column) pairs. -/
def mulAll (sw z : Nat) (rows : Nat → Int) (cols : List (Nat × Nat × List Int)) (u : UnitSt) :
    UnitSt × List (Nat × Nat) :=
  lanes.foldl (fun (r : UnitSt × List (Nat × Nat)) i =>
    cols.foldl (fun (r : UnitSt × List (Nat × Nat)) c =>
      match mulOne sw z i c.2.1 (rows i) c.2.2 r.1 with
      | (u, true) => (u, r.2 ++ [(i, c.1)])
      | (u, false) => (u, r.2)) r) (u, [])

/-- Work that reads one cord of each held column whole; an absent block makes it wait (R226, R231). -/
def readCords (w : Who) (uid : Nat) (u : UnitSt) (idx : Nat) : List Nat → VM (List (BitVec 1024))
  | [] => vpure []
  | j :: t => fun s =>
    let phys := cordAt uid u j idx
    if !presentAll s phys 128 then .wait s phys 128
    else match readTgt s w 0 phys 128 false with
      | (s, none) => .err s clsProt 0
      | (s, some b) =>
        vbind (readCords w uid u idx t) (fun r => vpure (BitVec.ofNat 1024 (natOf b) :: r)) s

/-- MULK.S; it comes after the crew's earlier stores of B-slices (R224, R226; log 71). -/
def execMulkS (h : Hdr) (z : BitVec 2) (a : Code) : State → Host.Outcome State Fault Refusal :=
  gate (.mulkS h z a) fun x s =>
    granite x s false (planeOk z.toNat) fun u s0 =>
      if cordStores x.c then parkGroup x s0 (.granite false)
      else
      let s0 := spend s0 (stackOf x.c.core) 0
      let sw := x.c.width
      vrun x s0 (oneLane 0) (readCords x.w x.c.uid u x.c.bptr (upTo u.cols.length)) fun s ks =>
        withSources x s [a.toNat] none fun s v =>
          let rows (i : Nat) : Int := signedOf 16 (liveVal x v i a.toNat).toNat
          let cols := (withPos 0 (u.cols.zip ks)).map fun p => (p.1, p.2.1, placesList sw p.2.2)
          let (u', rec_) := mulAll sw z.toNat rows cols u
          let s := modUnit s x.c.uid fun u =>
            { u with zs := u'.zs, ovf := u'.ovf }
          let s := modCrew s x.key fun c => { c with bptr := (c.bptr + c.bstep) % 2048 }
          if rec_ = [] ∨ x.c.quiet = true then retire x s
          else
            let cm := ((upTo 8).filter fun j => rec_.any fun p => decide (p.2 = j)).foldl
              (fun n j => n + 2 ^ j) 0
            graniteAfter x s (z.toNat * 2 ^ 8 + cm) (maskOf fun i => rec_.any fun p => decide (p.1 = i))

/-- Place `k` of the product of two place vectors (R227). -/
def convPlace (a b : List Int) (n k : Nat) : Int :=
  ((upTo n).map fun q => if q ≤ k ∧ k - q < n then a.getD q 0 * b.getD (k - q) 0 else 0).foldl (· + ·) 0

/-- MULK.C (R227). -/
def execMulkC (h : Hdr) (d a b : BitVec 4) : State → Host.Outcome State Fault Refusal :=
  gate (.mulkC h d a b) fun x s =>
    granite x s false anyCols fun _ s =>
      let sw := x.c.width
      let n := placesOf sw
      let pa := placesList sw (cord x.c a.toNat)
      let pb := placesList sw (cord x.c b.toNat)
      let t := (upTo (2 * n)).map (convPlace pa pb n)
      let ovf := (firstOut sw 0 t).map fun q => d.toNat * 2 ^ 16 + q
      let kind : OpKind := .mulkc d.toNat (cordOf sw (t.take n)) (cordOf sw (t.drop n)) ovf
      issueOp x (spend s (stackOf x.c.core) 0) { newOp x s kind (laTrack x.hn) [] [] with kdst := kind.cords }

/-! ## Reading and clearing planes (R228 to R230) -/

/-- Cord Z[row, j] of a plane, by logical column. -/
def planeCord (u : UnitSt) (z row j : Nat) : BitVec 1024 :=
  mgetD u.zs (zKey z row (u.cols.getD j 0)) 0

/-- ACCRD (R228). -/
def execAccrd (h : Hdr) (k : BitVec 4) (z : BitVec 2) (b : Code) :
    State → Host.Outcome State Fault Refusal :=
  gate (.accrd h k z b) fun x s =>
    granite x s true (planeOk z.toNat) fun u s =>
      withSources x s [b.toNat] none fun s v =>
        let w := (v 0 b.toNat).toNat
        let j := bits w 10 8
        if u.cols.length ≤ j then trapAt x s clsResv 0 (liveMask x.c)
        else retire x (setCord x s k.toNat (trimCord x.c.width (planeCord u z.toNat (bits w 4 0) j)))

/-- The logical columns whose overflow bit of a row is set (R228). -/
def ovfMask (u : UnitSt) (z row : Nat) : Nat :=
  (withPos 0 u.cols).foldl (fun n p => if u.ovf.contains (zKey z row p.2) then n + 2 ^ p.1 else n) 0

/-- ACCRD.OV (R228). -/
def execAccrdOv (h : Hdr) (d : Code) (z : BitVec 2) : State → Host.Outcome State Fault Refusal :=
  gate (.accrdOv h d z) fun x s =>
    granite x s false (planeOk z.toNat) fun u s =>
      withSources x s [] (some d.toNat) fun s _ =>
        finish x s 0 d.toNat fun l => .known (BitVec.ofNat 64 (ovfMask u z.toNat l))

/-- ACCZ (R229). -/
def execAccz (h : Hdr) (z : BitVec 2) : State → Host.Outcome State Fault Refusal :=
  gate (.accz h z) fun x s =>
    granite x s false (planeOk z.toNat) fun _ s =>
      retire x (modUnit s x.c.uid fun u =>
        { u with zs := u.zs.filter fun p => decide (zPlane p.1 ≠ z.toNat)
                 ovf := u.ovf.filter fun k => decide (zPlane k ≠ z.toNat) })

/-- ACCCV; its columns are checked before its destination port (R216, R230). -/
def execAcccv (h : Hdr) (d : Code) (z : BitVec 2) (b : Code) (slot : BitVec 3) :
    State → Host.Outcome State Fault Refusal :=
  gate (.acccv h d z b slot) fun x s =>
    granite x s false (planeOk z.toNat) fun u s0 =>
      withSources x s0 [b.toNat] none fun s v =>
        let w := slotWord (launchOf s x.c) slot.toNat
        let sw := x.c.width
        let bad := (lanesOf x.act).any fun l => decide (u.cols.length ≤ bits (v l b.toNat).toNat 10 8)
        if bad then trapAt x s0 clsResv 0 (liveMask x.c)
        else if unboundPort x.c d.toNat then trapAt x s0 clsProt 0 x.act
        else
          let res (l : Nat) : FRes :=
            let e := (v l b.toNat).toNat
            let q := e % 2 ^ 8
            let c := if q < placesOf sw then place sw (planeCord u z.toNat l (bits e 10 8)) q else 0
            roundI f32 x.hn.mode c (signedOf 16 (e / 2 ^ 16) + slotExpo w)
          finishConv x s 0 d.toNat fun l => (res l).out

end Sys2Proof.Machine
end

