-- ==== Sys2Proof/Machine/TermWork.lean ====
section
/-! DEFINITION. Tagged terms: words, a lane's steps, and the work that a term instruction gives each lane:
dereferencing, binding, unwinding, unification, choice points and COMMIT (16 R235 to R263). -/

namespace Sys2Proof.Machine

/-! ## Words (R235, R236) -/

/-- The tag of a term word. -/
def termTag (w : Word) : Nat := w.toNat / 2 ^ 60

/-- The address payload of a term word. -/
def termAddr (w : Word) : Word := BitVec.ofNat 64 (w.toNat % 2 ^ 57)

/-- A term word from its tag and payload. -/
def termWord (tag payload : Nat) : Word := BitVec.ofNat 64 (tag * 2 ^ 60 + payload % 2 ^ 60)

/-- REF to an address. -/
def refTo (a : Word) : Word := termWord 1 a.toNat

/-- A word that raises TERM-TAG when a term instruction meets it (R236). -/
def badWord (w : Word) : Bool :=
  let v := w.toNat
  match termTag w with
  | 0 => decide (v ≠ 0)
  | 1 | 5 | 7 | 8 => decide (bits v 59 57 ≠ 0 ∨ v % 8 ≠ 0)
  | 4 => decide (bits v 59 32 ≠ 0)
  | 2 | 3 | 6 => false
  | _ => true

/-! ## A lane's registers and accesses -/

/-- A lane of a term instruction at work. -/
structure TLane where
  x : Ctx
  l : Nat

/-- Who makes the lane's accesses. -/
def TLane.w (t : TLane) : Who := { t.x.w with lanes := oneLane t.l }

/-- A special register of the term instructions, by its code (R65). -/
def tspec (t : TLane) (code : Nat) (s : State) : Word :=
  match mget s.crews t.x.key with
  | none => 0
  | some c => if code = 15 then c.cheap else specOf (progTh c t.l) code

/-- Write a special register of the term instructions. -/
def tset (t : TLane) (code : Nat) (v : Word) (s : State) : State :=
  modCrew s t.x.key fun c => completeW c t.l (.spec code v) t.x.seq

/-- Read a word of a type-0xA page. -/
def tload (t : TLane) (va : Word) : VM Word := vread64 t.w .termLoad va

/-- Write a word of a type-0xA page. -/
def tstore (t : TLane) (va v : Word) : VM Unit := vwrite64 t.w .termWrite va v

/-- Change a word of a type-0xA page by an atomic of the lane. -/
def tatomic (t : TLane) (va : Word) (f : Word → Option Word) : VM Word := vatomic64 t.w va f

/-- The launch of the lane is ordered, and the program runs. -/
def tordered (t : TLane) (s : State) : Bool :=
  match launchOf s t.x.c with
  | none => false
  | some l => l.ordered && !t.x.c.priv

/-- A flint cell's value word with its generation, from its home. -/
def cellHome (t : TLane) (va : Word) (phys : Nat) : VM (Word × Gen) := fun s =>
  match readTgt s t.w va phys 16 false with
  | (s, some b) => .ok s (wordOf (b.take 8), some (genOf (wordOf (b.drop 8))))
  | (s, none) => .err s clsProt va

/-- A flint cell's value word with its generation: at launch start in an ordered launch, from the
flint cache where that serves, or from the home (R240, R265, R306). -/
def cellWord (t : TLane) (va : Word) (phys : Nat) : VM (Word × Gen) := fun s =>
  if tordered t s then
    let snap := snapOf s t.w.lid
    .ok s (wordOf (cellsGet snap phys 8), some (genOf (wordOf (cellsGet snap (phys + 8) 8))))
  else
    match s.fcache.find? fun e => decide (e.1 = t.w.core ∧ e.2.1 = phys) with
    | some (_, _, g, v, _) =>
      let s1 := { s with free := s.free + 1 }
      if Config.flintServes s.free then .ok s1 (v, some g) else cellHome t va phys s1
    | none => cellHome t va phys s

/-- The word of a variable or value in term space or flint space (R237). -/
def varRead (t : TLane) (va : Word) : VM (Word × Gen) :=
  vbind (vxlat t.w .termRead va) fun (phys, ty) s =>
    if ty = 9 then
      if va.toNat % 16 = 0 then cellWord t va phys s else .err s clsProt va
    else vbind (tload t va) (fun c => vpure (c, none)) s

/-- Propose a word to a flint cell for a generation (R244, R265, R310). -/
def bindCell (t : TLane) (v : Word) (g : BitVec 16) (w : Word) : VM BindOut :=
  vbind (vxlat t.w .flintWrite v) fun (phys, _) s =>
    if tordered t s then .err s clsProt v
    else if badCellTag w.toNat then .err s clsTag 0
    else
      match proposeHome (spendAccess s t.w phys) t.w v phys w g (winnerOf t.w.core t.w.slot t.l false) with
      | (s, none) => .err s clsProt v
      | (s, some (val, st)) =>
        .ok s (if bits st.toNat 17 16 = 2 then .stale else .cell (decide (bits st.toNat 17 16 = 0)) val)

/-- The generation of a flint cell at its home. -/
def homeGen (t : TLane) (v : Word) : VM (BitVec 16) :=
  vbind (vxlat t.w .flintWrite v) fun (phys, _) s => .ok s (BitVec.ofNat 16 (rd64 s (phys + 8)))

/-- The word that a variable held before another lane of the same COMMIT committed it (R263). -/
def committedOld (logs : Map TLog) (lane : Nat) (va : Word) : Option Word :=
  (logs.filter fun p => decide (p.1 ≠ lane)).findSome? fun p => p.2.findSome? fun e =>
    match e.1 with
    | .commit a old _ => if a = va then some old else none
    | _ => none

/-- A higher lane of the same COMMIT has committed a variable: its word is the last one written (R263). -/
def committedAbove (logs : Map TLog) (lane : Nat) (va : Word) : Bool :=
  logs.any fun p => decide (lane < p.1) && p.2.any fun e =>
    match e.1 with
    | .commit a _ _ => decide (a = va)
    | _ => false

/-- Do one step of a lane; `logs` are the steps of the instruction's lanes so far. -/
def tstep (t : TLane) (logs : Map TLog) : TAcc → VM TVal
  | .get code n => fun s =>
    let v := tspec t code s
    .ok s (if v.toNat % n = 0 then .word v none else .fail clsProt v)
  | .set code v => fun s => .ok (tset t code v s) (.word 0 none)
  | .take code n => fun s =>
    let v := tspec t code s
    if v.toNat % 8 = 0 then .ok (tset t code (v + BitVec.ofNat 64 n) s) (.word v none)
    else .ok s (.fail clsProt v)
  | .load va => vbind (tload t va) fun w => vpure (.word w none)
  | .store va v => vbind (tstore t va v) fun _ => vpure (.word 0 none)
  | .scrap va => fun s =>
    vbind (tstore t va (Config.freeWord s.free)) (fun _ =>
      vbind (tstore t (va + 8) (Config.freeWord (s.free + 1))) fun _ => vpure (.word 0 none))
      { s with free := s.free + 2 }
  | .swap va v => vbind (tatomic t va fun o => if o = 0 then some v else none) fun o => vpure (.word o none)
  | .mark va l => vbind (tatomic t va fun o => some (o ||| BitVec.ofNat 64 (2 ^ l))) fun o => vpure (.word o none)
  | .unmark va l =>
    vbind (tatomic t va fun o => some (o &&& ~~~ (BitVec.ofNat 64 (2 ^ l)))) fun o => vpure (.word o none)
  | .var va => vbind (varRead t va) fun r => vpure (.word r.1 r.2)
  | .propose va v g => vbind (bindCell t va g v) fun b => vpure (.bound b)
  | .gen va => vbind (homeGen t va) fun g => vpure (.word 0 (some g))
  | .was va => vbind (tload t va) fun w => vpure (.word ((committedOld logs t.l va).getD w) none)
  | .commit va _ v =>
    vbind (if committedAbove logs t.l va then vbind (vxlat t.w .termWrite va) fun _ => vpure () else tstore t va v)
      fun _ => vpure (.word 0 none)

/-- Where a step accesses memory: its first byte, their number, what it needs of the page, and whether it writes. -/
def TAcc.place : TAcc → Option (Word × Nat × AccKind × Bool)
  | .get .. | .set .. | .take .. => none
  | .load va | .was va => some (va, 8, .termLoad, false)
  | .var va => some (va, 8, .termRead, false)
  | .store va _ | .commit va _ _ => some (va, 8, .termWrite, true)
  | .scrap va => some (va, 16, .termWrite, true)
  | .swap va _ | .mark va _ | .unmark va _ => some (va, 8, .termAtomic, true)
  | .propose va _ _ => some (va, 16, .flintWrite, true)
  | .gen va => some (va, 16, .flintWrite, false)

/-- The state in which a step is done, with the lane's earlier stores marked that a write goes ahead of; none where it
waits: for the lane's own stores to its bytes, for a store that must be seen first, or for stores that a write cannot
go ahead of (R186 to R188, R249). -/
def tgate (t : TLane) (a : TAcc) (s : State) : Option State :=
  match a.place, mget s.crews t.x.key with
  | some (va, n, k, wr), some c =>
    match xlat s t.w k va with
    | (_, .ok phys _) =>
      let qs := ((c.ops.filter fun o => decide (o.priv = t.x.c.priv ∧ o.seq < t.x.seq)).map (storesOf t.l)).flatten
      if qs.any (fun q => meets q.phys q.n phys n) || veiled s t.w (some t.l) phys n then none
      else if !wr || qs.isEmpty then some s
      else if qs.all (fun q => q.stores && decide (q.fenced ≤ 4)) &&
          quietBytes s { c with priv := t.x.c.priv } t.l 4 [] [(phys, n)] then
        some (markAhead s t.x.key phys n qs)
      else none
    | _ => some s
  | _, _ => some s

/-- Do one step of a lane, or wait with it. -/
def tdo (t : TLane) (logs : Map TLog) (a : TAcc) : VM TVal := fun s =>
  match tgate t a s with
  | some s => tstep t logs a s
  | none => .wait s 0 0

/-! ## Work in steps -/

/-- The work of a lane: what it answers, a fault, work that never ends, or a step and what follows it
(R249). -/
inductive TProg (α : Type) where
  | ret (a : α)
  | fail (cls : Nat) (addr : Word)
  | stuck
  | step (a : TAcc) (k : TVal → TProg α)

/-- One piece of work after another. -/
def TProg.bind {α β : Type} : TProg α → (α → TProg β) → TProg β
  | .ret a, f => f a
  | .fail c a, _ => .fail c a
  | .stuck, _ => .stuck
  | .step a k, f => .step a fun v => (k v).bind f

/-- Do work to its end. -/
def TProg.run {α : Type} (d : TAcc → VM TVal) : TProg α → VM α
  | .ret a => vpure a
  | .fail c a => verr c a
  | .stuck => fun s => .wait s 0 0
  | .step a k => vbind (d a) fun v =>
    match v with
    | .fail c a => verr c a
    | v => (k v).run d

/-- What is left of work whose first steps have been done. -/
def TProg.after {α : Type} : TProg α → List (TAcc × TVal) → TProg α
  | p, [] => p
  | .step _ k, (_, v) :: t =>
    match v with
    | .fail c a => .fail c a
    | v => (k v).after t
  | p, _ :: _ => p

/-- Where work has come to. -/
inductive TEnd (α : Type) where
  | ret (a : α)
  | fail (cls : Nat) (addr : Word)
  | page (w : Who) (k : AccKind) (va : Word) (ty level : Nat)
  /-- It has not ended: its steps are spent, or it never ends. -/
  | open_

/-- Do work for some steps, or to its end; the log holds the steps done. -/
def TProg.go {α : Type} (d : TAcc → VM TVal) : TProg α → Option Nat → State → TLog → State × TLog × TEnd α
  | .ret a, _, s, log => (s, log, .ret a)
  | .fail c a, _, s, log => (s, log, .fail c a)
  | .stuck, _, s, log => (s, log, .open_)
  | .step a k, n, s, log =>
    if n = some 0 then (s, log, .open_)
    else
      match d a s with
      | .ok s v =>
        match v with
        | .fail c va => (s, (a, v) :: log, .fail c va)
        | v => (k v).go d (n.map (· - 1)) s ((a, v) :: log)
      | .err s c va => (s, (a, .fail c va) :: log, .fail c va)
      | .page s w kind va ty lv => (s, log, .page w kind va ty lv)
      | .wait s _ _ => (s, log, .open_)

/-- The word of a step. -/
def TVal.w : TVal → Word
  | .word w _ => w
  | _ => 0

/-- The generation read by a step. -/
def TVal.g : TVal → Gen
  | .word _ g => g
  | _ => none

/-- A step that gives a word. -/
def tword (a : TAcc) : TProg Word := .step a fun v => .ret v.w

/-- A step that gives nothing. -/
def tunit (a : TAcc) : TProg Unit := .step a fun _ => .ret ()

/-- Work that ends in nothing after work that does. -/
def TProg.andThen {β : Type} (p : TProg Unit) (q : TProg β) : TProg β := p.bind fun _ => q

/-- %heap where it is used: a misaligned special register raises PROTECTION (R239). -/
def theap : TProg Word := tword (.get 14 8)
/-- %trail. -/
def ttrail : TProg Word := tword (.get 16 16)
/-- %choice. -/
def tchoice : TProg Word := tword (.get 17 16)
/-- %pdl. -/
def tpdl : TProg Word := tword (.get 18 16)

/-- A word met at an address is checked (R236). -/
def tcheck (w va : Word) : TProg Unit := if badWord w then .fail clsTag va else .ret ()

/-! ## Vectors (R242) -/

/-- The header word of a new vector of the lane's crew. -/
def vecHeader (t : TLane) (mask : Nat) : Word :=
  BitVec.ofNat 64 (t.x.c.core * 2 ^ 48 + t.x.c.slot * 2 ^ 40 + mask)

/-- The lane's crew owns the vector of a header. -/
def vecOwned (t : TLane) (h : Word) : Bool :=
  decide (bits h.toNat 55 48 = t.x.c.core ∧ bits h.toNat 45 40 = t.x.c.slot)

/-- MASK has a lane's bit. -/
def vecHas (h : Word) (l : Nat) : Bool := bitAt h.toNat l

/-- A lane's slot in a vector. -/
def vecSlot (v : Word) (l : Nat) : Word := wordAt v (1 + l)

/-! ## Dereferencing (R240) -/

/-- What dereferencing gives: a word, the generation read with it, and its address for a fault, 0 for one from a
register (R236). -/
structure Deref where
  w : Word
  g : Gen
  at_ : Word
  deriving DecidableEq, Repr

/-- Follow a word found at an address, for at most `n` more words; `a` is the last variable met. -/
def derefFrom (t : TLane) : Nat → Word → Word → Word → TProg Deref
  | 0, _, _, a => .fail clsTag a
  | n + 1, w, at_, _ =>
    if termTag w = 1 then
      let a := termAddr w
      .step (.var a) fun r =>
        (tcheck r.w a).andThen <|
          if termTag r.w = 0 then .ret { w := refTo a, g := r.g, at_ := at_ }
          else if termTag r.w = 8 then
            (tword (.load (termAddr r.w))).bind fun h =>
              if vecOwned t h && vecHas h t.l then
                let slot := vecSlot (termAddr r.w) t.l
                (tword (.load slot)).bind fun b => (tcheck b slot).andThen (derefFrom t n b slot a)
              else .ret { w := refTo a, g := r.g, at_ := at_ }
          else derefFrom t n r.w a a
    else if termTag w = 8 then .fail clsTag at_
    else .ret { w := w, g := none, at_ := at_ }

/-- Dereference a word that stands at an address, or comes from a register: address 0. -/
def deref (t : TLane) (w at_ : Word) : TProg Deref := (tcheck w at_).andThen (derefFrom t 4097 w at_ 0)

/-! ## The trail and the push-down list (R239, R243) -/

/-- Write a trail entry. -/
def trailPush (t : TLane) (kind : Nat) (v old : Word) : TProg Unit :=
  ttrail.bind fun tr =>
    let w0 : Word := BitVec.ofNat 64 (kind * 2 ^ 61 + t.l * 2 ^ 56 + v.toNat % 2 ^ 57 / 8)
    (tunit (.store tr w0)).andThen <| (tunit (.store (tr + 8) old)).andThen <| tunit (.set 16 (tr + 16))

/-- Word 1 of a term header: OC and PEND. -/
def pdlWord (oc : Bool) (pend : Nat) : Word :=
  BitVec.ofNat 64 ((if oc then 2 ^ 32 else 0) + pend % 2 ^ 32)

/-- The address of pair `i` of the push-down list at `p`. -/
def pairAt (p : Word) (i : Nat) : Word := wordAt p (2 + 2 * i)

/-- The lane's %pdl with its pending count and occurs check. -/
def pdlState : TProg (Word × Nat × Bool) :=
  tpdl.bind fun p => (tword (.load (p + 8))).bind fun w => .ret (p, w.toNat % 2 ^ 32, bitAt w.toNat 32)

/-- Push a pair. -/
def pdlPush (a b : Word) : TProg Unit :=
  pdlState.bind fun (p, n, oc) =>
    (tunit (.store (pairAt p n) a)).andThen <| (tunit (.store (pairAt p n + 8) b)).andThen <|
      tunit (.store (p + 8) (pdlWord oc (n + 1)))

/-! ## Binding (R238, R241, R244) -/

/-- An address lies in the lane's own lane heap (R238). -/
def inHeap (v : Word) : TProg Bool :=
  theap.bind fun h => tpdl.bind fun p => (tword (.load p)).bind fun w =>
    .ret (decide (w.toNat % 2 ^ 57 ≤ v.toNat ∧ v.toNat < h.toNat))

/-- Take a vector from the crew heap, empty (R244, R253). -/
def newVector (t : TLane) : TProg Word :=
  (tword (.take 15 264)).bind fun v =>
    ((upTo 33).foldr (fun i p =>
      (tunit (.store (wordAt v i) (if i = 0 then vecHeader t 0 else 0))).andThen p) (.ret ())).andThen (.ret v)

/-- Bind a variable that holds a vector: fill the lane's slot; the PROTECTION of a vector of another crew reports the
variable (R244; DESIGN CHOICE for ADDR, log 79). -/
def bindSlot (t : TLane) (v c w : Word) : TProg BindOut :=
  let vec := termAddr c
  (tword (.load vec)).bind fun h =>
    if vecOwned t h then
      (tunit (.store (vecSlot vec t.l) w)).andThen <| (tunit (.mark vec t.l)).andThen <|
        (trailPush t 1 v c).andThen (.ret .done)
    else .fail clsProt v

/-- Bind a variable that holds a word other than UNB, or find it bound. -/
def bindHeld (t : TLane) (v c w : Word) : TProg BindOut :=
  (tcheck c v).andThen <| if termTag c = 8 then bindSlot t v c w else .ret .found

/-- Bind a variable that holds UNB as a shared one: it becomes lane-dependent (R244). -/
def bindShared (t : TLane) (v w : Word) : TProg BindOut :=
  (newVector t).bind fun vec =>
    (tunit (.swap v (termWord 8 vec.toNat))).andThen <|
      (tword (.load v)).bind fun c => bindHeld t v c w

/-- Bind variable `v` to a word (R244). -/
def bindVar (t : TLane) (v : Word) (g : Gen) (w : Word) : TProg BindOut :=
  match g with
  | some p => .step (.propose v w p) fun r =>
    match r with
    | .bound b => .ret b
    | _ => .ret .found
  | none =>
    (tword (.load v)).bind fun c =>
      if c = 0 then
        (inHeap v).bind fun own =>
          if own then
            (tword (.swap v w)).bind fun old =>
              if old = 0 then (trailPush t 0 v 0).andThen (.ret .done)
              else (tword (.load v)).bind fun c =>
                if c = 0 then bindShared t v w else bindHeld t v c w
          else bindShared t v w
      else bindHeld t v c w

/-- The choice of R241 between two unbound variables: the one bound, with its generation, and the
other one. -/
def chooseVar (a b : Word) (ga gb : Gen) : TProg (Word × Gen × Word) :=
  (inHeap a).bind fun ha => (inHeap b).bind fun hb =>
    let first :=
      if ha != hb then ha
      else if ga.isSome != gb.isSome then gb.isSome
      else decide (b.toNat < a.toNat)
    .ret (if first then (a, ga, refTo b) else (b, gb, refTo a))

/-! ## Unification (R255) -/

/-- The words below a compound term, whose header word is checked: the arguments of an STR, or head and tail
(R235, R236, R252). -/
def subTerms (w : Word) : TProg (List Word) :=
  let a := termAddr w
  if termTag w = 5 then
    (tword (.load a)).bind fun h =>
      if termTag h = 6 then .ret ((upTo (h.toNat % 256)).map fun i => refTo (wordAt a (i + 1)))
      else .fail clsTag a
  else if termTag w = 7 then .ret [refTo a, refTo (a + 8)]
  else .ret []

/-- The bound on the words of an occurs check, on the frames of a %choice chain and on the proposals of a BIND
(log 11). -/
def termFuel : Nat := 2 ^ 64

/-- Variable `v` occurs in one of the terms of a list; the words still to be examined make the check's own entries
above the `n` pending pairs (R255; log 11). -/
def occurs (t : TLane) (v p : Word) (n : Nat) : Nat → List Word → TProg Bool
  | _, [] => .ret false
  | 0, _ => .stuck
  | fuel + 1, w :: rest =>
    (deref t w 0).bind fun d =>
      if d.w = refTo v then .ret true
      else (subTerms d.w).bind fun sub =>
        ((upTo sub.length).foldr (fun i q => (tunit (.scrap (pairAt p (n + rest.length + i)))).andThen q)
          (.ret ())).andThen (occurs t v p n fuel (sub ++ rest))

/-- The occurs check of a binding (R255). -/
def occursIn (t : TLane) (v w : Word) : TProg Bool :=
  pdlState.bind fun (p, n, _) => occurs t v p n termFuel [w]

/-- Push what a binding leaves to unify (R244). -/
def bindPush (v w : Word) : BindOut → TProg Unit
  | .done => .ret ()
  | .cell _ val => pdlPush val w
  | .stale | .found => pdlPush (refTo v) w

/-- Bind in a unification, after the occurs check; false is failure. -/
def unifyBind (t : TLane) (oc : Bool) (v : Word) (g : Gen) (w : Word) : TProg Bool :=
  (if oc && (decide (termTag w = 5) || decide (termTag w = 7)) then occursIn t v w else .ret false).bind fun hit =>
    if hit then .ret false else (bindVar t v g w).bind fun r => (bindPush v w r).andThen (.ret true)

/-- Push pairs, the last one first. -/
def pushAll : List (Word × Word) → TProg Unit
  | [] => .ret ()
  | p :: ps => (pushAll ps).andThen (pdlPush p.1 p.2)

/-- The pairs of arguments of two STR terms with equal headers, or of two LST terms. -/
def argPairs (x y : Word) (n : Nat) (first : Nat) : List (Word × Word) :=
  (upTo n).map fun i => (refTo (wordAt (termAddr x) (i + first)), refTo (wordAt (termAddr y) (i + first)))

/-- Unify two dereferenced words that are no variables; false is failure. The header words are checked
(R236, R252, R255). -/
def unifyPlain (x y : Word) : TProg Bool :=
  if termTag x ≠ termTag y then .ret false
  else if termTag x = 5 then
    (tword (.load (termAddr x))).bind fun hx => (tcheck hx (termAddr x)).andThen <|
      (tword (.load (termAddr y))).bind fun hy => (tcheck hy (termAddr y)).andThen <|
        if hx ≠ hy then .ret false
        else if termTag hx ≠ 6 then .fail clsTag (termAddr x)
        else (pushAll (argPairs x y (hx.toNat % 256) 1)).andThen (.ret true)
  else if termTag x = 7 then (pushAll (argPairs x y 2 0)).andThen (.ret true)
  else .ret false

/-- One step of UNIFY on a pair that stands at an address; false is failure. -/
def unifyPair (t : TLane) (oc : Bool) (a b at_ : Word) : TProg Bool :=
  (deref t a at_).bind fun x => (deref t b (at_ + 8)).bind fun y =>
    if x.w = 0 then .fail clsTag x.at_
    else if y.w = 0 then .fail clsTag y.at_
    else if x.w = y.w then .ret true
    else if termTag x.w = 1 ∧ termTag y.w = 1 then
      (chooseVar (termAddr x.w) (termAddr y.w) x.g y.g).bind fun (v, g, w) => unifyBind t oc v g w
    else if termTag x.w = 1 then unifyBind t oc (termAddr x.w) x.g y.w
    else if termTag y.w = 1 then unifyBind t oc (termAddr y.w) y.g x.w
    else unifyPlain x.w y.w

/-- Run the steps of a unification: the status (R255). -/
def unifyLoop (t : TLane) : Nat → TProg Word
  | 0 => pdlState.bind fun r => .ret (if r.2.1 = 0 then 0 else 2)
  | k + 1 =>
    pdlState.bind fun (p, n, oc) =>
      if n = 0 then .ret 0
      else
        let at_ := pairAt p (n - 1)
        (tword (.load at_)).bind fun a => (tword (.load (at_ + 8))).bind fun b =>
          (tunit (.store (p + 8) (pdlWord oc (n - 1)))).andThen <|
            (unifyPair t oc a b at_).bind fun ok =>
              if ok then unifyLoop t k else (tunit (.store (p + 8) (pdlWord oc 0))).andThen (.ret 1)

/-- UNIFY in a lane (R255). -/
def unifyLane (t : TLane) (oc : Bool) (a b : Word) : TProg Word :=
  tpdl.bind fun p =>
    (tunit (.store (p + 8) (pdlWord oc 1))).andThen <| (tunit (.store (pairAt p 0) a)).andThen <|
      (tunit (.store (pairAt p 0 + 8) b)).andThen (unifyLoop t 4096)

/-- BIND's status (R257). -/
def bindStatus : BindOut → Word
  | .done => 0
  | .cell won _ => if won then 0 else 2
  | .stale => 2
  | .found => 1

/-- BIND of a variable: a stale proposal is made again for the new generation (R257). -/
def bindAgain (t : TLane) (v w : Word) : Nat → Gen → TProg Word
  | 0, _ => .stuck
  | n + 1, g =>
    (bindVar t v g w).bind fun r =>
      if r = .stale then .step (.gen v) fun h => bindAgain t v w n h.g else .ret (bindStatus r)

/-- BIND in a lane (R257). -/
def bindLane (t : TLane) (a b : Word) : TProg Word :=
  (deref t a 0).bind fun d =>
    if termTag d.w ≠ 1 then .ret 1
    else (tcheck b 0).andThen (bindAgain t (termAddr d.w) b termFuel d.g)

/-! ## Unwinding (R246) -/

/-- Undo one trail entry that stands at an address; its old word is checked (R236). -/
def undoEntry (at_ e old : Word) : TProg Unit :=
  let kind := bits e.toNat 63 61
  let wa : Word := BitVec.ofNat 64 (e.toNat % 2 ^ 54 * 8)
  let lane := bits e.toNat 60 56
  if kind = 0 then (tcheck old (at_ + 8)).andThen (tunit (.store wa old))
  else if kind = 1 then
    (tcheck old (at_ + 8)).andThen <|
      (tunit (.store (vecSlot (termAddr old) lane) 0)).andThen (tunit (.unmark (termAddr old) lane))
  else .fail clsTag at_

/-- Pop the trail down to a mark; `n` bounds the entries. -/
def unwindTrail (m : Word) : Nat → TProg Unit
  | 0 => .ret ()
  | n + 1 =>
    ttrail.bind fun tr =>
      if tr.toNat ≤ m.toNat then .ret ()
      else
        (tword (.load (tr - 16))).bind fun e =>
          if bits e.toNat 63 61 = 7 then
            if tr.toNat < m.toNat + 32 then .fail clsProt (tr - 32)
            else (tunit (.set 16 (tr - 32))).andThen (unwindTrail m n)
          else
            (tword (.load (tr - 8))).bind fun old =>
              (undoEntry (tr - 16) e old).andThen <| (tunit (.set 16 (tr - 16))).andThen (unwindTrail m n)

/-- The PREV of the frame at an address (R245). -/
def framePrev (c : Word) : TProg Word :=
  (tword (.load c)).bind fun w => .ret (BitVec.ofNat 64 (w.toNat % 2 ^ 57))

/-- Move %choice back below a mark. -/
def choiceBack (m : Word) : Nat → TProg Unit
  | 0 => .stuck
  | n + 1 =>
    tchoice.bind fun c =>
      if c = 0 ∨ c.toNat < m.toNat then .ret ()
      else (framePrev c).bind fun p => (tunit (.set 17 p)).andThen (choiceBack m n)

/-- Unwind the trail to a mark; the PROTECTION of a bad mark reports the mark, that of a frame which reaches below it the
frame's address (R246; DESIGN CHOICE for ADDR, log 79). -/
def unwindTo (m : Word) : TProg Unit :=
  ttrail.bind fun tr =>
    if tr.toNat < m.toNat ∨ m.toNat % 16 ≠ 0 then .fail clsProt m
    else (unwindTrail m ((tr.toNat - m.toNat) / 16 + 1)).andThen (choiceBack m termFuel)

/-! ## Choice points (R245, R258 to R262) -/

/-- An alternative PC that is refused (R258). -/
def altBad (a : Word) : Bool := decide (a.toNat % 4 ≠ 0 ∨ bits a.toNat 63 57 ≠ 0)

/-- A frame word of KIND 7 with an address. -/
def frameWord (a : Word) : Word := BitVec.ofNat 64 (7 * 2 ^ 61 + a.toNat % 2 ^ 57)

/-- CHOICE in a lane; the PROTECTION of a bad ALT reports wA (R258; DESIGN CHOICE for ADDR, log 79). -/
def choiceLane (alt : Word) : TProg Unit :=
  if altBad alt then .fail clsProt alt
  else
    ttrail.bind fun c => theap.bind fun hp => tchoice.bind fun prev =>
      (tunit (.store c (frameWord prev))).andThen <| (tunit (.store (c + 8) hp)).andThen <|
        (tunit (.store (c + 16) (frameWord alt))).andThen <| (tunit (.store (c + 24) (c + 32))).andThen <|
          (tunit (.set 16 (c + 32))).andThen (tunit (.set 17 c))

/-- RETRY in a lane; the PROTECTION of a bad ALT reports wA, that of a lane without a choice point 0 (R259; DESIGN CHOICE
for ADDR, log 79). -/
def retryLane (alt : Word) : TProg Unit :=
  tchoice.bind fun c =>
    if c = 0 then .fail clsProt 0
    else if altBad alt then .fail clsProt alt
    else tunit (.store (c + 16) (frameWord alt))

/-- RETRY.TRUST in a lane; without a choice point PROTECTION reports 0 (R259; DESIGN CHOICE for ADDR, log 79). -/
def trustLane : TProg Unit :=
  tchoice.bind fun c =>
    if c = 0 then .fail clsProt 0
    else
      (framePrev c).bind fun p => ttrail.bind fun tr =>
        (if tr = c + 32 then tunit (.set 16 c) else .ret ()).andThen (tunit (.set 17 p))

/-- FAILB in a lane: where it goes, or none when there is nothing to return to (R260). -/
def failLane : TProg (Option Word) :=
  tchoice.bind fun c =>
    if c = 0 then .ret none
    else
      (tword (.load (c + 24))).bind fun m =>
        (unwindTo m).andThen <|
          (tword (.load (c + 8))).bind fun hp =>
            (tunit (.set 14 hp)).andThen <|
              (tword (.load (c + 16))).bind fun alt => .ret (some (BitVec.ofNat 64 (alt.toNat % 2 ^ 57)))

/-- CUT in a lane; the PROTECTION of a bad wA reports wA (R261; DESIGN CHOICE for ADDR, log 79). -/
def cutLane (w : Word) : TProg Unit :=
  tchoice.bind fun c =>
    if w = 0 ∨ (w.toNat % 16 = 0 ∧ w.toNat ≤ c.toNat) then tunit (.set 17 w) else .fail clsProt w

/-- UNWIND in a lane (R262). -/
def unwindLane (m hp : Word) : TProg Unit := (unwindTo m).andThen (tunit (.set 14 hp))

/-! ## HALLOC, ARG, FUNC and COMMIT -/

/-- HALLOC in a lane; the PROTECTION of nonzero upper bits of wB reports 0 (R253; DESIGN CHOICE for ADDR, log 79). -/
def hallocLane (zero crew : Bool) (n : Word) : TProg Word :=
  if 2 ^ 16 ≤ n.toNat then .fail clsProt 0
  else
    (tword (.take (if crew then 15 else 14) (8 * n.toNat))).bind fun p =>
      (if zero then (upTo n.toNat).foldr (fun i q => (tunit (.store (wordAt p i) 0)).andThen q) (.ret ())
        else .ret ()).andThen (.ret p)

/-- The address of argument `i` of a term (R252). -/
def argAddr (w : Word) (i : Nat) : TProg Word :=
  (tcheck w 0).andThen <|
    let a := termAddr w
    if termTag w = 5 then
      (tword (.load a)).bind fun h =>
        if termTag h ≠ 6 then .fail clsTag a
        else if 1 ≤ i ∧ i ≤ h.toNat % 256 then .ret (wordAt a i)
        else .fail clsTag 0
    else if termTag w = 7 then
      if i = 1 ∨ i = 2 then .ret (wordAt a (i - 1)) else .fail clsTag 0
    else .fail clsTag 0

/-- ARG and ARG.A in a lane: the argument's word, or its address (R236, R252). -/
def argLane (addr : Bool) (w i : Word) : TProg Word :=
  (argAddr w i.toNat).bind fun p =>
    if addr then .ret p else (tword (.var p)).bind fun v => (tcheck v p).andThen (.ret v)

/-- FUNC in a lane (R252). -/
def funcLane (w : Word) : TProg Word :=
  (tcheck w 0).andThen <|
    match termTag w with
    | 5 => (tword (.load (termAddr w))).bind fun h =>
        if termTag h = 6 then .ret h else .fail clsTag (termAddr w)
    | 7 => .ret (termWord 6 2)
    | 2 => .ret (termWord 6 (w.toNat % 2 ^ 52 * 256))
    | _ => .fail clsTag 0

/-- Commit one lane-slot entry of the lane, unless its variable was changed before the instruction began or by the
lane itself since: the variables that the lane has committed (R263). -/
def commitEntry (t : TLane) (mine : List Word) (e old : Word) : TProg (List Word) :=
  let v : Word := BitVec.ofNat 64 (e.toNat % 2 ^ 54 * 8)
  let vec := termAddr old
  (tword (if mine.contains v then .load v else .was v)).bind fun was => (tcheck was v).andThen <|
    if was ≠ old then .ret mine
    else
      (tword (.load vec)).bind fun hd =>
        if !vecHas hd t.l then .ret mine
        else
          (trailPush t 0 v old).andThen <|
            (tword (.load (vecSlot vec t.l))).bind fun b =>
              (tcheck b (vecSlot vec t.l)).andThen <| (tunit (.commit v old b)).andThen (.ret (v :: mine))

/-- Scan the trail upward for the lane's entries; `n` bounds the entries (R263). -/
def commitScan (t : TLane) (top : Word) : Nat → Word → List Word → TProg Unit
  | 0, _, _ => .ret ()
  | n + 1, e, mine =>
    if top.toNat ≤ e.toNat then .ret ()
    else
      (tword (.load e)).bind fun w =>
        if bits w.toNat 63 61 = 7 then commitScan t top n (e + 32) mine
        else if bits w.toNat 63 61 = 1 ∧ bits w.toNat 60 56 = t.l then
          (tword (.load (e + 8))).bind fun old => (tcheck old (e + 8)).andThen <|
            (commitEntry t mine w old).bind fun mine => commitScan t top n (e + 16) mine
        else commitScan t top n (e + 16) mine

/-- COMMIT in a lane (R263). -/
def commitLane (t : TLane) (m : Word) : TProg Unit :=
  ttrail.bind fun top =>
    if top.toNat < m.toNat ∨ m.toNat % 16 ≠ 0 then .fail clsProt m
    else commitScan t top ((top.toNat - m.toNat) / 16 + 1) m []

/-! ## The work of each instruction -/

/-- Work that gives the lane a register result. -/
def gives (p : TProg Word) : TProg (Option Word) := p.bind fun w => .ret (some w)

/-- Work that gives it none. -/
def does (p : TProg Unit) : TProg (Option Word) := p.bind fun _ => .ret none

/-- The work of a lane of a term instruction that accesses memory, from its operands: its register result, or
FAILB's target (R252 to R263). -/
def termWork (t : TLane) (i : Instr) (a b : Word) : TProg (Option Word) :=
  match i with
  | .deref .. => gives ((deref t a 0).bind fun d => .ret d.w)
  | .unify _ _ _ _ oc => gives (unifyLane t (decide (oc = 1)) a b)
  | .unifyc .. => gives (unifyLoop t 4096)
  | .bind .. => gives (bindLane t a b)
  | .choice .. => does (choiceLane a)
  | .retry .. => does (retryLane a)
  | .retryTrust .. => does trustLane
  | .failb .. => failLane
  | .unwind .. => does (unwindLane a b)
  | .halloc _ _ _ z c => gives (hallocLane (decide (z = 1)) (decide (c = 1)) b)
  | .arg _ _ _ _ addr => gives (argLane (decide (addr = 1)) a b)
  | .func .. => gives (funcLane a)
  | .commit .. => does (commitLane t a)
  | _ => .stuck

end Sys2Proof.Machine
end

