-- ==== Sys2Proof/Machine/Terms.lean ====
section
/-! DEFINITION. Term instructions in progress and their meanings, opcodes 0xA0 to 0xAF (16 R235 to R265). An
instruction does the work of its lanes when it issues, in lane order; a lane that meets a page fault goes on later,
and the agenda may let lanes take their steps in another order (R249, R264; log 11). -/

namespace Sys2Proof.Machine

/-! ## The lanes of an instruction (R249, R264) -/

/-- The runtime has rejected one of these fault-queue entries for the page of an address (R339). -/
def pageHit (s : State) (ids : List Nat) (va : Word) : Bool :=
  ids.any fun i => decide ((pageVa s i).toNat / 2 ^ 16 = va.toNat / 2 ^ 16)

/-- A lane's work has ended with an answer. -/
def Op.laneRet (o : Op) (l : Nat) (r : Option Word) : Op :=
  { o with
    left := o.left &&& ~~~oneLane l
    fin := o.fin ||| oneLane l
    res := match r with
      | some w => mput o.res l w
      | none => o.res }

/-- A lane's work has ended with a fault. -/
def Op.laneFail (o : Op) (l cls : Nat) (addr : Word) : Op :=
  { o with left := o.left &&& ~~~oneLane l, flt := o.flt ++ [(l, cls, addr)] }

/-- A lane goes on with its work for some steps, or to its end; a page that it meets is entered once for the
instruction, and one that the runtime has rejected raises PAGE-FAULT (R157, R249, R339). -/
def termLane (x : Ctx) (i : Instr) (rej : List Nat) (n : Option Nat) (s : State) (o : Op) (l : Nat) : State × Op :=
  let t : TLane := { x := x, l := l }
  let log := mgetD o.logs l []
  let a := mgetD o.args l (0, 0, 0)
  match ((termWork t i a.1 a.2.1).after log.reverse).go (tdo t o.logs) n s log with
  | (s, log, e) =>
    let o := { o with logs := mput o.logs l log }
    match e with
    | .ret r => (s, o.laneRet l r)
    | .fail c va => (s, o.laneFail l c va)
    | .open_ => (s, o)
    | .page w k va ty lv =>
      if pageHit s rej va then (s, o.laneFail l clsPage va)
      else if pageHit s (pagesOpen s o.pages) va then (s, o)
      else
        let (s, id) := faultEnter s w k va ty lv
        (s, { o with pages := o.pages ++ [id] })

/-- The lanes of HALLOC.C take their space in ascending order (R253). -/
def inOrder : Instr → Bool
  | .halloc _ _ _ _ c => decide (c = 1)
  | _ => false

/-- A lane that has still to begin waits for a lower one that has. -/
def begins (o : Op) (l : Nat) : Bool := (mgetD o.logs l []).isEmpty && (lanesOf o.left).any fun k =>
  decide (k < l) && (mgetD o.logs k []).isEmpty

/-- Lanes go on, those whose work has not ended. -/
def termLanes (x : Ctx) (i : Instr) (rej : List Nat) (n : Option Nat) : List Nat → State → Op → State × Op
  | [], s, o => (s, o)
  | l :: t, s, o =>
    if !inMask o.left l || (inOrder i && begins o l) then termLanes x i rej n t s o
    else
      match termLane x i rej n s o l with
      | (s, o) => termLanes x i rej n t s o

/-- The agenda is about to give the lanes of the crew's instruction their steps (R264). -/
def splitAhead (s : State) (key : Nat) : Bool :=
  match s.agenda with
  | .termSteps k _ _ _ :: _ => decide (k = key)
  | _ => false

/-- Operands of the active lanes. -/
def laneArgs (x : Ctx) (a b : Nat → Word) : Map (Word × Word × Word) :=
  (lanesOf x.act).foldl (fun m l => mput m l (a l, b l, 0)) []

/-- The operation of a term instruction at its issue, with the work of its lanes done as far as it goes. -/
def termIssue (x : Ctx) (s : State) (i : Instr) (la : Option Nat) (d : Option Code) (a b : Nat → Word) :
    State × Op :=
  let o := { newOp x s (.term i) la [] ((d.map fun d => dstsOf x d.toNat 0).getD []) with
    args := laneArgs x a b, left := x.act }
  termLanes x i x.c.rej (if splitAhead s x.key then some 0 else none) (lanesOf x.act) s o

/-- An instruction whose lanes have ended their work at its issue: results are written in the lanes that finished,
then it retires or its trap is taken (R249). -/
def termEnd (x : Ctx) (s : State) (o : Op) (put : Ctx → State → State) (tgt : Nat → Word) : State :=
  let s := put { x with act := o.fin } s
  if o.flt = [] then retireTo x s tgt
  else
    let cls := faultCls o.flt
    takeTrap s x.key
      { mkTrap cls x.start x.next (faultAddr o.flt cls) (faultMask o.flt cls) x.act with clanes := o.fin }

/-- A term instruction starts once the earlier accesses of its lanes are performed, but for stores whose targets are
known: each of its steps waits for those that it may not pass (R186 to R188). -/
def whenSeen (x : Ctx) (s : State) (k : State → State) : State :=
  whenQuiet x s true false fun s =>
    if (lanesOf x.act).any (loadHeld x.c) then parkGroup x s (.quiet x.act true true) else k s

/-- A term instruction that completes before the next one and accesses memory, once the earlier accesses of its
lanes are performed; while a lane is held up, the crew waits at it (R72, R157, R249). -/
def runTerm (x : Ctx) (s : State) (i : Instr) (d : Option Code) (a b : Nat → Word) : State :=
  whenSeen x s fun s =>
    match termIssue x s i (some 0) d a b with
    | (s, o) =>
      if o.left ≠ 0 then issueOp x s o
      else
        termEnd x s o
          (fun x s => match i, d with
            | .failb _ pd, _ => writePred x s 0 pd.toNat fun l => (mget o.res l).isNone
            | _, some d => writeReg x s 0 d.toNat fun l => .known (mgetD o.res l 0)
            | _, none => s)
          (fun l => match i with
            | .failb .. => mgetD o.res l x.next
            | _ => x.next)

/-- UNIFY, UNIFYC and BIND: the statuses are written at completion (R72, R248, R249). -/
def runLong (x : Ctx) (s : State) (i : Instr) (d : Code) (a b : Nat → Word) : State :=
  whenSeen x s fun s =>
    match termIssue x s i (laTrack x.hn) (some d) a b with
    | (s, o) => issueOp x s o

/-- A term instruction that accesses no memory. -/
def runPlain {α : Type} (x : Ctx) (s : State) (work : TLane → TProg α) (put : Ctx → State → Map α → State) :
    State :=
  let r := (lanesOf x.act).foldl (fun (r : State × Map α × List (Nat × Nat × Word)) l =>
    let t : TLane := { x := x, l := l }
    match (work t).run (tdo t []) r.1 with
    | .ok s a => (s, mput r.2.1 l a, r.2.2)
    | .err s c v => (s, r.2.1, r.2.2 ++ [(l, c, v)])
    | _ => r) (s, [], [])
  let done := maskOf fun l => (mget r.2.1 l).isSome
  termEnd x r.1 { newOp x s .st none [] [] with fin := done, flt := r.2.2 } (fun x s => put x s r.2.1) fun _ => x.next

/-- Write one register from the lanes' results. -/
def putWord (d : Code) (x : Ctx) (s : State) (res : Map Word) : State :=
  writeReg x s 0 d.toNat fun l => .known (mgetD res l 0)

/-! ## Instructions in progress -/

/-- The context of an operation of a crew in flight. -/
def opCtx (s : State) (key : Nat) (c : Crew) (o : Op) : Ctx :=
  { key := key, c := { c with priv := o.priv }, act := o.active, grp := o.active, pc := o.pc, start := o.start,
    next := o.next, hn := Hints.none, u := uses hdr0 [], w := whoLane s c o.active o.priv, seq := o.seq }

/-- Lanes of a term instruction in flight go on, once the runtime has answered the pages that they met
(R157, R249). -/
def termGo (s : State) (key oid : Nat) (ls : List Nat) (n : Option Nat) : State :=
  match mget s.crews key with
  | none => s
  | some c =>
    match opOf c oid with
    | none => s
    | some o =>
      match o.kind with
      | .term i =>
        if o.done || !mayReissue s key || decide (pagesOpen s o.pages ≠ []) then s
        else
          match termLanes (opCtx s key c o) i (pagesRejected s o.pages) n ls s { o with pages := [] } with
          | (s, o) => modCrew s key fun c => putOp c o
      | _ => s

/-- The work of LONG_LATENCY_COMPLETE: a term instruction goes on with its lanes, and any operation whose work is done
completes (R72, R249). -/
def longEvent (s : State) (key oid : Nat) : State :=
  let s := termGo s key oid (List.range 32) none
  longComplete s key oid

/-! ## TAG and MKT (R250, R251) -/

/-- TAG.GET (R250). -/
def execTagGet (h : Hdr) (d a : Code) : State → Host.Outcome State Fault Refusal :=
  gate (.tagGet h d a) fun x s => withSources x s [a.toNat] none fun s v =>
    runPlain x s (fun t => .ret (BitVec.ofNat 64 (termTag (v t.l a.toNat)))) (putWord d)

/-- TAG.SET (R250). -/
def execTagSet (h : Hdr) (d a b : Code) : State → Host.Outcome State Fault Refusal :=
  gate (.tagSet h d a b) fun x s => withSources x s (cod2 a b) none fun s v =>
    runPlain x s (fun t =>
      let tag := (v t.l b.toNat).toNat % 16
      if 9 ≤ tag then .fail clsTag 0 else .ret (termWord tag (v t.l a.toNat).toNat)) (putWord d)

/-- TAG.VAL's value (R250). -/
def tagValue (w : Word) : Word :=
  match termTag w with
  | 3 => sext w 60
  | 4 => zext w 32
  | _ => zext w 60

/-- TAG.VAL (R250). -/
def execTagVal (h : Hdr) (d a : Code) : State → Host.Outcome State Fault Refusal :=
  gate (.tagVal h d a) fun x s => withSources x s [a.toNat] none fun s v =>
    runPlain x s (fun t => .ret (tagValue (v t.l a.toNat))) (putWord d)

/-- MKT's word; none for a value that breaks its table (R251). -/
def mktWord (tag : Nat) (w : Word) : Option Word :=
  let v := w.toNat
  match tag with
  | 0 => some 0
  | 1 | 5 | 7 | 8 => if bits v 63 57 = 0 ∧ v % 8 = 0 then some (termWord tag v) else none
  | 2 => if bits v 63 52 = 0 then some (termWord 2 v) else none
  | 3 => if -(2 ^ 59) ≤ w.toInt ∧ w.toInt < 2 ^ 59 then some (termWord 3 v) else none
  | 4 => some (termWord 4 (v % 2 ^ 32))
  | _ => if bits v 63 60 = 0 then some (termWord 6 v) else none

/-- MKT (R251). -/
def execMkt (h : Hdr) (d a : Code) (tag : BitVec 4) : State → Host.Outcome State Fault Refusal :=
  gate (.mkt h d a tag) fun x s =>
    withSources x s (if tag = 0 then [] else [a.toNat]) none fun s v =>
      runPlain x s (fun t => match mktWord tag.toNat (v t.l a.toNat) with
        | some w => .ret w
        | none => .fail clsTag 0) (putWord d)

/-! ## DEREF, UNIFY and BIND -/

/-- DEREF (R254). -/
def execDeref (h : Hdr) (d a : Code) : State → Host.Outcome State Fault Refusal :=
  gate (.deref h d a) fun x s => withSources x s [a.toNat] none fun s v =>
    runTerm x s (.deref h d a) (some d) (fun l => v l a.toNat) fun _ => 0

/-- UNIFY (R255). -/
def execUnify (h : Hdr) (d a b : Code) (oc : BitVec 1) : State → Host.Outcome State Fault Refusal :=
  gate (.unify h d a b oc) fun x s => withSources x s (cod2 a b) none fun s v =>
    runLong x s (.unify h d a b oc) d (fun l => v l a.toNat) fun l => v l b.toNat

/-- UNIFYC (R256). -/
def execUnifyc (h : Hdr) (d : Code) : State → Host.Outcome State Fault Refusal :=
  gate (.unifyc h d) fun x s => runLong x s (.unifyc h d) d (fun _ => 0) fun _ => 0

/-- BIND (R257). -/
def execBind (h : Hdr) (d a b : Code) : State → Host.Outcome State Fault Refusal :=
  gate (.bind h d a b) fun x s => withSources x s (cod2 a b) none fun s v =>
    runLong x s (.bind h d a b) d (fun l => v l a.toNat) fun l => v l b.toNat

/-! ## Choice points (R245, R258 to R262) -/

/-- CHOICE (R258). -/
def execChoice (h : Hdr) (a : Code) : State → Host.Outcome State Fault Refusal :=
  gate (.choice h a) fun x s => withSources x s [a.toNat] none fun s v =>
    runTerm x s (.choice h a) none (fun l => v l a.toNat) fun _ => 0

/-- RETRY (R259). -/
def execRetry (h : Hdr) (a : Code) : State → Host.Outcome State Fault Refusal :=
  gate (.retry h a) fun x s => withSources x s [a.toNat] none fun s v =>
    runTerm x s (.retry h a) none (fun l => v l a.toNat) fun _ => 0

/-- RETRY.TRUST (R259). -/
def execRetryTrust (h : Hdr) : State → Host.Outcome State Fault Refusal :=
  gate (.retryTrust h) fun x s => runTerm x s (.retryTrust h) none (fun _ => 0) fun _ => 0

/-- FAILB (R260). -/
def execFailb (h : Hdr) (pd : PCode) : State → Host.Outcome State Fault Refusal :=
  gate (.failb h pd) fun x s => runTerm x s (.failb h pd) none (fun _ => 0) fun _ => 0

/-- CUT (R261). -/
def execCut (h : Hdr) (a : Code) : State → Host.Outcome State Fault Refusal :=
  gate (.cut h a) fun x s => withSources x s [a.toNat] none fun s v =>
    runPlain x s (fun t => cutLane (v t.l a.toNat)) fun _ s _ => s

/-- TMARK (R262). -/
def execTmark (h : Hdr) (d : Code) : State → Host.Outcome State Fault Refusal :=
  gate (.tmark h d) fun x s =>
    runPlain x s (fun _ => ttrail.bind fun tr => theap.bind fun hp => .ret (tr, hp)) fun x s res =>
      let s := writeReg x s 0 d.toNat fun l => .known (mgetD res l (0, 0)).1
      writeReg x s 0 (d.toNat + 1) fun l => .known (mgetD res l (0, 0)).2

/-- UNWIND (R262). -/
def execUnwind (h : Hdr) (a : Code) : State → Host.Outcome State Fault Refusal :=
  gate (.unwind h a) fun x s => withSources x s [a.toNat, a.toNat + 1] none fun s v =>
    runTerm x s (.unwind h a) none (fun l => v l a.toNat) fun l => v l (a.toNat + 1)

/-! ## HALLOC, ARG, FUNC and COMMIT -/

/-- HALLOC (R253). -/
def execHalloc (h : Hdr) (d b : Code) (z c : BitVec 1) : State → Host.Outcome State Fault Refusal :=
  gate (.halloc h d b z c) fun x s => withSources x s [b.toNat] none fun s v =>
    runTerm x s (.halloc h d b z c) (some d) (fun _ => 0) fun l => v l b.toNat

/-- ARG and ARG.A (R252). -/
def execArg (h : Hdr) (d a b : Code) (addr : BitVec 1) : State → Host.Outcome State Fault Refusal :=
  gate (.arg h d a b addr) fun x s => withSources x s (cod2 a b) none fun s v =>
    runTerm x s (.arg h d a b addr) (some d) (fun l => v l a.toNat) fun l => v l b.toNat

/-- FUNC (R252). -/
def execFunc (h : Hdr) (d a : Code) : State → Host.Outcome State Fault Refusal :=
  gate (.func h d a) fun x s => withSources x s [a.toNat] none fun s v =>
    runTerm x s (.func h d a) (some d) (fun l => v l a.toNat) fun _ => 0

/-- COMMIT (R263). -/
def execCommit (h : Hdr) (a : Code) : State → Host.Outcome State Fault Refusal :=
  gate (.commit h a) fun x s => withSources x s [a.toNat] none fun s v =>
    runTerm x s (.commit h a) none (fun l => v l a.toNat) fun _ => 0

end Sys2Proof.Machine
end

