-- ==== Sys2Proof/Machine/Symbols.lean ====
section
/-! DEFINITION. SYMQ, SYMW and SYMSET, opcodes 0xB0 to 0xB2, and the arrival of symbols (20 R296 to
R302). -/

namespace Sys2Proof.Machine

/-- The symbols of a crew in a state in a lane, as a mask (R300). -/
def symMask (c : Crew) (l : Nat) (faulted : Bool) : Nat :=
  (c.syms.filter fun p => p.2.lanes.any fun x => decide (x.lane = l) && x.faulted == faulted).foldl
    (fun a p => a.lor (2 ^ p.1)) 0

/-- The symbols of a crew that are not free, as a mask. -/
def symUsed (c : Crew) : Nat := c.syms.foldl (fun a p => a.lor (2 ^ p.1)) 0

/-- SYMQ's word for a lane (R300). -/
def symqWord (c : Crew) (l : Nat) : Word :=
  BitVec.ofNat 64 (symUsed c * 2 ^ 32 + symMask c l true * 2 ^ 16 + symMask c l false)

/-- SYMQ.R's word for what a register holds (R300). -/
def formWord : RegVal → Word
  | .known _ => 0
  | .iform y _ _ => BitVec.ofNat 64 (2 ^ 8 + y)
  | .fform y steps => BitVec.ofNat 64 (steps.length % 4 * 2 ^ 10 + 2 ^ 9 + 2 ^ 8 + y)

/-- SYMQ (R300). -/
def execSymq (h : Hdr) (d : Code) : State → Host.Outcome State Fault Refusal :=
  gate (.symq h d) fun x s =>
    retire x (writeReg x s 0 d.toNat fun l => .known (symqWord x.c l))

/-- SYMQ.R: the register examined is the program's, in a routine too (R300, R302; log 29). -/
def execSymqR (h : Hdr) (d a : Code) : State → Host.Outcome State Fault Refusal :=
  gate (.symqR h d a) fun x s =>
    retire x (writeReg x s 0 d.toNat fun l => .known (formWord (regOf (progTh x.c l) a.toNat)))

/-- Some symbol of a mask is PENDING in an active lane. -/
def anyPending (x : Ctx) (m : Nat) : Bool :=
  (lanesOf x.act).any fun l => decide (m.land (symMask x.c l false) ≠ 0)

/-- SYMW (R301). -/
def execSymw (h : Hdr) (a : Code) : State → Host.Outcome State Fault Refusal :=
  gate (.symw h a) fun x s => withSources x s [a.toNat] none fun s v =>
    let m := (v (lowLane x.act) a.toNat).toNat % 2 ^ 16
    if anyPending x m then parkSyms x s fun _ => m
    else match faultedSym x.c x.act fun _ => m with
      | some y => takeSymTrap s x.key y x.start
      | none => retire x s

/-- SYMSET (R302). -/
def execSymset (h : Hdr) (a b : Code) : State → Host.Outcome State Fault Refusal :=
  gate (.symset h a b) fun x s =>
    if !x.c.priv then trapAt x s clsProt 0 x.act
    else withSources x s (cod2 a b) none fun s v =>
      let y := (v (lowLane x.act) a.toNat).toNat % 16
      retire x (modCrew s x.key fun c =>
        (lanesOf x.act).foldl (fun c l => resolveSym s.cycle c y l (v l b.toNat)) c)

/-- SYMBOL_ARRIVAL (R296, R298). -/
def execSymbolArrival (crew sym lane : Nat) (s : State) : Host.Outcome State Fault Refusal :=
  .next (arriveSym s crew sym lane)

/-- LONG_LATENCY_COMPLETE (R72, R249). -/
def execLongLatencyComplete (crew op : Nat) (s : State) : Host.Outcome State Fault Refusal :=
  .next (longEvent s crew op)

/-- Complete the instruction that made one pending result of a crew: its results in all lanes together
(R71, R88). -/
def completeIdx (c : Crew) (i : Nat) : Crew :=
  match c.pend[i]? with
  | none => c
  | some p => settle 0 { c with pend := c.pend.map fun q => if q.seq = p.seq then { q with due := 0 } else q }

/-- RESULT_WRITE_COMPLETE: the results of a fixed-latency instruction complete early (R71; log 3). -/
def execResultWriteComplete (crew idx : Nat) (s : State) : Host.Outcome State Fault Refusal :=
  .next (modCrew s crew fun c => completeIdx c idx)

/-- The kinds of a flint request that MEMORY_REQUEST_ARRIVE does not perform. -/
def AccOp.isHome : AccOp → Bool
  | .fprop .. | .frcy _ => true
  | _ => false

/-- MEMORY_REQUEST_ARRIVE (R168). -/
def execMemoryRequestArrive (crew op req : Nat) (s : State) : Host.Outcome State Fault Refusal :=
  .next (arrive s crew op req fun a => !a.isHome)

/-- FLINT_PROPOSAL (R305). -/
def execFlintProposal (crew op req : Nat) (s : State) : Host.Outcome State Fault Refusal :=
  .next (arrive s crew op req fun a => match a with
    | .fprop .. => true
    | _ => false)

/-- FLINT_RECYCLE (R305). -/
def execFlintRecycle (crew op req : Nat) (s : State) : Host.Outcome State Fault Refusal :=
  .next (arrive s crew op req fun a => match a with
    | .frcy _ => true
    | _ => false)

end Sys2Proof.Machine
end

