-- ==== Sys2Proof/Machine/Waits.lean ====
section
/-! DEFINITION. Waits that end, the fetch of a word, and a FENCE that goes on while its unit drains (04 R68,
06 R103, 10 R157, R163, 12 R194, 20 R295). -/

namespace Sys2Proof.Machine

/-! ## Waits that end -/

/-- No lane of the thread's group that waits with it has a pending symbol among its own (R295, R301). -/
def symsOver (c : Crew) (t : Thread) : Bool :=
  lanes.all fun l =>
    let u := thOf c l
    match u.park with
    | .syms set =>
      !(u.live && decide (u.pc = t.pc)) || c.syms.all fun p =>
        !bitAt set p.1 || p.2.lanes.all fun x => decide (x.lane ≠ l) || x.faulted
    | _ => true

/-- What a parked thread waits for has come; the waits of barriers and reservations end by the events
that complete them. -/
def parkOver (s : State) (c : Crew) (t : Thread) : Bool :=
  match t.park with
  | .none => true
  | .quiet m r w => !maskBusy c m r w
  | .spill m => !spillBusy c m (depthOf s c)
  | .lines phys n => presentAll s phys n && !refreshing s phys && !veiled s (whoLane s c 0 c.priv) none phys n
  | .veil => !veil s (whoLane s c 0 c.priv) none fun _ _ => true
  | .granite unit => if unit then !graniteBusy s c.uid else !cordStores c
  | .page ids => decide (pagesOpen s ids = [])
  | .syms _ => symsOver c t
  | .reply id => c.ops.all fun o => decide (o.id ≠ id) || o.done
  | .lcwait ns => lcReached s c.core ns
  | .appends => !appendsOpen c
  | .bar .. | .nbar .. | .resv .. => false

/-- A live thread that is neither held nor parked any longer. -/
def readyTh (s : State) (c : Crew) (t : Thread) : Bool := t.live && !t.held && parkOver s c t

/-- The group at an address runs again: its waits are over, and it meets the rejected entries that it
waited on (R339). -/
def wakeGroup (s : State) (c : Crew) (pc : Word) : Crew :=
  let ls := lanes.filter fun l =>
    let t := thOf c l
    readyTh s c t && decide (t.pc = pc ∧ t.park ≠ .none)
  let ids := (ls.map fun l => match (thOf c l).park with
    | .page ids => ids
    | _ => []).flatten
  { modThs c ls (fun _ t => { t with park := .none }) with rej := pagesRejected s ids ++ c.rej }

/-- A fault-queue entry of an instruction fetch. -/
def fetchEntry (s : State) (id : Nat) : Bool :=
  match mget s.faults id with
  | none => false
  | some f => decide ((f.words.getD 0 0).toNat / 2 ^ 60 = 3)

/-- The whole crew is parked: a thread waits for bytes or for a page that is not one of a fetch (R157,
R163, R164, R166). -/
def crewParked (s : State) (c : Crew) : Bool :=
  lanes.any fun l =>
    let t := thOf c l
    t.live && (match t.park with
      | .lines .. => !parkOver s c t
      | .page ids => (pagesOpen s ids).any fun i => !fetchEntry s i
      | _ => false)

/-! ## Fetch and decode -/

/-- What a fetch finds. -/
inductive Fetch where
  | word (s : State) (w : IWord)
  | page (s : State) (w : Who) (ty level : Nat)
  | prot (s : State)

/-- Fetch the word at an address; one in a line that is private to another unit of an ordered launch receives an error
response (R68, R153, R154, R331). -/
def fetchAt (s : State) (w : Who) (pc : Word) : Fetch :=
  if pc.toNat % 4 ≠ 0 then .prot s
  else
    match xlat s w .fetch pc with
    | (s, .ok phys ty) =>
      if sharing s w pc.toNat ty = .foreign then .prot (vlogAdd s (sliceOf s phys) 2 pc w)
      else match readTgt s w pc phys 4 false with
      | (s, some b) => .word s (BitVec.ofNat 32 (natOf b))
      | (s, none) => .prot s
    | (s, .refused sl kind) => .prot (vlogAdd s sl kind pc w)
    | (s, .prot) => .prot s
    | (s, .page ty lv) => .page s w ty lv

/-- The word that a crew would fetch, when the fetch finds one. -/
def peekWord (s : State) (c : Crew) (pc : Word) : Option IWord :=
  match fetchAt s (whoLane s c 0 c.priv) pc with
  | .word _ w => some w
  | _ => none

/-! ## A FENCE that waits while its unit drains (R53, R194) -/

/-- The word at an address is a FENCE, or a WAIT hint before one. -/
def fenceAhead (s : State) (c : Crew) (pc : Word) : Bool :=
  let read (a : Word) : Option Instr :=
    match peekWord s c a with
    | none => none
    | some w => match decode w with
      | .ok i => some i
      | .error _ => none
  match read pc with
  | some (.fence ..) => true
  | some (.wait _) => match read (pc + 4) with
    | some (.fence ..) => true
    | _ => false
  | _ => false

/-- The unit of a crew drains. -/
def draining (s : State) (c : Crew) : Bool :=
  (mget s.units c.uid).any fun u => decide (u.res = .draining) && !u.ended && !u.isOver && !u.cancelled

/-- The group of a draining crew that stands at a FENCE which it need not wait for any longer, as start and next
word. -/
def pickFence (s : State) (c : Crew) : Option (Word × Word) :=
  if !draining s c then none
  else match c.hint.start with
    | some st => if groupAt c st ≠ 0 && fenceAhead s c c.hint.cursor then some (st, c.hint.cursor) else none
    | none =>
      (lanes.find? fun l =>
        let t := thOf c l
        readyTh s c t && (match t.park with
          | .quiet .. => true
          | _ => false) && fenceAhead s c t.pc).map fun l => ((thOf c l).pc, (thOf c l).pc)

end Sys2Proof.Machine
end

