-- ==== Sys2Proof/Machine/Units.lean ====
section
/-! DEFINITION. Admission and placement of clusters, completion and serial phases of units, and swap
(02 R33 to R36, R48, R51 to R54, 14 R208, R211, R212, 18 R274, 22 R318 to R322, R333). -/

namespace Sys2Proof.Machine

/-! ## Room on a core (R33, R320) -/

/-- The unit holds its resources of R33 on a core. -/
def onCore (core : Nat) (u : UnitSt) : Bool :=
  decide (u.core = core) && !u.ended && !u.isOver && decide (u.res ≠ .swapped ∧ u.res ≠ .gone)

/-- The units that hold resources of a core. -/
def coreUnits (s : State) (core : Nat) : List UnitSt :=
  (s.units.filter fun p => onCore core p.2).map (·.2)

/-- A number of a unit's launch. -/
def ofLaunch (s : State) (f : Launch → Nat) (u : UnitSt) : Nat :=
  match mget s.launches u.lid with
  | none => 0
  | some l => f l

/-- The sum of a number over units. -/
def sumOver (us : List UnitSt) (f : UnitSt → Nat) : Nat := us.foldl (fun a u => a + f u) 0

/-- The lowest base at which a share of `n` bytes stands clear of the others (R160). -/
def shareGap (us : List UnitSt) (n : Nat) : Option Nat :=
  let clear (b : Nat) : Bool := decide (b + n ≤ 262144) && us.all fun u =>
    decide (n = 0 ∨ u.shareSize = 0 ∨ b + n ≤ u.shareBase ∨ u.shareBase + u.shareSize ≤ b)
  ((0 :: us.map fun u => u.shareBase + u.shareSize).filter clear).foldl
    (fun m b => some (match m with
      | none => b
      | some a => min a b)) none

/-- Crew slots that no unit holds, ascending. -/
def freeSlots (us : List UnitSt) : List Nat :=
  let used := (us.map (·.slots)).flatten
  (upTo 64).filter fun i => !used.contains i

/-- A core that holds the units of a list has room for one more unit of a launch (R33, R320). -/
def roomAmong (s : State) (us : List UnitSt) (lid : Nat) (l : Launch) : Bool :=
  let mine := us.filter fun u => decide (u.lid = lid)
  let gran := ofLaunch s Launch.grans
  decide (l.crews ≤ (freeSlots us).length ∧ us.length < 32 ∧ sumOver us gran + l.grans ≤ 256 ∧
    sumOver us (ofLaunch s Launch.nbar) + l.nbar ≤ 256) && (shareGap us l.scratch).isSome &&
  decide (l.qUnit = 0 ∨ mine.length < l.qUnit) &&
  decide (l.qGran = 0 ∨ sumOver mine gran + l.grans ≤ l.qGran) &&
  decide (l.qScr = 0 ∨ sumOver mine (·.shareSize) + l.scratch ≤ l.qScr)

/-- A core has room for one unit of a launch. -/
def roomOn (s : State) (lid : Nat) (l : Launch) (core : Nat) : Bool :=
  coreLive s core && roomAmong s (coreUnits s core) lid l

/-! ## Placement (R34 to R36) -/

/-- The mixing of seed and index in R36. -/
def placeMix (seed index : Nat) : Nat :=
  let m (x : Nat) : Nat := x % 2 ^ 64
  let x := seed.xor (m (index * 0xD6E8FEB86659FD93))
  let x := x.xor (x / 2 ^ 32)
  let x := m (x * 0xA3B195354A39B70D)
  let x := x.xor (x / 2 ^ 29)
  let x := m (x * 0x8F3B1C5A27D4E6B1)
  x.xor (x / 2 ^ 32)

/-- The start core of a cluster of an ordered launch (R36). -/
def startCore (s : State) (l : Launch) (cluster : Nat) : Nat :=
  let u0 := cluster * l.unitsPer
  let index := match l.task with
    | none => u0
    | some t => t.2.2 * 2 ^ 32 + u0
  let cs := liveCores s
  cs.getD (placeMix (recW l 3) (index % 2 ^ 64) % cs.length) 0

/-- The first cores of a list with room, if they suffice. -/
def firstRoom (fit : Nat → Bool) (n : Nat) (cs : List Nat) : Option (List Nat) :=
  let f := cs.filter fit
  if n ≤ f.length then some (f.take n) else none

/-- The units of a cluster that are still to be admitted: those that no CANCEL has ended before (R49). -/
def Launch.unitsLeft (l : Launch) (cluster : Nat) : List Nat :=
  (upTo l.unitsPer).filter fun i => (mget l.units (cluster * l.unitsPer + i)).isNone

/-- A cluster of a launch waits for admission. -/
def Launch.waits (l : Launch) (cluster : Nat) : Bool :=
  decide (cluster < l.clusters) && !l.admitted.contains cluster

/-- Clusters of a launch that wait for admission and of which a CANCEL has ended units, ascending. -/
def Launch.partial_ (l : Launch) : List Nat :=
  (dedup (l.units.map (·.1 / l.unitsPer))).filter l.waits

/-- The first cluster of a launch that waits for admission whole. -/
def Launch.firstWhole (l : Launch) : List Nat :=
  let taken := l.admitted ++ l.partial_
  ((upTo (taken.length + 1)).filter fun k => !taken.contains k && l.waits k).take 1

/-- Clusters of a launch to be tried for admission, the lower index first; those that are whole need as much
room as the first of them and come after it (R319). -/
def Launch.tries (l : Launch) : List Nat :=
  match l.firstWhole with
  | [] => l.partial_
  | f :: _ => l.partial_.filter (· < f) ++ f :: l.partial_.filter (f < ·)

/-- The cores of an ordered launch's cluster, if it can be placed now (R36). -/
def orderedPlace (s : State) (lid : Nat) (l : Launch) (cluster : Nat) : Option (List Nat) :=
  let start := startCore s l cluster
  let h := hwCluster start
  let (low, high) := (hwCores s h).partition fun c => decide (c < start)
  let fit := roomOn s lid l
  let n := (l.unitsLeft cluster).length
  match firstRoom fit n (high ++ low) with
  | some cs => some cs
  | none => (upTo 31).findSome? fun i => firstRoom fit n (hwCores s ((h + 1 + i) % 32))

/-- A cluster of the launch can be placed now: some hardware cluster has room for it (R34). -/
def canPlace (s : State) (lid : Nat) (l : Launch) (cluster : Nat) : Bool :=
  (upTo 32).any fun h => (firstRoom (roomOn s lid l) (l.unitsLeft cluster).length (hwCores s h)).isSome

/-- The cluster of the launch that is admitted next: the first that can be placed (R319). -/
def nextCluster (s : State) (lid : Nat) (l : Launch) : Option Nat := l.tries.find? (canPlace s lid l)

/-- Some cluster of the launch can be placed now. -/
def placeable (s : State) (lid : Nat) (l : Launch) : Bool := (nextCluster s lid l).isSome

/-- Cores on which the cluster may be admitted: those of R36 in an ordered launch, otherwise any
distinct ones of one hardware cluster with room (R34, R35; log 25). -/
def coresOk (s : State) (lid : Nat) (l : Launch) (cluster : Nat) (cores : List Nat) : Bool :=
  if l.ordered then decide (orderedPlace s lid l cluster = some cores)
  else
    decide (cores.length = (l.unitsLeft cluster).length ∧ cores.Nodup) && cores.all (roomOn s lid l) &&
      cores.all fun c => decide (hwCluster c = hwCluster (cores.headD 0))

/-- The cores that the model takes by itself when nothing else is asked for. -/
def somePlace (s : State) (lid : Nat) (l : Launch) (cluster : Nat) : Option (List Nat) :=
  if l.ordered then orderedPlace s lid l cluster
  else (upTo 32).findSome? fun h => firstRoom (roomOn s lid l) (l.unitsLeft cluster).length (hwCores s h)

/-! ## Who waits, and in which order (R53, R319) -/

/-- A launch with clusters that wait for admission. -/
def Launch.waiting (l : Launch) : Bool :=
  !l.isOver && !l.ending && l.poolReady && decide (l.admitted.length < l.clusters)

/-- The order of R319 between waiting launches. -/
def launchBefore (a b : Launch) : Bool :=
  decide (b.prio < a.prio) || (decide (a.prio = b.prio) && decide (a.seq < b.seq))

/-- An earlier waiting launch could be placed now. -/
def earlierPlaceable (s : State) (l : Launch) : Bool :=
  s.launches.any fun p => p.2.waiting && launchBefore p.2 l && placeable s p.1 p.2

/-- The crew slots that a swapped unit left are free: each crew returns to its own (R242). -/
def slotsBack (s : State) (u : UnitSt) : Bool := u.slots.all (freeSlots (coreUnits s u.core)).contains

/-- Its columns fit the quota of its launch again (R320). -/
def colsFit (s : State) (u : UnitSt) : Bool :=
  match mget s.launches u.lid with
  | none => false
  | some l => decide (l.qCol = 0 ∨ launchCols s u.core u.lid + u.cols.length ≤ l.qCol)

/-- A swapped unit could be restored: its needs, slots, columns and counter numbers are free (R53, R212, R242,
R274, R320). -/
def restorable (s : State) (u : UnitSt) : Bool :=
  match mget s.launches u.lid with
  | none => false
  | some l =>
    decide (u.res = .swapped) && !u.isOver && !u.cancelled && roomOn s u.lid l u.core && slotsBack s u && colsFit s u &&
    (u.cols.all fun j => s.units.all fun p => !(holdsNow u.core p.2 && p.2.cols.contains j)) &&
    u.lcs.all fun p => (mget s.lctrs (lcKey u.core p.1)).isNone

/-- A swapped unit of equal or higher priority could be restored on one of some cores (R53). -/
def restoreFirst (s : State) (prio : Nat) (cores : List Nat) : Bool :=
  s.units.any fun p => cores.contains p.2.core && decide (prio ≤ unitPrio s p.2) && restorable s p.2

/-! ## Admission -/

/-- A thread at the start of its unit (R26, R56). -/
def startThread (l : Launch) : Thread :=
  { Thread.init with pc := l.words.getD 0 0, rf := [(0, .known (l.words.getD 12 0))] }

/-- A crew at the start of its unit (R206, R208). -/
def startCrew (l : Launch) (uid idx slot core : Nat) : Crew :=
  { uid := uid, idx := idx, slot := slot, core := core, th := lanes.map fun j => (j, startThread l)
    rt := [], priv := false, region := 0, flags := [], ports := [], cheap := 0, cords := []
    quiet := false, guard := 7, width := 16, bptr := 0, bstep := 1, syms := [], pend := [], ops := []
    hint := Hints.none, ready := 0, stamp := 0, due := none, trap := none, answered := false
    disp := none, rej := [] }

/-- A unit at its admission (R160, R208). -/
def startUnit (lid cluster u core crews : Nat) (slots : List Nat) (base size : Nat) : UnitSt :=
  { lid := lid, cluster := cluster, u := u, core := core, crews := crews, slots := slots
    shareBase := base, shareSize := size, res := .resident, clock := 0, ctr := 32 * crews, bars := []
    nbars := [], cols := [], planes := 0, zs := [], ovf := [], lines := [], blocks := [], serial := []
    serialBytes := 0, lcs := [], ended := false, isOver := false, cancelled := false }

/-- A core changes to a job: of the entries of other jobs that no unit of its hardware cluster runs any more, only
those with G = 1 are kept (R153, R156). -/
def dropTlb (s : State) (core job : Nat) : State :=
  let runs (j : Nat) : Bool := s.units.any fun p =>
    decide (p.2.core / 8 = core / 8 ∧ p.2.res ≠ .swapped ∧ p.2.res ≠ .gone) && decide (jobOf s p.2.lid = j)
  { s with tlb := s.tlb.filter fun t =>
      decide (t.core / 8 ≠ core / 8) || decide (t.job = job) || bitAt t.pte.toNat 2 || runs t.job }

/-- Admit one unit on a core (R33, R319); COMPAT of a core whose job has not written it is reset (R67). -/
def admitUnit (s : State) (lid : Nat) (l : Launch) (cluster u core : Nat) : State :=
  let uid := s.nextUid
  let us := coreUnits s core
  let slots := (freeSlots us).take l.crews
  let base := (shareGap us l.scratch).getD 0
  let st := startUnit lid cluster u core l.crews slots base l.scratch
  let crews := (slots.zip (upTo slots.length)).foldl
    (fun m p => mput m (crewKey uid p.2) (startCrew l uid p.2 p.1 core)) s.crews
  let compat := if s.compatBy.contains (core, l.job) then s.compat else mdel s.compat core
  let s := dropTlb s core l.job
  let s := modLaunch s lid fun l => { l with units := mput l.units (cluster * l.unitsPer + u) uid }
  { s with nextUid := uid + 1, units := mput s.units uid st, crews := crews, compat := compat }

/-- Admit a cluster on cores, in unit order; the launch runs, and an ordered one remembers memory and
expert counters as they stand at its start (R287, R317, R331; log 14). -/
def admitCluster (s : State) (lid cluster : Nat) (cores : List Nat) : State :=
  match mget s.launches lid with
  | none => s
  | some l =>
    let first := l.ordered && l.admitted.isEmpty
    let s := modLaunch s lid fun l =>
      { l.setStatus 1 0 l.count with
        admitted := l.admitted ++ [cluster]
        snap := if first then s.mem else l.snap
        snapX := if first then s.xctrs else l.snapX }
    (cores.zip (l.unitsLeft cluster)).foldl (fun s p => admitUnit s lid l cluster p.2 p.1) s

/-- Cancel a unit before its cluster is admitted: it never runs, its launch counts it, and its threads are members
of no barrier any more, which may complete one of the launch (R40, R41, R49). -/
def cancelEarly (s : State) (lid : Nat) (l : Launch) (i : Nat) : State :=
  if i < l.clusters * l.unitsPer then
    let uid := s.nextUid
    let u := { startUnit lid (i / l.unitsPer) (i % l.unitsPer) 0 0 [] 0 0 with
      res := .gone, ended := true, cancelled := true }
    leaveBars (countUnit { modLaunch s lid (fun l => { l with units := mput l.units i uid }) with
      nextUid := uid + 1, units := mput s.units uid u } uid) uid lid []
  else s

/-- Cluster `cluster` of a launch may be admitted on cores now (R34 to R36, R53, R319). -/
def admissible (s : State) (lid cluster : Nat) (cores : List Nat) : Bool :=
  match mget s.launches lid with
  | none => false
  | some l =>
    l.waiting && decide (nextCluster s lid l = some cluster) && coresOk s lid l cluster cores &&
      !earlierPlaceable s l && !restoreFirst s l.prio cores

/-- CLUSTER_ADMIT (R34, R319). -/
def execClusterAdmit (lid cluster : Nat) (cores : List Nat) (s : State) :
    Host.Outcome State Fault Refusal :=
  .next (if admissible s lid cluster cores then admitCluster s lid cluster cores else s)

/-! ## Completion and serial phases (R48, R333) -/

/-- A unit's threads and work have ended: it completes, or, in an ordered launch, awaits its phase; a
cancelled one is counted when its issued work is performed (R49). -/
def completeUnit (s : State) (uid : Nat) : State :=
  if (mget s.units uid).elim false (·.cancelled) then afterWalks (endCancelled s uid)
  else if unitDrained s uid then
    let ordered := match mget s.units uid with
      | none => false
      | some u => isOrdered s u.lid
    let s := releaseUnit s uid
    if ordered then s else afterWalks (countUnit s uid)
  else s

/-- UNIT_COMPLETE (R48). -/
def execUnitComplete (s : State) : Host.Outcome State Fault Refusal := .next (completeUnit s s.subj)

/-- The unit of an ordered launch whose serial phase runs: all units have ended, and it is the first
that has not completed (R333). -/
def phaseUnit (s : State) (l : Launch) : Option Nat :=
  let us := l.units.map (·.2)
  let st (uid : Nat) : UnitSt := mgetD s.units uid (startUnit 0 0 0 0 0 [] 0 0)
  if l.ordered && !l.isOver && !l.ending && decide (l.units.length = l.clusters * l.unitsPer) &&
      us.all fun uid => (st uid).ended || (st uid).isOver then
    us.find? fun uid => !(st uid).isOver
  else none

/-- Who makes a serial phase's accesses: the unit. -/
def phaseWho (s : State) (u : UnitSt) (uid slot lane : Nat) : Who :=
  { job := jobOf s u.lid, core := u.core, uid := uid, lid := u.lid, slot := slot
    lanes := oneLane lane, priv := false, cmd := 0, host := false, serial := true }

/-- The work of one entry of a serial buffer (R332, R333). -/
def serialWork (w : Who) : SerEntry → VM Unit
  | .store _ va data _ lane => vwrite w .store false lane va data
  | .atom _ va op w64 v x _ _ =>
    vbind (vxlat w .atomic va) fun r s =>
      match atomTgt s w va r.1 op w64 v x with
      | (s, some _) => .ok s ()
      | (s, none) => .err s clsProt va
  | .prop _ va v gen winner _ _ =>
    vbind (vxlat w .flintWrite va) fun r s =>
      match proposeHome s w va r.1 v gen winner.toNat with
      | (s, some _) => .ok s ()
      | (s, none) => .err s clsProt va
  | .count x inc _ => vmod fun s => xAdd s x inc
  | .cprop .. => vpure ()
  | .cmd core seq => fun s =>
    match findCmd s core seq with
    | none => .ok s ()
    | some c =>
      match serialCmd (cmdWho s c true) c s with
      | .ok s _ => .ok (dropCmd s c) ()
      | r => r

/-- The crew slot, lane and address of an entry, for the log. -/
def SerEntry.place : SerEntry → Nat × Nat × Word
  | .store _ va _ slot lane => (slot, lane, va)
  | .atom _ va _ _ _ _ slot lane => (slot, lane, va)
  | .prop _ va _ _ _ slot lane => (slot, lane, va)
  | .count _ _ slot => (slot, 0, 0)
  | .cmd .. | .cprop .. => (0, 0, 0)

/-- The slice at which work that went from one state to another has logged an error. -/
def loggedAt (s t : State) : Option Nat := (t.vseq.find? fun p => decide (mget s.vseq p.1 ≠ some p.2)).map (·.1)

/-- The slice at which a skipped entry is logged: that of its target, for a deferred command the one that `met` the
error, where it could not be translated slice 0 of the requester's stack (R341). -/
def SerEntry.slice (s : State) (w : Who) (met : Option Nat) : SerEntry → Nat
  | .store phys .. | .atom phys .. | .prop phys .. => sliceOf s phys
  | _ => met.getD (slice0 w)

/-- A deferred command that is skipped leaves. -/
def dropEntry (s : State) : SerEntry → State
  | .cmd core seq => { s with cmds := s.cmds.filter fun d => !decide (d.core = core ∧ d.seq = seq) }
  | _ => s

/-- The entry has been performed or skipped. -/
def popSerial (s : State) (uid : Nat) (e : SerEntry) : State :=
  modUnit s uid fun u =>
    { u with serial := u.serial.drop 1, serialBytes := u.serialBytes - serSize e }

/-- An entry meets an error response: logged with kind 7 and skipped; the launch will end FAULTED. -/
def skipEntry (s : State) (w : Who) (uid lid : Nat) (e : SerEntry) (va : Word) (met : Option Nat) : State :=
  let s := vlogAdd s (e.slice s w met) 7 va w
  let s := modLaunch s lid fun l => { l with failed := true, pages := [] }
  popSerial (dropEntry s e) uid e

/-- The serial phase of a unit performs its next entry, or ends (R333). -/
def phaseStep (s : State) (uid : Nat) (u : UnitSt) (l : Launch) : State :=
  match u.serial with
  | [] => afterWalks (countUnit s uid)
  | e :: _ =>
    let (slot, lane, va) := e.place
    let w := phaseWho s u uid slot lane
    match pagesRejected s l.pages with
    | id :: _ => skipEntry s w uid u.lid e (pageVa s id) none
    | [] =>
      if pagesOpen s l.pages ≠ [] then s
      else match serialWork w e s with
        | .ok s _ => popSerial (modLaunch s u.lid fun l => { l with pages := [] }) uid e
        | .page _ w k a ty lv =>
          let (s, id) := faultEnter s w k a ty lv
          modLaunch s u.lid fun l => { l with pages := [id] }
        | .err t _ a => skipEntry s w uid u.lid e (if va = 0 then a else va) (loggedAt s t)
        | .wait _ _ _ => s

/-- SERIAL_PHASE (R333). -/
def execSerialPhase (s : State) : Host.Outcome State Fault Refusal :=
  .next (match mget s.units s.subj with
    | none => s
    | some u =>
      match mget s.launches u.lid with
      | none => s
      | some l => if phaseUnit s l = some s.subj then phaseStep s s.subj u l else s)

/-! ## The pool bitmap (R82, R317, R318) -/

/-- Read one part of a pool bitmap: memory of target type 1 or 2; another target refuses it, which its home slice logs
(R318, R341). -/
def poolPart (w : Who) (p : Word × Nat) : VM (List Byte) :=
  vbind (vxlat w .load p.1) fun r =>
    if r.2 = 1 ∨ r.2 = 2 then vreadPart { w with lid := 0 } .load false p.1 p.2
    else fun s => .err (vlogAdd s (sliceOf s r.1) 1 p.1 w) clsProt p.1

/-- Read the pool bitmap of a launch. -/
def readPool (w : Who) (l : Launch) : VM (List Byte) :=
  let n := (recW l 17 % 2 ^ 32 + 3) / 4
  vfold (fun acc p => vbind (poolPart w p) fun b => vpure (acc ++ b)) []
    (parts (BitVec.ofNat 64 (recW l 16)) n)

/-- Load the pool bitmap of a launch before any of its units is admitted; an access that could not be translated is
logged at slice 0 of the requester's stack, any other where it was refused (R318, R341). -/
def loadPool (s : State) (lid : Nat) : State :=
  match mget s.launches lid with
  | none => s
  | some l =>
    let w : Who :=
      { job := l.job, core := 0, uid := 0, lid := lid, slot := 0, lanes := 0, priv := false, cmd := 0
        host := false }
    let fail (t : State) : State := afterWalks (cancelLaunch t lid true none)
    if l.isOver || l.poolReady then s
    else match pagesRejected s l.pages with
      | id :: _ => fail (vlogAdd s (slice0 w) 1 (pageVa s id) w)
      | [] =>
        if pagesOpen s l.pages ≠ [] then s
        else match readPool w l s with
          | .ok s b => modLaunch s lid fun l => { l with pool := b, poolReady := true, pages := [] }
          | .page _ w k a ty lv =>
            let (s, id) := faultEnter s w k a ty lv
            modLaunch s lid fun l => { l with pages := [id] }
          | .err t _ a => fail (if t.vseq = s.vseq then vlogAdd t (slice0 w) 1 a w else t)
          | .wait _ _ _ => s

/-- POOLMAP_LOAD (R318). -/
def execPoolmapLoad (s : State) : Host.Outcome State Fault Refusal := .next (loadPool s s.subj)

/-! ## What makes a unit leave (R51, R211, R322) -/

/-- Some unit waits for admission: only a launch with clusters not yet admitted counts, a swapped unit
that waits to be restored does not (R51; DESIGN CHOICE, log 73). -/
def someWaiting (s : State) : Bool := s.launches.any fun p => p.2.waiting

/-- A unit starts to leave its core. -/
def startDrain (s : State) (uid : Nat) : State := modUnit s uid fun u => { u with res := .draining }

/-- The unit's launch carries SWAPPABLE. -/
def unitSwappable (s : State) (u : UnitSt) : Bool :=
  match mget s.launches u.lid with
  | none => false
  | some l => l.swappable

/-- A unit stands on its core and has neither ended nor started to leave. -/
def UnitSt.stays (u : UnitSt) : Bool := decide (u.res = .resident) && !u.ended && !u.isOver && !u.cancelled

/-- WAIT_CLOCK_SWAP (R51). -/
def execWaitClockSwap (s : State) : Host.Outcome State Fault Refusal :=
  let limit := s.swapth.toNat % 2 ^ 32
  .next (match mget s.units s.subj with
    | none => s
    | some u =>
      if u.stays && unitSwappable s u && someWaiting s && decide (limit ≠ 0 ∧ limit < u.clock) then
        startDrain s s.subj
      else s)

/-- The units of a core that hold columns and wait for more (R211). -/
def deadUnits (s : State) (core : Nat) : List (Nat × UnitSt) :=
  s.units.filter fun p => holdsNow core p.2 && decide (p.2.res = .resident) && !p.2.cols.isEmpty &&
    s.crews.any fun q => decide (q.2.uid = p.1) && (crewResv q.2).isSome

/-- The later of two units: the later launch, then the higher unit index. -/
def youngest (s : State) (a b : Nat × UnitSt) : Nat × UnitSt :=
  if a.2.lid < b.2.lid ∨ (a.2.lid = b.2.lid ∧ unitIndex s a.2 < unitIndex s b.2) then b else a

/-- No waiting reservation of a core can be granted. -/
def noGrant (s : State) (core : Nat) : Bool :=
  (resvWaiters s core).all fun x => match crewResv x.2.1 with
    | none => true
    | some (c, _, _) => (resvPick s x.2.2 c).isNone

/-- RESERVATION_DEADLOCK of the core at hand: the youngest of its units leaves; while a unit of the
core is leaving, its columns are still to come free (R211). -/
def execReservationDeadlock (s : State) : Host.Outcome State Fault Refusal :=
  let core := s.subj
  let leaving := (coreUnits s core).any fun u => decide (u.res = .draining ∨ u.res = .saving)
  .next (match deadUnits s core with
    | a :: b :: t =>
      if noGrant s core && !leaving then startDrain s ((b :: t).foldl (youngest s) a).1 else s
    | _ => s)

/-- The preference of pre-emption: lowest PRIO, then later launch, then higher u (R322). -/
def takenBefore (s : State) (a b : Nat × UnitSt) : Bool :=
  let pa := unitPrio s a.2
  let pb := unitPrio s b.2
  decide (pa < pb) || (decide (pa = pb) && decide (youngest s a b = a))

/-- Insert a unit by that preference. -/
def insTaken (s : State) (x : Nat × UnitSt) : List (Nat × UnitSt) → List (Nat × UnitSt)
  | [] => [x]
  | y :: t => if takenBefore s x y then x :: y :: t else y :: insTaken s x t

/-- The units that pre-emption may take from a hardware cluster, in the order of preference (R322). -/
def preemptable (s : State) (prio hw : Nat) : List (Nat × UnitSt) :=
  (s.units.filter fun p => p.2.stays && unitSwappable s p.2 && decide (hwCluster p.2.core = hw) &&
    decide (unitPrio s p.2 < prio)).foldl (fun l x => insTaken s x l) []

/-- A hardware cluster has room for `n` units of a launch once some units and all that are leaving
have left. -/
def roomWithout (s : State) (lid : Nat) (l : Launch) (n hw : Nat) (gone : List Nat) : Bool :=
  (firstRoom (fun core =>
    roomAmong s ((s.units.filter fun p => onCore core p.2 && !gone.contains p.1 &&
      decide (p.2.res ≠ .draining ∧ p.2.res ≠ .saving)).map (·.2)) lid l) n
    (hwCores s hw)).isSome

/-- The first choice of `k` units from a list, in its order, that suffices. -/
def chooseOut (ok : List Nat → Bool) : Nat → List Nat → List (Nat × UnitSt) → Option (List Nat)
  | 0, gone, _ => if ok gone then some gone else none
  | _ + 1, _, [] => none
  | k + 1, gone, x :: t =>
    match chooseOut ok k (gone ++ [x.1]) t with
    | some r => some r
    | none => chooseOut ok (k + 1) gone t

/-- The units that pre-emption takes for `n` units of a launch: the fewest that suffice, those preferred
(R322). -/
def preemptSet (s : State) (lid : Nat) (l : Launch) (n hw : Nat) : Option (List Nat) :=
  let us := preemptable s l.prio hw
  (upTo (us.length + 1)).findSome? fun k => chooseOut (roomWithout s lid l n hw) k [] us

/-- One choice of units comes before another: fewer, or as many and its first is preferred (R322). -/
def setBefore (s : State) (a b : List Nat) : Bool :=
  let unit (l : List Nat) : Option (Nat × UnitSt) := match l with
    | [] => none
    | u :: _ => (mget s.units u).map fun x => (u, x)
  decide (a.length < b.length) || (decide (a.length = b.length) &&
    match unit a, unit b with
    | some x, some y => takenBefore s x y
    | _, _ => false)

/-- No other hardware cluster has a choice of units that comes before a set (R322). -/
def bestSet (s : State) (lid : Nat) (l : Launch) (n hw : Nat) (gone : List Nat) : Bool :=
  (upTo 32).all fun h => decide (h = hw) ||
    match preemptSet s lid l n h with
    | none => true
    | some other => !setBefore s other gone

/-- PRE_EMPT: the waiting cluster cannot be placed, and would not be once the units that are leaving
have left; the fewest units that suffice leave one hardware cluster (R322). -/
def execPreEmpt (lid cluster hw : Nat) (s : State) : Host.Outcome State Fault Refusal :=
  .next (match mget s.launches lid with
    | none => s
    | some l =>
      let n := (l.unitsLeft cluster).length
      if l.waiting && l.waits cluster && decide (hw < 32) && !canPlace s lid l cluster &&
          (upTo 32).all fun h => !roomWithout s lid l n h [] then
        match preemptSet s lid l n hw with
        | none => s
        | some gone => if bestSet s lid l n hw gone then gone.foldl startDrain s else s
      else s)

/-! ## Swap out (R52 to R54, R232, R297, R314) -/

/-- A request that can only go on after its line or flint cell changes. -/
def Req.stuck (s : State) (r : Req) : Bool :=
  decide (r.st = .waiter) || !(decide (r.ty = 6) && refreshing s r.phys)

/-- No request of an operation can be performed now and none will be by the passing of time; it is not
about to complete. -/
def opDrained (s : State) (c : Crew) (o : Op) : Bool :=
  o.done ||
  ((!o.accs.isEmpty || o.reqs.any Req.open_) &&
    (o.accs.isEmpty || decide (pagesOpen s o.pages ≠ []) || !mayTranslate s c o) &&
    o.reqs.all fun r => !r.open_ || (r.stuck s && !canPerform s c o r))

/-- Work of a crew that completes by itself during DRAINING is complete. -/
def crewDrained (s : State) (c : Crew) : Bool :=
  c.ops.all fun o => opDrained s c o &&
    (match o.kind with
      | .ldsym .. => lanes.all fun l => !symReady o l
      | _ => true)

/-- An open request as an access to be replayed. -/
def Req.acc (r : Req) : Acc := { lane := r.lane, va := r.va, n := r.n, op := r.op }

/-- A request that is withdrawn by being translated anew after restore; that of a cord in a B-slice names the
column of the unit, which it has again then (R224, R232). -/
def Req.again (r : Req) : Bool := r.open_ && decide (r.ty ≠ tyCord)

/-- Withdraw an operation's open requests (R53, R232, R297). -/
def Op.withdraw (o : Op) : Op :=
  if o.done then o
  else
    { o with accs := o.accs ++ (o.reqs.filter Req.again).map Req.acc
             reqs := o.reqs.filter fun r => !r.again }

/-- A fault reported during DRAINING is written to the crew's fault record (R54). -/
def recordDrained (s : State) (uid key : Nat) : State :=
  match mget s.crews key with
  | none => s
  | some c =>
    let w := whoLane s c 0 c.priv
    let t := match c.ops.find? fun o => o.done && o.drained && decide (o.bad ≠ 0) with
      | some o => some (opTrap o (nextPc c))
      | none => (dueSym c).map fun y => symTrap c y.1 y.2 (nextPc c)
    match t with
    | some t =>
      if decide (c.uid = uid) && !c.priv then
        wr s (frecAt s w.job c.core c.slot) (wordsBytes (frecWords w.lid c t))
      else s
    | none => s

/-- A crew whose unit has drained: results in place, hints and requests withdrawn. -/
def drainCrew (c : Crew) : Crew :=
  { settleAll c with hint := Hints.none, ops := (settleAll c).ops.map Op.withdraw }

/-- The unit has drained; no FENCE of it is about to complete (R53, R194). -/
def unitQuiet (s : State) (uid : Nat) : Bool :=
  s.crews.all fun p => decide (p.2.uid ≠ uid) || (crewDrained s p.2 && (pickFence s p.2).isNone)

/-- DRAIN_DONE (R53). -/
def execDrainDone (s : State) : Host.Outcome State Fault Refusal :=
  let uid := s.subj
  .next (match mget s.units uid with
    | none => s
    | some u =>
      if decide (u.res = .draining) && !u.isOver && !u.ended && !u.cancelled && unitQuiet s uid then
        let s := (crewKeys s uid).foldl (fun s k => recordDrained s uid k) s
        let s := (crewKeys s uid).foldl (fun s k => dropWaiters (modCrew s k drainCrew) k) s
        modUnit s uid fun u => { u with res := .saving }
      else s)

/-- SAVE_DONE: the unit's resources, columns and counters are free (R33, R53, R210, R274). -/
def execSaveDone (s : State) : Host.Outcome State Fault Refusal :=
  let uid := s.subj
  .next (match mget s.units uid with
    | none => s
    | some u =>
      if decide (u.res = .saving) && !u.isOver && !u.cancelled then
        let own := s.lctrs.filter fun p => decide (p.2.owner = uid)
        let s := modUnit s uid fun u =>
          { u with res := .swapped, lcs := own.map fun p => (p.1 % 64, p.2) }
        grantWaiting { s with lctrs := s.lctrs.filter fun p => decide (p.2.owner ≠ uid) } u.core
      else s)

/-! ## Restore -/

/-- No swapped unit that comes before another on its core could be restored instead: higher priority, then earlier
launch, then lower unit index, as R210 orders waiting units (DESIGN CHOICE, log 78: R53 orders a swapped unit only
against those that wait for first admission). -/
def firstRestore (s : State) (uid : Nat) (u : UnitSt) : Bool :=
  s.units.all fun p => decide (p.1 = uid) || !(decide (p.2.core = u.core) && restorable s p.2 &&
    resvBefore s p.2 u)

/-- A waiting launch of higher priority could be placed on the core (R53). -/
def admitBefore (s : State) (u : UnitSt) : Bool :=
  s.launches.any fun p => p.2.waiting && decide (unitPrio s u < p.2.prio) && roomOn s p.1 p.2 u.core &&
    placeable s p.1 p.2

/-- RESTORE_START (R53, R212, R274). -/
def execRestoreStart (s : State) : Host.Outcome State Fault Refusal :=
  let uid := s.subj
  .next (match mget s.units uid with
    | none => s
    | some u =>
      if restorable s u && firstRestore s uid u && !admitBefore s u then
        let base := (shareGap (coreUnits s u.core) u.shareSize).getD 0
        let s := dropTlb s u.core (jobOf s u.lid)
        let s := modUnit s uid fun u => { u with res := .restoring, shareBase := base, lcs := [] }
        { s with lctrs := u.lcs.foldl (fun m p => mput m (lcKey u.core p.1) p.2) s.lctrs }
      else s)

/-- A disposition of a crew's trap (R339): 1 RESUME, 2 KILL, 3 FAIL. -/
def disposeNow (s : State) (key kind : Nat) : State :=
  match mget s.crews key with
  | none => s
  | some c =>
    match kind with
    | 1 => eret s key
    | 2 => endLanes s key (BitVec.allOnes 32)
    | _ =>
      let w := whoLane s c 0 true
      let rec_ := (c.trap.map fun t => frecWords w.lid c t)
      afterWalks (cancelLaunch s w.lid true rec_)

/-- A disposition that waited for restore takes effect (R337). -/
def disposeHeld (s : State) (key : Nat) : State :=
  match mget s.crews key with
  | none => s
  | some c =>
    match c.disp with
    | none => s
    | some k => disposeNow (putCrew s key { c with disp := none }) key k

/-- RESTORE_DONE: withdrawn operations reissue (R53). -/
def execRestoreDone (s : State) : Host.Outcome State Fault Refusal :=
  let uid := s.subj
  .next (match mget s.units uid with
    | none => s
    | some u =>
      if decide (u.res = .restoring) && !u.isOver && !u.cancelled then
        let s := modUnit s uid fun u => { u with res := .resident }
        let s := (crewKeys s uid).foldl resumeOps s
        let s := grantWaiting s u.core
        (crewKeys s uid).foldl disposeHeld s
      else s)

end Sys2Proof.Machine
end

