-- ==== Sys2Proof/Machine/Sched.lean ====
section
/-! DEFINITION. What a crew issues next and when: the pool map, illegal words, the issue schedulers and
wait clocks, and the events that stand ready (02 R51, R55, 04 R67, R70, R72, R82, R83, 06 R103, 22 R321). -/

namespace Sys2Proof.Machine

/-! ## Decode -/

/-- The pool code of a code word of a launch (R82, R317). -/
def poolCode (l : Launch) (pc : Word) : Nat :=
  let e := recW l 0
  let k := (pc.toNat - e) / 4
  if recW l 16 = 0 ∨ pc.toNat < e ∨ recW l 17 % 2 ^ 32 ≤ k then 0
  else (l.pool.getD (k / 4) 0).toNat / 4 ^ (k % 4) % 4

/-- A word that the pool map does not let be executed (R82). -/
def poolBad (l : Option Launch) (pc : Word) (w : IWord) : Bool :=
  match l with
  | none => false
  | some l =>
    let k := poolCode l pc
    decide (2 ≤ k ∨ (k = 1 ∧ w.toNat / 2 ^ 24 ≠ 0xF0))

/-- The word that stands for an illegal one when its hints are judged: its opcode, with the lookahead of
formats L and A and F[0] of KLD and KST, which say which hints the instruction takes (R77, R83). -/
def plainWord (w : IWord) : IWord :=
  let op := w.toNat / 2 ^ 24
  let keep :=
    if 0x60 ≤ op ∧ op ≤ 0x70 ∧ op ≠ 0x62 then bits w.toNat 7 4 * 16
    else if op = 0x95 ∨ op = 0x96 then w.toNat % 2
    else 0
  BitVec.ofNat 32 (op * 2 ^ 24 + keep)

/-- Which hints an illegal word that is no hint takes (R83). -/
def badUses (w : IWord) : Uses :=
  match decodeRaw w with
  | some i => usesOf i
  | none =>
    match decodeRaw (plainWord w) with
    | some i => usesOf i
    | none => uses hdr0 []

/-- The hints pending may stand before an illegal word: hints of other kinds stack before a hint word, and
any other word takes those that its fields say (R75, R76, R83). -/
def badHintsOk (w : IWord) (hn : Hints) : Bool :=
  match w.toNat / 2 ^ 24 with
  | 0xE8 => decide (hn.ximm = none)
  | 0xE9 => decide (hn.track = none)
  | 0xEA => decide (hn.wait = none)
  | 0xEB => decide (hn.mod = none)
  | _ => hintsOk (badUses w) hn

/-- SP of a word (R70). -/
def spacing (w : IWord) : Nat :=
  let op := w.toNat / 2 ^ 24
  if op = 0 ∨ opUnassigned op = true ∨ 0xE0 ≤ op then 0 else bits w.toNat 23 22

/-- The word's opcode is routed on the core (R67); none of a trap routine's own words is (DESIGN CHOICE, log 78). -/
def routed (s : State) (c : Crew) (w : IWord) : Bool :=
  let v := (mgetD s.compat c.core 0).toNat
  bitAt v 8 && decide (v % 256 = w.toNat / 2 ^ 24) && !c.priv

/-! ## What a crew issues next -/

/-- What stands next for a crew. -/
inductive Next where
  | idle
  /-- A recorded fault is taken at a trap point (R74). -/
  | trapOp (o : Op) (point : Word)
  | trapSym (sym : Nat) (point : Word)
  /-- A word, and the first word of its group. -/
  | word (start pc : Word)
  deriving DecidableEq, Repr

/-- The ready thread that issued least recently, at the lowest address (R103). A group whose threads
issued at different times counts from the earliest of them (DESIGN CHOICE, log 73). -/
def pickTh (s : State) (c : Crew) : Option Thread :=
  lanes.foldl (fun best l =>
    let t := thOf c l
    if readyTh s c t then
      match best with
      | none => some t
      | some b =>
        if t.stamp < b.stamp ∨ (t.stamp = b.stamp ∧ t.pc.toNat < b.pc.toNat) then some t else some b
    else best) none

/-- The group that a crew issues, as start and next word. -/
def pickWord (s : State) (c : Crew) : Option (Word × Word) :=
  let fresh := (pickTh s c).map fun t => (t.pc, t.pc)
  match c.hint.start with
  | none => fresh
  | some st => if groupAt c st = 0 then fresh else some (st, c.hint.cursor)

/-- An operation at whose result the crew waits before its next instruction (R72). -/
def blocks (c : Crew) (o : Op) : Bool :=
  decide (o.la = some 0) && decide (o.priv = c.priv) && !o.parksGroup

/-- The unit of a crew lets it issue (R53, R321). -/
def unitIssues (s : State) (c : Crew) : Bool :=
  match mget s.units c.uid with
  | none => true
  | some u => u.stays

/-- What stands next for a crew (R72, R74, R298); while its unit drains, only a FENCE whose wait is over
(R194). -/
def nextOf (s : State) (c : Crew) : Next :=
  if c.due.isSome then .idle
  else if !unitIssues s c then
    match pickFence s c with
    | some (start, pc) =>
      if c.ops.any fun o => blocks c o && (!o.done || decide (o.bad ≠ 0)) then .idle else .word start pc
    | none => .idle
  else match pickWord s c with
    | none =>
      match (if c.priv then none else dueSym c) with
      | some y => .trapSym y.1 (nextPc c)
      | none => .idle
    | some (start, pc) =>
      match c.ops.find? fun o => blocks c o && o.done && decide (o.bad ≠ 0) with
      | some o => .trapOp o start
      | none =>
        if c.ops.any fun o => blocks c o && !o.done then .idle
        else match (if c.priv then none else dueSym c) with
          | some y => .trapSym y.1 start
          | none => if crewParked s c then .idle else .word start pc

/-- The word waits for flags, for a free flag count or for results (R72, R79, R80). -/
def wordHeld (s : State) (c : Crew) (start : Word) (w : IWord) : Bool :=
  match decode w with
  | .error _ => false
  | .ok i =>
    let u := usesOf i
    decide (holdOf (settle s.cycle c) u c.hint (guarded c u.h (groupAt c start)) = .wait)

/-- The first cycle at which a crew is eligible, its scheduler apart (R70, R321). -/
def eligibleAt (s : State) (c : Crew) : Option Nat :=
  match nextOf s c with
  | .idle => none
  | .trapOp .. | .trapSym .. => some (max s.cycle c.ready)
  | .word start pc =>
    match peekWord s c pc with
    | none => some (max s.cycle c.ready)
    | some w =>
      let c' := wakeGroup s c start
      if wordHeld s c' start w then none else some (max s.cycle (c.ready + spacing w))

/-! ## Wait clocks (R51) -/

/-- The crew waits at present for an operation: its lookahead has run out, or the next word is a control
transfer (R72). -/
def waitsFor (s : State) (c : Crew) (o : Op) : Bool :=
  blocks c o || (match nextOf s c with
    | .word start pc =>
      match peekWord s c pc with
      | none => false
      | some w =>
        match decode w with
        | .error _ => false
        | .ok i => (usesOf i).ctl && (decide (start = pc) || !flagsOpen c (c.hint.wait.getD 0)) &&
            (ctlOps c).any fun p => decide (p.id = o.id)
    | _ => false)

/-- The operation has an access that an ABSENT line or block keeps from being performed (R163, R164). -/
def Op.absent (s : State) (o : Op) : Bool :=
  !o.done && o.reqs.any fun r => decide (r.st = .waiting) && !presentAll s r.phys r.n &&
    (match r.op with
      | .read | .atom .. => true
      | _ => false)

/-- The crew is in a counted wait: in a barrier, LCWAIT, RESV.W or FWAIT, or parked by a load or atomic on
an ABSENT line, also by the symbol of one (R51, R163, R295), or by a MULK.S on an ABSENT block (R226; DESIGN CHOICE,
log 77); a WAIT on flags is none (R73). -/
def countedWait (s : State) (c : Crew) : Bool :=
  lanes.any (fun l =>
    let t := thOf c l
    t.live && (match t.park with
      | .bar .. | .nbar .. | .lcwait _ | .resv .. => true
      | .syms m => c.ops.any fun o => o.absent s && (match o.kind with
        | .ldsym y _ _ => bitAt m y && !inMask (o.fin ||| o.bad) l
        | _ => false)
      | .lines phys n => !presentAll s phys n
      | .reply id => c.ops.any fun o => decide (o.id = id) && o.reqs.any fun r => decide (r.st = .waiter)
      | _ => false)) ||
  c.ops.any fun o => o.absent s && waitsFor s c o

/-- The crews of a unit. -/
def crewsOf (s : State) (uid : Nat) : List Crew :=
  (s.crews.filter fun p => decide (p.2.uid = uid)).map (·.2)

/-- Cycles, of the next `n`, in which a unit's clock advances: those after its last issue and before one of its crews
is eligible. -/
def clockTicks (s : State) (uid : Nat) (u : UnitSt) (n : Nat) : Nat :=
  if u.stays then
    let cs := crewsOf s uid
    if cs.any (countedWait s) then
      let m := cs.foldl (fun m c => match (if c.priv then none else eligibleAt s c) with
        | none => m
        | some t => min m (t - s.cycle)) n
      s.cycle + m - (cs.map (·.ready)).foldl max (max s.cycle u.issued)
    else 0
  else 0

/-- Cycles pass in which nothing issues. -/
def passCycles (s : State) (n : Nat) : State :=
  if n = 0 then s
  else
    { s with
      cycle := s.cycle + n
      units := s.units.map fun p => (p.1, { p.2 with clock := p.2.clock + clockTicks s p.1 p.2 n }) }

/-- A crew of a unit issues: its clock returns to 0, and this cycle does not count. -/
def clearClock (s : State) (c : Crew) : State :=
  modUnit s c.uid fun u => { u with clock := 0, issued := s.cycle + 1 }

/-! ## Issue -/

/-- What an issue comes to before the instruction's own meaning: a new state, or an instruction to
run, with whether its opcode is routed. -/
inductive Prep where
  | isOver (s : State)
  | run (i : Instr) (route : Bool) (s : State)

/-- A group whose fetch meets a page fault waits for it, or takes PAGE-FAULT if it is rejected (R157,
R339). -/
def fetchPage (s : State) (key : Nat) (w : Who) (c : Crew) (start pc : Word) (ty lv : Nat) : State :=
  let grp := groupAt c start
  if rejHit s c pc then takeTrap s key (mkTrap clsPage start (pc + 4) pc grp grp)
  else
    let (s, id) := faultEnter s w .fetch pc ty lv
    modCrew s key fun c =>
      { modThs c (lanesOf grp) (fun _ t => { t with park := .page [id] }) with hint := Hints.none }

/-- Fetch, check and decode the word that a group issues (R82, R83, R157). -/
def prepWord (s : State) (key : Nat) (start pc : Word) : Prep :=
  match mget s.crews key with
  | none => .isOver s
  | some c0 =>
    let c := wakeGroup s c0 start
    let c := if c.hint.start = some start then c else { c with hint := Hints.none }
    let s := putCrew s key c
    let grp := groupAt c start
    let bad (s : State) (cls : Nat) (addr : Word) : Prep :=
      .isOver (takeTrap s key (mkTrap cls start (pc + 4) addr grp grp))
    if grp = 0 then .isOver s
    else
      match fetchAt s (whoLane s c grp c.priv) pc with
      | .prot s => bad s clsProt pc
      | .page s w ty lv => .isOver (fetchPage s key w c start pc ty lv)
      | .word s w =>
        let s := clearClock s c
        if poolBad (launchOf s c) pc w then bad s clsPool 0
        else match decode w with
          | .ok i => .run i (routed s c w) { s with iss := { crew := key, pc := pc, start := start } }
          | .error _ =>
            if badHintsOk w c.hint then bad s clsEncoding 0 else bad s clsHint pc

/-- A crew issues what stands next for it. -/
def prepCrew (s : State) (key : Nat) (n : Next) : Prep :=
  match n with
  | .idle => .isOver s
  | .trapOp o point => .isOver (takeOpTrap s key o point)
  | .trapSym y point => .isOver (takeSymTrap s key y point)
  | .word start pc => prepWord s key start pc

/-! ## The choice among crews (R321) -/

/-- A crew that can issue, in the order of choice: cycle, scheduler, 255 − PRIO, last issue, slot. -/
structure Cand where
  key : Nat
  order : List Nat

/-- Lexicographic order. -/
def lexLt : List Nat → List Nat → Bool
  | a :: s, b :: t => decide (a < b) || (decide (a = b) && lexLt s t)
  | _, _ => false

/-- The issue scheduler of a crew (R321). -/
def schedOf (c : Crew) : Nat := c.core * 4 + c.slot % 4

/-- The place of a crew among those that can issue; none while it cannot, or while its slot runs the
resident routine. -/
def candOf (s : State) (key : Nat) (c : Crew) : Option Cand :=
  if c.priv then none
  else match eligibleAt s c with
    | none => none
    | some at_ =>
      let sch := schedOf c
      let prio := match launchOf s c with
        | none => 0
        | some l => l.prio
      some { key := key, order := [max at_ (mgetD s.sched sch 0), sch, 255 - prio, c.stamp, c.slot] }

/-- The crew that issues next among those that satisfy a predicate, with its cycle. -/
def bestAmong (s : State) (p? : Crew → Bool) : Option (Nat × Nat) :=
  (s.crews.foldl (fun (best : Option Cand) p =>
    match (if p? p.2 then candOf s p.1 p.2 else none) with
    | none => best
    | some x =>
      match best with
      | none => some x
      | some b => if lexLt x.order b.order then some x else some b) none).map fun x =>
    (x.key, x.order.headD 0)

/-- The crew that issues next, with its cycle. -/
def bestCrew (s : State) : Option (Nat × Nat) := bestAmong s fun _ => true

/-- The next crew issues at its cycle, if one can (R321). -/
def prepNext (s : State) : Option (Nat × Prep) :=
  match bestCrew s with
  | none => none
  | some (key, at_) =>
    match mget s.crews key with
    | none => none
    | some c => some (key, prepCrew (passCycles s (at_ - s.cycle)) key (nextOf s c))

/-- The agenda asks a crew to issue: it does when its own scheduler would choose it, whatever the other
schedulers do (R55, R103, R321; log 2). -/
def prepIssue (s : State) (key : Nat) : Prep :=
  match mget s.crews key with
  | none => .isOver s
  | some c =>
    match bestAmong s fun d => decide (schedOf d = schedOf c) with
    | none => .isOver s
    | some (k, at_) =>
      if k = key then prepCrew (passCycles s (at_ - s.cycle)) key (nextOf s c) else .isOver s

/-! ## The resident routine (R337, log 7) -/

/-- Cycles pass until the routine of a crew may issue a word: its spacing is spent and its scheduler has issued
nothing in the cycle (R70, R321). -/
def routineCycle (s : State) (c : Crew) (i : Instr) : State :=
  passCycles s (max (c.ready + spacing ((encode i).getD 0)) (mgetD s.sched (schedOf c) 0) - s.cycle)

/-- The routine of a trapped crew executes an instruction, as soon as its crew and scheduler can issue it. -/
def prepRoutine (s : State) (key : Nat) (i : Instr) : Prep :=
  match mget s.crews key with
  | none => .isOver s
  | some c =>
    if c.priv && wellFormed i && (encode i).isSome then
      match nextOf s c with
      | .word start pc =>
        let s := routineCycle s c i
        let c := wakeGroup s c start
        let s := clearClock (putCrew s key c) c
        .run i false { s with iss := { crew := key, pc := pc, start := start } }
      | n => prepCrew s key n
    else .isOver s

/-! ## Events that stand ready -/

/-- The events that requests and operations of a crew have ready. -/
def crewEvents (s : State) (key : Nat) (c : Crew) : List (Instr × Nat) :=
  (c.ops.map fun o =>
    ((o.reqs.filter fun r => canPerform s c o r).map fun r =>
      (match r.op with
        | .fprop .. => Instr.flintProposal key o.id r.id
        | .frcy _ => .flintRecycle key o.id r.id
        | _ => .memoryRequestArrive key o.id r.id, 0)) ++
    (match o.kind with
      | .ldsym y _ _ => (lanes.filter (symReady o)).map fun l => (Instr.symbolArrival key y l, 0)
      | _ => if (o.settled || decide (o.left ≠ 0)) && !o.done then [(.longLatencyComplete key o.id, 0)] else [])).flatten

/-- The event by which a command starts or reads on. -/
def cmdWork (s : State) (c : Cmd) : Instr :=
  let job := jobOf s c.lid
  let group := c.words.getD 4 0
  match c.kind with
  | 0 => .copy c.core c.seq
  | 1 => .gather c.core c.seq
  | 2 => .scatter c.core c.seq
  | 3 => .mcast c.core c.seq
  | 4 => .expand c.core c.seq
  | 5 => .regroup c.core c.seq
  | 8 => .allreduce job group
  | 9 => .reduce job group
  | 10 => .bcast job group
  | 11 => .allgather job group
  | _ => .redscat job group

/-- The events of a command. -/
def cmdEvents (s : State) (c : Cmd) : List (Instr × Nat) :=
  if c.deferred then []
  else
    let late : List (Instr × Nat) :=
      if (c.noteLate s.cycle).late && !c.proposed && c.err.isNone then [(.deadlinePass c.core c.seq, 0)]
      else []
    let work : List Instr :=
      if c.err.isSome || (c.started && c.land.isEmpty && c.todo.isEmpty) then [.commandEnd c.core c.seq]
      else
        (if c.land.isEmpty then [] else [.copyBytesLand c.core c.seq 0 c.land.length]) ++
        (if c.started && c.todo.isEmpty then [] else [cmdWork s c])
    late ++ work.map fun i => (i, 0)

/-- A GRAPH command as its event. -/
def graphEvent (q : Nat × GraphCmd) : Instr :=
  match q.1 with
  | 0 => .graphStart q.2
  | 1 => .graphRetry q.2
  | 2 => .graphAbandon q.2
  | 3 => .graphCancel q.2
  | _ => .graphLaunch q.2

/-- The events of a unit. -/
def unitEvents (uid : Nat) (u : UnitSt) : List (Instr × Nat) :=
  if u.isOver then []
  else if u.cancelled then [(.unitComplete, uid)]
  else if u.ended then [(.serialPhase, uid)]
  else match u.res with
    | .resident => (if u.ctr = 0 then [(.unitComplete, uid)] else []) ++ [(.waitClockSwap, uid)]
    | .draining => (if u.ctr = 0 then [(.unitComplete, uid)] else []) ++ [(.drainDone, uid)]
    | .saving => [(.saveDone, uid)]
    | .swapped => [(.restoreStart, uid)]
    | .restoring => [(.restoreDone, uid)]
    | .gone => []

/-- The events of a launch: its pool bitmap, the admission of its next cluster, pre-emption. -/
def launchEvents (s : State) (lid : Nat) (l : Launch) : List (Instr × Nat) :=
  if l.isOver then []
  else if !l.poolReady then [(.poolmapLoad, lid)]
  else if l.waiting then
    match nextCluster s lid l with
    | some k =>
      match somePlace s lid l k with
      | some cs => [(.clusterAdmit lid k cs, 0)]
      | none => []
    | none => (l.tries.map fun k => (upTo 32).map fun h => (Instr.preEmpt lid k h, 0)).flatten
  else []

/-- A trap that a crew has due and that its issue does not take: it waited for its ring. -/
def trapEvents (key : Nat) (c : Crew) : List (Instr × Nat) :=
  if c.due.isSome && !c.priv then [(.trapTake, key)] else []

/-- Work that stands ready, in a fixed order; one of it may turn out to have nothing to do (log 2). -/
def readyEvents (s : State) : List (Instr × Nat) :=
  (s.faults.filterMap fun p => match p.2.ring with
    | some r => if p.2.served then some (.pageFaultReplay p.2.job r, 0) else none
    | none => none) ++
  (s.crews.map fun p => trapEvents p.1 p.2 ++ crewEvents s p.1 p.2).flatten ++
  (s.cmds.map (cmdEvents s)).flatten ++
  (s.klists.map fun k => (.kickEntryTake, k.core)) ++
  (s.graphQ.map fun q => (graphEvent q, 0)) ++
  (s.graphs.filterMap fun r =>
    if r.ready.isEmpty then none else some (.taskStart r.stack r.job r.header, 0)) ++
  (s.units.map fun p => unitEvents p.1 p.2).flatten ++
  (s.launches.map fun p => launchEvents s p.1 p.2).flatten ++
  ((dedup ((s.units.filter fun p => !p.2.cols.isEmpty).map (·.2.core))).map
    fun c => (.reservationDeadlock, c)) ++
  (if s.nonce.isSome then [(.attestReportDone, 0)] else [])

end Sys2Proof.Machine
end

