-- ==== Sys2Proof/Machine/HostSide.lean ====
section
/-! DEFINITION. Page-fault replay, the taking of traps that are due, and what the host runtime and the
host cores do: launch queues, ring heads, cancelling, dispositions and accesses (10 R157, R158, 22 R316
to R319, R329, R337 to R340, R349, 24 R351 to R353, 04 R67). -/

namespace Sys2Proof.Machine

/-! ## Replay (R157) -/

/-- The group of a thread no longer waits for its pages; one that meets a rejected entry goes on when it
is issued (R339). -/
def unparkPages (s : State) (c : Crew) : Crew :=
  let wake (p : Nat × Thread) : Nat × Thread :=
    match p.2.park with
    | .page ids =>
      if pagesOpen s ids = [] ∧ pagesRejected s ids = [] then (p.1, { p.2 with park := .none }) else p
    | _ => p
  { c with th := c.th.map wake, rt := c.rt.map wake }

/-- Everything that waits for fault-queue entries goes on as far as its entries are closed. -/
def replayAll (s : State) : State :=
  let keys := s.crews.map (·.1)
  let s := keys.foldl resumeOps s
  let s := keys.foldl (fun s k => modCrew s k (unparkPages s)) s
  afterWalks s

/-- The entry of a job's fault ring at a place, served or not. -/
def ringEntry (s : State) (job entry : Nat) (p : FaultEnt → Bool) : Option (Nat × FaultEnt) :=
  s.faults.find? fun f => decide (f.2.job = job ∧ f.2.ring = some entry) && p f.2

/-- Replay what waits on a served entry, which then is forgotten. -/
def replayEntry (s : State) (job entry : Nat) : State :=
  match ringEntry s job entry (·.served) with
  | none => s
  | some (id, f) =>
    let s := replayAll s
    { s with faults := if f.rejected then mput s.faults id { f with ring := none } else mdel s.faults id }

/-- PAGE_FAULT_REPLAY (R157). -/
def execPageFaultReplay (job entry : Nat) (s : State) : Host.Outcome State Fault Refusal :=
  .next (replayEntry s job entry)

/-! ## Traps that are due (R337) -/

/-- Take the trap that a crew has due: one that waited for its ring, a recorded fault at which it waits, or
a symbol's fault. -/
def takeDueTrap (s : State) (key : Nat) : State :=
  match mget s.crews key with
  | none => s
  | some c =>
    if !unitIssues s c then s
    else match c.due with
      | some t => if c.priv then s else takeTrap s key t
      | none =>
        match nextOf s c with
        | .trapOp o point => takeOpTrap s key o point
        | .trapSym y point => takeSymTrap s key y point
        | _ => s

/-- TRAP_TAKE, of the crew at hand (R337). -/
def execTrapTake (s : State) : Host.Outcome State Fault Refusal :=
  .next (afterWalks (takeDueTrap s s.subj))

/-! ## COMPAT routing (R67) -/

/-- COMPAT_ROUTE: the result of the crew's last instruction is complete before its next (R67). -/
def execCompatRoute (s : State) : Host.Outcome State Fault Refusal :=
  .next (modCrew s s.subj fun c =>
    if bitAt (mgetD s.compat c.core 0).toNat 8 then
      settle s.cycle { c with pend := c.pend.map fun p =>
        if p.seq + 1 = s.nextSeq then { p with due := s.cycle } else p }
    else c)

/-! ## The control window (R353) -/

/-- Take launch records in order; the runtime has added one to the job's counter for each (R48, R319). -/
def takeRecords (s : State) (job : Nat) (recs : List (List Word)) : State :=
  recs.foldl (fun s r => (takeRecord (jobCount s job 1) job r none).1) s

/-- The runtime appends records to a job's launch queue (R319). -/
def appendRecs (s : State) (job : Nat) (recs : List (List Word)) : State :=
  { s with lqueue := mput s.lqueue job (mgetD s.lqueue job [] ++ recs) }

/-- How many records of a launch queue lie between its old tail and a new one (R353). -/
def tailPassed (s : State) (job : Nat) (tail : BitVec 16) : Nat := (tail - mgetD s.lqtail job 0).toNat

/-- LQTAIL_WRITE, with records that the runtime appends just before it: the records up to the new tail are
taken; before the package is ready for launches none is (R318, R319, R353, R356; log 69). -/
def execLqtailWrite (job : Nat) (tail : BitVec 16) (recs : List (List Word)) (s : State) :
    Host.Outcome State Fault Refusal :=
  .next (
    let s := appendRecs s job recs
    if launchReady s then
      let q := mgetD s.lqueue job []
      let n := tailPassed s job tail
      takeRecords { s with lqtail := mput s.lqtail job tail, lqueue := mput s.lqueue job (q.drop n) } job
        (q.take n)
    else s)

/-- The ring places from one head to another are passed. -/
def passed (lg old new at_ : Nat) : Bool :=
  decide ((at_ + 2 ^ lg - old % 2 ^ lg) % 2 ^ lg < (new + 2 ^ lg - old % 2 ^ lg) % 2 ^ lg)

/-- Fault-queue entries that waited for room move into the ring, in their order (R316). -/
def refill (s : State) (job : Nat) : State :=
  s.faults.foldl (fun s p =>
    if p.2.job = job ∧ p.2.ring = none ∧ p.2.served = false ∧ p.2.rejected = false then faultPut s p.1 p.2
    else s) s

/-- The runtime advances its heads: entries passed are served (R157, R316). -/
def setHeads (s : State) (job fhead thead : Nat) : State :=
  let w2 := (ctxW s job 2).toNat
  let lg := bits (ctxW s job 1).toNat 63 60
  let old := bits w2 63 48
  let faults : Map FaultEnt := s.faults.map fun p =>
    match p.2.ring with
    | some at_ =>
      if p.2.job = job ∧ passed lg old fhead at_ = true then (p.1, { p.2 with served := true }) else p
    | none => p
  let w := fhead * 2 ^ 48 + bits w2 47 32 * 2 ^ 32 + thead * 2 ^ 16 + bits w2 15 0
  refill (setCtxW { s with faults := faults } job 2 (BitVec.ofNat 64 w)) job

/-- RING_HEAD_WRITE (R316, R353). -/
def execRingHeadWrite (job : Nat) (fhead thead : BitVec 16) (s : State) :
    Host.Outcome State Fault Refusal :=
  .next (setHeads s job fhead.toNat thead.toNat)

/-- A launch of a job. -/
def jobLaunch (s : State) (job lid : Nat) : Option Launch :=
  match mget s.launches lid with
  | none => none
  | some l => if l.job = job then some l else none

/-- HOST_CANCEL_UNIT: unit u of a launch, admitted or not (R49, R349). -/
def execHostCancelUnit (job lid u : Nat) (s : State) : Host.Outcome State Fault Refusal :=
  .next (match jobLaunch s job lid with
    | none => s
    | some l =>
      match mget l.units u with
      | none => if l.isOver ∨ l.ending = true then s else afterWalks (cancelEarly s lid l u)
      | some uid => afterWalks (cancelUnit s uid))

/-- HOST_CANCEL_LAUNCH (R49, R349). -/
def execHostCancelLaunch (job lid : Nat) (s : State) : Host.Outcome State Fault Refusal :=
  .next (match jobLaunch s job lid with
    | none => s
    | some _ => afterWalks (cancelLaunch s lid false none))

/-- HOST_CANCEL_GRAPH (R49, R349). -/
def execHostCancelGraph (job : Nat) (header : Word) (s : State) : Host.Outcome State Fault Refusal :=
  .next (match s.graphs.find? fun r => r.is job header with
    | none => s
    | some r => cancelGraphAt s job r.stack header)

/-- HOST_CANCEL_PHASE (R49, R329, R349). -/
def execHostCancelPhase (job id : Nat) (s : State) : Host.Outcome State Fault Refusal :=
  .next (match s.phases.find? fun p => decide (p.job = job ∧ p.id = id) && !p.isOver with
    | none => s
    | some p => afterWalks (cancelPhase s p))

/-- HOST_CANCEL_JOB (R49, R349). -/
def execHostCancelJob (job : Nat) (s : State) : Host.Outcome State Fault Refusal :=
  .next (cancelJob s job)

/-! ## Dispositions (R337, R339, R353) -/

/-- The crew that a DISP register answers for: in its slot, of the job, on its core or in a swap image. -/
def dispCrew (s : State) (job cs : Nat) : Option (Nat × Crew × UnitSt) :=
  let mine (away : Bool) : Option (Nat × Crew × UnitSt) :=
    s.crews.findSome? fun p =>
      match mget s.units p.2.uid with
      | none => none
      | some u =>
        if p.2.core = cs / 64 ∧ p.2.slot = cs % 64 ∧ jobOf s u.lid = job ∧ u.isOver = false ∧
            p.2.trap.isSome = true ∧ decide (u.res = .swapped) = away then some (p.1, p.2, u)
        else none
  match mine false with
  | some x => some x
  | none => mine true

/-- A DISP write that is ignored: logged with kind 1 for the requester at hand, with the virtual address of a thread's
store and the host physical address of the host's (R341, R353; log 20). -/
def dispIgnored (s : State) (job cs : Nat) : State :=
  let w := reqWho job s.subj
  vlogAdd s (slice0 w) 1 (reqAddr (BitVec.ofNat 64 (ctlBase + job * 2 ^ 18 + 0x1000 + 8 * cs)) s.subj) w

/-- RESUME, KILL or FAIL for a crew slot: at once, or after restore while the unit is away (R337). -/
def dispose (s : State) (job cs kind : Nat) : State :=
  match dispCrew s job cs with
  | none => dispIgnored s job cs
  | some (key, c, u) =>
    if !c.priv || c.answered then dispIgnored s job cs
    else
      if u.res = .resident then disposeNow (putCrew s key { c with answered := true }) key kind
      else putCrew s key { c with answered := true, disp := some kind }

/-- DISP_RESUME (R339). -/
def execDispResume (job cs : Nat) (s : State) : Host.Outcome State Fault Refusal :=
  .next (dispose s job cs 1)

/-- DISP_KILL (R339). -/
def execDispKill (job cs : Nat) (s : State) : Host.Outcome State Fault Refusal :=
  .next (dispose s job cs 2)

/-- DISP_FAIL (R339). -/
def execDispFail (job cs : Nat) (s : State) : Host.Outcome State Fault Refusal :=
  .next (dispose s job cs 3)

/-- DISP_REJECT: the entry is not served, and each access waiting on it ends (R339). -/
def execDispReject (job cs : Nat) (entry : BitVec 16) (s : State) : Host.Outcome State Fault Refusal :=
  .next (match ringEntry s job entry.toNat fun f => !f.served && !f.rejected with
    | none => dispIgnored s job cs
    | some (id, f) => replayAll { s with faults := mput s.faults id { f with rejected := true } })

/-! ## Accesses of the host cores (R351) -/

/-- The `n` bytes at a host physical address lie in memory that R351 maps; behind CXL ports that are not enabled
stands none (R357). -/
def hostMemory (s : State) (a n : Nat) : Bool :=
  decide (a + n ≤ 2 ^ 38 ∨ (dramBase 0 ≤ a ∧ a + n ≤ dramBase 4) ∨ (wsBase 0 ≤ a ∧ a + n ≤ wsBase 4) ∨
    (cxlOn s = true ∧ cxlBase ≤ a ∧ a + n ≤ rawScratch 0))

/-- The host's access to an address receives an error response (R169, R351). -/
def hostError (s : State) (a : Word) : State := vlogAdd s 0 1 a (whoHost 0)

/-- A load by a host core. -/
def hostLoad (s : State) (addr : Word) (n : Nat) : State :=
  let a := addr.toNat
  if isDevice a then
    match mmioRead s (whoHost 0) addr a n with
    | (s, some b) => { s with hostRead := b }
    | (s, none) => s
  else if hostMemory s a n then
    match readTgt s (whoHost 0) addr a n false with
    | (s, some b) => { s with hostRead := b }
    | (s, none) => s
  else hostError s addr

/-- A write of package registers: the value to extend M3 with, and the nonce (R358). -/
def pkgWrite (s : State) (addr : Word) (data : List Byte) : State :=
  let off := addr.toNat - pkgBase
  if off = 0x200 ∧ data.length = 64 then
    { s with agenda := .event (.measureExtend (BitVec.ofNat 512 (natOf data))) 0 :: s.agenda }
  else if off = 0x300 ∧ data.length = 64 then
    { s with agenda := .event (.attestNonce (BitVec.ofNat 512 (natOf data))) 0 :: s.agenda }
  else hostError s addr

/-- A store by a host core; a weight store takes it only while no unit runs (R165, R351). -/
def hostStore (s : State) (addr : Word) (data : List Byte) : State :=
  let a := addr.toNat
  if pkgBase ≤ a ∧ isDevice a = true then pkgWrite s addr data
  else if isDevice a then (mmioWrite s (whoHost ((a - ctlBase) / 2 ^ 18)) addr a data).1
  else if hostMemory s a data.length then
    if eccBad s a data.length then vlogAdd s (sliceOf s a) 0 addr (whoHost 0)
    else if isWeight a && anyRunning s then vlogAdd s (sliceOf s a) 1 addr (whoHost 0)
    else wr (spendAccess s (whoHost 0) a) a data
  else hostError s addr

/-- The words of a job context as they are kept: reserved bits 0, JCNT as it was (R316). -/
def contextWords (old new : List Word) : List Word :=
  let w (i : Nat) : Nat := (new.getD i 0).toNat
  [BitVec.ofNat 64 (bits (w 0) 56 12 * 2 ^ 12 + bits (w 0) 5 0),
   BitVec.ofNat 64 (bits (w 1) 63 60 * 2 ^ 60 + bits (w 1) 56 0),
   BitVec.ofNat 64 (w 2), BitVec.ofNat 64 (w 3),
   BitVec.ofNat 64 (bits (w 4) 63 60 * 2 ^ 60 + bits (w 4) 56 0),
   old.getD 5 0, BitVec.ofNat 64 (bits (w 6) 32 0), BitVec.ofNat 64 (w 7)]

/-- The runtime names a phase's graphs: one more of the job's members; the first graph is started, and a
phase without graphs is complete; nothing is started before the package is ready for launches (R48, R329,
R356). -/
def startPhase (s : State) (job stack id : Nat) (headers : List Word) : State :=
  if launchReady s = false ∨ (s.phases.any fun p => decide (p.job = job ∧ p.id = id)) = true then s
  else
    let p : Phase :=
      { job := job, id := id, stack := stack, headers := headers, cur := 0, started := true
        isOver := false }
    let s := jobCount { s with phases := s.phases ++ [p] } job 1
    match headers with
    | [] => endPhase s p
    | h :: _ => afterWalks { s with walks := s.walks ++ [phaseStart p h] }

/-- The runtime takes the oldest command of a job's HOST queue. -/
def takeHost (s : State) (job : Nat) : State :=
  match s.hostQ.find? fun q => decide (q.1 = job) with
  | none => s
  | some q => { s with hostQ := s.hostQ.erase q, hostRead := wordsBytes q.2.1 }

/-- A byte of a range lies in a refreshing bank of a weight store. -/
def anyRefreshing (s : State) (a n : Nat) : Bool := (upTo n).any fun i => refreshing s (a + i)

/-- HOST_ACCESS (R165, R166, R316, R351). A load from a refreshing bank waits one cycle and is tried
again. -/
def execHostAccess (acc : HostAcc) (s : State) : Host.Outcome State Fault Refusal :=
  .next (match acc with
    | .load addr n =>
      if anyRefreshing s addr.toNat n then
        { s with agenda := .pass 1 :: .event (.hostAccess acc) 0 :: s.agenda }
      else hostLoad s addr n
    | .store addr data => hostStore s addr data
    | .context job words =>
      if job < 64 then
        { s with jobs := mput s.jobs job (contextWords (mgetD s.jobs job (jobReset job)) words) }
      else s
    | .phase job stack id headers => startPhase s job stack id headers
    | .append job words => appendRecs s job [words]
    | .take job => takeHost s job)

/-- WS_REFRESH_WINDOW_END: time passes to the end of the window of the bank at hand (R166). -/
def execWsRefreshWindowEnd (s : State) : Host.Outcome State Fault Refusal :=
  let x := (s.cycle + 72000 * 1125 - 1125 * (s.subj % 64)) % 72000
  .next (if x < 2700 then passCycles s (2700 - x) else s)

end Sys2Proof.Machine
end

