-- ==== Sys2Proof/Machine/Boot.lean ====
section
/-! DEFINITION. Boot, measurement and attestation, links, power and device reads (24 R352, R354 to
R362). -/

namespace Sys2Proof.Machine

/-! ## Boot (R356, R357) -/

/-- A little-endian field of an image header. -/
def hdrField (b : List Byte) (off n : Nat) : Nat := natOf ((b.drop off).take n)

/-- The header of an image is right in itself: MAGIC, KIND, LENGTH and the reserved bytes. -/
def headerOk (i : BootImage) (kind : Nat) : Bool :=
  let h := i.header
  decide (h.length = 128 ∧ hdrField h 0 4 = 0x5A4C5631 ∧ hdrField h 4 4 = kind ∧
    hdrField h 16 8 = i.body.length ∧ i.body.length % 64 = 0 ∧ hdrField h 24 40 = 0)

/-- The DIGEST of a header. -/
def headerDigest (i : BootImage) : List Byte := (i.header.drop 64).take 64

/-- The number of the first test that an image fails, 0 for none: 1 header, 2 digest, 3 signature. -/
def imageFail (i : BootImage) (kind : Nat) : Nat :=
  if !headerOk i kind then 1
  else if headerDigest i ≠ sha512 i.body then 2
  else if !(decide (i.signature.length = 512) && Config.signatureOk i.header i.signature) then 3
  else 0

/-- The configuration record's contents are in order (R357). -/
def recordOk (c : PartCfg) : Bool :=
  decide (c.pkg ≤ 4095) && (upTo 256).all fun i =>
    !bitAt c.cores.toNat i || (!Config.coreDead i && decide (mgetD c.columns i 0xFF ≠ 0))

/-- BOOTST. -/
def bootWord (fail step : Nat) : Word := BitVec.ofNat 64 (fail * 16 + step)

/-- The DIGEST of a header as a measurement. -/
def digestOf (i : BootImage) : BitVec 512 := BitVec.ofNat 512 (natOf (headerDigest i))

/-- Verify images in order, from a step on: each with its kind and whether what it holds is in order. One that
passes is measured; the first that fails stops the boot (R356 to R358). -/
def bootFrom (cfg : PartCfg) : List (BootImage × Nat × Bool) → Nat → State → State
  | [], _, s => { s with bootst := bootWord 0 4, part := cfg }
  | (i, kind, ok) :: t, step, s =>
    match imageFail i kind with
    | 0 =>
      if ok then
        bootFrom cfg t (step + 1) { s with
          meas := s.meas.set step (digestOf i)
          versions := s.versions.set step (BitVec.ofNat 64 (hdrField i.header 8 8)) }
      else { s with bootst := bootWord 4 step }
    | f => { s with bootst := bootWord f step }

/-- The state at power-on; what the outside world has still to do stands, and what the package stands on. -/
def powerState (s : State) : State :=
  { State.reset with
    agenda := s.agenda, free := s.free, onModule := s.onModule, limit := fullLimit s.onModule }

/-- POWER_ON (R356, R357, R358). -/
def execPowerOn (hostFw deviceFw record : BootImage) (cfg : PartCfg) (s : State) :
    Host.Outcome State Fault Refusal :=
  .next (bootFrom cfg [(hostFw, 1, true), (deviceFw, 2, true), (record, 3, recordOk cfg)] 0 (powerState s))

/-! ## Measurement and attestation (R358) -/

/-- The bytes of a 64-byte register. -/
def regBytes (x : BitVec 512) : List Byte := bytesOf 64 x.toNat

/-- MEASURE_EXTEND: M3 ← SHA-512(M3 ‖ x). -/
def execMeasureExtend (x : BitVec 512) (s : State) : Host.Outcome State Fault Refusal :=
  let m3 := s.meas.getD 3 0
  .next { s with
    meas := s.meas.set 3 (BitVec.ofNat 512 (natOf (sha512 (regBytes m3 ++ regBytes x)))) }

/-- ATTEST_NONCE: a report starts, or starts again. -/
def execAttestNonce (nonce : BitVec 512) (s : State) : Host.Outcome State Fault Refusal :=
  .next { s with nonce := some nonce }

/-- What a report says, before its signature. -/
def reportBody (s : State) (nonce : BitVec 512) : List Byte :=
  regBytes nonce ++ (s.meas.map regBytes).flatten ++ wordsBytes s.versions ++
    bytesOf 8 (capsOf s).toNat

/-- ATTEST_REPORT_DONE. -/
def execAttestReportDone (s : State) : Host.Outcome State Fault Refusal :=
  .next (match s.nonce with
    | none => s
    | some n =>
      let b := reportBody s n
      { s with nonce := none, report := b ++ bytesOf 512 (Config.reportSignature s.free b).toNat, free := s.free + 1 })

/-! ## Links (R354, R355) -/

/-- FIBRE_FAIL: the fibre at hand leaves every route (R355). -/
def execFibreFail (s : State) : Host.Outcome State Fault Refusal :=
  .next (if s.subj < 64 ∧ s.deadFibres.contains s.subj = false then
      { s with deadFibres := s.deadFibres ++ [s.subj] }
    else s)

/-- FLIT_CRC_RETRY: a flit is sent again until it is delivered; nothing else is seen of it (R354). -/
def execFlitCrcRetry (s : State) : Host.Outcome State Fault Refusal := .next s

/-! ## Power (R360 to R362) -/

/-- TOKEN_REFILL, of the stack at hand (R360). -/
def execTokenRefill (s : State) : Host.Outcome State Fault Refusal :=
  .next { s with tokens := mput s.tokens (s.subj % 4) (Config.tokenGrant s.free s.limit), free := s.free + 1 }

/-- GOVERNOR_CLOCK_SET: the clock of the home slices or of the crossbar (R361). -/
def execGovernorClockSet (region clk : Nat) (s : State) : Host.Outcome State Fault Refusal :=
  .next (if region = 1 ∨ region = 2 then { s with clocks := mput s.clocks region clk } else s)

/-- MODULE_OVERTEMP, at the temperature at hand: a module's budget is lowered (R362). -/
def execModuleOvertemp (s : State) : Host.Outcome State Fault Refusal :=
  .next (if s.onModule = true ∧ 40 < s.subj then
      { s with limit := min (s.limit - 1) (Config.hotLimit s.free s.limit), free := s.free + 1 }
    else s)

/-! ## Devices (R352) -/

/-- The bytes that a device reads: past the home slices, where bytes not written back may still be the
old ones (R348, R352; log 19). -/
def deviceBytes (s : State) : Nat → Nat → State × List Byte
  | _, 0 => (s, [])
  | a, n + 1 =>
    let new := cellGet s.mem a
    let (s1, b) := match s.behind.find? fun c => decide (c.1 = a) with
      | none => (s, new)
      | some c => ({ s with free := s.free + 1 }, if Config.deviceStale s.free then c.2 else new)
    let (s2, t) := deviceBytes s1 (a + 1) n
    (s2, b :: t)

/-- PCIE_DEVICE_ACCESS: a device behind the port at hand reads memory; a port that is not enabled has none
(R352, R357). -/
def execPcieDeviceAccess (addr : Word) (n : Nat) (s : State) : Host.Outcome State Fault Refusal :=
  .next (if bitAt s.part.ports.toNat (s.subj % 8) = false then s
    else if hostMemory s addr.toNat n then
      if eccBad s addr.toNat n then vlogAdd s (sliceOf s addr.toNat) 0 addr (whoHost 0)
      else
        let (s, b) := deviceBytes s addr.toNat n
        { s with devRead := b }
    else hostError s addr)

end Sys2Proof.Machine
end

