-- ==== Sys2Proof/Machine/Hinted.lean ====
section
/-! DEFINITION. REGION, the hint words, POOL and the words that are no instruction, opcodes 0xE0 to 0xFF
and the unassigned ones (04 R60, R61, R75 to R85). -/

namespace Sys2Proof.Machine

/-- REGION (R61). -/
def execRegion (mask : BitVec 24) : State → Host.Outcome State Fault Refusal :=
  gate (.region mask) fun x s => retire x (modCrew s x.key fun c => { c with region := mask })

/-- POOL: every issuing lane skips the pool (R82). -/
def execPool (n : BitVec 24) : State → Host.Outcome State Fault Refusal :=
  gate (.pool n) fun x s => retireTo x s fun _ => x.pc + 4 + BitVec.ofNat 64 (4 * n.toNat)

/-- A hint word becomes pending; a second one of its kind raises ILLEGAL-HINT (R75, R76). It takes an
issue slot, and the PCs stay at the first word of the group. -/
def doHint (again : Hints → Bool) (set : Hints → Hints) (s : State) :
    Host.Outcome State Fault Refusal :=
  match mget s.crews s.iss.crew with
  | none => .fault .noCrew
  | some c0 =>
    let c := settle s.cycle c0
    let s := putCrew s s.iss.crew c
    let grp := groupAt c s.iss.start
    if again c.hint then
      .next (takeTrap s s.iss.crew (mkTrap clsHint s.iss.start (s.iss.pc + 4) s.iss.pc grp grp))
    else
      let hn := set c.hint
      let hn := { hn with start := some s.iss.start, cursor := s.iss.pc + 4 }
      let c := { c with hint := hn, ready := s.cycle + 1, stamp := s.nextSeq }
      let s := putCrew s s.iss.crew c
      .next { s with
        nextSeq := s.nextSeq + 1
        sched := mput s.sched (c.core * 4 + c.slot % 4) (s.cycle + 1) }

/-- XIMM (R78). -/
def execXimm (n : BitVec 24) : State → Host.Outcome State Fault Refusal :=
  doHint (fun hn => hn.ximm.isSome) fun hn => { hn with ximm := some n }

/-- TRACK (R79). -/
def execTrack (f : BitVec 4) : State → Host.Outcome State Fault Refusal :=
  doHint (fun hn => hn.track.isSome) fun hn => { hn with track := some f.toNat }

/-- WAIT (R80). -/
def execWait (mask : BitVec 12) : State → Host.Outcome State Fault Refusal :=
  doHint (fun hn => hn.wait.isSome) fun hn => { hn with wait := some mask }

/-- MOD (R81). -/
def execMod (rnd : BitVec 3) (ord : BitVec 2) (scope cache : BitVec 3) :
    State → Host.Outcome State Fault Refusal :=
  doHint (fun hn => hn.mod.isSome) fun hn =>
    { hn with mod := some (rnd.toNat, ord.toNat, scope.toNat, cache.toNat) }

/-- A trap of a word that is no instruction. -/
def badWordTrap (cls : Nat) (addr : Bool) (s : State) : Host.Outcome State Fault Refusal :=
  match mget s.crews s.iss.crew with
  | none => .fault .noCrew
  | some c =>
    let grp := groupAt c s.iss.start
    .next (takeTrap s s.iss.crew
      (mkTrap cls s.iss.start (s.iss.pc + 4) (if addr then s.iss.pc else 0) grp grp))

/-- A word with an unassigned opcode: ILLEGAL-OPCODE (R83, R85). -/
def execUnassignedOpcode (_ : IWord) : State → Host.Outcome State Fault Refusal :=
  badWordTrap clsOpcode false

/-- A reserved hint opcode: ILLEGAL-HINT at that word (R76, R83). -/
def execReservedHintOpcode (_ : IWord) : State → Host.Outcome State Fault Refusal :=
  badWordTrap clsHint true

end Sys2Proof.Machine
end

