-- ==== Sys2Proof/Machine/System.lean ====
section
/-! DEFINITION. System instructions, opcodes 0xC0 to 0xC8, and the control registers (04 R66, R67,
02 R50, 22 R341 to R350). -/

namespace Sys2Proof.Machine

/-- Run an instruction that only a routine may execute (R337). -/
def privileged (x : Ctx) (s : State) (k : State → State) : State :=
  if x.c.priv then k s else trapAt x s clsProt 0 x.act

/-! ## Control registers -/

/-- The word of a violation log that a selection names (R342). -/
def vlogWord (s : State) (sel : Word) : Word :=
  let v := sel.toNat
  ((mgetD s.vlog (v % 64) []).getD (bits v 11 8) []).getD (bits v 13 12) 0

/-- Write VLOG for a crew slot: the fields kept (R342). -/
def vlogChoose (s : State) (core slot : Nat) (v : Word) : State :=
  { s with vsel := mput s.vsel (core * 64 + slot) (v &&& 0x3F3F) }

/-- An opcode that resident routines carry (R67). -/
def routable (op : Nat) : Bool := decide ((1 ≤ op ∧ op ≤ 0x1F) ∨ (0x38 ≤ op ∧ op ≤ 0x54))

/-- Write COMPAT of a core: EN stays 0 for an opcode without routine (R67). -/
def compatSet (s : State) (core : Nat) (v : Word) : State :=
  let n := v.toNat % 512
  let w : Word := BitVec.ofNat 64 (if routable (n % 256) then n else n % 256)
  { s with compat := mput s.compat core w }

/-- Read a control register (R66, R344). -/
def csrRead (s : State) (x : Ctx) (n : Nat) : Word :=
  match n with
  | 0x010 => s.swapth
  | 0x011 => BitVec.ofNat 64 s.cycle
  | 0x012 => capsOf s
  | 0x020 => vlogWord s (mgetD s.vsel (x.c.core * 64 + x.c.slot) 0)
  | 0x030 => ctxW s x.w.job 3
  | _ => mgetD s.compat x.c.core 0

/-- Write a control register; reserved bits stay 0 (R344). -/
def csrWrite (s : State) (x : Ctx) (n : Nat) (v : Word) : State :=
  match n with
  | 0x010 => { s with swapth := zext v 32 }
  | 0x020 => vlogChoose s x.c.core x.c.slot v
  | 0x030 => setCtxW s x.w.job 3 v
  | 0x040 =>
    let s := compatSet s x.c.core v
    let me := (x.c.core, x.w.job)
    { s with compatBy := me :: s.compatBy.filter fun p => decide (p ≠ me) }
  | _ => s

/-- CSRR (R337, R344). -/
def execCsrr (h : Hdr) (d : Code) (csr : BitVec 12) : State → Host.Outcome State Fault Refusal :=
  gate (.csrr h d csr) fun x s =>
    let n := csr.toNat
    if n ≠ 0x011 ∧ n ≠ 0x012 ∧ x.c.priv = false then trapAt x s clsProt 0 x.act
    else withSources x s [] (some d.toNat) fun s _ =>
      finish x s 0 d.toNat fun _ => .known (csrRead s x n)

/-- CSRW (R337, R344). -/
def execCsrw (h : Hdr) (d : Code) (csr : BitVec 12) : State → Host.Outcome State Fault Refusal :=
  gate (.csrw h d csr) fun x s =>
    privileged x s fun s => withSources x s [d.toNat] none fun s v =>
      retire x (csrWrite s x csr.toNat (v (highLane x.act) d.toNat))

/-- COMPAT_WRITE (R67). -/
def execCompatWrite (core : Nat) (v : Word) (s : State) : Host.Outcome State Fault Refusal :=
  .next (compatSet s core v)

/-- VLOG_SELECT (R342). -/
def execVlogSelect (crew : Nat) (v : Word) (s : State) : Host.Outcome State Fault Refusal :=
  .next (match mget s.crews crew with
    | none => s
    | some c => vlogChoose s c.core c.slot v)

/-! ## ERET and TLBI -/

/-- ERET (R345). -/
def execEret (h : Hdr) : State → Host.Outcome State Fault Refusal :=
  gate (.eret h) fun x s => privileged x s fun s =>
    let s := modCrew (eret s x.key) x.key fun c => { c with ready := s.cycle + 1, stamp := x.seq }
    { s with sched := mput s.sched (x.c.core * 4 + x.c.slot % 4) (s.cycle + 1) }

/-- Remove TLB entries. -/
def tlbDrop (s : State) (gone : TlbEnt → Bool) : State := { s with tlb := s.tlb.filter fun t => !gone t }

/-- TLBI.VA (R346). -/
def execTlbiVa (h : Hdr) (a : Code) : State → Host.Outcome State Fault Refusal :=
  gate (.tlbiVa h a) fun x s => privileged x s fun s => withSources x s [a.toNat] none fun s v =>
    let vas := (lanesOf x.act).map fun l => (v l a.toNat).toNat
    retire x (tlbDrop s fun t => decide (t.job = x.w.job) &&
      vas.any fun va => decide (va / 2 ^ t.bits = t.va / 2 ^ t.bits))

/-- TLBI.JOB: entries with G = 0 (R346). -/
def execTlbiJob (h : Hdr) : State → Host.Outcome State Fault Refusal :=
  gate (.tlbiJob h) fun x s => privileged x s fun s =>
    retire x (tlbDrop s fun t => decide (t.job = x.w.job) && !bitAt t.pte.toNat 2)

/-- TLBI.ALL (R346). -/
def execTlbiAll (h : Hdr) : State → Host.Outcome State Fault Refusal :=
  gate (.tlbiAll h) fun x s => privileged x s fun s => retire x (tlbDrop s fun _ => true)

/-! ## CTXS and CTXL (R347) -/

/-- Registers of a lane that hold a form, as a mask. -/
def formMask (t : Thread) : Nat :=
  (upTo 28).foldl (fun a i => if (regOf t i).symbol.isSome then a + 2 ^ i else a) 0

/-- The 32 words of a lane's area. -/
def laneArea (c : Crew) (l : Nat) : List Word :=
  let t := progTh c l
  (upTo 28).map (fun i => (regOf t i).word) ++
    [t.pc, t.mr,
     BitVec.ofNat 64 (formMask t * 2 ^ 36 + (if t.live then 256 else 0) + 128 + t.preds.toNat % 128),
     t.fpstat]

/-- Flag counts of six bits each, from flag `f` on. -/
def flagCounts (c : Crew) (f n : Nat) : Nat :=
  (upTo n).foldl (fun a i => a + mgetD c.flags (f + i) 0 % 64 * 2 ^ (6 * i)) 0

/-- The guard register (R206). -/
def guardWord (c : Crew) : Word :=
  BitVec.ofNat 64 ((if c.quiet then 2 ^ 15 else 0) + c.guard % 64 * 2 ^ 8 + c.width % 128)

/-- The 32 words of the crew area. -/
def crewArea (c : Crew) : List Word :=
  [BitVec.ofNat 64 c.region.toNat, BitVec.ofNat 64 (flagCounts c 0 8), BitVec.ofNat 64 (flagCounts c 8 4),
   guardWord c, BitVec.ofNat 64 (c.bstep * 2 ^ 16 + c.bptr)] ++
    List.replicate 27 0

/-- The image of a trapped crew. -/
def crewImage (c : Crew) : List Word := (lanes.map (laneArea c)).flatten ++ crewArea c

/-- The image is aligned and its memory of type 1, 2 or 5, checked before it is accessed. -/
def imageChecked (x : Ctx) (s : State) (l : Nat) (k : AccKind) (va : Word) (go : State → State) : State :=
  if va.toNat % 256 ≠ 0 then trapAt x s clsProt va (oneLane l)
  else checked x s k (fun ty => decide (ty ≠ 1 ∧ ty ≠ 2 ∧ ty ≠ 5)) [] [(l, va, 8448)] go

/-- CTXS, once the routine's earlier accesses are performed (R188, R347). -/
def execCtxs (h : Hdr) (a : Code) : State → Host.Outcome State Fault Refusal :=
  gate (.ctxs h a) fun x s => privileged x s fun s => withSources x s [a.toNat] none fun s v =>
    whenQuiet x s true true fun s =>
    let l := lowLane x.act
    let va := v l a.toNat
    imageChecked x s l .store va fun s =>
      vrun x s (oneLane l) (vwrite x.w .store false l va (wordsBytes (crewImage x.c))) fun s _ => retire x s

/-- Load a lane's area. -/
def loadLane (t : Thread) (ws : List Word) : Thread :=
  let form := (ws.getD 30 0).toNat / 2 ^ 36
  let rf := (upTo 28).foldl (fun rf i =>
    if bitAt form i then rf else mput rf (entryOf t i) (.known (ws.getD i 0))) t.rf
  { t with rf := rf, pc := ws.getD 28 0, mr := ws.getD 29 0
           preds := BitVec.ofNat 8 (128 + (ws.getD 30 0).toNat % 128), fpstat := ws.getD 31 0 &&& 0x3F }

/-- Load an image. -/
def loadImage (c : Crew) (ws : List Word) : Crew :=
  let c := lanes.foldl (fun c l => modProg c l fun t => loadLane t ((ws.drop (32 * l)).take 32)) c
  let k := ws.drop 1024
  let g := (k.getD 3 0).toNat
  { c with region := BitVec.ofNat 24 (k.getD 0 0).toNat
           quiet := bitAt g 15, guard := bits g 13 8, width := bits g 6 0
           bptr := (k.getD 4 0).toNat % 2 ^ 11, bstep := bits (k.getD 4 0).toNat 26 16 }

/-- The first word of an image that holds a PC or MR with bits [1:0] set. -/
def badPc (ws : List Word) : Option Nat :=
  (lanes.map fun l => [32 * l + 28, 32 * l + 29]).flatten.find? fun i =>
    decide ((ws.getD i 0).toNat % 4 ≠ 0)

/-- CTXL, once the routine's earlier accesses are performed (R186, R347). -/
def execCtxl (h : Hdr) (a : Code) : State → Host.Outcome State Fault Refusal :=
  gate (.ctxl h a) fun x s => privileged x s fun s => withSources x s [a.toNat] none fun s v =>
    whenQuiet x s true true fun s =>
    let l := lowLane x.act
    let va := v l a.toNat
    imageChecked x s l .load va fun s =>
      vrun x s (oneLane l) (vbind (vread x.w .load false va 8448) fun b =>
        let ws := bytesWords 1056 b
        match badPc ws with
        | some i => verr clsProt (wordAt va i)
        | none => vpure ws) fun s ws => retire x (modCrew s x.key fun c => loadImage c ws)

/-! ## CFLUSH (R348) -/

/-- Write back the lines of some bytes: devices then read them (R348, R352). -/
def flushIf (s : State) (p : Nat → Bool) : State := { s with behind := s.behind.filter fun c => !p c.1 }

/-- Write back the line that holds a byte. -/
def flushLine (s : State) (phys : Nat) : State :=
  flushIf s fun a => decide (a / lineBytes = phys / lineBytes)

/-- Write back the line of an address that translates. -/
def flushAt (w : Who) (s : State) (va : Word) : State :=
  match xlat s w .load va with
  | (s, .ok phys _) => flushLine s phys
  | (s, _) => s

/-- CFLUSH goes on once the stores are performed that a FENCE with release at package scope before it covers
(R194, R348). -/
def whenFenced (x : Ctx) (s : State) (k : State → State) : State :=
  if (fenceStores x).any (fun q => decide (5 ≤ q.fenced)) then parkGroup x s (.quiet x.act false true) else k s

/-- Write back the lines that the active lanes name. -/
def flushLanes (x : Ctx) (va : Nat → Word) (s : State) : State :=
  whenFenced x s fun s =>
  checked x s .load (fun _ => false) [] ((lanesOf x.act).map fun l => (l, va l, 1)) fun s =>
    retire x ((lanesOf x.act).foldl (fun s l => flushAt { x.w with lanes := oneLane l } s (va l)) s)

/-- CFLUSH.WB (R348). -/
def execCflushWb (h : Hdr) (a : Code) : State → Host.Outcome State Fault Refusal :=
  gate (.cflushWb h a) fun x s => withSources x s [a.toNat] none fun s v =>
    flushLanes x (fun l => v l a.toNat) s

/-- CFLUSH.INV: dropping a written line changes nothing that is read (R348). -/
def execCflushInv (h : Hdr) (a : Code) : State → Host.Outcome State Fault Refusal :=
  gate (.cflushInv h a) fun x s => withSources x s [a.toNat] none fun s v =>
    flushLanes x (fun l => v l a.toNat) s

/-- The leaves of a table of level `n` − 1: entry, first address and page bits (R152, R153). -/
def leavesFrom (s : State) (stack : Nat) : Nat → Nat → Nat → List (Nat × Nat × Nat)
  | 0, _, _ => []
  | n + 1, tbl, va =>
    let shift := if n = 0 then 16 else 12 + 9 * n
    ((upTo (if n = 0 then 32 else 512)).map fun i =>
      let e := rd64 s (tbl + 8 * i)
      let a := va + i * 2 ^ shift
      if pteFaults e then []
      else if bitAt e 8 then (if n < 3 ∧ pteAddr e % 2 ^ shift = 0 then [(e, a, shift)] else [])
      else match tableAt stack e with
        | none => []
        | some t => leavesFrom s stack n t a).flatten

/-- The byte ranges that a job's tables map, as seen from a stack. -/
def jobRanges (s : State) (w : Who) (stack : Nat) : List (Nat × Nat) :=
  let w := { w with core := stack * 64 }
  let root := bits (ctxW s w.job 0).toNat 56 12 * 2 ^ 12
  (if root < 2 ^ 36 then leavesFrom s stack 5 (dramBase stack + root) 0 else []).filterMap fun (e, va, b) =>
    match targetOf s w e b va with
    | .ok phys _ => some (phys, 2 ^ b)
    | _ => none

/-- CFLUSH.ALL: every line of the running job in every slice (R337, R348). -/
def execCflushAll (h : Hdr) : State → Host.Outcome State Fault Refusal :=
  gate (.cflushAll h) fun x s => privileged x s fun s => whenFenced x s fun s =>
    let rs := ((upTo 4).map (jobRanges s x.w)).flatten
    retire x (flushIf s fun a => rs.any fun r => decide (r.1 ≤ a ∧ a < r.1 + r.2))

/-! ## CANCEL and CNDW -/

/-- The graph task that a launch runs. -/
def taskOf (s : State) (x : Ctx) : Option (Nat × Word × Nat) :=
  match launchOf s x.c with
  | none => none
  | some l => l.task

/-- The phase that a launch runs in. -/
def phaseAt (s : State) (x : Ctx) : Option Phase :=
  match taskOf s x with
  | none => none
  | some t => phaseOf s x.w.job (rootGraph s x.w.job s.graphs.length t.2.1)

/-- CANCEL (R49, R349). -/
def execCancel (h : Hdr) (lvl : BitVec 3) : State → Host.Outcome State Fault Refusal :=
  gate (.cancel h lvl) fun x s =>
    match lvl.toNat with
    | 0 => afterWalks (cancelUnit (retire x s) x.c.uid)
    | 1 => afterWalks (cancelLaunch (retire x s) x.w.lid false none)
    | 2 =>
      match taskOf s x with
      | none => trapAt x s clsProt 0 x.act
      | some t => cancelGraphAt (retire x s) x.w.job t.1 t.2.1
    | 3 =>
      match phaseAt s x with
      | none => trapAt x s clsProt 0 x.act
      | some p => cancelPhase (retire x s) p
    | _ => cancelJob (retire x s) x.w.job

/-- The walker writes a condition word (R350). -/
def writeCond (g : GAt) (i : Nat) (v : Word) : VM Unit :=
  vbind (gtasks g) fun n =>
    if n ≤ i then verr clsProt 0
    else
      vbind (gld g (g.tcb i 0)) fun w =>
        if w.toNat / 2 ^ 60 = 1 ∨ w.toNat / 2 ^ 60 = 2 then
          vbind (gld g (g.tcb i 4)) fun a => gst g a v
        else verr clsProt 0

/-- CNDW: a release store at package scope by the walker (R350). -/
def execCndw (h : Hdr) (a b : Code) : State → Host.Outcome State Fault Refusal :=
  gate (.cndw h a b) fun x s => withSources x s (cod2 a b) none fun s v =>
    match taskOf s x with
    | none => trapAt x s clsProt 0 x.act
    | some t =>
      whenQuiet x s true true fun s =>
        let l := highLane x.act
        let g : GAt := { stack := t.1, job := x.w.job, header := t.2.1 }
        vrun x s (oneLane l) (writeCond g (v l a.toNat).toNat (v l b.toNat)) fun s _ => retire x s

end Sys2Proof.Machine
end

