-- ==== Sys2Proof/Machine/Dispatch.lean ====
section
/-! DEFINITION. One arm for each constructor of Instr: the meaning of the instruction or event. -/

namespace Sys2Proof.Machine

def exec (i : Instr) (s : State) : Host.Outcome State Fault Refusal :=
  match i with
  | .add h d a b w => Sys2Proof.Machine.execAdd h d a b w s
  | .sub h d a b w => Sys2Proof.Machine.execSub h d a b w s
  | .neg h d a w => Sys2Proof.Machine.execNeg h d a w s
  | .mul h d a b w => Sys2Proof.Machine.execMul h d a b w s
  | .mulh h d a b w u => Sys2Proof.Machine.execMulh h d a b w u s
  | .mad h d a b w => Sys2Proof.Machine.execMad h d a b w s
  | .div h d a b w u => Sys2Proof.Machine.execDiv h d a b w u s
  | .rem h d a b w u => Sys2Proof.Machine.execRem h d a b w u s
  | .min h d a b w u => Sys2Proof.Machine.execMin h d a b w u s
  | .max h d a b w u => Sys2Proof.Machine.execMax h d a b w u s
  | .and h d a b w => Sys2Proof.Machine.execAnd h d a b w s
  | .or h d a b w => Sys2Proof.Machine.execOr h d a b w s
  | .xor h d a b w => Sys2Proof.Machine.execXor h d a b w s
  | .andn h d a b w => Sys2Proof.Machine.execAndn h d a b w s
  | .shl h d a b w => Sys2Proof.Machine.execShl h d a b w s
  | .shr h d a b w => Sys2Proof.Machine.execShr h d a b w s
  | .sar h d a b w => Sys2Proof.Machine.execSar h d a b w s
  | .rot h d a b w => Sys2Proof.Machine.execRot h d a b w s
  | .bitc h d a w f => Sys2Proof.Machine.execBitc h d a w f s
  | .bfx h d a b w u => Sys2Proof.Machine.execBfx h d a b w u s
  | .bfi h d a b w => Sys2Proof.Machine.execBfi h d a b w s
  | .lea h d a b w s_ => Sys2Proof.Machine.execLea h d a b w s_ s
  | .sel h d a b p => Sys2Proof.Machine.execSel h d a b p s
  | .mov h d a => Sys2Proof.Machine.execMov h d a s
  | .movi h d imm => Sys2Proof.Machine.execMovi h d imm s
  | .addi h d a imm => Sys2Proof.Machine.execAddi h d a imm s
  | .andi h d a imm => Sys2Proof.Machine.execAndi h d a imm s
  | .ori h d a imm => Sys2Proof.Machine.execOri h d a imm s
  | .xori h d a imm => Sys2Proof.Machine.execXori h d a imm s
  | .shi h d a kind amt => Sys2Proof.Machine.execShi h d a kind amt s
  | .cmpi h pd a imm cond w u => Sys2Proof.Machine.execCmpi h pd a imm cond w u s
  | .cmp h pd a b cond w u => Sys2Proof.Machine.execCmp h pd a b cond w u s
  | .pset h pd pa pb f => Sys2Proof.Machine.execPset h pd pa pb f s
  | .pmovRead h d => Sys2Proof.Machine.execPmovRead h d s
  | .pmovWrite h a => Sys2Proof.Machine.execPmovWrite h a s
  | .bra h off => Sys2Proof.Machine.execBra h off s
  | .brx h a => Sys2Proof.Machine.execBrx h a s
  | .call h off => Sys2Proof.Machine.execCall h off s
  | .callx h a => Sys2Proof.Machine.execCallx h a s
  | .ret h => Sys2Proof.Machine.execRet h s
  | .meet h d off => Sys2Proof.Machine.execMeet h d off s
  | .meetr h d a => Sys2Proof.Machine.execMeetr h d a s
  | .exit h => Sys2Proof.Machine.execExit h s
  | .kill h a => Sys2Proof.Machine.execKill h a s
  | .loop h d off => Sys2Proof.Machine.execLoop h d off s
  | .brk h n => Sys2Proof.Machine.execBrk h n s
  | .trap h n => Sys2Proof.Machine.execTrap h n s
  | .nop h => Sys2Proof.Machine.execNop h s
  | .yield h => Sys2Proof.Machine.execYield h s
  | .vote h d pa nt form => Sys2Proof.Machine.execVote h d pa nt form s
  | .shfl h d a b mode => Sys2Proof.Machine.execShfl h d a b mode s
  | .shflImm h d a c mode => Sys2Proof.Machine.execShflImm h d a c mode s
  | .cred h d a op => Sys2Proof.Machine.execCred h d a op s
  | .cscan h d a excl op => Sys2Proof.Machine.execCscan h d a excl op s
  | .isect h d a b w u => Sys2Proof.Machine.execIsect h d a b w u s
  | .matchl h d a w => Sys2Proof.Machine.execMatchl h d a w s
  | .movs h d sr => Sys2Proof.Machine.execMovs h d sr s
  | .movsw h sr a => Sys2Proof.Machine.execMovsw h sr a s
  | .fadd h d a b t => Sys2Proof.Machine.execFadd h d a b t s
  | .fsub h d a b t => Sys2Proof.Machine.execFsub h d a b t s
  | .fmul h d a b t => Sys2Proof.Machine.execFmul h d a b t s
  | .ffma h d a b ng t => Sys2Proof.Machine.execFfma h d a b ng t s
  | .fmin h d a b num t => Sys2Proof.Machine.execFmin h d a b num t s
  | .fmax h d a b num t => Sys2Proof.Machine.execFmax h d a b num t s
  | .fcmp h pd a b cond t => Sys2Proof.Machine.execFcmp h pd a b cond t s
  | .fabs h d a t => Sys2Proof.Machine.execFabs h d a t s
  | .fneg h d a t => Sys2Proof.Machine.execFneg h d a t s
  | .fcps h d a b t => Sys2Proof.Machine.execFcps h d a b t s
  | .fdiv h d a b t => Sys2Proof.Machine.execFdiv h d a b t s
  | .fsqrt h d a t => Sys2Proof.Machine.execFsqrt h d a t s
  | .frcp h d a t => Sys2Proof.Machine.execFrcp h d a t s
  | .frsq h d a t => Sys2Proof.Machine.execFrsq h d a t s
  | .fexp2 h d a t => Sys2Proof.Machine.execFexp2 h d a t s
  | .flog2 h d a t => Sys2Proof.Machine.execFlog2 h d a t s
  | .ftanh h d a t => Sys2Proof.Machine.execFtanh h d a t s
  | .fsinpi h d a t => Sys2Proof.Machine.execFsinpi h d a t s
  | .fcospi h d a t => Sys2Proof.Machine.execFcospi h d a t s
  | .frnd h d a x t => Sys2Proof.Machine.execFrnd h d a x t s
  | .fcls h d a t => Sys2Proof.Machine.execFcls h d a t s
  | .fred h d a op t => Sys2Proof.Machine.execFred h d a op t s
  | .cvts h d a conv => Sys2Proof.Machine.execCvts h d a conv s
  | .cvtdSat h d a b slot => Sys2Proof.Machine.execCvtdSat h d a b slot s
  | .cvtdInf h d a b slot => Sys2Proof.Machine.execCvtdInf h d a b slot s
  | .cvtdNan h d a b slot => Sys2Proof.Machine.execCvtdNan h d a b slot s
  | .cvtdTrap h d a b slot => Sys2Proof.Machine.execCvtdTrap h d a b slot s
  | .cvtu h d a b slot => Sys2Proof.Machine.execCvtu h d a b slot s
  | .absmx h d a slot => Sys2Proof.Machine.execAbsmx h d a slot s
  | .ld h d a la size sx sym => Sys2Proof.Machine.execLd h d a la size sx sym s
  | .st h d a la size q => Sys2Proof.Machine.execSt h d a la size q s
  | .pref h a size => Sys2Proof.Machine.execPref h a size s
  | .pres h d a la => Sys2Proof.Machine.execPres h d a la s
  | .aadd h d a la w ord scope => Sys2Proof.Machine.execAadd h d a la w ord scope s
  | .aand h d a la w ord scope => Sys2Proof.Machine.execAand h d a la w ord scope s
  | .aor h d a la w ord scope => Sys2Proof.Machine.execAor h d a la w ord scope s
  | .axor h d a la w ord scope => Sys2Proof.Machine.execAxor h d a la w ord scope s
  | .amin h d a la w ord scope => Sys2Proof.Machine.execAmin h d a la w ord scope s
  | .amax h d a la w ord scope => Sys2Proof.Machine.execAmax h d a la w ord scope s
  | .aminn h d a la w ord scope => Sys2Proof.Machine.execAminn h d a la w ord scope s
  | .amaxn h d a la w ord scope => Sys2Proof.Machine.execAmaxn h d a la w ord scope s
  | .axch h d a la w ord scope => Sys2Proof.Machine.execAxch h d a la w ord scope s
  | .acas h d a la w ord scope => Sys2Proof.Machine.execAcas h d a la w ord scope s
  | .afadd h d a la ord scope => Sys2Proof.Machine.execAfadd h d a la ord scope s
  | .afmin h d a la ord scope => Sys2Proof.Machine.execAfmin h d a la ord scope s
  | .afmax h d a la ord scope => Sys2Proof.Machine.execAfmax h d a la ord scope s
  | .fence h scope kind => Sys2Proof.Machine.execFence h scope kind s
  | .bar h n lvl => Sys2Proof.Machine.execBar h n lvl s
  | .barArv h n lvl => Sys2Proof.Machine.execBarArv h n lvl s
  | .nbar h pd n b => Sys2Proof.Machine.execNbar h pd n b s
  | .nbarArv h n b => Sys2Proof.Machine.execNbarArv h n b s
  | .fprop h d a => Sys2Proof.Machine.execFprop h d a s
  | .fread h d a => Sys2Proof.Machine.execFread h d a s
  | .fwait h d a => Sys2Proof.Machine.execFwait h d a s
  | .frcy h d a => Sys2Proof.Machine.execFrcy h d a s
  | .xcnt h a b => Sys2Proof.Machine.execXcnt h a b s
  | .xrd h d a => Sys2Proof.Machine.execXrd h d a s
  | .xsnap h d a => Sys2Proof.Machine.execXsnap h d a s
  | .push h pd a queue => Sys2Proof.Machine.execPush h pd a queue s
  | .kick h pd a b => Sys2Proof.Machine.execKick h pd a b s
  | .lcset h pd a b => Sys2Proof.Machine.execLcset h pd a b s
  | .lcsetZ h pd a b => Sys2Proof.Machine.execLcsetZ h pd a b s
  | .lcsetFree h pd a => Sys2Proof.Machine.execLcsetFree h pd a s
  | .lcwait h a c => Sys2Proof.Machine.execLcwait h a c s
  | .lcrd h d a s_ => Sys2Proof.Machine.execLcrd h d a s_ s
  | .strm h q a => Sys2Proof.Machine.execStrm h q a s
  | .strms h q a dim => Sys2Proof.Machine.execStrms h q a dim s
  | .strmsRd h d q dim => Sys2Proof.Machine.execStrmsRd h d q dim s
  | .layh h a => Sys2Proof.Machine.execLayh h a s
  | .layhAll h => Sys2Proof.Machine.execLayhAll h s
  | .resv h pd c m => Sys2Proof.Machine.execResv h pd c m s
  | .resvW h pd c m => Sys2Proof.Machine.execResvW h pd c m s
  | .rls h => Sys2Proof.Machine.execRls h s
  | .guard h quiet slot => Sys2Proof.Machine.execGuard h quiet slot s
  | .guardReg h a quiet => Sys2Proof.Machine.execGuardReg h a quiet s
  | .pack h k a b slot => Sys2Proof.Machine.execPack h k a b slot s
  | .unpk h d k b slot => Sys2Proof.Machine.execUnpk h d k b slot s
  | .kld h k a => Sys2Proof.Machine.execKld h k a s
  | .kldB h k a => Sys2Proof.Machine.execKldB h k a s
  | .kst h k a => Sys2Proof.Machine.execKst h k a s
  | .kstB h k a => Sys2Proof.Machine.execKstB h k a s
  | .kadd h d a b sub => Sys2Proof.Machine.execKadd h d a b sub s
  | .ksls h d a b pair => Sys2Proof.Machine.execKsls h d a b pair s
  | .kext h d k b pair => Sys2Proof.Machine.execKext h d k b pair s
  | .bptr h a b => Sys2Proof.Machine.execBptr h a b s
  | .bptrRd h d => Sys2Proof.Machine.execBptrRd h d s
  | .mulkS h z a => Sys2Proof.Machine.execMulkS h z a s
  | .mulkC h d a b => Sys2Proof.Machine.execMulkC h d a b s
  | .accrd h k z b => Sys2Proof.Machine.execAccrd h k z b s
  | .accrdOv h d z => Sys2Proof.Machine.execAccrdOv h d z s
  | .accz h z => Sys2Proof.Machine.execAccz h z s
  | .acccv h d z b slot => Sys2Proof.Machine.execAcccv h d z b slot s
  | .tagGet h d a => Sys2Proof.Machine.execTagGet h d a s
  | .tagSet h d a b => Sys2Proof.Machine.execTagSet h d a b s
  | .tagVal h d a => Sys2Proof.Machine.execTagVal h d a s
  | .mkt h d a tag => Sys2Proof.Machine.execMkt h d a tag s
  | .deref h d a => Sys2Proof.Machine.execDeref h d a s
  | .unify h d a b oc => Sys2Proof.Machine.execUnify h d a b oc s
  | .unifyc h d => Sys2Proof.Machine.execUnifyc h d s
  | .bind h d a b => Sys2Proof.Machine.execBind h d a b s
  | .choice h a => Sys2Proof.Machine.execChoice h a s
  | .retry h a => Sys2Proof.Machine.execRetry h a s
  | .retryTrust h => Sys2Proof.Machine.execRetryTrust h s
  | .failb h pd => Sys2Proof.Machine.execFailb h pd s
  | .cut h a => Sys2Proof.Machine.execCut h a s
  | .tmark h d => Sys2Proof.Machine.execTmark h d s
  | .unwind h a => Sys2Proof.Machine.execUnwind h a s
  | .halloc h d b z c => Sys2Proof.Machine.execHalloc h d b z c s
  | .arg h d a b addr => Sys2Proof.Machine.execArg h d a b addr s
  | .func h d a => Sys2Proof.Machine.execFunc h d a s
  | .commit h a => Sys2Proof.Machine.execCommit h a s
  | .symq h d => Sys2Proof.Machine.execSymq h d s
  | .symqR h d a => Sys2Proof.Machine.execSymqR h d a s
  | .symw h a => Sys2Proof.Machine.execSymw h a s
  | .symset h a b => Sys2Proof.Machine.execSymset h a b s
  | .csrr h d csr => Sys2Proof.Machine.execCsrr h d csr s
  | .csrw h d csr => Sys2Proof.Machine.execCsrw h d csr s
  | .eret h => Sys2Proof.Machine.execEret h s
  | .tlbiVa h a => Sys2Proof.Machine.execTlbiVa h a s
  | .tlbiJob h => Sys2Proof.Machine.execTlbiJob h s
  | .tlbiAll h => Sys2Proof.Machine.execTlbiAll h s
  | .ctxs h a => Sys2Proof.Machine.execCtxs h a s
  | .ctxl h a => Sys2Proof.Machine.execCtxl h a s
  | .cflushWb h a => Sys2Proof.Machine.execCflushWb h a s
  | .cflushInv h a => Sys2Proof.Machine.execCflushInv h a s
  | .cflushAll h => Sys2Proof.Machine.execCflushAll h s
  | .cancel h lvl => Sys2Proof.Machine.execCancel h lvl s
  | .cndw h a b => Sys2Proof.Machine.execCndw h a b s
  | .region mask => Sys2Proof.Machine.execRegion mask s
  | .ximm n => Sys2Proof.Machine.execXimm n s
  | .track f => Sys2Proof.Machine.execTrack f s
  | .wait mask => Sys2Proof.Machine.execWait mask s
  | .mod rnd ord scope cache => Sys2Proof.Machine.execMod rnd ord scope cache s
  | .pool n => Sys2Proof.Machine.execPool n s
  | .longLatencyComplete crew op => Sys2Proof.Machine.execLongLatencyComplete crew op s
  | .resultWriteComplete crew idx => Sys2Proof.Machine.execResultWriteComplete crew idx s
  | .symbolArrival crew sym lane => Sys2Proof.Machine.execSymbolArrival crew sym lane s
  | .memoryRequestArrive crew op req => Sys2Proof.Machine.execMemoryRequestArrive crew op req s
  | .pageFaultReplay job entry => Sys2Proof.Machine.execPageFaultReplay job entry s
  | .compatWrite core v => Sys2Proof.Machine.execCompatWrite core v s
  | .vlogSelect crew v => Sys2Proof.Machine.execVlogSelect crew v s
  | .preEmpt launch cluster hw => Sys2Proof.Machine.execPreEmpt launch cluster hw s
  | .clusterAdmit launch cluster cores => Sys2Proof.Machine.execClusterAdmit launch cluster cores s
  | .copy core cmd => Sys2Proof.Machine.execCopy core cmd s
  | .gather core cmd => Sys2Proof.Machine.execGather core cmd s
  | .scatter core cmd => Sys2Proof.Machine.execScatter core cmd s
  | .mcast core cmd => Sys2Proof.Machine.execMcast core cmd s
  | .expand core cmd => Sys2Proof.Machine.execExpand core cmd s
  | .regroup core cmd => Sys2Proof.Machine.execRegroup core cmd s
  | .allreduce job group => Sys2Proof.Machine.execAllreduce job group s
  | .reduce job group => Sys2Proof.Machine.execReduce job group s
  | .bcast job group => Sys2Proof.Machine.execBcast job group s
  | .allgather job group => Sys2Proof.Machine.execAllgather job group s
  | .redscat job group => Sys2Proof.Machine.execRedscat job group s
  | .copyBytesLand core cmd skip n => Sys2Proof.Machine.execCopyBytesLand core cmd skip n s
  | .commandEnd core cmd => Sys2Proof.Machine.execCommandEnd core cmd s
  | .deadlinePass core cmd => Sys2Proof.Machine.execDeadlinePass core cmd s
  | .flintProposal crew op req => Sys2Proof.Machine.execFlintProposal crew op req s
  | .flintRecycle crew op req => Sys2Proof.Machine.execFlintRecycle crew op req s
  | .taskStart stack job header => Sys2Proof.Machine.execTaskStart stack job header s
  | .graphStart c => Sys2Proof.Machine.execGraphStart c s
  | .graphRetry c => Sys2Proof.Machine.execGraphRetry c s
  | .graphAbandon c => Sys2Proof.Machine.execGraphAbandon c s
  | .graphCancel c => Sys2Proof.Machine.execGraphCancel c s
  | .graphLaunch c => Sys2Proof.Machine.execGraphLaunch c s
  | .lqtailWrite job tail recs => Sys2Proof.Machine.execLqtailWrite job tail recs s
  | .ringHeadWrite job fhead thead => Sys2Proof.Machine.execRingHeadWrite job fhead thead s
  | .hostCancelUnit job lid u => Sys2Proof.Machine.execHostCancelUnit job lid u s
  | .hostCancelLaunch job lid => Sys2Proof.Machine.execHostCancelLaunch job lid s
  | .hostCancelGraph job header => Sys2Proof.Machine.execHostCancelGraph job header s
  | .hostCancelPhase job id => Sys2Proof.Machine.execHostCancelPhase job id s
  | .hostCancelJob job => Sys2Proof.Machine.execHostCancelJob job s
  | .dispResume job cs => Sys2Proof.Machine.execDispResume job cs s
  | .dispKill job cs => Sys2Proof.Machine.execDispKill job cs s
  | .dispFail job cs => Sys2Proof.Machine.execDispFail job cs s
  | .dispReject job cs entry => Sys2Proof.Machine.execDispReject job cs entry s
  | .hostAccess acc => Sys2Proof.Machine.execHostAccess acc s
  | .powerOn hostFw deviceFw record cfg => Sys2Proof.Machine.execPowerOn hostFw deviceFw record cfg s
  | .measureExtend x => Sys2Proof.Machine.execMeasureExtend x s
  | .attestNonce nonce => Sys2Proof.Machine.execAttestNonce nonce s
  | .governorClockSet region clk => Sys2Proof.Machine.execGovernorClockSet region clk s
  | .unassignedOpcode w => Sys2Proof.Machine.execUnassignedOpcode w s
  | .reservedHintOpcode w => Sys2Proof.Machine.execReservedHintOpcode w s
  | .pcieDeviceAccess addr n => Sys2Proof.Machine.execPcieDeviceAccess addr n s
  | .ill => Sys2Proof.Machine.execIll s
  | .compatRoute => Sys2Proof.Machine.execCompatRoute s
  | .wsRefreshWindowEnd => Sys2Proof.Machine.execWsRefreshWindowEnd s
  | .waitClockSwap => Sys2Proof.Machine.execWaitClockSwap s
  | .reservationDeadlock => Sys2Proof.Machine.execReservationDeadlock s
  | .drainDone => Sys2Proof.Machine.execDrainDone s
  | .saveDone => Sys2Proof.Machine.execSaveDone s
  | .restoreStart => Sys2Proof.Machine.execRestoreStart s
  | .restoreDone => Sys2Proof.Machine.execRestoreDone s
  | .unitComplete => Sys2Proof.Machine.execUnitComplete s
  | .serialPhase => Sys2Proof.Machine.execSerialPhase s
  | .poolmapLoad => Sys2Proof.Machine.execPoolmapLoad s
  | .kickEntryTake => Sys2Proof.Machine.execKickEntryTake s
  | .trapTake => Sys2Proof.Machine.execTrapTake s
  | .fibreFail => Sys2Proof.Machine.execFibreFail s
  | .flitCrcRetry => Sys2Proof.Machine.execFlitCrcRetry s
  | .tokenRefill => Sys2Proof.Machine.execTokenRefill s
  | .moduleOvertemp => Sys2Proof.Machine.execModuleOvertemp s
  | .attestReportDone => Sys2Proof.Machine.execAttestReportDone s

end Sys2Proof.Machine
end

