-- ==== Sys2Proof/Machine/Load.lean ====
section
/-! DEFINITION. How a word comes to be the next instruction: the program that an outside loader would
place, for a machine on which nothing runs (log 21). -/

namespace Sys2Proof.Machine

/-- The virtual address of the loaded word, and its offset in stack 0's DRAM. -/
def loadAt : Nat := 0x10000

/-- A pointer entry to a table in the DRAM of the walking core's stack (R153). -/
def ptePointer (addr : Nat) : Nat := 2 ^ 60 + addr

/-- A leaf entry of type 1 with X and R (R153). -/
def pteCode (addr : Nat) : Nat := 2 ^ 60 + addr + 0x100 + 0x80 + 0x20

/-- Page tables that map the loaded word, in stack 0's DRAM from offset 0. -/
def loadTables (m : List Host.Cell) : List Host.Cell :=
  let put (m : List Host.Cell) (at_ e : Nat) : List Host.Cell := cellsPut m (dramBase 0 + at_) (bytesOf 8 e)
  put (put (put (put (put m 0 (ptePointer 0x1000)) 0x1000 (ptePointer 0x2000)) 0x2000
    (ptePointer 0x3000)) 0x3000 (ptePointer 0x4000)) 0x4008 (pteCode loadAt)

/-- The record of a launch of one crew: one unit, register-stack depth 512 (R317). -/
def loadRecord (lid : Nat) : List Word :=
  [BitVec.ofNat 64 loadAt, BitVec.ofNat 64 (2 ^ 58 + 2 ^ 48 + 2 ^ 32 + 2 ^ 16 + 1),
   BitVec.ofNat 64 (32 * 2 ^ 20), 0, 0, 0, 0, 0, 0, 0, 0, 0, 0, 0, 0, 0, 0, 0, BitVec.ofNat 64 lid,
   BitVec.ofNat 64 (2 ^ 56 + 1), 0, 0, 0, 0, 0, 0, 0, 0, 0, 0, 0, 0]

/-- The launch of the loaded word, running. -/
def loadLaunch (lid uid : Nat) : Launch :=
  { words := loadRecord lid, job := 0, seq := lid, task := none, admitted := [0], units := [(0, uid)]
    bars := [], pool := [], poolReady := true, pages := [], anyCancelled := false, ending := false, failed := false
    isOver := false, frec := none, snap := [], snapX := [] }

/-- Place a word as the first instruction of a unit of job 0 on core 0, alone on the package. -/
def loadWord (s : State) (w : IWord) : State :=
  let uid := s.nextUid
  let lid := s.nextLid
  let l := loadLaunch lid uid
  { s with
    mem := cellsPut (loadTables s.mem) (dramBase 0 + loadAt) (bytesOf 4 w.toNat)
    jobs := mput s.jobs 0 ((mgetD s.jobs 0 (jobReset 0)).set 0 0)
    launches := mput s.launches lid l
    units := [(uid, startUnit lid 0 0 0 1 [0] 0 0)]
    crews := [(crewKey uid 0, startCrew l uid 0 0 0)]
    tlb := [], compat := mdel s.compat 0, agenda := [], turn := false, bootst := 4
    part := { s.part with cores := s.part.cores ||| 1 }
    nextUid := uid + 1, nextLid := lid + 1 }

/-- Where the word that issues next is fetched: the crew and the target byte. -/
def fetchPlace (s : State) : Option (Nat × Nat) :=
  match bestCrew s with
  | none => none
  | some (key, _) =>
    match mget s.crews key with
    | none => none
    | some c =>
      match nextOf s c with
      | .word _ pc =>
        match xlat s (whoLane s c 0 false) .fetch pc with
        | (_, .ok phys _) => some (key, phys)
        | _ => none
      | _ => none

/-- Store a word where the next one is fetched, if it is then the one that issues. -/
def replaceWord (s : State) (w : IWord) : Option State :=
  let s := { s with agenda := [], turn := false }
  match fetchPlace s with
  | none => none
  | some (key, phys) =>
    let t := { s with mem := cellsPut s.mem phys (bytesOf 4 w.toNat) }
    if fetchPlace t = some (key, phys) then some t else none

end Sys2Proof.Machine
end

