-- ==== Sys2Proof/Machine/Step.lean ====
section
/-! DEFINITION. One step of the machine: the happening at the head of the agenda, or else the model's own
schedule (log 2). -/

namespace Sys2Proof.Machine

/-- What an outcome's state goes on with. -/
def andThen (r : Host.Outcome State Fault Refusal) (k : State → Host.Outcome State Fault Refusal) :
    Host.Outcome State Fault Refusal :=
  match r with
  | .next s => k s
  | r => r

/-- Run what an issue has come to, then the walkers' work that it leaves (R67, R323). -/
def runPrep : Prep → Host.Outcome State Fault Refusal
  | .isOver s => .next (afterWalks s)
  | .run i route s =>
    andThen (exec i s) fun t =>
      if route then andThen (exec .compatRoute { t with subj := s.iss.crew }) fun t => .next (afterWalks t)
      else .next (afterWalks t)

/-- An event acts on an object; a word of the instruction set is no event. -/
def runEvent (i : Instr) (subj : Nat) (s : State) : Host.Outcome State Fault Refusal :=
  if (encode i).isSome then .next s
  else andThen (exec i { s with subj := subj }) fun t => .next (afterWalks t)

/-- A happening of the agenda. -/
def happen (h : Happening) (s : State) : Host.Outcome State Fault Refusal :=
  match h with
  | .event i subj => runEvent i subj s
  | .routine crew i => runPrep (prepRoutine s crew i)
  | .issue crew => runPrep (prepIssue s crew)
  | .pass n => .next (passCycles s n)
  | .termSteps crew op lane n => .next (termGo s crew op [lane] (some n))

/-- The first event that changes something. -/
def firstEvent (s : State) : List (Instr × Nat) → Option State
  | [] => none
  | (i, subj) :: t =>
    match runEvent i subj s with
    | .next u => if { u with subj := s.subj } = s then firstEvent s t else some u
    | _ => firstEvent s t

/-- The work besides issue that goes on by itself. -/
def background (s : State) : Option State :=
  if (takeWalk s s.walks).isSome then some (afterWalks s) else firstEvent s (readyEvents s)

/-- The schedule of the model: issue and other work take turns; when neither can go on, a cycle passes. -/
def schedule (s : State) : Host.Outcome State Fault Refusal :=
  let after := { s with turn := !s.turn }
  if s.turn then
    match background after with
    | some t => .next t
    | none =>
      match prepNext after with
      | some (_, p) => runPrep p
      | none => .next (passCycles after 1)
  else
    match prepNext after with
    | some (_, p) => runPrep p
    | none =>
      match background after with
      | some t => .next t
      | none => .next (passCycles after 1)

/-- One step. -/
def step (s : State) : Host.Outcome State Fault Refusal :=
  match s.agenda with
  | h :: t => happen h { s with agenda := t }
  | [] => schedule s

/-- The state with a word stored where the next instruction is fetched: where the next crew fetches, or,
while no crew can issue it, as the first word of a unit of its own (log 21). -/
def State.withFetchWord (s : State) (nbits w : Nat) : State :=
  let word : IWord := BitVec.ofNat 32 (w % 2 ^ nbits)
  match replaceWord s word with
  | some t => t
  | none => loadWord s word

end Sys2Proof.Machine
end

