-- ==== Sys2Proof/Safety.lean ====
section
/-! DEFINITION. What the statements are made of: when an instruction issues, what its issue leaves, and
the values that the specification gives results. -/

namespace Sys2Proof.Machine

/-! ## The form of a state -/

/-- The memory is in canonical form, and every job context that the machine holds has its eight words (R316). -/
def Formed (s : State) : Prop := memWf s.mem = true ∧ ∀ p ∈ s.jobs, p.2.length = 8

/-! ## Issue -/

/-- The crew whose word is being issued, with the results that are due by now in place (R71). -/
def issuing (s : State) : Option Crew := (mget s.crews s.iss.crew).map (settle s.cycle)

/-- The lanes of the group being issued (R103). -/
def groupOf (s : State) (c : Crew) : Mask := groupAt c s.iss.start

/-- The active lanes of an instruction: those of the group in which its guard holds (R62). -/
def activeOf (i : Instr) (s : State) (c : Crew) : Mask := guarded c (usesOf i).h (groupOf s c)

/-- Nothing stands before the instruction: its hints and its fields are legal in their context (R83),
and no WAIT, full TRACK flag or control transfer holds it back (R72, R79, R80). -/
structure Issues (i : Instr) (s : State) (c : Crew) (act : Mask) : Prop where
  crew : issuing s = some c
  hints : hintsOk (usesOf i) c.hint = true
  fields : contextBad (launchOf s c) c.hint i = false
  go : holdOf c (usesOf i) c.hint act = .go
  active : activeOf i s c = act
  any : act ≠ 0

/-- The address of the word after the one being issued. -/
def nextWord (s : State) : Word := s.iss.pc + 4

/-- The context in which an instruction's meaning runs when it issues. -/
def issueCtx (i : Instr) (s : State) (c : Crew) : Ctx := ctxOf i (putCrew s s.iss.crew c) c

/-- The state on which an instruction's own work starts. -/
def startOf (s : State) (c : Crew) : State :=
  { putCrew s s.iss.crew c with nextSeq := s.nextSeq + 1 }

/-- The place of lane `l` after the group `grp` has issued, where `pc` gives the active lanes' next
words. -/
def pcAfter (s : State) (c : Crew) (grp act : Mask) (pc : Nat → Word) (l : Nat) : Word :=
  if inMask grp l then (if inMask act l then pc l else nextWord s) else (thOf c l).pc

/-- A live thread of the program stands at a meeting address (R37). -/
def arrivedAt (c : Crew) (m : Word) (l : Nat) : Bool :=
  (progTh c l).live && decide ((progTh c l).pc = m) && (progTh c l).atPc

/-- Every live thread that is to meet at `m` in the crew `c` has arrived there once the crew is `c'`. -/
def allMet (c c' : Crew) (m : Word) : Bool :=
  lanes.all fun l => !((progTh c l).live && decide ((progTh c l).mr = m)) || arrivedAt c' m l

/-- `t` is `s` after its crew, which was `c`, has issued an instruction and is `c'`: the lanes of the
group `grp` have moved, the results `new` are in flight, and nothing else of the machine has changed.
The threads of the program that stand at their meeting address are held there, and released when all that are
to meet there have arrived. Reading one of `srcs` that is not staged takes a cycle more, where a lane is active (R37 to R39, R60). -/
structure Issued (srcs : List Nat) (s t : State) (c c' : Crew) (grp act : Mask) (pc : Nat → Word)
    (new : List PendW) : Prop where
  rest : t = { s with
    crews := mput s.crews s.iss.crew c'
    sched := mput s.sched (c.core * 4 + c.slot % 4) c'.ready
    nextSeq := s.nextSeq + 1 }
  crew : c' = { c with
    th := c'.th, rt := c'.rt, pend := c.pend ++ new, hint := Hints.none, rej := []
    ready := s.cycle + (if unstaged c srcs = true ∧ act ≠ 0 then 2 else 1)
    stamp := s.nextSeq
    ops := c.ops.map (Op.passed c.priv grp) }
  lanes : ∀ l, thOf c' l = { thOf c l with
    pc := pcAfter s c grp act pc l
    stamp := if inMask grp l then s.nextSeq else (thOf c l).stamp
    mr := (thOf c' l).mr, held := (thOf c' l).held }
  program : c.priv = true → ∀ l, progTh c' l =
    { progTh c l with mr := (progTh c' l).mr, held := (progTh c' l).held }
  routine : c.priv = false → c'.rt = c.rt
  meet : ∀ l, ((progTh c' l).mr, (progTh c' l).held) =
    let m := (progTh c l).mr
    if m ≠ 0 ∧ arrivedAt c' m l = true then (if allMet c c' m then (0, false) else (m, true)) else (m, false)

/-- Crew `c` at `s` issues `i`, reading `srcs`; the instruction's own work makes the crew `c1` and the
rest of the machine that of `s1`, puts `new` in flight, and gives the active lanes their next words. -/
def Does (i : Instr) (s : State) (c : Crew) (act : Mask) (srcs : List Nat) (s1 : State) (c1 : Crew)
    (pc : Nat → Word) (new : List PendW) : Prop :=
  ∃ t c', exec i s = .next t ∧ Issued srcs s1 t c1 c' (groupOf s c) act pc new

/-- Results of one kind in the active lanes, in flight for a latency (R71, R88). -/
def results (s : State) (act : Mask) (lat : Nat) (tgt : Nat → PTgt) : List PendW :=
  (lanesOf act).map fun l =>
    { lane := l, tgt := tgt l, seq := s.nextSeq, due := s.cycle + lat, born := s.cycle }

/-- A known result for window register `d` of lane `l`: it goes to the stack entry that the register
names at issue (R56, R89). -/
def toReg (c : Crew) (d l : Nat) (v : Word) : PTgt := .reg ((thOf c l).frame + d) (.known v)

/-- A register that stands for a·u + b over symbol `y`; with a scale of 0 it holds the known value b (R293). -/
def formOf (y : Nat) (a b : Word) : RegVal := if a = 0 then .known b else .iform y a b

/-- The registers of a list hold known values in the active lanes. -/
def Known (c : Crew) (act : Mask) (srcs : List Nat) : Prop :=
  ∀ l ∈ lanesOf act, ∀ r ∈ srcs, (regOf (thOf c l) r).symbol = none

/-! ## Values of integer results (R87, R92) -/

/-- The width n that W names (R87). -/
def bitsOf (w : BitVec 1) : Nat := if w = 1 then 64 else 32

/-- A result at a width: 32 bits are sign-extended (R87). -/
def narrow (w : BitVec 1) (v : Word) : Word := if w = 1 then v else (v.setWidth 32).signExtend 64

/-- The low n bits of a source as an unsigned number. -/
def unsig (w : BitVec 1) (v : Word) : Nat := if w = 1 then v.toNat else (v.setWidth 32).toNat

/-- The low n bits of a source, signed when `u` is 0 and unsigned when it is 1 (R92). -/
def num (w u : BitVec 1) (v : Word) : Int :=
  if u = 1 then (unsig w v : Int) else if w = 1 then v.toInt else (v.setWidth 32).toInt

/-- The quotient of R93. -/
def quotient (w u : BitVec 1) (x y : Word) : Word :=
  if num w u y = 0 then -1
  else if u = 0 ∧ num w 0 x = -(2 ^ (bitsOf w - 1)) ∧ num w 0 y = -1 then narrow w x
  else narrow w (BitVec.ofInt 64 ((num w u x).tdiv (num w u y)))

/-- The remainder of R93. -/
def remainder (w u : BitVec 1) (x y : Word) : Word :=
  if num w u y = 0 then narrow w x
  else if u = 0 ∧ num w 0 x = -(2 ^ (bitsOf w - 1)) ∧ num w 0 y = -1 then 0
  else narrow w (BitVec.ofInt 64 ((num w u x).tmod (num w u y)))

/-- Shifts and rotations by `k` below the width (R94). -/
def shiftRight (w : BitVec 1) (x : Word) (k : Nat) : Word :=
  if w = 1 then x >>> k else ((x.setWidth 32) >>> k).signExtend 64
/-- SAR. -/
def shiftArith (w : BitVec 1) (x : Word) (k : Nat) : Word :=
  if w = 1 then x.sshiftRight k else ((x.setWidth 32).sshiftRight k).signExtend 64
/-- ROT. -/
def rotate (w : BitVec 1) (x : Word) (k : Nat) : Word :=
  if w = 1 then x.rotateLeft k else ((x.setWidth 32).rotateLeft k).signExtend 64

/-- A word of which `f` gives the low `n` bits. -/
def fromBits (n : Nat) (f : Nat → Bool) : Word :=
  (List.range n).foldl (fun v i => if f i then v ||| (1 <<< i) else v) 0

/-- BITC (R95). -/
def bitCount (f : BitVec 3) (w : BitVec 1) (x : Word) : Word :=
  let n := bitsOf w
  let len (l : List Nat) : Word := BitVec.ofNat 64 l.length
  if f = 0 then len ((List.range n).takeWhile fun i => !x.getLsbD (n - 1 - i))
  else if f = 1 then len ((List.range n).takeWhile fun i => !x.getLsbD i)
  else if f = 2 then len ((List.range n).filter fun i => x.getLsbD i)
  else if f = 3 then narrow w (fromBits n fun i => x.getLsbD (n - 1 - i))
  else if f = 4 then narrow w (fromBits n fun i => x.getLsbD (8 * (n / 8 - 1 - i / 8) + i % 8))
  else if f = 5 then (x.setWidth 8).signExtend 64
  else if f = 6 then (x.setWidth 16).signExtend 64
  else (x.setWidth 32).signExtend 64

/-- pos, len and k of R96. -/
def fieldPos (y : Word) : Nat := (y.extractLsb' 0 6).toNat
/-- len. -/
def fieldLen (y : Word) : Nat := (y.extractLsb' 8 7).toNat
/-- k = min(len, n − pos). -/
def fieldSize (w : BitVec 1) (y : Word) : Nat := min (fieldLen y) (bitsOf w - fieldPos y)

/-- BFX (R96). -/
def extracted (w u : BitVec 1) (x y : Word) : Word :=
  if bitsOf w ≤ fieldPos y ∨ fieldLen y = 0 then 0
  else
    let f := unsig w x / 2 ^ fieldPos y % 2 ^ fieldSize w y
    narrow w (if u = 1 then BitVec.ofNat 64 f else BitVec.ofInt 64 ((f : Int).bmod (2 ^ fieldSize w y)))

/-- BFI (R96). -/
def inserted (w : BitVec 1) (d x y : Word) : Word :=
  if bitsOf w ≤ fieldPos y ∨ fieldLen y = 0 then narrow w d
  else
    let m : Word := BitVec.ofNat 64 (2 ^ fieldSize w y - 1) <<< fieldPos y
    narrow w ((d &&& ~~~m) ||| ((x <<< fieldPos y) &&& m))

/-- An immediate of `n` bits with the XIMM before it, sign-extended (R14). -/
def simm {n : Nat} (c : Crew) (imm : BitVec n) : Word :=
  match c.hint.ximm with
  | none => imm.signExtend 64
  | some p => (p ++ imm).signExtend 64

/-- The same, zero-extended. -/
def zimm {n : Nat} (c : Crew) (imm : BitVec n) : Word :=
  match c.hint.ximm with
  | none => imm.setWidth 64
  | some p => (p ++ imm).setWidth 64

/-- Predicate `p` of a lane; p7 always reads 1 (R62). -/
def predIs (c : Crew) (l : Nat) (p : PCode) : Bool := decide (p = 7) || (thOf c l).preds.getLsbD p.toNat

/-! ## Crew exchange (R111 to R116) -/

/-- The operand of a lane: what a source code of that lane holds. -/
abbrev Src := Nat → Code → Word

/-- The mask, as a word, of the lanes for which `p` holds. -/
def laneMask (p : Nat → Bool) : Word := fromBits 32 p

/-- The source lane of SHFL (R113). -/
def shuffleSource (mode : BitVec 2) (l : Nat) (b : Word) : Int :=
  if mode = 0 then ((b.toNat % 32 : Nat) : Int)
  else if mode = 1 then (l : Int) - ((b.toNat % 64 : Nat) : Int)
  else if mode = 2 then (l : Int) + ((b.toNat % 64 : Nat) : Int)
  else ((l ^^^ (b.toNat % 32) : Nat) : Int)

/-- The source lane is one of the crew's and is available (R111, R113). -/
def shuffleValid (act : Mask) (j : Int) : Bool := decide (0 ≤ j ∧ j ≤ 31) && inMask act j.toNat

/-- The operation of CRED and CSCAN (R114). -/
def crewOp (op : BitVec 3) (x y : Word) : Word :=
  match op.toNat with
  | 0 => x + y
  | 1 => if x.toInt ≤ y.toInt then x else y
  | 2 => if x.toInt ≤ y.toInt then y else x
  | 3 => if x.toNat ≤ y.toNat then x else y
  | 4 => if x.toNat ≤ y.toNat then y else x
  | 5 => x &&& y
  | 6 => x ||| y
  | _ => x ^^^ y

/-- Its identity (R114). -/
def crewId (op : BitVec 3) : Word :=
  match op.toNat with
  | 1 => 0x7FFFFFFFFFFFFFFF
  | 2 => 0x8000000000000000
  | 3 => 0xFFFFFFFFFFFFFFFF
  | 5 => 0xFFFFFFFFFFFFFFFF
  | _ => 0

/-- The fixed tree over lanes 0 to 31 (R114). -/
def crewTree {α : Type} (f : α → α → α) (v : Nat → α) : α :=
  [16, 8, 4, 2, 1].foldl (fun v h j => f (v j) (v (j + h))) v 0

/-- A lane's key of ISECT: the top of the compare type in a lane that is not live (R116). -/
def isectKey (w u : BitVec 1) (act : Mask) (v : Word) (l : Nat) : Int :=
  if inMask act l then num w u v
  else if u = 1 then 2 ^ bitsOf w - 1 else 2 ^ (bitsOf w - 1) - 1

/-! ## Special registers (R32, R65) -/

/-- What a lane reads of a special register. -/
def special (s : State) (c : Crew) (act : Mask) (l code : Nat) : Word :=
  let t := progTh c l
  let unit (f : UnitSt → Nat) : Word := BitVec.ofNat 64 ((mget s.units c.uid).elim 0 f)
  let launch (f : Launch → Word) : Word := (launchOf s c).elim 0 f
  match code with
  | 0 => BitVec.ofNat 64 l
  | 1 => BitVec.ofNat 64 c.idx
  | 2 => unit (·.u)
  | 3 => unit (·.cluster)
  | 4 => BitVec.ofNat 64 c.core
  | 5 => BitVec.ofNat 64 (c.core / 64 % 4)
  | 6 => BitVec.ofNat 64 s.part.pkg
  | 7 => BitVec.ofNat 64 s.cycle
  | 8 => launch fun la => la.words.getD 18 0
  | 9 => launch fun la => la.words.getD 3 0
  | 10 => t.mr
  | 11 => act.setWidth 64
  | 12 => BitVec.ofNat 64 (t.frame / 16)
  | 13 => t.fpstat
  | 14 => t.heap
  | 15 => c.cheap
  | 16 => t.trail
  | 17 => t.choice
  | 18 => t.pdl
  | 19 => launch fun la => BitVec.ofNat 64 la.crews
  | 20 => launch fun la => BitVec.ofNat 64 la.unitsPer
  | 21 => launch fun la => BitVec.ofNat 64 la.clusters
  | _ => 0

/-! ## Tables of results -/

/-- Predicate results in flight; a write of p7 is discarded (R62). -/
def predResults (s : State) (act : Mask) (lat p : Nat) (v : Nat → Bool) : List PendW :=
  if p = 7 then [] else results s act lat fun l => .pred p (v l)

/-- Sticky flags in flight, in the lanes that raise some (R124, R125). -/
def flagResults (s : State) (act : Mask) (lat : Nat) (v : Nat → Nat) : List PendW :=
  ((lanesOf act).filter fun l => decide (v l ≠ 0)).map fun l =>
    { lane := l, tgt := .flags (BitVec.ofNat 64 (v l)), seq := s.nextSeq, due := s.cycle + lat,
      born := s.cycle }

/-- An instruction of fixed latency: its destination, if it writes a register, its sources, its
latency, the register result of a lane, and what it writes besides. -/
structure Row where
  dst : Option Code
  srcs : List Code
  lat : Nat
  val : Src → State → Crew → Mask → Nat → Word
  besides : Src → State → Crew → Mask → List PendW

/-- Everything that an instruction puts in flight when its destination is a window register. -/
def Row.outs (r : Row) (src : Src) (s : State) (c : Crew) (act : Mask) : List PendW :=
  r.besides src s c act ++
    match r.dst with
    | none => []
    | some d => results s act r.lat fun l => toReg c d.toNat l (r.val src s c act l)

/-- A register result that depends on the lane's own operands. -/
def row (d : Code) (srcs : List Code) (lat : Nat) (f : (Code → Word) → Word) : Option Row :=
  some { dst := some d, srcs := srcs, lat := lat, val := fun src _ _ _ l => f (src l)
         besides := fun _ _ _ _ => [] }

/-- A register result that depends on the crew too. -/
def rowIn (d : Code) (srcs : List Code) (lat : Nat) (f : Src → State → Crew → Mask → Nat → Word) :
    Option Row :=
  some { dst := some d, srcs := srcs, lat := lat, val := f, besides := fun _ _ _ _ => [] }

/-- A predicate result. -/
def rowPred (p : PCode) (srcs : List Code) (f : Src → Crew → Nat → Bool) : Option Row :=
  some { dst := none, srcs := srcs, lat := 4, val := fun _ _ _ _ _ => 0
         besides := fun src s c act => predResults s act 4 p.toNat (f src c) }

/-- A register result of a crew exchange, with its validity predicate p6 (R111). -/
def rowEx (d : Code) (srcs : List Code) (f : Src → Mask → Nat → Word) (valid : Src → Mask → Nat → Bool) :
    Option Row :=
  some { dst := some d, srcs := srcs, lat := 12, val := fun src _ _ act => f src act
         besides := fun src s _ act => predResults s act 12 6 (valid src act) }

/-- A float result with its flags (R124). -/
def rowF (d : Code) (srcs : List Code) (lat : Nat) (f : Crew → (Code → Word) → FRes) : Option Row :=
  some { dst := some d, srcs := srcs, lat := lat
         val := fun src _ c _ l => BitVec.ofNat 64 (f c (src l)).bits
         besides := fun src s c act => flagResults s act lat fun l => (f c (src l)).flags }

/-- Sums, products, quotients and logic (R92, R93). -/
def arithRow : Instr → Option Row
  | .add _ d a b w => row d [a, b] 4 fun v => narrow w (v a + v b)
  | .sub _ d a b w => row d [a, b] 4 fun v => narrow w (v a - v b)
  | .neg _ d a w => row d [a] 4 fun v => narrow w (0 - v a)
  | .mul _ d a b w => row d [a, b] 4 fun v => narrow w (v a * v b)
  | .mulh _ d a b w u => row d [a, b] 12 fun v =>
      narrow w (BitVec.ofInt 64 (num w u (v a) * num w u (v b) / 2 ^ bitsOf w))
  | .mad _ d a b w => row d [d, a, b] 4 fun v => narrow w (v d + v a * v b)
  | .div _ d a b w u => row d [a, b] 24 fun v => quotient w u (v a) (v b)
  | .rem _ d a b w u => row d [a, b] 24 fun v => remainder w u (v a) (v b)
  | .min _ d a b w u => row d [a, b] 4 fun v =>
      narrow w (if num w u (v a) ≤ num w u (v b) then v a else v b)
  | .max _ d a b w u => row d [a, b] 4 fun v =>
      narrow w (if num w u (v b) ≤ num w u (v a) then v a else v b)
  | .and _ d a b w => row d [a, b] 4 fun v => narrow w (v a &&& v b)
  | .or _ d a b w => row d [a, b] 4 fun v => narrow w (v a ||| v b)
  | .xor _ d a b w => row d [a, b] 4 fun v => narrow w (v a ^^^ v b)
  | .andn _ d a b w => row d [a, b] 4 fun v => narrow w (v a &&& ~~~(v b))
  | _ => none

/-- Shifts, bit counts, bit fields and scaled sums (R94 to R97). -/
def bitRow : Instr → Option Row
  | .shl _ d a b w => row d [a, b] 4 fun v => narrow w (v a <<< ((v b).toNat % bitsOf w))
  | .shr _ d a b w => row d [a, b] 4 fun v => shiftRight w (v a) ((v b).toNat % bitsOf w)
  | .sar _ d a b w => row d [a, b] 4 fun v => shiftArith w (v a) ((v b).toNat % bitsOf w)
  | .rot _ d a b w => row d [a, b] 4 fun v => rotate w (v a) ((v b).toNat % bitsOf w)
  | .bitc _ d a w f => row d [a] 4 fun v => bitCount f w (v a)
  | .bfx _ d a b w u => row d [a, b] 4 fun v => extracted w u (v a) (v b)
  | .bfi _ d a b w => row d [d, a, b] 4 fun v => inserted w (v d) (v a) (v b)
  | .lea _ d a b w k => row d [a, b] 4 fun v =>
      v a + ((if w = 1 then v b else ((v b).setWidth 32).signExtend 64) <<< k.toNat)
  | _ => none

/-- Selection, moves, immediates and reads of predicates and special registers (R92, R97 to R99,
R102, R117). -/
def moveRow : Instr → Option Row
  | .sel _ d a b p => rowIn d [a, b] 4 fun src _ c _ l => if predIs c l p then src l a else src l b
  | .mov _ d a => row d [a] 4 fun v => v a
  | .movi _ d imm => rowIn d [] 4 fun _ _ c _ _ => simm c imm
  | .addi _ d a imm => rowIn d [a] 4 fun src _ c _ l => src l a + simm c imm
  | .andi _ d a imm => rowIn d [a] 4 fun src _ c _ l => src l a &&& zimm c imm
  | .ori _ d a imm => rowIn d [a] 4 fun src _ c _ l => src l a ||| zimm c imm
  | .xori _ d a imm => rowIn d [a] 4 fun src _ c _ l => src l a ^^^ zimm c imm
  | .shi _ d a kind k => row d [a] 4 fun v =>
      if kind = 0 then v a <<< k.toNat else if kind = 1 then v a >>> k.toNat
      else if kind = 2 then (v a).sshiftRight k.toNat else (v a).rotateLeft k.toNat
  | .pmovRead _ d => rowIn d [] 4 fun _ _ c _ l =>
      ((1 : BitVec 1) ++ (thOf c l).preds.setWidth 7).setWidth 64
  | _ => none

/-- Comparisons and predicate logic (R100 to R102). -/
def predRow : Instr → Option Row
  | .cmp _ pd a b cond w u => rowPred pd [a, b] fun src _ l =>
      compares cond (num w u (src l a)) (num w u (src l b))
  | .cmpi _ pd a imm cond w u => rowPred pd [a] fun src c l =>
      compares cond (num w u (src l a)) (num w u (zimm c imm))
  | .pset _ pd pa pb f => rowPred pd [] fun _ c l => logical f (predIs c l pa) (predIs c l pb)
  | .pmovWrite _ a => some { dst := none, srcs := [a], lat := 4, val := fun _ _ _ _ _ => 0
                             besides := fun src s _ act =>
                               (List.range 7).flatMap fun p =>
                                 predResults s act 4 p fun l => (src l a).getLsbD p }
  | _ => none
where
  /-- The conditions of R100. -/
  compares (cond : BitVec 3) (x y : Int) : Bool :=
    match cond.toNat with
    | 0 => decide (x = y)
    | 1 => decide (x ≠ y)
    | 2 => decide (x < y)
    | 3 => decide (x ≥ y)
    | 4 => decide (x ≤ y)
    | _ => decide (x > y)
  /-- The functions of R101. -/
  logical (f : BitVec 3) (x y : Bool) : Bool :=
    match f.toNat with
    | 0 => x && y
    | 1 => x || y
    | 2 => x ^^ y
    | 3 => x && !y
    | 4 => !(x && y)
    | 5 => !(x || y)
    | 6 => !(x ^^ y)
    | _ => x || !y

/-- Crew exchange but for ISECT (R111 to R115). -/
def exchangeRow : Instr → Option Row
  | .vote _ d pa nt form =>
    let m (c : Crew) (act : Mask) : Mask := maskOf fun l => inMask act l && (predIs c l pa ^^ decide (nt = 1))
    let pred (f : Mask → Mask → Bool) : Option Row :=
      some { dst := none, srcs := [], lat := 12, val := fun _ _ _ _ _ => 0
             besides := fun _ s c act => predResults s act 12 d.toNat (fun _ => f (m c act) act) ++
               predResults s act 12 6 fun _ => true }
    match form.toNat with
    | 0 => pred fun m act => decide (m = act)
    | 1 => pred fun m _ => decide (m ≠ 0)
    | 2 => pred fun m act => decide (m = 0 ∨ m = act)
    | _ => some { dst := some d, srcs := [], lat := 12
                  val := fun _ _ c act _ => (m c act).setWidth 64
                  besides := fun _ s _ act => predResults s act 12 6 fun _ => true }
  | .shfl _ d a b mode =>
    rowEx d [a, b]
      (fun src act l =>
        let j := shuffleSource mode l (src l b)
        if shuffleValid act j then src j.toNat a else src l a)
      fun src act l => shuffleValid act (shuffleSource mode l (src l b))
  | .shflImm _ d a k mode =>
    rowEx d [a]
      (fun src act l =>
        let j := shuffleSource mode l (k.setWidth 64)
        if shuffleValid act j then src j.toNat a else src l a)
      fun _ act l => shuffleValid act (shuffleSource mode l (k.setWidth 64))
  | .cred _ d a op =>
    rowEx d [a] (fun src act _ => crewTree (crewOp op) fun j => if inMask act j then src j a else crewId op)
      fun _ _ _ => true
  | .cscan _ d a excl op =>
    rowEx d [a]
      (fun src act l => (List.range (if excl = 1 then l else l + 1)).foldl
        (fun v j => crewOp op v (if inMask act j then src j a else crewId op)) (crewId op))
      fun _ _ _ => true
  | .matchl _ d a w =>
    rowEx d [a]
      (fun src act l => laneMask fun j => inMask act j && decide (unsig w (src j a) = unsig w (src l a)))
      fun _ _ _ => true
  | _ => none

/-- Float arithmetic and comparison, on the operands' formats and under the rounding mode in force
(R122, R129 to R133, R143). -/
def floatRow : Instr → Option Row
  | .fadd _ d a b t => rowF d [a, b] 4 fun c v =>
      fAdd (fmtOf t.toNat) c.hint.mode (dec t (v a)) (dec t (v b))
  | .fsub _ d a b t => rowF d [a, b] 4 fun c v =>
      fAdd (fmtOf t.toNat) c.hint.mode (dec t (v a)) (dec t (v b)).flip
  | .fmul _ d a b t => rowF d [a, b] 4 fun c v =>
      fMul (fmtOf t.toNat) c.hint.mode (dec t (v a)) (dec t (v b))
  | .ffma _ d a b ng t => rowF d [a, b, d] 4 fun c v =>
      fFma (fmtOf t.toNat) c.hint.mode (if ng = 1 then (dec t (v a)).flip else dec t (v a)) (dec t (v b))
        (dec t (v d))
  | .fmin _ d a b n t => rowF d [a, b] 4 fun _ v =>
      fMinMax (fmtOf t.toNat) false (decide (n = 1)) (v a).toNat (v b).toNat
  | .fmax _ d a b n t => rowF d [a, b] 4 fun _ v =>
      fMinMax (fmtOf t.toNat) true (decide (n = 1)) (v a).toNat (v b).toNat
  | .fcmp _ pd a b cond t =>
    let r (src : Src) (l : Nat) : Bool × Nat :=
      fCmp (fmtOf t.toNat) cond.toNat (src l a).toNat (src l b).toNat
    some { dst := none, srcs := [a, b], lat := 4, val := fun _ _ _ _ _ => 0
           besides := fun src s _ act => flagResults s act 4 (fun l => (r src l).2) ++
             predResults s act 4 pd.toNat fun l => (r src l).1 }
  | .fabs _ d a t => row d [a] 4 fun v => signed t (v a) false
  | .fneg _ d a t => row d [a] 4 fun v => signed t (v a) (!(v a).getLsbD ((fmtOf t.toNat).bits - 1))
  | .fcps _ d a b t => row d [a, b] 4 fun v => signed t (v a) ((v b).getLsbD ((fmtOf t.toNat).bits - 1))
  | .fdiv _ d a b t => rowF d [a, b] 24 fun c v =>
      fDiv (fmtOf t.toNat) c.hint.mode (dec t (v a)) (dec t (v b))
  | .fsqrt _ d a t => rowF d [a] 24 fun c v => fSqrt (fmtOf t.toNat) c.hint.mode (dec t (v a))
  | .frcp _ d a t => rowF d [a] 12 fun _ v => fTrans (fmtOf t.toNat) .rcp (v a).toNat
  | .frsq _ d a t => rowF d [a] 12 fun _ v => fTrans (fmtOf t.toNat) .rsq (v a).toNat
  | .fexp2 _ d a t => rowF d [a] 12 fun _ v => fTrans (fmtOf t.toNat) .exp2 (v a).toNat
  | .flog2 _ d a t => rowF d [a] 12 fun _ v => fTrans (fmtOf t.toNat) .log2 (v a).toNat
  | .ftanh _ d a t => rowF d [a] 12 fun _ v => fTrans (fmtOf t.toNat) .tanh (v a).toNat
  | .fsinpi _ d a t => rowF d [a] 12 fun _ v => fTrans (fmtOf t.toNat) .sinpi (v a).toNat
  | .fcospi _ d a t => rowF d [a] 12 fun _ v => fTrans (fmtOf t.toNat) .cospi (v a).toNat
  | .frnd _ d a x t => rowF d [a] 4 fun c v =>
      fRnd (fmtOf t.toNat) c.hint.mode (decide (x = 1)) (v a).toNat
  | .fcls _ d a t => row d [a] 4 fun v => BitVec.ofNat 64 (fClass (fmtOf t.toNat) (v a).toNat)
  | .fred _ d a op t =>
    let f := fmtOf t.toNat
    let root (src : Src) (c : Crew) (act : Mask) : FRes :=
      crewTree (fredOp op.toNat t.toNat c.hint.mode) fun j =>
        { bits := if inMask act j then (src j a).toNat % 2 ^ f.bits else fredId op.toNat t.toNat, flags := 0 }
    some { dst := some d, srcs := [a], lat := 12
           val := fun src _ c act _ => BitVec.ofNat 64 (root src c act).bits
           besides := fun src s c act => flagResults s act 12 fun _ => (root src c act).flags }
  | _ => none
where
  /-- An operand in the format of an F[1:0] field. -/
  dec (t : BitVec 2) (v : Word) : FVal := fdec (fmtOf t.toNat) v.toNat
  /-- A value with another sign bit; a NaN becomes the canonical NaN (R123, R129). -/
  signed (t : BitVec 2) (v : Word) (neg : Bool) : Word :=
    let f := fmtOf t.toNat
    if (dec t v).isNan then BitVec.ofNat 64 f.nan
    else BitVec.ofNat 64 (v.toNat % 2 ^ (f.bits - 1) + if neg then 2 ^ (f.bits - 1) else 0)

/-- A slot's KIND, whether it is scaled, and BLOCK (R126). -/
def slotOf (s : State) (c : Crew) (n : BitVec 3) : Nat × Bool × Nat :=
  let w : Word := match launchOf s c with
    | none => 0
    | some l => l.words.getD (4 + n.toNat) 0
  ((w.extractLsb' 0 4).toNat, decide (w.extractLsb' 8 4 = 1), (w.extractLsb' 4 4).toNat)

/-- The scale of a conversion: wB[7:0] in a scaled slot, 127 in another (R145). -/
def scaleOf (s : State) (c : Crew) (n : BitVec 3) (b : Word) : Nat :=
  if (slotOf s c n).2.1 then b.toNat % 256 else 127

/-- The sources of a conversion: an unscaled slot's scale is not read (R145). -/
def scaledSrcs (s : State) (c : Crew) (n : BitVec 3) (a b : Code) : List Code :=
  if (slotOf s c n).2.1 then [a, b] else [a]

/-- Conversions without a slot's scale (R144, R150). -/
def convRow : Instr → Option Row
  | .cvts _ d a conv =>
    some { dst := some d, srcs := [a], lat := 4
           val := fun src _ c _ l => (cvtsOp conv.toNat c.hint.mode (src l a)).1
           besides := fun src s c act =>
             flagResults s act 4 fun l => (cvtsOp conv.toNat c.hint.mode (src l a)).2 }
  | .absmx _ d a n => rowIn d [a] 12 fun src s c act l =>
      BitVec.ofNat 64 (((List.range 32).filter fun j =>
        inMask act j && (decide ((slotOf s c n).2.2 ≠ 1) || decide (j / 16 = l / 16))).foldl
          (fun m j => max m (if (fdec f32 (src j a).toNat).isNan then 0 else (src j a).toNat % 2 ^ 31)) 0)
  | _ => none

/-- The magnitude a/b, in units of the last place, is rounded to m in a mode (R15, R122): not past it toward zero, not
short of it away from zero, and otherwise to the nearest, ties to even. `low` says that m stands at the foot of
its binade, so that the place below it is half as far. -/
def Nearest (mode : Nat) (neg low : Bool) (a b m : Nat) : Prop :=
  if mode = 2 ∨ (mode = 3 ∧ neg = false) ∨ (mode = 4 ∧ neg = true) then m * b ≤ a ∧ a < (m + 1) * b
  else if mode = 3 ∨ mode = 4 then a ≤ m * b ∧ if low then 2 * m * b < 2 * a + b else m * b < a + b
  else 2 * a ≤ (2 * m + 1) * b ∧ (if low then 4 * m * b ≤ 4 * a + b else 2 * m * b ≤ 2 * a + b) ∧
    (2 * a = (2 * m + 1) * b ∨ (low = false ∧ 2 * m * b = 2 * a + b) → m % 2 = 0)

/-- p/q · 2^e, rounded in a mode with unbounded exponent range, exceeds the largest finite value of a format
(R124, R146). -/
def Exceeds (f : Fmt) (mode : Nat) (neg : Bool) (p q : Nat) (e : Int) : Prop :=
  let most := if f.top = 1 then 2 ^ (f.mb + 1) - 2 else 2 ^ (f.mb + 1) - 1
  let x := fracOf p q (e - ((if f.top = 0 then 2 ^ f.eb - 2 else 2 ^ f.eb - 1 : Nat) - f.bias - f.mb : Int))
  if mode = 2 ∨ (mode = 3 ∧ neg = false) ∨ (mode = 4 ∧ neg = true) then (most + 1) * x.2 ≤ x.1
  else if mode = 3 ∨ mode = 4 then most * x.2 < x.1
  else if most % 2 = 0 then (2 * most + 1) * x.2 < 2 * x.1 else (2 * most + 1) * x.2 ≤ 2 * x.1

/-- p/q · 2^e, rounded in a mode with unbounded exponent range, lies below the smallest normal value of a format
(R124). -/
def Tiny (f : Fmt) (mode : Nat) (neg : Bool) (p q : Nat) (e : Int) : Prop :=
  let x := fracOf p q (e - (1 - f.bias - f.mb - 2 : Int))
  if mode = 2 ∨ (mode = 3 ∧ neg = false) ∨ (mode = 4 ∧ neg = true) then x.1 < 2 ^ (f.mb + 2) * x.2
  else if mode = 3 ∨ mode = 4 then x.1 ≤ (2 ^ (f.mb + 2) - 2) * x.2
  else x.1 < (2 ^ (f.mb + 2) - 1) * x.2

/-- The bits and flags are those of p/q · 2^e > 0 under a sign, rounded once to a format that holds the rounded
value (R118, R122, R124). -/
def Rounded (f : Fmt) (mode : Nat) (neg : Bool) (p q : Nat) (e : Int) (bits flags : Nat) : Prop :=
  ∃ m k, fdec f bits = .fin neg m k ∧ bits < 2 ^ f.bits ∧
    let x := fracOf p q (e - k)
    Nearest mode neg (decide (m = 2 ^ f.mb ∧ (1 - f.bias - f.mb : Int) < k)) x.1 x.2 m ∧
    (x.1 = m * x.2 → flags = 0) ∧
    (x.1 ≠ m * x.2 → (Tiny f mode neg p q e → flags = 24) ∧ (¬Tiny f mode neg p q e → flags = 16))

/-- The magnitude √(a/b), in units of the last place, is rounded to m in a mode, as `Nearest` says of a/b; a root
of a format's value lies halfway between no two values of it. -/
def NearestRoot (mode : Nat) (low : Bool) (a b m : Nat) : Prop :=
  if mode = 2 ∨ mode = 3 then m ^ 2 * b ≤ a ∧ a < (m + 1) ^ 2 * b
  else if mode = 4 then a ≤ m ^ 2 * b ∧ if low then (2 * m - 1) ^ 2 * b < 4 * a else (m - 1) ^ 2 * b < a
  else 4 * a < (2 * m + 1) ^ 2 * b ∧
    if low then (4 * m - 1) ^ 2 * b < 16 * a else (2 * m - 1) ^ 2 * b < 4 * a

/-- The bits and flags are those of √(m · 2^e) for a positive value of a format, rounded once to the format (R122,
R124, R134). -/
def RootRounded (f : Fmt) (mode m : Nat) (e : Int) (bits flags : Nat) : Prop :=
  ∃ n k, fdec f bits = .fin false n k ∧ bits < 2 ^ f.bits ∧
    let x := fracOf m 1 (e - 2 * k)
    NearestRoot mode (decide (n = 2 ^ f.mb)) x.1 x.2 n ∧ flags = if x.1 = n ^ 2 * x.2 then 0 else 16

/-- Every row. -/
def rowOf (i : Instr) : Option Row :=
  arithRow i <|> bitRow i <|> moveRow i <|> predRow i <|> exchangeRow i <|> floatRow i <|> convRow i

/-- An instruction on window registers that hold known values puts its row's results in flight, and
changes nothing else: the frame is that of `Issued`. -/
def Computes (i : Instr) (r : Row) : Prop :=
  ∀ (s : State) (c : Crew) (act : Mask), Issues i s c act →
    (∀ d, r.dst = some d → d.toNat < 28) → (∀ a ∈ r.srcs, a.toNat < 28) →
    Known c act (r.srcs.map (·.toNat)) →
    Does i s c act (r.srcs.map (·.toNat)) s c (fun _ => nextWord s)
      (r.outs (fun l a => regW c l a.toNat) s c act)

/-- The crew after results that complete at once (R71). -/
def atOnce (s : State) (c : Crew) (act : Mask) (tgt : Nat → PTgt) : Crew :=
  (lanesOf act).foldl (fun c l => completeW c l (tgt l) s.nextSeq) c

/-- The crew after a register of the active lanes is written at once. -/
def regAtOnce (s : State) (c : Crew) (act : Mask) (d : Code) (v : Nat → Word) : Crew :=
  atOnce s c act fun l => toReg c d.toNat l (v l)

/-- The crew after a predicate of the active lanes is written at once; a write of p7 is discarded. -/
def predAtOnce (s : State) (c : Crew) (act : Mask) (p : PCode) (v : Nat → Bool) : Crew :=
  if p = 7 then c else atOnce s c act fun l => .pred p.toNat (v l)

/-- Sources are window registers that hold known values. -/
def Plain (c : Crew) (act : Mask) (srcs : List Code) : Prop :=
  (∀ a ∈ srcs, a.toNat < 28) ∧ Known c act (srcs.map (·.toNat))

/-- The target of a branch whose offset field is `off`: PC + 4 × off (R104). -/
def branchTo {n : Nat} (s : State) (c : Crew) (off : BitVec n) : Word := s.iss.pc + 4 * simm c off

/-- Entry `e` of lane `l` is a fresh register of a window that slides up by one frame in the active lanes. -/
def freshAt (c : Crew) (act : Mask) (l e : Nat) : Bool :=
  inMask act l && decide ((thOf c l).frame + 28 ≤ e ∧ e < (thOf c l).frame + 44)

/-- A state of the crew in which window registers have slid up by one frame in the active lanes: fresh
registers are 0 and w27 holds the link, and earlier writes of them that are still in flight are discarded
(R57, R71). -/
structure SlidUp (c c1 : Crew) (act : Mask) (link : Word) (seq : Nat) : Prop where
  crew : c1 = { c with th := c1.th, rt := c1.rt, pend := c1.pend, ops := c1.ops }
  pend : c1.pend = c.pend.filter fun p => !(decide (p.seq < seq) && (match p.tgt with
    | .reg e _ => freshAt c act p.lane e
    | _ => false))
  ops : c1.ops = c.ops.map fun o => { o with
    dsts := if o.seq < seq then o.dsts.filter fun d => !freshAt c act d.1 d.2.2 else o.dsts }
  lanes : ∀ l, thOf c1 l = { thOf c l with
    frame := if inMask act l then (thOf c l).frame + 16 else (thOf c l).frame, rf := (thOf c1 l).rf }
  other : if c.priv then c1.th = c.th else c1.rt = c.rt
  entries : ∀ l e, mgetD (thOf c1 l).rf e (.known 0) =
    if inMask act l = true ∧ e = (thOf c l).frame + 43 then .known link
    else if inMask act l = true ∧ (thOf c l).frame + 28 ≤ e ∧ e < (thOf c l).frame + 43 then .known 0
    else mgetD (thOf c l).rf e (.known 0)

/-- A state of the crew in which window registers have slid down by one frame in the active lanes, with
every stack entry as it was (R57). -/
structure SlidDown (c c1 : Crew) (act : Mask) : Prop where
  crew : c1 = { c with th := c1.th, rt := c1.rt }
  lanes : ∀ l, thOf c1 l = { thOf c l with
    frame := if inMask act l then (thOf c l).frame - 16 else (thOf c l).frame, rf := (thOf c1 l).rf }
  other : if c.priv then c1.th = c.th else c1.rt = c.rt
  entries : ∀ l e, mgetD (thOf c1 l).rf e (.known 0) = mgetD (thOf c l).rf e (.known 0)

/-- The trap of an instruction that has had no effect (R336). -/
def trapOf (s : State) (act : Mask) (cls : Nat) (addr : Word) (lanes : Mask) : TrapInfo :=
  { cls := cls, pc := s.iss.start, addr := addr, clanes := 0, flanes := lanes, sec := 63
    resume := s.iss.start, cmd := 0, sym := none, bytes := 0, active := act, rule := 0, next := nextWord s }

/-- An instruction takes a trap and has no other effect. -/
def TrapsAt (i : Instr) (s : State) (c : Crew) (act : Mask) (cls : Nat) (addr : Word) (lanes : Mask) : Prop :=
  exec i s = .next (takeTrap (startOf s c) s.iss.crew (trapOf s act cls addr lanes))

/-! ## Long-latency operations (R72) -/

/-- The operation that an instruction issues. -/
def opFor (s : State) (c : Crew) (act : Mask) (kind : OpKind) (la : Option Nat) (accs : List Acc)
    (dsts : List (Nat × Nat × Nat)) : Op :=
  { id := s.nextId, seq := s.nextSeq, kind := kind, pc := s.iss.pc, start := s.iss.start
    next := nextWord s, active := act, priv := c.priv, la := la, flag := c.hint.track, ord := false
    sem := c.hint.sem, scope := c.hint.scope 5, accs := accs, reqs := [], pages := [], dsts := dsts, res := [], args := []
    fin := 0, bad := 0, cls := 0, addr := 0, done := false, after := false }

/-- A state with an operation in flight: its TRACK flag has counted it (R79). -/
def withOp (s : State) (key : Nat) (o : Op) : State :=
  { modCrew s key (fun c => { c with
      ops := c.ops ++ [o]
      flags := match o.flag with
        | none => c.flags
        | some f => mput c.flags f (mgetD c.flags f 0 + 1) }) with nextId := s.nextId + 1 }

/-- The instruction is an FWAIT without TRACK, whose group waits for the replies (R312). -/
def awaited (i : Instr) (c : Crew) : Bool :=
  (match i with
    | .fwait .. => true
    | _ => false) && c.hint.track.isNone

/-- The crew of an instruction as it issues: the group of an FWAIT waits. -/
def atIssue (i : Instr) (s : State) (c c1 : Crew) : Crew :=
  if awaited i c then modThs c1 (lanesOf (groupOf s c)) fun _ t => { t with park := .reply s.nextId } else c1

/-- The group of an FWAIT whose replies are all there goes on, and stands at its meeting address (R37, R312). -/
def answeredAtOnce (i : Instr) (s : State) (c : Crew) (t : State) : State :=
  if awaited i c then modCrew t s.iss.crew fun c1 =>
    if c1.ops.any fun o => decide (o.id = s.nextId) && !o.done then c1
    else settleMeet (freeReply s.nextId c1)
  else t

/-- Crew `c` issues `i`, which puts the operation `o` in flight; its accesses are then translated. -/
def Launches (i : Instr) (s : State) (c : Crew) (act : Mask) (srcs : List Nat) (s1 : State) (c1 : Crew)
    (o : Op) : Prop :=
  ∃ t c', Issued srcs s1 t (atIssue i s c c1) c' (groupOf s c) act (fun _ => nextWord s) [] ∧
    exec i s = .next (answeredAtOnce i s c (resumeOp (withOp t s.iss.crew o) s.iss.crew o))

/-- The lookahead of formats L and A: LA = 15 is detached (R72, R73). -/
def lookahead (la : Look) : Option Nat := if la = 15 then none else some la.toNat

/-- The other long-latency instructions: LA = 0, or detached after a TRACK hint (R72). -/
def trackedLook (c : Crew) : Option Nat := if c.hint.track.isSome then none else some 0

/-- The address of a memory operand: wA + the XIMM offset (R172). -/
def memAddr (c : Crew) (l : Nat) (a : Code) : Word :=
  regW c l a.toNat + (match c.hint.ximm with
    | none => 0
    | some p => p.signExtend 64)

/-- The accesses of the active lanes. -/
def laneAccs (act : Mask) (va : Nat → Word) (n : Nat) (op : Nat → AccOp) : List Acc :=
  (lanesOf act).map fun l => { lane := l, va := va l, n := n, op := op l }

/-- The stack entries that a register of the active lanes names, for part `k` of a result. -/
def entriesOf (c : Crew) (act : Mask) (d : Nat) (k : Nat) : List (Nat × Nat × Nat) :=
  (lanesOf act).map fun l => (l, k, (thOf c l).frame + d)

/-- An operation of the memory, flint and cord families: sources and the operation issued. -/
structure OpRow where
  srcs : List Code
  op : State → Crew → Mask → Op

/-- Bytes of a load or a store: 16 for .Q (R173, R174). -/
def memBytes (size : BitVec 2) (q : BitVec 1) : Nat := if size = 3 ∧ q = 1 then 16 else 2 ^ size.toNat

/-- The little-endian bytes of a register (R5). -/
def wordBytes (n : Nat) (v : Word) : List Byte := (List.range n).map fun i => v.extractLsb' (8 * i) 8

/-- An atomic with its operand, its replacement (ACAS), its width, how its result is extended and its scope (R179,
R185, R189). -/
def atomicRow (code : Nat) (d a : Code) (la : Look) (w64 sx : Bool) (ord : BitVec 1)
    (scope : BitVec 2) : Option OpRow :=
  let cas := code = 0x6D
  some { srcs := if cas then [d, d + 1, a] else [d, a]
         op := fun s c act =>
           { opFor s c act (.atom sx w64) (lookahead la)
               (laneAccs act (fun l => memAddr c l a) (if w64 then 8 else 4) fun l =>
                 .atom code w64 (regW c l d.toNat) (if cas then regW c l (d.toNat + 1) else 0))
               (entriesOf c act d.toNat 0) with
             ord := decide (ord = 1)
             scope := c.hint.scope (match scope with
               | 0 => 4
               | 1 => 5
               | 2 => 6
               | _ => 3) } }

/-- Loads, stores, presence queries, atomics and flint requests (R173 to R180, R309 to R313); a load with
SYM = 1 is apart. -/
def opRow : Instr → Option OpRow
  | .ld _ d a la size sx sym =>
    if sym = 1 then none
    else some { srcs := [a]
                op := fun s c act =>
                  opFor s c act (.ld (decide (sx = 1)) (memBytes size sx)) (lookahead la)
                    (laneAccs act (fun l => memAddr c l a) (memBytes size sx) fun _ => .read)
                    (entriesOf c act d.toNat 0 ++
                      if memBytes size sx = 16 then entriesOf c act (d.toNat + 1) 1 else []) }
  | .st _ d a la size q =>
    some { srcs := if memBytes size q = 16 then [d, d + 1, a] else [d, a]
           op := fun s c act =>
             opFor s c act .st (lookahead la)
               (laneAccs act (fun l => memAddr c l a) (memBytes size q) fun l => .write
                 (if memBytes size q = 16 then
                   wordBytes 8 (regW c l d.toNat) ++ wordBytes 8 (regW c l (d.toNat + 1))
                 else wordBytes (memBytes size q) (regW c l d.toNat))) [] }
  | .pres _ d a la =>
    some { srcs := [a]
           op := fun s c act => opFor s c act .pres (lookahead la)
             (laneAccs act (fun l => memAddr c l a) 1 fun _ => .pres) (entriesOf c act d.toNat 0) }
  | .aadd _ d a la w ord scope => atomicRow 0x64 d a la (decide (w = 1)) true ord scope
  | .aand _ d a la w ord scope => atomicRow 0x65 d a la (decide (w = 1)) true ord scope
  | .aor _ d a la w ord scope => atomicRow 0x66 d a la (decide (w = 1)) true ord scope
  | .axor _ d a la w ord scope => atomicRow 0x67 d a la (decide (w = 1)) true ord scope
  | .amin _ d a la w ord scope => atomicRow 0x68 d a la (decide (w = 1)) true ord scope
  | .amax _ d a la w ord scope => atomicRow 0x69 d a la (decide (w = 1)) true ord scope
  | .aminn _ d a la w ord scope => atomicRow 0x6A d a la (decide (w = 1)) false ord scope
  | .amaxn _ d a la w ord scope => atomicRow 0x6B d a la (decide (w = 1)) false ord scope
  | .axch _ d a la w ord scope => atomicRow 0x6C d a la (decide (w = 1)) true ord scope
  | .acas _ d a la w ord scope => atomicRow 0x6D d a la (decide (w = 1)) true ord scope
  | .afadd _ d a la ord scope => atomicRow 0x6E d a la false false ord scope
  | .afmin _ d a la ord scope => atomicRow 0x6F d a la false false ord scope
  | .afmax _ d a la ord scope => atomicRow 0x70 d a la false false ord scope
  | .fprop _ d a => flintRow .flint [d, d + 1, a] d a true fun c l =>
      .fprop (regW c l d.toNat) ((regW c l (d.toNat + 1)).setWidth 16)
  | .fread _ d a => flintRow .flint [d + 1, a] d a true fun c l =>
      .fread ((regW c l (d.toNat + 1)).setWidth 16)
  | .fwait _ d a => flintRow .flint [d + 1, a] d a true fun c l =>
      .fwait ((regW c l (d.toNat + 1)).setWidth 16)
  | .frcy _ d a => flintRow .frcy [d, a] d a false fun c l => .frcy ((regW c l d.toNat).setWidth 16)
  | _ => none
where
  /-- A flint request at the cell that wA names. -/
  flintRow (kind : OpKind) (srcs : List Code) (d a : Code) (pair : Bool) (req : Crew → Nat → AccOp) :
      Option OpRow :=
    some { srcs := srcs
           op := fun s c act => opFor s c act kind (trackedLook c)
             (laneAccs act (fun l => regW c l a.toNat) 16 (req c))
             (entriesOf c act d.toNat 0 ++ if pair then entriesOf c act (d.toNat + 1) 1 else []) }

/-! ## Words that do not run (R62, R72, R79, R80, R83) -/

/-- The instruction is one of the instruction set that reads its hints and has lanes: neither an event, nor
a hint word, nor a word that is no instruction. -/
def isOrdinary : Instr → Bool
  | .ximm _ | .track _ | .wait _ | .mod .. | .ill | .unassignedOpcode _ | .reservedHintOpcode _ => false
  | i => (encode i).isSome

/-- A trap that the word at hand raises for the whole issuing group (R84). -/
def wordTrap (s : State) (c : Crew) (cls : Nat) (addr : Word) : TrapInfo :=
  { cls := cls, pc := s.iss.start, addr := addr, clanes := 0, flanes := groupOf s c, sec := 63
    resume := s.iss.start, cmd := 0, sym := none, bytes := 0, active := groupOf s c, rule := 0
    next := nextWord s }

/-- The crew at hand as a state holds it once its due results are in place. -/
def settled (s : State) (c : Crew) : State := putCrew s s.iss.crew c

/-- An operation of the crew that a control transfer waits for (R72): neither detached or tracked, nor
complete, nor an FWAIT, whose group waits by itself (R312). -/
def waitedFor (c : Crew) (o : Op) : Bool :=
  o.la.isSome && !o.done && decide (o.priv = c.priv) &&
    !(decide (o.pages = []) && o.reqs.any fun r => match r.op with
      | .fwait _ => true
      | _ => false)

/-- Instructions that only a resident routine may execute (R337). -/
def isPrivileged : Instr → Bool
  | .csrw .. | .eret _ | .tlbiVa .. | .tlbiJob _ | .tlbiAll _ | .ctxs .. | .ctxl .. | .cflushAll _
  | .symset .. => true
  | .csrr _ _ n => decide (n ≠ 0x011 ∧ n ≠ 0x012)
  | _ => false

/-- Opcodes that resident routines carry (R67). -/
def carried (op : BitVec 8) : Bool :=
  decide (1 ≤ op.toNat ∧ op.toNat ≤ 0x1F ∨ 0x38 ≤ op.toNat ∧ op.toNat ≤ 0x54)

/-! ## Translation and requests -/

/-- `t` is `s` after translations: TLB entries have been filled, tokens spent and the access and dirty bits of table
entries set, which are bits 1 and 0 of a byte (R155, R156, R360). -/
def Translated (s t : State) : Prop :=
  t = { s with mem := t.mem, tlb := t.tlb, free := t.free, tokens := t.tokens } ∧
  ∀ a, cellGet t.mem a &&& 0xFC = cellGet s.mem a &&& 0xFC

/-- Addresses translate one after another for one kind of access, to the bytes of a list, each at a target of one
of the types given. -/
def Translates (w : Who) (k : AccKind) (types : List Nat) : List Word → State → List Nat → State → Prop
  | [], s, ps, t => ps = [] ∧ t = s
  | va :: vas, s, ps, t => ∃ s1 phys ty rest, xlat s w k va = (s1, .ok phys ty) ∧ ty ∈ types ∧ ps = phys :: rest ∧
      Translates w k types vas s1 rest t

/-- A leaf of the job's tables, walked from some stack, maps the byte (R152, R153). -/
def Mapped (s : State) (w : Who) (x : Nat) : Prop :=
  ∃ n va e place b ty, n < 4 ∧ va < 2 ^ 57 ∧ walk s w.job n va = .leaf e place b ∧
    targetOf s { w with core := 64 * n } e b va = .ok x ty

/-- The byte at offset `a` of the target that the entry `e` names for an access of `w` is `phys`, within the
range of the entry's type (R153, R154, R160, R164, R353). -/
def LeafTarget (s : State) (w : Who) (e : Word) (a phys : Nat) : Prop :=
  let node := (e.extractLsb' 48 12).toNat
  let unit (uid : Nat) (u : UnitSt) : Prop := mget s.units uid = some u ∧ a < u.shareSize ∧ phys = shareOf uid + a
  let mate (i uid : Nat) (u : UnitSt) : Prop :=
    ∃ v l, mget s.units w.uid = some v ∧ mget s.launches v.lid = some l ∧ i < l.unitsPer ∧
      mget l.units (v.cluster * l.unitsPer + i) = some uid ∧ mget s.units uid = some u ∧
      u.ended = false ∧ u.isOver = false
  match e.toNat / 2 ^ 60 with
  | 1 => node = 0 ∧ a < 2 ^ 36 ∧ phys = dramBase (stackOf w.core) + a
  | 2 | 9 | 10 => node < 4 ∧ a < 2 ^ 36 ∧ phys = dramBase node + a
  | 3 => node = 0 ∧ a < 2 ^ 43 ∧ phys = cxlBase + a ∧ 16 ≤ s.part.ports.toNat
  | 4 => a % 2 ^ 46 < 2 ^ 36 ∧ phys = peerBase node + a
  | 5 => node = 0 ∧ a < 2 ^ 38 ∧ phys = a
  | 6 => node < 4 ∧ a < 2 ^ 31 ∧ phys = wsBase node + a
  | 7 => (node / 1024 = 0 ∧ ∃ u, unit w.uid u) ∨
      (node / 1024 = 1 ∧ ∃ uid u, mate (node % 8) uid u ∧ unit uid u) ∨
      (node / 1024 = 2 ∧ e.getLsbD 3 = true ∧ a < 2 ^ 18 ∧ coreLive s (node % 256) = true ∧
        phys = wholeScratch s (node % 256) a)
  | 8 => a < 2 ^ 18 ∧ ∃ core, ((node / 1024 = 0 ∧ core = w.core) ∨
        (node / 1024 = 1 ∧ ∃ uid u, mate (node / 8 % 8) uid u ∧ core = u.core)) ∧
      ((∃ p ∈ s.units, p.2.core = core ∧ node % 8 ∈ p.2.cols ∧ phys = columnOf p.1 (node % 8) + a) ∨
        (node % 8 ∈ liveCols s core ∧ phys = rawColumn core (node % 8) + a))
  | 11 => node = 0 ∧ phys = a ∧ (ctlBase ≤ a → a < ctlBase + 64 * 2 ^ 18 → e.getLsbD 3 = true)
  | _ => False

/-- Parts of accesses translate one after another, each to a request at the place found (R157, R167). -/
def Reaches (w : Who) (k : OpKind) : List (Acc × Word × Nat × AccOp) → State → List Req → State → Prop
  | [], s, rs, t => rs = [] ∧ t = s
  | (a, va, n, op) :: ps, s, rs, t => ∃ s1 phys ty rest,
      xlat s { w with lanes := oneLane a.lane } (accKind op) va = (s1, .ok phys ty) ∧
      accBad a ty = false ∧ kindBars k ty = false ∧
      rs = { id := s1.nextId, lane := a.lane, va := va, phys := phys, ty := ty, n := n, op := op, st := .waiting
             val := [], snap := false, defer := false } :: rest ∧
      Reaches w k ps { s1 with nextId := s1.nextId + 1 } rest t

/-- A request of an operation of a crew, replaced. -/
def putReq (s : State) (key op : Nat) (r : Req) : State :=
  modCrew s key fun c => { c with ops := c.ops.map fun o =>
    if o.id = op then { o with reqs := o.reqs.map fun q => if q.id = r.id then r else q } else o }

/-- The launch of a crew is not ordered. -/
def Unordered (s : State) (c : Crew) : Prop :=
  ∀ l, mget s.launches (whoLane s c 0 c.priv).lid = some l → l.ordered = false

/-- The new value of an atomic of `n` bits (R179). -/
def atomicWord {n : Nat} (code : Nat) (old v x : BitVec n) : BitVec n :=
  match code with
  | 0x64 => old + v
  | 0x65 => old &&& v
  | 0x66 => old ||| v
  | 0x67 => old ^^^ v
  | 0x68 => if v.toInt < old.toInt then v else old
  | 0x69 => if old.toInt < v.toInt then v else old
  | 0x6A => if v.toNat < old.toNat then v else old
  | 0x6B => if old.toNat < v.toNat then v else old
  | 0x6C => v
  | 0x6D => if old = v then x else old
  | 0x6E =>
    let r := (fAdd f32 1 (fdec f32 old.toNat) (fdec f32 v.toNat)).bits
    BitVec.ofNat n (if r % 2 ^ 31 = 0 then 0 else r)
  | 0x6F => BitVec.ofNat n (fMinMax f32 false true old.toNat v.toNat).bits
  | _ => BitVec.ofNat n (fMinMax f32 true true old.toNat v.toNat).bits

/-- The bytes that an atomic finds and leaves at its place: `m` reads a byte of memory (R179). -/
def atomicBytes (m : Nat → Byte) (p code : Nat) (w64 : Bool) (v x : Word) : Nat → Byte :=
  let old (n : Nat) : Word := wordOf ((List.range n).map fun i => m (p + i))
  let new : List Byte := if w64 then wordBytes 8 (atomicWord code (old 8) v x)
    else wordBytes 4 ((atomicWord code ((old 4).setWidth 32) (v.setWidth 32) (x.setWidth 32)).setWidth 64)
  fun a => if p ≤ a ∧ a < p + new.length then new.getD (a - p) 0 else m a

/-- Memory as a unit's buffered atomics leave it, one after another (R332). -/
def afterAtomics (m : Nat → Byte) : List SerEntry → Nat → Byte
  | [] => m
  | .atom p _ code w64 v x _ _ :: t => afterAtomics (atomicBytes m p code w64 v x) t
  | _ :: t => afterAtomics m t

/-- The value of a form when its symbol arrives with `u` (R293, R294, R296). -/
def formValue (v : RegVal) (u : Word) : Word :=
  match v with
  | .known w => w
  | .iform _ a b => a * u + b
  | .fform _ steps => BitVec.ofNat 64 (steps.foldl (fun r st => (st.eval r).bits) u.toNat)

/-- The request stands at the head of what it waits for: the operation and the request are the crew's, and
the orders of R167 to R170 and R186 to R191 let it be performed. -/
structure Arrives (s : State) (crew op req : Nat) (c : Crew) (o : Op) (r : Req) : Prop where
  crew : mget s.crews crew = some c
  op : c.ops.find? (fun p => decide (p.id = op)) = some o
  req : o.reqs.find? (fun q => decide (q.id = req)) = some r
  may : canPerform s c o r = true

/-- The issuing group waits and will run the instruction again, with its hints (R75, R103). -/
def Parks (i : Instr) (s : State) (c : Crew) (p : Park) : Prop :=
  exec i s = .next (putCrew (startOf s c) s.iss.crew
    { modThs c (lanesOf (groupOf s c)) (fun _ t => { t with park := p }) with hint := Hints.none })

/-- The same, until the symbols that `set` gives each active lane have arrived in it (R295, R301). -/
def ParksOnSymbols (i : Instr) (s : State) (c : Crew) (act : Mask) (set : Nat → Nat) : Prop :=
  exec i s = .next (putCrew (startOf s c) s.iss.crew
    { modThs c (lanesOf (groupOf s c)) (fun l t => { t with park := .syms (if inMask act l then set l else 0) }) with
      hint := Hints.none })

/-- An instruction whose sources hold forms that it does not carry blocks on their symbols, or raises SYMBOL-FAULT for
the lowest one that is FAULTED in a lane (R295, R298). -/
def BlocksOn (i : Instr) (s : State) (c : Crew) (act : Mask) (srcs : List Nat) : Prop :=
  (faultedSym c act (laneSyms c srcs) = none → ParksOnSymbols i s c act (laneSyms c srcs)) ∧
  ∀ y, faultedSym c act (laneSyms c srcs) = some y →
    exec i s = .next (takeSymTrap (startOf s c) s.iss.crew y s.iss.start)

/-- The package counter that a counter id names, inside the job's window (R285). -/
def counterOf (s : State) (c : Crew) (v : Word) : Option Nat :=
  let w6 := ctxW s (whoLane s c 0 c.priv).job 6
  let k := v.toNat % 2 ^ 16
  if k < (w6.extractLsb' 16 17).toNat then some (((w6.extractLsb' 0 16).toNat + k) % 65536) else none

/-- An instruction takes its trap after itself: the state `s1` and the crew `c1` hold its work, and the crew
resumes at the next word (R336). -/
def TrapsAfter (i : Instr) (s : State) (c : Crew) (act : Mask) (srcs : List Nat) (s1 : State) (c1 : Crew)
    (cls : Nat) (addr : Word) (lanes : Mask) : Prop :=
  ∃ t c', Issued srcs s1 t c1 c' (groupOf s c) act (fun _ => nextWord s) [] ∧
    exec i s = .next (takeTrap t s.iss.crew
      { trapOf s act cls addr lanes with resume := nextWord s, rule := 1 })

/-- An instruction issues an operation whose fault is recorded at once (R74). -/
def Fails (i : Instr) (s : State) (c : Crew) (act : Mask) (srcs : List Nat) (o : Op) (bad : Mask)
    (addr : Word) : Prop :=
  ∃ t c', Issued srcs s t c c' (groupOf s c) act (fun _ => nextWord s) [] ∧
    exec i s = .next { putCrew t s.iss.crew { c' with ops := c'.ops ++ [{ o with
      bad := bad, cls := clsProt, addr := addr, done := true, accs := [], reqs := [], dsts := [] }] } with
      nextId := s.nextId + 1 }

/-- Sticky flags that the active lanes raise at once (R124). -/
def flagsAtOnce (s : State) (c : Crew) (act : Mask) (f : Nat → Nat) : Crew :=
  (lanesOf act).foldl (fun c l =>
    if f l = 0 then c else completeW c l (.flags (BitVec.ofNat 64 (f l))) s.nextSeq) c

/-! ## The Granite bank (R205 to R230) -/

/-- Place `q` of a cord of places of `n` bits. -/
def placeOf (n : Nat) (k : BitVec 1024) (q : Nat) : Int := (k.extractLsb' (n * q) n).toInt

/-- A cord holds the places that `f` gives, and nothing above them. -/
structure Places (n : Nat) (k : BitVec 1024) (f : Nat → Int) : Prop where
  each : ∀ q, q < 1024 / n → placeOf n k q = f q
  rest : k.toNat < 2 ^ (n * (1024 / n))

/-- A cord with the bits above its places 0 (R205). -/
def trimmed (n : Nat) (k : BitVec 1024) : BitVec 1024 := k &&& (BitVec.allOnes 1024 >>> (1024 - n * (1024 / n)))

/-- A value lies in the place range. -/
def Fits (n : Nat) (v : Int) : Prop := -(2 ^ (n - 1)) ≤ v ∧ v < 2 ^ (n - 1)

/-- A cord of the crew, and a place of it or of the pair that it begins; 0 beyond. -/
def cordOfCrew (c : Crew) (k : Nat) : BitVec 1024 := mgetD c.cords k 0
/-- A place of a cord or of a pair. -/
def pairOf (c : Crew) (k : Nat) (pair : Bool) (q : Nat) : Int :=
  let n := 1024 / c.width
  if q < n then placeOf c.width (cordOfCrew c k) q
  else if pair && decide (q < 2 * n) then placeOf c.width (cordOfCrew c (k + 1)) (q - n)
  else 0

/-- The crew with a cord replaced: earlier operations in flight no longer write it (R71, R215). -/
def withCord (s : State) (c : Crew) (k : Nat) (v : BitVec 1024) : Crew :=
  { c with
    cords := mput c.cords k v
    ops := c.ops.map fun o =>
      if o.seq < s.nextSeq then { o with kdst := o.kdst.filter fun j => decide (j ≠ k) } else o }

/-- A slot's word (R126). -/
def slotBits (s : State) (c : Crew) (n : BitVec 3) : Word :=
  (launchOf s c).elim 0 fun l => l.words.getD (4 + n.toNat) 0

/-- EXPO of a slot. -/
def expoOf (s : State) (c : Crew) (n : BitVec 3) : Int := ((slotBits s c n).extractLsb' 22 8).toInt

/-- The cord of a plane, a row and a physical column of a unit. -/
def planeCordOf (u : UnitSt) (z row col : Nat) : BitVec 1024 := mgetD u.zs ((z * 32 + row) * 8 + col) 0

/-- Which operand of a Granite instruction is lane 0's own (R215), and what the unit must hold for it
(R216): a column, and a plane. -/
def graniteNeeds (s : State) (u : UnitSt) : Instr → Option (Bool × Bool)
  | .resv _ _ k _ | .resvW _ _ k _ =>
    let quota := (mget s.launches u.lid).elim 0 (·.qCol)
    some (false, decide (k.toNat ≤ (liveCols s u.core).length ∧ (quota = 0 ∨ k.toNat ≤ quota)))
  | .rls _ | .guard _ _ _ | .pack .. | .unpk .. | .kext .. | .kadd .. | .bptrRd .. => some (false, true)
  | .guardReg .. | .ksls .. | .kld .. | .kst .. | .bptr .. => some (true, true)
  | .kldB .. | .kstB .. => some (true, decide (u.cols ≠ []))
  | .mulkC .. => some (false, decide (u.cols ≠ []))
  | .mulkS _ z _ | .accrdOv _ _ z | .accz _ z | .acccv _ _ z _ _ =>
    some (false, decide (u.cols ≠ []) && u.planes.getLsbD z.toNat)
  | .accrd _ _ z _ => some (true, decide (u.cols ≠ []) && u.planes.getLsbD z.toNat)
  | _ => none

/-! ## Term instructions (R235 to R263) -/

/-- Lanes do their work to its end, one after another, each with its answer; each finds the steps of the
lanes before it and leaves its own. -/
def LanesDo (x : Ctx) (i : Instr) (args : Nat → Word × Word) (f : Nat → Option Word) :
    List Nat → Map TLog → State → Map TLog → State → Prop
  | [], m, s, m', t => m' = m ∧ t = s
  | l :: ls, m, s, m', t => ∃ u log,
    (termWork { x := x, l := l } i (args l).1 (args l).2).go (tdo { x := x, l := l } m) none s [] =
      (u, log, .ret (f l)) ∧
    LanesDo x i args f ls (mput m l log) u m' t

/-- The work of an instruction has left alone what its issue reads: the cycle, the issue at hand, the place in
program order, the crew's place and its region mask; the crew is now `c1`. -/
structure Aside (s : State) (c : Crew) (s1 : State) (c1 : Crew) : Prop where
  crew : mget s1.crews s.iss.crew = some c1
  cycle : s1.cycle = s.cycle
  iss : s1.iss = s.iss
  seq : s1.nextSeq = s.nextSeq + 1
  region : c1.region = c.region
  place : c1.core = c.core ∧ c1.slot = c.slot

/-- The state as `Does` takes it, before the place in program order moves on. -/
def unissued (s s1 : State) : State := { s1 with nextSeq := s.nextSeq }

/-- Where the answers of a term instruction's lanes go. -/
inductive TermTo where
  | nowhere
  /-- A register, before the next instruction. -/
  | word (d : Code)
  /-- A register, when the instruction completes. -/
  | later (d : Code)
  /-- FAILB: a predicate, and the lanes' next words. -/
  | back (p : PCode)

/-- A term instruction that accesses memory: where its answers go, its sources, and the operands of a lane's work. -/
structure TermForm where
  dst : TermTo
  srcs : List Code
  args : Crew → Nat → Word × Word

/-- A form whose operands are the registers that it names. -/
def formOfRegs (dst : TermTo) (srcs : List Code) : TermForm :=
  { dst := dst, srcs := srcs
    args := fun c l => match srcs with
      | a :: b :: _ => (regW c l a.toNat, regW c l b.toNat)
      | [a] => (regW c l a.toNat, 0)
      | [] => (0, 0) }

/-- The term instructions that access memory (R249, R252 to R263). -/
def termForm : Instr → Option TermForm
  | .deref _ d a => some (formOfRegs (.word d) [a])
  | .func _ d a => some (formOfRegs (.word d) [a])
  | .arg _ d a b _ => some (formOfRegs (.word d) [a, b])
  | .halloc _ d b _ _ => some { formOfRegs (.word d) [b] with args := fun c l => (0, regW c l b.toNat) }
  | .choice _ a => some (formOfRegs .nowhere [a])
  | .retry _ a => some (formOfRegs .nowhere [a])
  | .retryTrust _ => some (formOfRegs .nowhere [])
  | .unwind _ a => some { formOfRegs .nowhere [a, a + 1] with
      args := fun c l => (regW c l a.toNat, regW c l (a.toNat + 1)) }
  | .commit _ a => some (formOfRegs .nowhere [a])
  | .failb _ p => some (formOfRegs (.back p) [])
  | .unify _ d a b _ => some (formOfRegs (.later d) [a, b])
  | .unifyc _ d => some (formOfRegs (.later d) [])
  | .bind _ d a b => some (formOfRegs (.later d) [a, b])
  | _ => none

/-- A lane's special register is written at once. -/
def withSpec (t : TLane) (code : Nat) (v : Word) (s : State) : State :=
  modCrew s t.x.key fun c => completeW c t.l (.spec code v) t.x.seq

/-- A lane's special registers of the term instructions hold values. -/
def TRegs (t : TLane) (s : State) (th : Thread) : Prop :=
  ∃ c, mget s.crews t.x.key = some c ∧ progTh c t.l = th

/-- MKT's table (R251): the values that a tag takes, and the payload. -/
def mktTakes (tag : Nat) (v : Word) : Bool :=
  match tag with
  | 1 | 5 | 7 | 8 => decide (v.toNat < 2 ^ 57 ∧ v.toNat % 8 = 0)
  | 2 => decide (v.toNat < 2 ^ 52)
  | 3 => decide (-(2 ^ 59) ≤ v.toInt ∧ v.toInt < 2 ^ 59)
  | 6 => decide (v.toNat < 2 ^ 60)
  | _ => true

/-- A word of a tag and a payload of 60 bits (R235). -/
def tagged (tag : BitVec 4) (v : Word) : Word := tag ++ v.setWidth 60

end Sys2Proof.Machine
end

