-- ==== Sys2Proof/Certificates/Slice0/Obligations.lean ====
section
/-! DEFINITION. What is stated of the model. -/

open Sys2Proof Sys2Proof.Machine

/-! ## The machine as a whole -/

/-- After reset no unit exists, every counter is 0, the job contexts' rings are empty, SWAPTH holds 100,000 and
no byte of memory is listed (R50, R274, R285, R316, R341); the state has the form that every step keeps. That
words 5, 6 and 7 of a job context are 0 (log 10), that memory lists no byte (log 1) and that the launch queue is
empty (log 69) are the model's choices. -/
def Obligations.ResetState : Prop :=
  State.reset.cycle = 0 ∧ State.reset.swapth = 100000 ∧ State.reset.crews = [] ∧
  State.reset.units = [] ∧ State.reset.launches = [] ∧ State.reset.cmds = [] ∧ State.reset.faults = [] ∧
  State.reset.lctrs = [] ∧ State.reset.xctrs = [] ∧ State.reset.vlog = [] ∧ State.reset.mem = [] ∧
  State.reset.tlb = [] ∧ State.reset.lqueue = [] ∧
  (∀ job, job < 64 → ∀ i, i ∈ [2, 5, 6, 7] → ctxW State.reset job i = 0) ∧ Formed State.reset

/-- Every step keeps the form of a state: the memory's addresses strictly rise and no entry equals what an
unlisted address reads as, and each job context has its eight words. -/
def Obligations.StepKeepsForm : Prop := ∀ s t : State, Formed s → step s = .next t → Formed t

/-- Reading a word back: the decoder gives every well-formed instruction from its own word, with every operand
at every value that its encoding admits (R68, R69). -/
def Obligations.DecodeOfEncode : Prop :=
  ∀ i w, wellFormed i = true → encode i = some w → decode w = .ok i

/-- No word decodes to an instruction with another word, so no bit of a word is dropped (R68, R69). -/
def Obligations.EncodeOfDecode : Prop :=
  ∀ w i, decode w = .ok i → wellFormed i = true ∧ encode i = some w

/-- Words of the specification's examples decode to the instructions that they stand for. -/
def Obligations.SpecificationWords : Prop :=
  decode 0x02388405 = .ok (.neg ⟨0, 7, 0⟩ 4 4 1) ∧
  decode 0x01CA0530 = .ok (.add ⟨3, 1, 0⟩ 16 5 6 0) ∧
  decode 0x1938A5FF = .ok (.addi ⟨0, 7, 0⟩ 5 5 0xFF) ∧
  decode 0x223BFFFE = .ok (.bra ⟨0, 7, 0⟩ 0x3FFFE) ∧
  decode 0x2B387FFC = .ok (.loop ⟨0, 7, 0⟩ 3 0x1FFC) ∧
  decode 0x31392887 = .ok (.shflImm ⟨0, 7, 0⟩ 9 8 16 3) ∧
  decode 0x76FA9300 = .ok (.fwait ⟨3, 7, 0⟩ 20 19) ∧
  decode 0x95380B00 = .ok (.kld ⟨0, 7, 0⟩ 0 11) ∧
  decode 0x9C384008 = .ok (.mulkC ⟨0, 7, 0⟩ 2 0 1) ∧
  decode 0xE9000003 = .ok (.track 3) ∧ decode 0xEA000008 = .ok (.wait 8) ∧ decode 0 = .ok .ill

/-- A step at which the model's schedule issues crew `key` runs the word at the group's address. The group is
woken, the bytes there are fetched, the unit's wait clock returns to 0 (R51), the word is decoded, and exec
gives the rest: then the resident routine finishes a routed opcode (R67), and the graph walkers' work follows. A
word that the pool map does not let run, or that decodes to nothing, traps in the order of R83. -/
def Obligations.StepRunsDecodedWord : Prop :=
  ∀ (s : State) (key now : Nat) (c : Crew) (start pc : Word) (t2 : State) (w : IWord),
    s.agenda = [] → s.turn = false →
    let s0 := { s with turn := true }
    bestCrew s0 = some (key, now) → mget s.crews key = some c → nextOf s0 c = .word start pc →
    let t := passCycles s0 (now - s.cycle)
    let woken := wakeGroup t c start
    let c1 := if woken.hint.start = some start then woken else { woken with hint := Hints.none }
    let t1 := putCrew t key c1
    let grp := groupAt c1 start
    grp ≠ 0 → fetchAt t1 (whoLane t1 c1 grp c1.priv) pc = .word t2 w →
    let s1 := clearClock t2 c1
    let trap (cls : Nat) (addr : Word) : Prop := step s = .next (afterWalks (takeTrap s1 key
      { cls := cls, pc := start, addr := addr, clanes := 0, flanes := grp, sec := 63, resume := start
        cmd := 0, sym := none, bytes := 0, active := grp, rule := 0, next := pc + 4 }))
    (poolBad (launchOf s1 c1) pc w = true → trap clsPool 0) ∧
    (poolBad (launchOf s1 c1) pc w = false →
      (∀ i, decode w = .ok i →
        ∀ u, exec i { s1 with iss := { crew := key, pc := pc, start := start } } = .next u →
          (routed s1 c1 w = false → step s = .next (afterWalks u)) ∧
          (routed s1 c1 w = true →
            ∀ v, exec .compatRoute { u with subj := key } = .next v → step s = .next (afterWalks v))) ∧
      (∀ e, decode w = .error e →
        if badHintsOk w c1.hint then trap clsEncoding 0 else trap clsHint pc))

/-- An instruction with no active lane takes its issue slot and does nothing else (R62). Before its own traps an
instruction is held back by its WAIT, by a full TRACK flag and, as a control transfer, by operations in flight
(R72, R79, R80), after hints that it cannot take and fields that are illegal in their context have trapped, in
this order (R76, R83, R84). -/
def Obligations.BeforeIssue : Prop :=
  (∀ (i : Instr) (s : State) (c : Crew), isOrdinary i = true → issuing s = some c →
     hintsOk (usesOf i) c.hint = true → contextBad (launchOf s c) c.hint i = false →
     holdOf c (usesOf i) c.hint 0 = .go → activeOf i s c = 0 →
     Does i s c 0 (usesOf i).srcs s c (fun _ => nextWord s) []) ∧
  (∀ (i : Instr) (s : State) (c : Crew), isOrdinary i = true → issuing s = some c →
     (hintsOk (usesOf i) c.hint = false →
       exec i s = .next (takeTrap (settled s c) s.iss.crew (wordTrap s c clsHint s.iss.pc))) ∧
     (hintsOk (usesOf i) c.hint = true → contextBad (launchOf s c) c.hint i = true →
       exec i s = .next (takeTrap (settled s c) s.iss.crew (wordTrap s c clsEncoding 0))) ∧
     (hintsOk (usesOf i) c.hint = true → contextBad (launchOf s c) c.hint i = false →
       (∀ m : BitVec 12, c.hint.wait = some m →
         (∃ f, f < 12 ∧ m.getLsbD f = true ∧ mgetD c.flags f 0 ≠ 0) → exec i s = .next (settled s c)) ∧
       (c.hint.wait = none → ∀ f, c.hint.track = some f → 63 ≤ mgetD c.flags f 0 → activeOf i s c ≠ 0 →
         exec i s = .next (settled s c)) ∧
       (c.hint.wait = none → c.hint.track = none → (usesOf i).ctl = true →
         (∃ o ∈ c.ops, waitedFor c o = true) → (∀ o ∈ c.ops, o.done = true → o.bad = 0) →
         exec i s = .next (settled s c))))

/-- ILL and unassigned opcodes raise ILLEGAL-OPCODE; a reserved hint opcode raises ILLEGAL-HINT at that word;
BRK and TRAP raise their classes after the instruction, with their number as the address (R76, R83, R109, R336).
The hint words XIMM, TRACK, WAIT and MOD become pending with their payloads and take an issue slot; no PC moves.
A second hint of a kind raises ILLEGAL-HINT (R75 to R81). -/
def Obligations.TrapAndHintWords : Prop :=
  ((∀ (s : State) (c : Crew), mget s.crews s.iss.crew = some c →
     exec .ill s = .next (takeTrap s s.iss.crew (wordTrap s c clsOpcode 0)) ∧
     (∀ w, exec (.unassignedOpcode w) s = .next (takeTrap s s.iss.crew (wordTrap s c clsOpcode 0))) ∧
     ∀ w, exec (.reservedHintOpcode w) s = .next (takeTrap s s.iss.crew (wordTrap s c clsHint s.iss.pc))) ∧
   ∀ (h : Hdr) (n : BitVec 5) (s : State) (c : Crew) (act : Mask),
     let after (i : Instr) (cls : Nat) : Prop := Issues i s c act →
       ∃ t c', Issued [] s t c c' (groupOf s c) act (fun _ => nextWord s) [] ∧
         exec i s = .next (takeTrap t s.iss.crew
           { cls := cls, pc := s.iss.start, addr := n.setWidth 64, clanes := 0, flanes := act, sec := 63
             resume := nextWord s, cmd := 0, sym := none, bytes := 0, active := act, rule := 1
             next := nextWord s })
     after (.brk h n) clsBreak ∧ after (.trap h n) clsTrap) ∧
  (∀ (s : State) (c : Crew), issuing s = some c →
     let goes (i : Instr) (hn : Hints) : Prop := exec i s = .next { s with
       crews := mput s.crews s.iss.crew
         { c with
           hint := { hn with start := some s.iss.start, cursor := nextWord s }
           ready := s.cycle + 1, stamp := s.nextSeq }
       nextSeq := s.nextSeq + 1
       sched := mput s.sched (c.core * 4 + c.slot % 4) (s.cycle + 1) }
     let bad (i : Instr) : Prop :=
       exec i s = .next (takeTrap (settled s c) s.iss.crew (wordTrap s c clsHint s.iss.pc))
     (∀ n, if c.hint.ximm = none then goes (.ximm n) { c.hint with ximm := some n } else bad (.ximm n)) ∧
     (∀ f : BitVec 4, if c.hint.track = none then goes (.track f) { c.hint with track := some f.toNat }
       else bad (.track f)) ∧
     (∀ m, if c.hint.wait = none then goes (.wait m) { c.hint with wait := some m } else bad (.wait m)) ∧
     ∀ (r : BitVec 3) (o : BitVec 2) (sc ca : BitVec 3),
       if c.hint.mod = none then
         goes (.mod r o sc ca) { c.hint with mod := some (r.toNat, o.toNat, sc.toNat, ca.toNat) }
       else bad (.mod r o sc ca))

/-- A branch moves each active lane of its group to its own target and each inactive one to the next word; NOP
and YIELD go on to the next word, POOL over its words, and REGION sets the region mask (R61, R82, R103 to R106,
R110). LOOP counts its register down at once and branches while it is not 0. MEET and MEETR set the meeting
register and give its old value, at once; MEETR with a misaligned address raises PROTECTION and changes no lane,
and a stream port is no destination of either (R86, R107). What an issue leaves says which threads are then held
at their meeting address and which are released (R37 to R39). That the record of MEETR's PROTECTION holds wA of
the lowest faulting lane is the model's choice (log 72). -/
def Obligations.BranchesAndMeeting : Prop :=
  (∀ (h : Hdr) (s : State) (c : Crew) (act : Mask),
     (∀ off, Issues (.bra h off) s c act → Does (.bra h off) s c act [] s c (fun _ => branchTo s c off) []) ∧
     (∀ a : Code, Issues (.brx h a) s c act → Plain c act [a] →
       Does (.brx h a) s c act [a.toNat] s c (fun l => regW c l a.toNat) []) ∧
     (∀ (d : Code) off, Issues (.loop h d off) s c act → Plain c act [d] →
       Does (.loop h d off) s c act [d.toNat] s (regAtOnce s c act d fun l => regW c l d.toNat - 1)
         (fun l => if regW c l d.toNat - 1 = 0 then nextWord s else branchTo s c off) []) ∧
     (Issues (.nop h) s c act → Does (.nop h) s c act [] s c (fun _ => nextWord s) []) ∧
     (Issues (.yield h) s c act → Does (.yield h) s c act [] s c (fun _ => nextWord s) []) ∧
     (∀ n, Issues (.pool n) s c act →
       Does (.pool n) s c act [] s c (fun _ => nextWord s + 4 * n.setWidth 64) []) ∧
     (∀ m, Issues (.region m) s c act →
       Does (.region m) s c act [] s { c with region := m } (fun _ => nextWord s) [])) ∧
  (∀ (h : Hdr) (d : Code) (s : State) (c : Crew) (act : Mask),
     (28 ≤ d.toNat → (∀ off, wellFormed (.meet h d off) = false) ∧ ∀ a, wellFormed (.meetr h d a) = false) ∧
     (d.toNat < 28 →
     let set (m : Nat → Word) : Crew :=
       modThs (regAtOnce s c act d fun l => (thOf c l).mr) (lanesOf act) fun l t => { t with mr := m l }
     (∀ off, Issues (.meet h d off) s c act →
       Does (.meet h d off) s c act [] s (set fun _ => branchTo s c off) (fun _ => nextWord s) []) ∧
     (∀ a : Code, Issues (.meetr h d a) s c act → Plain c act [a] →
       let bad := maskOf fun l => inMask act l && decide ((regW c l a.toNat).toNat % 4 ≠ 0)
       if bad = 0 then
         Does (.meetr h d a) s c act [a.toNat] s (set fun l => regW c l a.toNat) (fun _ => nextWord s) []
       else TrapsAt (.meetr h d a) s c act clsProt (regW c (lowLane bad) a.toNat) bad))) ∧
  decode 0x2B387FFC = .ok (.loop ⟨0, 7, 0⟩ 3 0x1FFC)

/-! ## Results of fixed latency -/

/-- Sums, products, quotients, remainders, minima, maxima and logic put the results of R92 and R93 in flight for
the latency of their class, and change nothing else. Shifts, bit counts, bit fields and LEA give the results of
R94 to R97. -/
def Obligations.IntegerResults : Prop :=
  (∀ i r, arithRow i = some r → Computes i r) ∧
  (∀ i r, bitRow i = some r → Computes i r) ∧
  decode 0x06386115 = .ok (.div ⟨0, 7, 0⟩ 3 1 2 1 1)

/-- SEL, MOV, MOVI, the immediates, SHI and PMOV give the results of R92, R97 to R99 and R102. CMP, CMPI, PSET
and PMOV P write the predicates of R100 to R102, and p7 never. -/
def Obligations.MoveAndPredicateResults : Prop :=
  (∀ i r, moveRow i = some r → Computes i r) ∧
  (∀ i r, predRow i = some r → Computes i r) ∧
  decode 0x20382238 = .ok (.pset ⟨0, 7, 0⟩ 1 2 7 0)

/-- VOTE, SHFL, CRED, CSCAN and MATCH give the results of R112 to R115 and the validity predicate. ISECT gives
the match and advance words of R116 in two registers when every live lane is active, and raises
ILLEGAL-CONVERGENCE otherwise, with a record that names the active lanes and ADDR 0 (the model's choice, log
72). -/
def Obligations.CrewExchangeResults : Prop :=
  (∀ i r, exchangeRow i = some r → Computes i r) ∧
  (∀ (h : Hdr) (d a b : Code) (w u : BitVec 1) (s : State) (c : Crew) (act : Mask),
     let i : Instr := .isect h d a b w u
     Issues i s c act →
     (liveMask c = act → Plain c act [a, b] →
       let ka (l : Nat) : Int := isectKey w u act (regW c l a.toNat) l
       let kb (l : Nat) : Int := isectKey w u act (regW c l b.toNat) l
       let m := min (ka 31) (kb 31)
       let adv (k : Nat → Int) : Nat := ((List.range 32).filter fun l => decide (k l ≤ m)).length
       let hit (l : Nat) : Option Nat :=
         if ka l ≤ m then (List.range 32).find? fun j => inMask act j && decide (kb j = ka l) else none
       Does i s c act [a.toNat, b.toNat] s c (fun _ => nextWord s)
         (results s act 12 (fun l => toReg c d.toNat l ((hit l).elim (-1) (BitVec.ofNat 64))) ++
          results s act 12 (fun l => toReg c (d.toNat + 1) l (BitVec.ofNat 64 (adv kb * 2 ^ 32 + adv ka))) ++
          predResults s act 12 6 fun l => (hit l).isSome)) ∧
     (liveMask c &&& ~~~act ≠ 0 → TrapsAt i s c act clsConvergence 0 act))

/-- Float arithmetic, comparison, transcendentals and FRED put result and sticky flags in flight (R129 to R143).
The words of a format hold the values of R118. A positive exact result is rounded once, in the mode, to the
nearest value that its format holds, with IX and UF; one that exceeds the largest finite value gives infinity,
or the largest finite value where the mode rounds toward zero, with OF and IX (R122, R124). The values of the
float group: sums, products and quotients of finite numbers and the roots of positive ones are the exact results
rounded once; NaNs, infinities, zeros and their flags are as R122, R123, R129 and R134 give them; minimum and
maximum, comparison, rounding to an integral value and class are those of R131 to R133. The worked values of the
F32 algorithms and of FRED's tree (R136 to R143). -/
def Obligations.FloatResults : Prop :=
  (∀ i r, floatRow i = some r → Computes i r) ∧
  (∀ f ∈ [f32, f16, bf16, e5m2, e4m3, e3m2, e2m3, e2m1], ∀ (sign expo mant hi : Nat),
     sign < 2 → expo < 2 ^ f.eb → mant < 2 ^ f.mb →
     let w := ((hi * 2 + sign) * 2 ^ f.eb + expo) * 2 ^ f.mb + mant
     let special : Prop := (f.top = 0 ∧ expo = 2 ^ f.eb - 1) ∨
       (f.top = 1 ∧ expo = 2 ^ f.eb - 1 ∧ mant = 2 ^ f.mb - 1)
     (¬special → fdec f w = if expo = 0 then .fin (decide (sign = 1)) mant (1 - f.bias - f.mb)
       else .fin (decide (sign = 1)) (2 ^ f.mb + mant) (expo - f.bias - f.mb)) ∧
     (special → fdec f w = if f.top = 0 ∧ mant = 0 then .inf (decide (sign = 1))
       else .nan (f.sig && decide (mant < 2 ^ (f.mb - 1))))) ∧
  (∀ f ∈ [f32, f16, bf16, e5m2, e4m3, e2m1], ∀ (mode : Nat) (neg : Bool) (p q : Nat) (e : Int), 0 < p → 0 < q →
     let r := roundQ f mode neg p q e
     (¬Exceeds f mode neg p q e → Rounded f mode neg p q e r.bits r.flags) ∧
     (Exceeds f mode neg p q e → f.top = 0 → r = { flags := 20, bits := (if neg then 2 ^ (f.mb + f.eb) else 0) +
       (2 ^ f.eb - 1) * 2 ^ f.mb - (if towardZero mode neg then 1 else 0) })) ∧
  (∀ (t mode : Nat), t < 3 →
     let f := fmtOf t
     let inf (n : Bool) : Nat := (if n then 2 ^ (f.mb + f.eb) else 0) + (2 ^ f.eb - 1) * 2 ^ f.mb
     let zero (n : Bool) : FRes := { bits := if n then 2 ^ (f.mb + f.eb) else 0, flags := 0 }
     let out (b : Nat) : FRes := { bits := b, flags := 0 }
     let bad : FRes := { bits := f.nan, flags := 1 }
     let nan (s : Bool) : FRes := { bits := f.nan, flags := if s then 1 else 0 }
     (∀ (n1 n2 n3 : Bool) (m1 m2 m3 : Nat) (e1 e2 e3 : Int),
       let x : FVal := .fin n1 m1 e1
       let y : FVal := .fin n2 m2 e2
       let z : FVal := .fin n3 m3 e3
       let e := min e1 e2
       let i := signedM n1 (m1 * 2 ^ (e1 - e).toNat) + signedM n2 (m2 * 2 ^ (e2 - e).toNat)
       (i ≠ 0 → fAdd f mode x y = roundQ f mode (decide (i < 0)) i.natAbs 1 e) ∧
       (i = 0 → m1 ≠ 0 ∨ n1 ≠ n2 → fAdd f mode x y = zero (decide (mode = 3))) ∧
       (m1 = 0 → m2 = 0 → n1 = n2 → fAdd f mode x y = zero n1) ∧
       (m1 * m2 ≠ 0 → fMul f mode x y = roundQ f mode (n1 != n2) (m1 * m2) 1 (e1 + e2)) ∧
       (m1 * m2 = 0 → fMul f mode x y = zero (n1 != n2)) ∧
       fFma f mode x y z = fAdd f mode (.fin (n1 != n2) (m1 * m2) (e1 + e2)) z ∧
       (m1 ≠ 0 → m2 ≠ 0 → fDiv f mode x y = roundQ f mode (n1 != n2) m1 m2 (e1 - e2)) ∧
       (m1 = 0 → m2 ≠ 0 → fDiv f mode x y = zero (n1 != n2)) ∧
       (m1 ≠ 0 → m2 = 0 → fDiv f mode x y = { bits := inf (n1 != n2), flags := 2 }) ∧
       (m1 = 0 → m2 = 0 → fDiv f mode x y = bad) ∧
       (m1 = 0 → fSqrt f mode x = zero n1) ∧ (m1 ≠ 0 → n1 = true → fSqrt f mode x = bad) ∧
       fMul f mode (.inf n1) (.inf n2) = out (inf (n1 != n2)) ∧
       fMul f mode (.inf n1) y = (if m2 = 0 then bad else out (inf (n1 != n2))) ∧
       fMul f mode y (.inf n1) = (if m2 = 0 then bad else out (inf (n1 != n2))) ∧
       fAdd f mode (.inf n1) (.inf n2) = (if n1 = n2 then out (inf n1) else bad) ∧
       fAdd f mode (.inf n1) y = out (inf n1) ∧ fAdd f mode y (.inf n1) = out (inf n1) ∧
       fDiv f mode (.inf n1) (.inf n2) = bad ∧ fDiv f mode (.inf n1) y = out (inf (n1 != n2)) ∧
       fDiv f mode y (.inf n1) = zero (n1 != n2) ∧
       fSqrt f mode (.inf n1) = (if n1 then bad else out (inf false)) ∧
       fFma f mode x y (.inf n3) = out (inf n3) ∧
       (∀ d, m2 = 0 → fFma f mode (.inf n1) y d = bad ∧ fFma f mode y (.inf n1) d = bad) ∧
       (m2 ≠ 0 → fFma f mode (.inf n1) y z = out (inf (n1 != n2)) ∧
         fFma f mode (.inf n1) y (.inf n3) = (if (n1 != n2) = n3 then out (inf n3) else bad))) ∧
     (∀ (s : Bool) (y : FVal), fAdd f mode (.nan s) y = nan (s || y.isSig) ∧
       fAdd f mode y (.nan s) = nan (s || y.isSig) ∧ fMul f mode (.nan s) y = nan (s || y.isSig) ∧
       fMul f mode y (.nan s) = nan (s || y.isSig) ∧ fDiv f mode (.nan s) y = nan (s || y.isSig) ∧
       fDiv f mode y (.nan s) = nan (s || y.isSig) ∧ fSqrt f mode (.nan s) = nan s ∧
       ∀ z : FVal, fFma f mode (.nan s) y z = nan (s || y.isSig || z.isSig) ∧
         fFma f mode y (.nan s) z = nan (y.isSig || s || z.isSig) ∧
         ((∀ n n' e, ¬(y = .inf n ∧ z = .fin n' 0 e) ∧ ¬(z = .inf n ∧ y = .fin n' 0 e)) →
           fFma f mode y z (.nan s) = nan (y.isSig || z.isSig || s))) ∧
     (∀ (wa wb : Nat) (mx num : Bool) (cond : Nat), cond < 8 →
       let a := fdec f wa
       let b := fdec f wb
       let iv := if a.isSig || b.isSig then 1 else 0
       let numbers : Prop := a.isNan = false ∧ b.isNan = false
       let low (w : Nat) : Nat := w % 2 ^ f.bits
       (a.isNan = true → b.isNan = true ∨ num = false → fMinMax f mx num wa wb = { bits := f.nan, flags := iv }) ∧
       (b.isNan = true → num = false → fMinMax f mx num wa wb = { bits := f.nan, flags := iv }) ∧
       (a.isNan = true → b.isNan = false → fMinMax f mx true wa wb = { bits := low wb, flags := iv }) ∧
       (a.isNan = false → b.isNan = true → fMinMax f mx true wa wb = { bits := low wa, flags := iv }) ∧
       (numbers → cmpVal a b = .lt ∨ (cmpVal a b = .eq ∧ a.neg = true ∧ b.neg = false) →
         fMinMax f mx num wa wb = out (low (if mx then wb else wa))) ∧
       (numbers → cmpVal a b = .gt ∨ (cmpVal a b = .eq ∧ a.neg = false) →
         fMinMax f mx num wa wb = out (low (if mx then wa else wb))) ∧
       (numbers → fCmp f cond wa wb = (match cond with
         | 0 => cmpVal a b == .eq
         | 1 => cmpVal a b != .eq
         | 2 => cmpVal a b == .lt
         | 3 => cmpVal a b != .lt
         | 4 => cmpVal a b != .gt
         | 5 => cmpVal a b == .gt
         | 6 => false
         | _ => true, 0)) ∧
       (¬numbers → fCmp f cond wa wb =
         (decide (cond = 1 ∨ cond = 6), if iv = 1 ∨ (2 ≤ cond ∧ cond ≤ 5) then 1 else 0))) ∧
     (∀ (w : Nat) (x n : Bool) (m : Nat) (e : Int),
       (fdec f w = .fin false m e → m ≠ 0 → let r := fSqrt f mode (.fin false m e)
         RootRounded f mode m e r.bits r.flags) ∧
       (fdec f w = .inf n → fRnd f mode x w = out (inf n) ∧ fClass f w = if n then 1 else 128) ∧
       (fdec f w = .nan n → fRnd f mode x w = nan n ∧ fClass f w = if n then 256 else 512) ∧
       (fdec f w = .fin n m e → m = 0 → fRnd f mode x w = zero n ∧ fClass f w = if n then 8 else 16) ∧
       (fdec f w = .fin n m e → m ≠ 0 → ∃ k, Nearest mode n false (fracOf m 1 e).1 (fracOf m 1 e).2 k ∧
         (fRnd f mode x w).bits = (if k = 0 then zero n else roundQ f mode n k 1 0).bits ∧
         (fRnd f mode x w).flags =
           if x = true ∧ (fracOf m 1 e).1 ≠ k * (fracOf m 1 e).2 then 16 else 0) ∧
       (fdec f w = .fin n m e → 0 < m → m < 2 ^ f.mb → fClass f w = if n then 4 else 32) ∧
       (fdec f w = .fin n m e → 2 ^ f.mb ≤ m → fClass f w = if n then 2 else 64)) ∧
     ∀ (w : Nat) (n : Bool),
       let one : Nat := f.bias * 2 ^ f.mb
       let fn (g : TFun) (r : FRes) : Prop := fTrans f g w = r
       (fdec f w = .nan n → ∀ g, fn g (nan n)) ∧
       (fdec f w = .inf n → fn .rcp (zero n) ∧ fn .rsq (if n then bad else zero false) ∧
         fn .exp2 (if n then zero false else out (inf false)) ∧ fn .log2 (if n then bad else out (inf false)) ∧
         fn .tanh (out ((zero n).bits + one)) ∧ fn .sinpi bad ∧ fn .cospi bad) ∧
       (∀ e, fdec f w = .fin n 0 e → fn .rcp { bits := inf n, flags := 2 } ∧ fn .rsq { bits := inf n, flags := 2 } ∧
         fn .exp2 (out one) ∧ fn .log2 { bits := inf true, flags := 2 } ∧ fn .tanh (zero n) ∧
         fn .sinpi (zero n) ∧ fn .cospi (out one)) ∧
       (∀ m e, fdec f w = .fin true m e → m ≠ 0 → fn .rsq bad ∧ fn .log2 bad) ∧
       (∀ m e, fdec f w = .fin n m e → m ≠ 0 → t ≠ 0 → fn .rcp (roundQ f 1 n 1 m (-e)))) ∧
  (fTrans f32 .exp2 0x35800000 = { bits := 0x3F800006, flags := 16 } ∧
   fTrans f32 .exp2 0xC03F0000 = { bits := 0x3E0164D2, flags := 0 } ∧
   crewTree (fredOp 0 0 1) (fun j => { flags := 0, bits :=
     if j = 0 then 0x4B800000 else if j = 1 ∨ j = 16 then 0x3F800000 else if j = 17 then 0xCB800000
     else 0x80000000 }) = { bits := 0x3F800000, flags := 16 })

/-- CVTS and ABSMX; CVTD under every policy and CVTU, which read wB only in a scaled slot (R144 to R150). Under
TRAP, an overflow in some lane raises ARITH and writes nothing (R148). The values of CVTS: the value of the
source in the destination's format, rounded where it does not hold it, and integers by the mode with the nearest
bound out of range (R144). The values of CVTD and CVTU: x × 2^(127 − e) rounded to the slot's kind, what an
overflow or a NaN delivers under each policy, and element × 2^(e − 127) as F32 (R145 to R149). That CL stays
clear where the mode rounds an overflow toward zero is the model's choice (log 74). -/
def Obligations.ConversionResults : Prop :=
  ((∀ i r, convRow i = some r → Computes i r) ∧
   ∀ (h : Hdr) (d a b : Code) (n : BitVec 3) (s : State) (c : Crew) (act : Mask),
     d.toNat < 28 → Plain c act (scaledSrcs s c n a b) →
     let kind := (slotOf s c n).1
     let x (l : Nat) : Nat := (regW c l a.toNat).toNat % 2 ^ 32
     let e (l : Nat) : Nat := scaleOf s c n (regW c l b.toNat)
     let down (pol : Policy) (l : Nat) : Word × Nat := (cvtdOp pol kind c.hint.mode (x l) (e l)).getD (0, 0)
     let goes (i : Instr) (v : Nat → Word × Nat) : Prop := Issues i s c act →
       Does i s c act ((scaledSrcs s c n a b).map (·.toNat)) s c (fun _ => nextWord s)
         (flagResults s act 12 (fun l => (v l).2) ++
           results s act 12 fun l => toReg c d.toNat l (v l).1)
     goes (.cvtdSat h d a b n) (down .sat) ∧ goes (.cvtdInf h d a b n) (down .inf) ∧
     goes (.cvtdNan h d a b n) (down .nan) ∧
     ((∀ l ∈ lanesOf act, (cvtdOp .trap kind c.hint.mode (x l) (e l)).isSome) →
       goes (.cvtdTrap h d a b n) (down .trap)) ∧
     (∀ l0 ∈ lanesOf act, cvtdOp .trap kind c.hint.mode (x l0) (e l0) = none →
       Issues (.cvtdTrap h d a b n) s c act →
       TrapsAt (.cvtdTrap h d a b n) s c act clsArith 0
         (maskOf fun l => inMask act l && (cvtdOp .trap kind c.hint.mode (x l) (e l)).isNone)) ∧
     goes (.cvtu h d a b n) fun l =>
       let r := cvtuOp kind c.hint.mode (regW c l a.toNat) (e l)
       (BitVec.ofNat 64 r.bits, r.flags)) ∧
  (∀ (mode : Nat) (v : Word),
     (∀ p ∈ [(0, f16, f32), (1, bf16, f32), (2, e4m3, f32), (3, e5m2, f32), (4, e2m1, f32), (5, e4m3, f16),
         (6, e5m2, f16), (7, e2m1, f16), (8, e2m1, e4m3), (10, e3m2, e4m3), (11, e2m3, e4m3)],
       let r := cvtsOp p.1 mode v
       (∀ n m e, fdec p.2.1 v.toNat = .fin n m e → ∃ m' k, fdec p.2.2 r.1.toNat = .fin n m' k ∧
         (fracOf m 1 (e - k)).1 = m' * (fracOf m 1 (e - k)).2 ∧ r.2 = 0 ∧ r.1.toNat < 2 ^ p.2.2.bits) ∧
       (∀ n, fdec p.2.1 v.toNat = .inf n → fdec p.2.2 r.1.toNat = .inf n ∧ r.2 = 0) ∧
       ∀ n, fdec p.2.1 v.toNat = .nan n → r = (BitVec.ofNat 64 p.2.2.nan, if n then 1 else 0)) ∧
     (∀ p ∈ [(9, e4m3, 4, true), (12, f32, 8, true), (13, f32, 16, true), (14, f32, 32, true), (15, f32, 64, true),
         (16, f32, 32, false), (17, f32, 64, false), (18, f16, 8, true), (19, bf16, 8, true)],
       let i : Int := if p.2.2.2 then signedOf p.2.2.1 v.toNat else ((v.toNat % 2 ^ p.2.2.1 : Nat) : Int)
       let r := cvtsOp p.1 mode v
       (i = 0 → r = (0, 0)) ∧
       (i ≠ 0 → Rounded p.2.1 mode (decide (i < 0)) i.natAbs 1 0 r.1.toNat r.2 ∧
         (p.1 ∉ [14, 15, 16, 17] → r.2 = 0))) ∧
     ∀ p ∈ [(20, -2 ^ 31, 2 ^ 31 - 1), (21, -2 ^ 63, 2 ^ 63 - 1), (22, 0, 2 ^ 32 - 1), (23, 0, (2 ^ 64 - 1 : Int))],
       let r := cvtsOp p.1 mode v
       (∀ n, fdec f32 v.toNat = .nan n → r = (0, 1)) ∧
       (∀ n, fdec f32 v.toNat = .inf n → r = (BitVec.ofInt 64 (if n then p.2.1 else p.2.2), 1)) ∧
       ∀ n m e k, fdec f32 v.toNat = .fin n m e →
         Nearest mode n false (fracOf m 1 e).1 (fracOf m 1 e).2 k →
         let i : Int := if n then -(k : Int) else k
         (i < p.2.1 → r = (BitVec.ofInt 64 p.2.1, 1)) ∧ (p.2.2 < i → r = (BitVec.ofInt 64 p.2.2, 1)) ∧
         (p.2.1 ≤ i → i ≤ p.2.2 → r = (BitVec.ofInt 64 i,
           if (fracOf m 1 e).1 = k * (fracOf m 1 e).2 then 0 else 16))) ∧
  ((∀ (mode x e : Nat), ∀ k ∈ [(1, e2m1), (2, e4m3), (3, e5m2), (6, f16), (7, bf16)],
     let f := k.2
     let go (pol : Policy) : Option (Word × Nat) := cvtdOp pol k.1 mode x e
     let sat (n : Bool) : Word := BitVec.ofNat 64 ((if n then 2 ^ (f.mb + f.eb) else 0) + maxFinite f)
     let noNan : Prop := ∀ pol, go pol = if pol = .trap then none else some (0, 33)
     (∀ s, fdec f32 x = .nan s → f.top ≠ 2 → ∀ pol, go pol = some (BitVec.ofNat 64 f.nan, if s then 1 else 0)) ∧
     ((fdec f32 x).isNan = false → e = 255 → f.top ≠ 2 → ∀ pol, go pol = some (BitVec.ofNat 64 f.nan, 0)) ∧
     ((fdec f32 x).isNan = true ∨ e = 255 → f.top = 2 → noNan) ∧
     ∀ n m e0, e < 255 →
       (fdec f32 x = .fin n 0 e0 → ∀ pol, go pol = some (if n then BitVec.ofNat 64 (2 ^ (f.mb + f.eb)) else 0, 0)) ∧
       (fdec f32 x = .fin n m e0 → m ≠ 0 → ¬Exceeds f mode n m 1 (e0 + 127 - e) →
         ∃ b fl, Rounded f mode n m 1 (e0 + 127 - e) b fl ∧ ∀ pol, go pol = some (BitVec.ofNat 64 b, fl)) ∧
       ((fdec f32 x = .inf n ∨ (fdec f32 x = .fin n m e0 ∧ m ≠ 0 ∧ Exceeds f mode n m 1 (e0 + 127 - e))) →
         go .trap = none ∧ go .sat = some (sat n, 20) ∧
         (towardZero mode n = true → go .inf = some (sat n, 20) ∧ go .nan = some (sat n, 20)) ∧
         (towardZero mode n = false → f.top = 2 → go .inf = some (sat n, 52) ∧ go .nan = some (sat n, 52)) ∧
         (towardZero mode n = false → f.top ≠ 2 → go .nan = some (BitVec.ofNat 64 f.nan, 20) ∧
           go .inf = some (BitVec.ofNat 64 (if f.top = 0 then
             (if n then 2 ^ (f.mb + f.eb) else 0) + (2 ^ f.eb - 1) * 2 ^ f.mb else f.nan), 20)))) ∧
   (∀ (mode x e : Nat), ∀ k ∈ [(4, 8), (5, 16)],
     let go (pol : Policy) : Option (Word × Nat) := cvtdOp pol k.1 mode x e
     let most (n : Bool) : Int := if n then -2 ^ (k.2 - 1) else 2 ^ (k.2 - 1) - 1
     let past (n : Bool) : Prop := go .trap = none ∧ go .sat = some (BitVec.ofInt 64 (most n), 20) ∧
       ∀ pol ∈ [Policy.inf, .nan],
         go pol = some (BitVec.ofInt 64 (most n), if towardZero mode n then 20 else 52)
     ((fdec f32 x).isNan = true ∨ e = 255 → ∀ pol, go pol = if pol = .trap then none else some (0, 33)) ∧
     ∀ n m e0 i, e < 255 →
       (fdec f32 x = .inf n → past n) ∧
       (fdec f32 x = .fin n m e0 →
         let y := fracOf m 1 (e0 + 127 - e)
         Nearest mode n false y.1 y.2 i →
         let v : Int := if n then -(i : Int) else i
         (most true ≤ v ∧ v ≤ most false → ∀ pol,
           go pol = some (BitVec.ofInt 64 v, if y.1 = i * y.2 then 0 else 16)) ∧
         (¬(most true ≤ v ∧ v ≤ most false) → past n))) ∧
   (∀ (mode e : Nat) (v : Word), e < 256 →
     (∀ k ∈ [(1, e2m1), (2, e4m3), (3, e5m2), (6, f16), (7, bf16)],
       let r := cvtuOp k.1 mode v e
       let a := fdec k.2 v.toNat
       (∀ s, a = .nan s → r = { bits := 0x7FC00000, flags := if s then 1 else 0 }) ∧
       (a.isNan = false → e = 255 → r = { bits := 0x7FC00000, flags := 0 }) ∧
       ∀ n m e0, e < 255 → (a = .inf n → r = { bits := if n then 0xFF800000 else 0x7F800000, flags := 0 }) ∧
         (a = .fin n m e0 → r = roundQ f32 mode n m 1 (e0 + e - 127))) ∧
     ∀ k ∈ [(4, 8), (5, 16)],
       let i := signedOf k.2 v.toNat
       cvtuOp k.1 mode v e = if e = 255 then { bits := 0x7FC00000, flags := 0 }
         else roundQ f32 mode (decide (i < 0)) i.natAbs 1 (e - 127)) ∧
   (let go (pol : Policy) (x : Nat) : Option (Word × Nat) := cvtdOp pol 2 1 x 0x81
    let all (x : Nat) (r : Word × Nat) : Prop := go .sat x = some r ∧ go .inf x = some r ∧ go .nan x = some r
    all 0x3F800000 (0x28, 0) ∧ all 0x447A0000 (0x78, 16) ∧ all 0x3A83126F (0, 24) ∧ all 0x7FC00000 (0x7F, 0) ∧
    go .sat 0xC4FA0000 = some (0xFE, 20) ∧ go .inf 0xC4FA0000 = some (0x7F, 20) ∧
    go .nan 0xC4FA0000 = some (0x7F, 20) ∧ go .trap 0xC4FA0000 = none))

/-- MOVS reads every special register as R65 gives it and MOVSW writes those that may be written; %cheap takes
the value of the highest active lane. Of %fpstat both wait while a recorded float step is pending in an active
lane, or raise SYMBOL-FAULT where its symbol is FAULTED; so does MOVSW of a register that holds a form (R65,
R117, R295, R298). -/
def Obligations.SpecialRegisters : Prop :=
  ∀ (h : Hdr) (d a : Code) (sr : BitVec 5) (s : State) (c : Crew) (act : Mask),
    let pending (l : Nat) : Nat := stepSyms c (oneLane l)
    (sr = 13 → stepSyms c act ≠ 0 → ∀ i ∈ [Instr.movs h d sr, .movsw h sr a], Issues i s c act →
      (faultedSym c act pending = none → ParksOnSymbols i s c act pending) ∧
      ∀ y, faultedSym c act pending = some y →
        exec i s = .next (takeSymTrap (startOf s c) s.iss.crew y s.iss.start)) ∧
    ((sr = 13 → stepSyms c act = 0) → srcSyms c act [a.toNat] ≠ 0 → Issues (.movsw h sr a) s c act →
      BlocksOn (.movsw h sr a) s c act [a.toNat]) ∧
    ((sr = 13 → stepSyms c act = 0) →
    (Issues (.movs h d sr) s c act → d.toNat < 28 →
      Does (.movs h d sr) s c act [] s c (fun _ => nextWord s)
        (results s act 4 fun l => toReg c d.toNat l (special s c act l sr.toNat))) ∧
    (Issues (.movsw h sr a) s c act → Plain c act [a] →
      Does (.movsw h sr a) s c act [a.toNat] s c (fun _ => nextWord s)
        (((lanesOf act).filter fun l => decide (sr ≠ 15) || decide (l = highLane act)).map fun l =>
          { lane := l, tgt := .spec sr.toNat (regW c l a.toNat), seq := s.nextSeq, due := s.cycle + 4,
            born := s.cycle })))

/-- With stream ports among its operands an instruction computes on the elements that the ports deliver, and a
port destination takes the results through the port (R64, R86, R88). A bound port whose element accesses succeed
is read once and advances once: a lane inside the extents receives the bytes at its element's address, and
another lane the padding; an unbound port raises PROTECTION (R63, R64). The read waits for the lanes' earlier
reads and atomics and for their own stores to the elements (R170, R186, R188). A result whose destination is a
bound stream port becomes a relaxed store of its low bytes at each inside lane's element address; the port
advances once (R64, R86, R88). -/
def Obligations.PortOperands : Prop :=
  (∀ (i : Instr) (r : Row), rowOf i = some r → ∀ (s : State) (c : Crew) (act : Mask), Issues i s c act →
     Known c act ((r.srcs.map (·.toNat)).filter fun k => decide (k < 28)) →
     let x := issueCtx i s c
     ∀ s1 v, fetchSources x (startOf s c) (r.srcs.map (·.toNat)) (r.dst.map (·.toNat)) = .ok s1 v →
       let src : Src := fun l a => srcW c v l a.toNat
       let s0 := { s with cycle := s1.cycle }
       let s2 := modCrew s1 s.iss.crew fun c1 => { c1 with pend := c1.pend ++ r.besides src s0 c act }
       exec i s = .next (match r.dst with
         | some d => finish x s2 r.lat d.toNat fun l => .known (r.val src s0 c act l)
         | none => retire x s2)) ∧
  (∀ (i : Instr) (s : State) (c : Crew) (act : Mask), Issues i s c act →
     ∀ q : Nat, 28 ≤ q → q < 32 →
     let x := issueCtx i s c
     let p := portOf c q
     let stops (p : Park) : Prop := fetchSources x (startOf s c) [q] none = .stop (parkGroup x (startOf s c) p)
     let free := maskBusy c act true false = false ∧ (lanesOf act).any (loadHeld c) = false
     (maskBusy c act true false = true → stops (.quiet act true false)) ∧
     (maskBusy c act true false = false → (lanesOf act).any (loadHeld c) = true → stops (.quiet act true true)) ∧
     (free → p.handle = 0 → fetchSources x (startOf s c) [q] none = .stop (trapAt x (startOf s c) clsProt 0 act)) ∧
     (free → p.handle ≠ 0 → portRefused x.w .load (startOf s c) p act = 0 →
       portPaged x.w .load (startOf s c) act p = false → portHeld x.w (startOf s c) c act p = true →
       stops (.quiet (BitVec.allOnes 32) true true)) ∧
     (p.handle ≠ 0 → free → portHeld x.w (startOf s c) c act p = false →
       portRefused x.w .load (startOf s c) p act = 0 → portPaged x.w .load (startOf s c) act p = false →
       ∀ s1 v, readPort x p q [] (lanesOf act) (startOf s c) = .ok s1 v →
         fetchSources x (startOf s c) [q] none =
           .ok (modCrew s1 s.iss.crew fun c1 => setPort c1 q { advancePort p with wr := false }) v ∧
         ∀ l ∈ lanesOf act,
           if portInside p (portCoord p l) then
             ∃ u v' u' b, readPort x p q [] ((lanesOf act).filter fun k => decide (k < l)) (startOf s c) = .ok u v' ∧
               vread { x.w with lanes := oneLane l } .load true (portAddr p (portCoord p l)) p.size u = .ok u' b ∧
               mgetD v (q * 32 + l) 0 = wordOf b
           else mgetD v (q * 32 + l) 0 = p.pad)) ∧
  (∀ (i : Instr) (r : Row) (d : Code), rowOf i = some r → r.dst = some d → 28 ≤ d.toNat →
   ∀ (s : State) (c : Crew) (act : Mask), Issues i s c act → Plain c act r.srcs → c.hint.track = none →
     let p := portOf c d.toNat
     p.handle ≠ 0 →
     let src : Src := fun l a => regW c l a.toNat
     let inside := (lanesOf act).filter fun l => portInside p (portCoord p l)
     Launches i s c act (r.srcs.map (·.toNat)) s
       { setPort c d.toNat { advancePort p with wr := true } with pend := c.pend ++ r.besides src s c act }
       { opFor s c act .pstore (some 0) (inside.map fun l =>
           { lane := l, va := portAddr p (portCoord p l), n := p.size
             op := .write (wordBytes p.size (r.val src s c act l)) }) [] with sem := 0 })

/-! ## The window, the end of threads, traps, control registers -/

/-- CALL and CALLX slide the window up where no block has to be spilled; RET slides it down where none has to be
filled, and goes to w27. Outside the stack's 256 frames they raise PROTECTION at the spill address of block
F/16, and ILLEGAL-RETURN, and no lane slides (R57, R58, R104, R105); that of several such lanes the record holds
the lowest one's spill address, and that ILLEGAL-RETURN has ADDR 0, are the model's choices (log 66). -/
def Obligations.CallsAndReturns : Prop :=
  ∀ (h : Hdr) (s : State) (c : Crew) (act : Mask),
    let deep := maskOf fun l => inMask act l && decide ((thOf c l).frame = 4080)
    let top := maskOf fun l => inMask act l && decide ((thOf c l).frame = 0)
    let fits := ∀ l ∈ lanesOf act, (thOf c l).frame + 44 ≤ (thOf c l).base + depthOf s c
    let kept := ∀ l ∈ lanesOf act, (thOf c l).base + 16 ≤ (thOf c l).frame
    (∀ off, Issues (.call h off) s c act →
      (deep = 0 → fits → ∃ c1, SlidUp c c1 act (nextWord s) s.nextSeq ∧
        Does (.call h off) s c act [] s c1 (fun _ => branchTo s c off) []) ∧
      (deep ≠ 0 → TrapsAt (.call h off) s c act clsProt (spillAddr s c (lowLane deep) 255) deep)) ∧
    (∀ a : Code, Issues (.callx h a) s c act → Plain c act [a] →
      (deep = 0 → fits → ∃ c1, SlidUp c c1 act (nextWord s) s.nextSeq ∧
        Does (.callx h a) s c act [a.toNat] s c1 (fun l => regW c l a.toNat) []) ∧
      (deep ≠ 0 → TrapsAt (.callx h a) s c act clsProt (spillAddr s c (lowLane deep) 255) deep)) ∧
    (Issues (.ret h) s c act →
      (top = 0 → Known c act [27] → kept → ∃ c1, SlidDown c c1 act ∧
        Does (.ret h) s c act [27] s c1 (fun l => regW c l 27) []) ∧
      (top ≠ 0 → TrapsAt (.ret h) s c act clsReturn 0 top))

/-- Block j of the thread with launch index t lies at spill + t × 32,768 + j × 128, where t = u × 1,024 + %crew
× 32 + %lane and u is the unit's index in its launch. Spilling the lowest resident block writes its 16 entries
there and moves the resident base up by 16 entries; filling reads them back below the base. A slide that is to
spill waits for symbols in those blocks, then for operations in flight that write them (R58, R297). -/
def Obligations.SpillArea : Prop :=
  (∀ (x : Ctx) (l f depth n : Nat) (t : Thread) (s s1 : State),
    t.base + depth < f + 28 → f + 28 ≤ t.base + 16 + depth →
    spillWrite { x.w with lanes := oneLane l } (spillAddr s x.c l (t.base / 16))
      ((List.range 16).flatMap fun k => wordBytes 8 (entryW t (t.base + k))) s = .ok s1 () →
    spillLane x l f depth (n + 1) t s = .ok s1
      { t with base := t.base + 16, rf := t.rf.filter fun e => decide (t.base + 16 ≤ e.1) }) ∧
  (∀ (x : Ctx) (l f n : Nat) (t : Thread) (s s1 : State) (b : List Byte),
    f < t.base → t.base ≤ f + 16 → 16 ≤ t.base →
    fillRead { x.w with lanes := oneLane l } (spillAddr s x.c l (t.base / 16 - 1)) 128 s = .ok s1 b →
    ∃ t', fillLane x l f (n + 1) t s = .ok s1 t' ∧ t' = { t with base := t.base - 16, rf := t'.rf } ∧
      ∀ e, mget t'.rf e = if t.base - 16 ≤ e ∧ e < t.base then
        some (.known (wordOf ((b.drop (8 * (e - (t.base - 16)))).take 8))) else mget t.rf e) ∧
  (∀ (h : Hdr) (off : BitVec 18) (s : State) (c : Crew) (act : Mask), Issues (.call h off) s c act →
    let x := issueCtx (.call h off) s c
    let depth := depthOf s c
    (∀ l ∈ lanesOf act, (thOf c l).frame ≠ 4080) →
    (∃ l ∈ lanesOf act, (thOf c l).base + depth < (thOf c l).frame + 44) →
    ((∃ l ∈ lanesOf act, spillSyms x depth l ≠ 0) →
      exec (.call h off) s = .next (blockOn x (startOf s c) (spillSyms x depth))) ∧
    ((∀ l ∈ lanesOf act, spillSyms x depth l = 0) → spillBusy c act depth = true →
      Parks (.call h off) s c (.spill act))) ∧
  ∀ (s : State) (c : Crew) (u : UnitSt) (la : Launch) (l j : Nat),
    mget s.units c.uid = some u → mget s.launches u.lid = some la →
    spillAddr s c l j = la.words.getD 13 0 +
      32768 * BitVec.ofNat 64 ((u.cluster * la.unitsPer + u.u) * 1024 + c.idx * 32 + l) +
      128 * BitVec.ofNat 64 j

/-- EXIT ends the active lanes and KILL the live lanes that the OR of the active lanes' masks names (R108); EXIT
in a resident routine ends the routine's lanes only. Threads that end are live no longer, their results in
flight are discarded, and the unit's completion counter falls by one for each (R48, R108); memory, the other
lanes of the crew and other units' counters stay as they are. -/
def Obligations.EndOfThreads : Prop :=
  (∀ (h : Hdr) (s : State) (c : Crew) (act : Mask),
     (Issues (.exit h) s c act →
       ∃ t c', Issued [] s t c c' (groupOf s c) act (fun _ => nextWord s) [] ∧
         exec (.exit h) s = .next (if c.priv then
           putCrew t s.iss.crew (modThs c' (lanesOf act) fun _ th => { th with live := false })
           else endLanes t s.iss.crew act)) ∧
     ∀ a : Code, Issues (.kill h a) s c act → Plain c act [a] →
       ∃ t c' m, Issued [a.toNat] s t c c' (groupOf s c) act (fun _ => nextWord s) [] ∧
         (∀ l, l < 32 → (inMask m l = true ↔ ∃ j ∈ lanesOf act, (regW c j a.toNat).getLsbD l = true)) ∧
         exec (.kill h a) s = .next (endLanes t s.iss.crew m)) ∧
  (∀ (s : State) (key : Nat) (c : Crew) (u : UnitSt) (m : Mask),
     mget s.crews key = some c → mget s.units c.uid = some u →
     let t := endLanes s key m
     let gone := m &&& progLive c
     (∃ c', mget t.crews key = some c' ∧
       (∀ l, l < 32 → (progTh c' l).live = ((progTh c l).live && !inMask m l)) ∧
       (∀ l, l < 32 → inMask gone l = false → (progTh c' l).pc = (progTh c l).pc ∧
         (progTh c' l).rf = (progTh c l).rf ∧ (progTh c' l).frame = (progTh c l).frame) ∧
       (∀ p ∈ c'.pend, inMask gone p.lane = false)) ∧
     (∃ u', mget t.units c.uid = some u' ∧ u'.ctr = u.ctr - (lanesOf gone).length) ∧
     (∀ v w, v ≠ c.uid → mget s.units v = some w → ∃ w', mget t.units v = some w' ∧ w'.ctr = w.ctr) ∧
     t.mem = s.mem ∧ t.jobs = s.jobs ∧ t.xctrs = s.xctrs)

/-- Taking a trap: while the trap ring has room, the fault record at FREC + 64 × (64c + s) and a ring entry are
written, the ring's tail advances, and the crew runs the routine in privileged mode with every PC as R338 sets
it; while the ring is full the trap stays due (R337, R338). That FREC and TRING are addresses of host DRAM is
the model's inference (log 9), and that the routine's registers start at 0 its choice (log 7). A trap that was
due while the ring was full is taken at its event, once there is room (R337). -/
def Obligations.TrapEntry : Prop :=
  (∀ (s : State) (key : Nat) (c : Crew) (t : TrapInfo),
     mget s.crews key = some c → c.priv = false →
     c.core < 256 → c.slot < 64 → c.idx < 32 → (∀ y, t.sym = some y → y < 16) →
     let job := (whoLane s c 0 false).job
     (mgetD s.jobs job (jobReset job)).length = 8 →
     let w2 := ctxW s job 2
     let w4 := ctxW s job 4
     let size := 2 ^ (w4.extractLsb' 60 4).toNat
     let head := (w2.extractLsb' 16 16).toNat
     let tail := (w2.extractLsb' 0 16).toNat
     let frec := (ctxW s job 3).toNat + 64 * (64 * c.core + c.slot)
     let entry := (w4.extractLsb' 0 57).toNat + 16 * tail
     let s' := takeTrap s key t
     let word (a : Nat) : Word := wordOf (cellsGet s'.mem a 8)
     ((tail + 1) % size = head % size → s' = putCrew s key { c with due := some t, hint := Hints.none }) ∧
     ((tail + 1) % size ≠ head % size → (entry + 16 ≤ frec ∨ frec + 64 ≤ entry) →
       (word frec).extractLsb' 58 6 = BitVec.ofNat 6 t.cls ∧ (word frec).getLsbD 57 = true ∧
       (word frec).extractLsb' 0 57 = t.pc.extractLsb' 0 57 ∧
       word (frec + 8) = t.addr ∧ word (frec + 16) = t.clanes ++ t.flanes ∧
       (word (frec + 24)).extractLsb' 58 6 = BitVec.ofNat 6 t.sec ∧
       (word (frec + 24)).extractLsb' 0 58 = (t.resume.extractLsb' 0 57).setWidth 58 ∧
       (word (frec + 32)).extractLsb' 14 50 = t.cmd.extractLsb' 0 50 ∧
       (word (frec + 32)).extractLsb' 0 14 = BitVec.ofNat 14 (t.sym.elim 0 fun y => 16 + y) ∧
       word (frec + 40) = t.bytes ∧
       word (frec + 48) = BitVec.ofNat 64 (whoLane s c 0 false).lid ∧
       word (frec + 56) = t.active ++ BitVec.ofNat 18 c.idx ++ BitVec.ofNat 6 c.slot ++ BitVec.ofNat 8 c.core ∧
       word entry = BitVec.ofNat 64 frec ∧
       word (entry + 8) = BitVec.ofNat 6 t.cls ++ BitVec.ofNat 52 c.core ++ BitVec.ofNat 6 c.slot ∧
       (∀ a, (a < frec ∨ frec + 64 ≤ a) → (a < entry ∨ entry + 16 ≤ a) →
         cellGet s'.mem a = cellGet s.mem a) ∧
       ctxW s' job 2 = w2.extractLsb' 16 48 ++ BitVec.ofNat 16 ((tail + 1) % size) ∧
       (∀ j i, (j ≠ job ∨ i ≠ 2) → ctxW s' j i = ctxW s j i) ∧
       (∀ k, k ≠ key → mget s'.crews k = mget s.crews k) ∧
       ∃ c', mget s'.crews key = some c' ∧ c'.priv = true ∧ c'.trap = some t ∧ c'.due = none ∧
         c'.hint = Hints.none ∧ c'.region = c.region ∧ c'.cords = c.cords ∧ c'.flags = c.flags ∧
         (∀ l, l < 32 → thOf c' l = Thread.init) ∧
         ∀ l, l < 32 → (progTh c' l).live = (progTh c l).live ∧ (progTh c' l).frame = (progTh c l).frame ∧
           (progTh c' l).pc = if t.rule ≤ 1 ∧ inMask t.active l = true then
             (if t.rule = 0 ∧ inMask t.clanes l = true then t.next else t.resume) else (progTh c l).pc)) ∧
  (∀ (s : State) (c : Crew) (t : TrapInfo) (u : UnitSt), mget s.crews s.subj = some c → c.due = some t →
     c.priv = false → mget s.units c.uid = some u → u.res = .resident → u.ended = false → u.isOver = false →
     exec .trapTake s = .next (afterWalks (takeTrap s s.subj t)))

/-- ERET leaves the routine: the crew is TRAPPED no longer, its threads keep their PCs and frames, VALID of its
fault record is cleared, and nothing else of memory changes (R345). That the record lies in host DRAM, at FREC,
is the model's inference (log 9). -/
def Obligations.TrapReturn : Prop :=
  ∀ (h : Hdr) (s : State) (c : Crew) (act : Mask), Issues (.eret h) s c act → c.priv = true →
    let at_ := (ctxW s (whoLane s c 0 true).job 3).toNat + 64 * (64 * c.core + c.slot)
    ∃ t c', exec (.eret h) s = .next t ∧ mget t.crews s.iss.crew = some c' ∧
      c'.priv = false ∧ c'.rt = [] ∧ c'.trap = none ∧ c'.hint = Hints.none ∧ c'.region = c.region ∧
      c'.cords = c.cords ∧ c'.syms = c.syms ∧ c'.flags = c.flags ∧
      (∀ l, (progTh c' l).pc = (progTh c l).pc ∧ (progTh c' l).live = (progTh c l).live ∧
        (progTh c' l).frame = (progTh c l).frame ∧ (progTh c' l).base = (progTh c l).base) ∧
      (wordOf (cellsGet t.mem at_ 8)).getLsbD 57 = false ∧
      (∀ a, (a < at_ ∨ at_ + 8 ≤ a) → cellGet t.mem a = cellGet s.mem a) ∧
      t = { s with
        mem := t.mem, behind := t.behind, crews := mput s.crews s.iss.crew c', nextSeq := s.nextSeq + 1
        sched := mput s.sched (c.core * 4 + c.slot % 4) (s.cycle + 1) }

/-- The instructions that may execute only in privileged mode (R337). -/
def Obligations.PrivilegedInstructions : Prop :=
  ∀ (i : Instr) (s : State) (c : Crew) (act : Mask), isPrivileged i = true → Issues i s c act →
    c.priv = false → TrapsAt i s c act clsProt 0 act

/-- CSRR gives the control register's value at once; CSRW writes the value of the highest active lane, where
read-only fields keep their values (R66, R67, R342, R344). TLBI removes the TLB entries that its form names, and
no other state (R346). The routing register and the log selection of a crew slot, written by their events (R67,
R342). -/
def Obligations.ControlRegisters : Prop :=
  (∀ (h : Hdr) (d : Code) (s : State) (c : Crew) (act : Mask), d.toNat < 28 →
     let job := (whoLane s c 0 c.priv).job
     let slot := c.core * 64 + c.slot
     let reads (n : BitVec 12) (v : Word) : Prop := (c.priv = true ∨ n = 0x011 ∨ n = 0x012) →
       Issues (.csrr h d n) s c act →
       Does (.csrr h d n) s c act [] s (regAtOnce s c act d fun _ => v) (fun _ => nextWord s) []
     let v := regW c (highLane act) d.toNat
     let writes (n : BitVec 12) (s1 : State) : Prop := c.priv = true → Plain c act [d] →
       Issues (.csrw h d n) s c act →
       Does (.csrw h d n) s c act [d.toNat] s1 c (fun _ => nextWord s) []
     reads 0x010 s.swapth ∧ reads 0x011 (BitVec.ofNat 64 s.cycle) ∧ reads 0x012 (capsOf s) ∧
     reads 0x020 (vlogWord s (mgetD s.vsel slot 0)) ∧ reads 0x030 (ctxW s job 3) ∧
     reads 0x040 (mgetD s.compat c.core 0) ∧
     writes 0x010 { s with swapth := v &&& 0xFFFFFFFF } ∧
     writes 0x020 { s with vsel := mput s.vsel slot (v &&& 0x3F3F) } ∧
     writes 0x030 (setCtxW s job 3 v) ∧
     writes 0x040 { s with
       compat := mput s.compat c.core
         (if carried (v.setWidth 8) then v &&& 0x1FF else v &&& 0xFF)
       compatBy := (c.core, job) :: s.compatBy.filter fun p => decide (p ≠ (c.core, job)) }) ∧
  (∀ (h : Hdr) (s : State) (c : Crew) (act : Mask), c.priv = true →
     let job := (whoLane s c 0 true).job
     let keeps (i : Instr) (srcs : List Nat) (gone : TlbEnt → Bool) : Prop := Issues i s c act →
       Does i s c act srcs { s with tlb := s.tlb.filter fun t => !gone t } c (fun _ => nextWord s) []
     (∀ a : Code, Plain c act [a] → keeps (.tlbiVa h a) [a.toNat] fun t => decide (t.job = job) &&
       (lanesOf act).any fun l => decide ((regW c l a.toNat).toNat / 2 ^ t.bits = t.va / 2 ^ t.bits)) ∧
     keeps (.tlbiJob h) [] (fun t => decide (t.job = job) && !t.pte.getLsbD 2) ∧
     keeps (.tlbiAll h) [] fun _ => true) ∧
  ((∀ (core : Nat) (v : Word) (s : State), exec (.compatWrite core v) s = .next { s with
     compat := mput s.compat core (if carried (v.setWidth 8) then v &&& 0x1FF else v &&& 0xFF) }) ∧
   ∀ (crew : Nat) (v : Word) (s : State) (c : Crew), mget s.crews crew = some c →
     exec (.vlogSelect crew v) s = .next { s with
       vsel := mput s.vsel (c.core * 64 + c.slot) (v &&& 0x3F3F) })

/-! ## Memory -/

/-- Loads, stores, presence queries, atomics and flint instructions put one operation in flight, with an access
for each active lane at wA + offset, and change nothing else when they issue; the group of an FWAIT then waits
(R171 to R180, R309 to R313). -/
def Obligations.MemoryInstructionsIssue : Prop :=
  ∀ (i : Instr) (r : OpRow), opRow i = some r → ∀ (s : State) (c : Crew) (act : Mask),
    Issues i s c act → Plain c act r.srcs →
    Launches i s c act (r.srcs.map (·.toNat)) s c (r.op s c act)

/-- A load with SYM = 1 takes the lowest free symbol and leaves raw forms in its destination at once; without a
free symbol it is an ordinary load at which the crew waits (R291, R292), and so it is in a routine, whose own
registers hold no form (log 29, DEDUCED). When a symbol's data arrives in a lane, every register of the lane
over the symbol gets a·u + b, or the result of its recorded steps on u, the flags of the recorded steps are ORed
into %fpstat, and the symbol has left the lane (R292, R296). A recorded chain replays its steps in order on the
symbol's data, each as its instruction with the operand at its place and in the rounding that was in force; each
recorded step of a lane raises its own flags, once (R294, R296). -/
def Obligations.SymbolicLoads : Prop :=
  (∀ (h : Hdr) (d a : Code) (la : Look) (size : BitVec 2) (sx : BitVec 1) (s : State) (c : Crew) (act : Mask),
     let i : Instr := .ld h d a la size sx 1
     Issues i s c act → Plain c act [a] →
     let n := memBytes size sx
     let accs := laneAccs act (fun l => memAddr c l a) n fun _ => .read
     (∀ y, y < 16 → c.syms.all (fun p => decide (p.1 ≠ y)) = true →
       (∀ z, z < y → (mget c.syms z).isSome = true) → c.priv = false →
       (∀ l ∈ lanesOf act, ∀ s' phys ty, xlat (startOf s c) (issueCtx i s c).w .load (memAddr c l a) =
         (s', .ok phys ty) → ty ≠ 0xB) →
       let sym : Sym :=
         { lanes := (lanesOf act).map fun l => { lane := l, faulted := false, recs := [] }
           arrived := 0, pc := s.iss.start, active := act, cls := 0, faddr := [], due := none }
       Launches i s c act [a.toNat] s
         (atOnce s { c with syms := mput c.syms y sym, ops := c.ops.map (orphanSym y) } act fun l =>
           .reg ((thOf c l).frame + d.toNat) (.iform y 1 0))
         (opFor s c act (.ldsym y (decide (sx = 1)) n) none accs [])) ∧
     ((∀ y, y < 16 → (mget c.syms y).isSome = true) ∨ c.priv = true →
       Launches i s c act [a.toNat] s c
         (opFor s c act (.ld (decide (sx = 1)) n) (some 0) accs
           (entriesOf c act d.toNat 0 ++ if n = 16 then entriesOf c act (d.toNat + 1) 1 else [])))) ∧
  (∀ (s : State) (crew y lane n : Nat) (sx : Bool) (c : Crew) (o : Op) (sym : Sym),
     mget s.crews crew = some c → c.ops.find? (fun p => match p.kind with
       | .ldsym z _ _ => decide (z = y)
       | _ => false) = some o → o.kind = .ldsym y sx n → n ≤ 8 → mget c.syms y = some sym →
     lane < 32 → (progTh c lane).live = true → (∃ x ∈ sym.lanes, x.lane = lane ∧ x.faulted = false) →
     (∀ a ∈ o.accs, a.lane ≠ lane) → (∃ r ∈ o.reqs, r.lane = lane) →
     (∀ r ∈ o.reqs, r.lane = lane → r.st = .done) → (∀ p ∈ c.pend, p.lane ≠ lane) → c.priv = false →
     let b := wordOf ((o.reqs.filter fun r => decide (r.lane = lane)).map (·.val)).flatten
     let u := if sx then sext b (8 * n) else b
     ∃ c', exec (.symbolArrival crew y lane) s = .next (putCrew s crew c') ∧
       (∀ e v, mget (progTh c lane).rf e = some v → mget (progTh c' lane).rf e =
         some (if v.symbol = some y then .known (formValue v u) else v)) ∧
       (∀ x, sym.lanes.find? (fun x => decide (x.lane = lane)) = some x →
         (progTh c' lane).fpstat = (progTh c lane).fpstat ||| BitVec.ofNat 64 (stepFlags x.recs u)) ∧
       (∀ l, l ≠ lane → (∀ p ∈ c.pend, p.lane ≠ l) → (progTh c' l).rf = (progTh c l).rf) ∧
       (∀ z, mget c'.syms y = some z → ∀ x ∈ z.lanes, x.lane ≠ lane)) ∧
  (∀ (st : FStep) (steps : List FStep) (recs : List (List FStep)) (u : Word) (r : FRes) (v : Nat) (a b : Word),
     let f := fmtOf st.t
     let x := fdec f v
     let y := fdec f a.toNat
     let z := fdec f b.toNat
     let neg (w : FVal) : FVal := if st.ng then w.flip else w
     chainEval [] r = r ∧ chainEval (steps ++ [st]) r = st.eval (chainEval steps r).bits ∧
     stepFlags (recs ++ [steps]) u =
       stepFlags recs u ||| (chainEval steps { bits := u.toNat, flags := 0 }).flags ∧
     (st.known = [a] → st.op = .add → (st.hole = 0 → st.eval v = fAdd f st.rnd x y) ∧
       (st.hole = 1 → st.eval v = fAdd f st.rnd y x)) ∧
     (st.known = [a] → st.op = .mul → (st.hole = 0 → st.eval v = fMul f st.rnd x y) ∧
       (st.hole = 1 → st.eval v = fMul f st.rnd y x)) ∧
     (st.known = [a, b] → st.op = .fma → (st.hole = 0 → st.eval v = fFma f st.rnd (neg x) y z) ∧
       (st.hole = 1 → st.eval v = fFma f st.rnd (neg y) x z) ∧
       (st.hole = 2 → st.eval v = fFma f st.rnd (neg y) z x)))

/-- Integer instructions of 64 bits carry forms over one symbol without waiting, and a form whose scale is 0 is
its known value; FADD, FMUL and FFMA record a step over one source that holds the raw form or a chain of fewer
than three, in whichever position it stands, while the symbol has fewer than eight (R293, R294). A product of
two forms, an addition of 32 bits, a fourth step in a chain, a ninth for the symbol, a step over two forms or
over another integer form than the raw one, a comparison, an exchange or a conversion that reads a form parks
its group, or raises SYMBOL-FAULT where the symbol is FAULTED (R294, R295, R298). -/
def Obligations.FormsPassThrough : Prop :=
  (∀ (h : Hdr) (d a b : Code) (imm : BitVec 8) (sc : BitVec 2) (amt : BitVec 6) (s : State) (c : Crew) (act : Mask) (y : Nat)
    (xa xb ya yb : Nat → Word), d.toNat < 28 → a.toNat < 28 → b.toNat < 28 →
    (∀ l ∈ lanesOf act, regOf (thOf c l) a.toNat = formOf y (xa l) (xb l) ∧
      regOf (thOf c l) b.toNat = formOf y (ya l) (yb l)) →
    let goes (i : Instr) (srcs : List Code) (fa fb : Nat → Word) : Prop := Issues i s c act →
      Does i s c act (srcs.map (·.toNat)) s c (fun _ => nextWord s)
        (results s act 4 fun l => .reg ((thOf c l).frame + d.toNat) (formOf y (fa l) (fb l)))
    goes (.mov h d a) [a] xa xb ∧
    goes (.add h d a b 1) [a, b] (fun l => xa l + ya l) (fun l => xb l + yb l) ∧
    goes (.sub h d a b 1) [a, b] (fun l => xa l - ya l) (fun l => xb l - yb l) ∧
    goes (.neg h d a 1) [a] (fun l => -xa l) (fun l => -xb l) ∧
    goes (.addi h d a imm) [a] xa (fun l => xb l + simm c imm) ∧
    goes (.lea h d a b 1 sc) [a, b] (fun l => xa l + ya l <<< sc.toNat) (fun l => xb l + yb l <<< sc.toNat) ∧
    goes (.shi h d a 0 amt) [a] (fun l => xa l <<< amt.toNat) (fun l => xb l <<< amt.toNat) ∧
    ((∃ l ∈ lanesOf act, xa l ≠ 0 ∧ ya l ≠ 0) → Issues (.mul h d a b 1) s c act →
      BlocksOn (.mul h d a b 1) s c act [a.toNat, b.toNat]) ∧
    ((∃ l ∈ lanesOf act, xa l ≠ 0) → Issues (.add h d a b 0) s c act →
      BlocksOn (.add h d a b 0) s c act [a.toNat, b.toNat]) ∧
    ((∀ l ∈ lanesOf act, ya l = 0) →
      goes (.mul h d a b 1) [a, b] (fun l => xa l * yb l) (fun l => xb l * yb l) ∧
      goes (.mul h d b a 1) [b, a] (fun l => xa l * yb l) (fun l => xb l * yb l) ∧
      goes (.shl h d a b 1) [a, b] (fun l => xa l <<< ((yb l).toNat % 64))
        (fun l => xb l <<< ((yb l).toNat % 64)) ∧
      goes (.lea h d a b 0 sc) [a, b] xa
        (fun l => xb l + ((yb l).setWidth 32).signExtend 64 <<< sc.toNat))) ∧
  (∀ (h : Hdr) (d a b : Code) (t : BitVec 2) (neg : BitVec 1) (s : State) (c : Crew) (act : Mask),
    d.toNat < 28 → a.toNat < 28 → b.toNat < 28 →
    let step (i : Instr) (op : FOp) (ng : Bool) (srcs : List Code) : Prop := Issues i s c act →
      let reg (l j : Nat) : RegVal := regOf (thOf c l) (srcs.getD j 0).toNat
      (∀ (y hole : Nat) (sym : Sym) (st : Nat → List FStep), hole < srcs.length → mget c.syms y = some sym →
        (∀ l ∈ lanesOf act, (st l).length < 3 ∧ recCount c y l < 8 ∧
          reg l hole = (if st l = [] then .iform y 1 0 else .fform y (st l)) ∧
          ∀ j, j < srcs.length → j ≠ hole → (reg l j).symbol = none) →
        let next (l : Nat) : List FStep := st l ++
          [{ op := op, ng := ng, t := t.toNat, rnd := c.hint.mode, hole := hole
             known := (srcs.eraseIdx hole).map fun r => regW c l r.toNat }]
        ∃ c1, Does i s c act (srcs.map (·.toNat)) s c1 (fun _ => nextWord s)
            (results s act 4 fun l => .reg ((thOf c l).frame + d.toNat) (.fform y (next l))) ∧
          c1 = { c with syms := c1.syms } ∧
          (let more (x : SymLane) : SymLane :=
            if inMask act x.lane then { x with recs := x.recs ++ [next x.lane] } else x
          mget c1.syms y = some { sym with lanes := sym.lanes.map more }) ∧
          ∀ z, z ≠ y → mget c1.syms z = mget c.syms z) ∧
      ((∃ l ∈ lanesOf act, ∃ j, j < srcs.length ∧
          ((∃ k, j < k ∧ k < srcs.length ∧ (reg l j).symbol ≠ none ∧ (reg l k).symbol ≠ none) ∨
           (∃ y p q, reg l j = .iform y p q ∧ ¬(p = 1 ∧ q = 0)) ∨
           (∃ y st, reg l j = .fform y st ∧ 3 ≤ st.length) ∨
           (∃ y, (reg l j).symbol = some y ∧ 8 ≤ recCount c y l))) →
        BlocksOn i s c act (srcs.map (·.toNat)))
    step (.fadd h d a b t) .add false [a, b] ∧ step (.fmul h d a b t) .mul false [a, b] ∧
    step (.ffma h d a b neg t) .fma (decide (neg = 1)) [a, b, d]) ∧
  ∀ (i : Instr) (r : Row), predRow i = some r ∨ exchangeRow i = some r ∨ convRow i = some r →
    ∀ (s : State) (c : Crew) (act : Mask), Issues i s c act →
    srcSyms c act (r.srcs.map (·.toNat)) ≠ 0 → BlocksOn i s c act (r.srcs.map (·.toNat))

/-- PREF changes no register and no memory: it fills TLBs for the lines that hold the lanes' addresses and those
that follow, 4 to the power of its field for each lane, or does nothing where the access to one of them would
fault or no home-slice cache serves its target (R155, R176); lines of 256 bytes are log 13 (DEDUCED). A
translation changes nothing but TLBs, tokens and access and dirty bits; one that allows an access has found a
leaf, by the walk or in a TLB, whose permission bits name it and whose target lies within its type's range.
Where it allows none, memory is as it was; where it does and no ownership table is read, only the entry's own
AC, and DT for an access that writes, are set, and so they are where the leaf's target refuses the access (R151,
R153 to R156, R160, R164, R169). -/
def Obligations.Translation : Prop :=
  (∀ (h : Hdr) (a : Code) (size : BitVec 2) (s : State) (c : Crew) (act : Mask),
     Issues (.pref h a size) s c act → Plain c act [a] →
     let lines := ((lanesOf act).map fun l => (List.range (4 ^ size.toNat)).map fun i =>
       BitVec.ofNat 64 ((memAddr c l a).toNat / 256 * 256) + BitVec.ofNat 64 (256 * i)).flatten
     let all (s1 : State) : Prop :=
       ∃ ps, Translates (issueCtx (.pref h a size) s c).w .load [1, 2, 3, 5, 0xA] lines (startOf s c) ps s1
     (∀ s1, all s1 →
       Does (.pref h a size) s c act [a.toNat] (unissued s s1) c (fun _ => nextWord s) []) ∧
     ((∀ s1, ¬ all s1) → Does (.pref h a size) s c act [a.toNat] s c (fun _ => nextWord s) [])) ∧
  (∀ (s : State) (w : Who) (k : AccKind) (va : Word) (s1 : State) (r : XRes), xlat s w k va = (s1, r) →
     let found (e : Word) (place : Option Nat) (b ty : Nat) : Prop :=
       (walk s w.job (stackOf w.core) va.toNat = .leaf e.toNat place b ∨
         (place = none ∧ ∃ t ∈ s.tlb, t.core / 8 = w.core / 8 ∧ t.job = w.job ∧ t.pte = e ∧ t.bits = b ∧
           t.va / 2 ^ b = va.toNat / 2 ^ b)) ∧
       e.toNat / 2 ^ 60 = ty ∧ k.types.contains ty = true ∧
       (k = .fetch → e.getLsbD 7 = true) ∧
       (k ∈ [.store, .atomic, .engWrite, .spill, .flintWrite, .engProp, .termWrite, .termAtomic] →
         e.getLsbD 6 = true) ∧
       (k ∈ [.load, .atomic, .engRead, .fill, .flintRead, .flintWrite, .termRead, .termLoad, .termAtomic] →
         e.getLsbD 5 = true) ∧
       (k = .atomic ∨ k = .termAtomic → e.getLsbD 4 = true) ∧ (e.getLsbD 3 = true → w.priv = true) ∧
       (∃ t ∈ s1.tlb, t.core = w.core ∧ t.job = w.job ∧ t.pte = e ∧ t.bits = b)
     let marks (place : Option Nat) : Prop := ∀ x, cellGet s1.mem x =
       if place = some x then cellGet s.mem x ||| (if k.writes then 3 else 2) else cellGet s.mem x
     Translated s s1 ∧ (2 ^ 57 ≤ va.toNat → r = .prot) ∧
     ((r = .prot ∨ ∃ ty lv, r = .page ty lv) → s1.mem = s.mem ∧ s1.tlb = s.tlb) ∧
     (∀ slice kind, r = .refused slice kind →
       (∃ a, walk s w.job (stackOf w.core) va.toNat = .ecc a ∧ slice = sliceOf s a ∧ kind = 0 ∧ s1.mem = s.mem ∧
         s1.tlb = s.tlb) ∨
       ∃ e place b ty, found e place b ty ∧ marks place) ∧
     ∀ phys ty, r = .ok phys ty → ∃ e place b, found e place b ty ∧
       LeafTarget s w e ((e.extractLsb' 12 36).toNat * 2 ^ 12 / 2 ^ b * 2 ^ b + va.toNat % 2 ^ b) phys ∧
       ((∀ l, mget s.launches w.lid = some l → l.ordered = false) → marks place))

/-- An operation whose accesses translate has one request for each part of an access within a 32-byte sector, at
the byte that the translation gives. One that meets a page fault waits for its entry of the job's fault queue,
which names the access; one that meets PROTECTION is recorded with none of its accesses performed (R74, R157,
R158, R167). A misaligned atomic is refused with its whole instruction before any translation: PROTECTION with
those lanes and the address of the lowest; a flint instruction's misaligned lanes are refused with those that
may not access their cells, in one check (R157, R175, R180, R309). A request that arrives at memory is performed
at once and whole (log 4, DESIGN CHOICE): a read answers the bytes there, a write changes exactly its bytes, an
atomic answers the old value and leaves the new one. Two lanes' stores to one sector go together, the higher
lane last (R165 to R169, R179). A load takes its bytes from the youngest earlier store of its lane that is still
to be performed (R186, R187). Stores that a sequential load or an atomic goes ahead of are marked (log 4).
Accesses spend tokens (R360). Uncorrectable bytes give an error response, logged with kind 0, and change no
memory; a write to a weight store, a package without a route and a target that has refused give one with their
kind (R154, R165, R169, R355). In an ordered launch stores to shared lines enter the unit's serial buffer as
they are translated, lanes in order; so does an atomic, which answers the launch-start value folded with the
unit's earlier atomics, and a proposal, which answers from the launch-start cell and the unit's first proposal;
past 1 MiB PROTECTION. A read of a shared line answers its bytes at launch start; another unit's private line
gives an error response of kind 2 (R315, R330 to R332). A lane's requests to the same bytes are performed in
program order (R186, R188), but for PRES (R177). -/
def Obligations.RequestsAtMemory : Prop :=
  ((∀ (va : Word) (n : Nat), 0 < n → n ≤ 32 → parts va n =
     if va.toNat % 32 + n ≤ 32 then [(va, n)]
     else [(va, 32 - va.toNat % 32),
       (va + BitVec.ofNat 64 (32 - va.toNat % 32), n - (32 - va.toNat % 32))]) ∧
   ∀ (s : State) (key : Nat) (c : Crew) (o : Op), mget s.crews key = some c → o ∈ c.ops →
     o.done = false → o.accs ≠ [] → mayReissue s key = true → Unordered s c → o.priv = c.priv →
     (∀ i ∈ o.pages, ∀ f, mget s.faults i = some f → f.served = true ∧ f.rejected = false) →
     (∀ y sx n, o.kind ≠ .ldsym y sx n) →
     (∀ a ∈ o.accs, accMis a = false ∧ a.lane < 32 ∧ match a.op with
       | .fprop v _ => badCellTag v.toNat = false
       | .xrd _ | .xsnap _ => False
       | _ => True) →
     let w := { whoLane s c o.active o.priv with lanes := o.active }
     (∀ rs t, Reaches w o.kind ((o.accs.map fun a => (accParts a).map fun p => (a, p)).flatten) s rs t →
       resumeOp s key o = putCrew t key (putOp c { o with accs := [], reqs := o.reqs ++ rs, pages := [] })) ∧
     ∀ a va n op, o.accs = [a] → accParts a = [(va, n, op)] →
       (∀ s1 ty lv, xlat s { w with lanes := oneLane a.lane } (accKind op) va = (s1, .page ty lv) →
         ∃ t f, resumeOp s key o = putCrew t key (putOp c { o with pages := [s1.nextId] }) ∧
           mget t.faults s1.nextId = some f ∧ f.job = w.job ∧ f.served = false ∧ f.rejected = false ∧
           f.words = [BitVec.ofNat 4 (accKind op).code ++ (0 : BitVec 3) ++ va.setWidth 57,
             BitVec.ofNat 4 ty ++ BitVec.ofNat 3 lv ++ (0 : BitVec 57), BitVec.ofNat 64 w.lid,
             BitVec.ofNat 64 (w.slot * 2 ^ 8 + w.core)] ∧
           let w1 := ctxW s w.job 1
           let w2 := ctxW s w.job 2
           let size := 2 ^ (w1.extractLsb' 60 4).toNat
           let tail := (w2.extractLsb' 32 16).toNat
           let full := (tail + 1) % size = (w2.extractLsb' 48 16).toNat % size
           (full → f.ring = none ∧ t.mem = s1.mem ∧ t.jobs = s.jobs) ∧
           (¬ full → f.ring = some tail ∧
             cellsGet t.mem ((w1.extractLsb' 0 57).toNat + 32 * tail) 32 = (f.words.map (wordBytes 8)).flatten)) ∧
       (∀ s1, xlat s { w with lanes := oneLane a.lane } (accKind op) va = (s1, .prot) →
         ∃ c' o', resumeOp s key o = putCrew s1 key c' ∧ o' ∈ c'.ops ∧ o'.id = o.id ∧ o'.done = true ∧
           o'.cls = clsProt ∧ o'.bad = oneLane a.lane ∧ o'.fin = 0 ∧ o'.addr = a.va ∧ o'.accs = [] ∧
           o'.reqs = [] ∧ o'.dsts = [])) ∧
  (∀ (s : State) (key : Nat) (c : Crew) (o : Op), mget s.crews key = some c → o ∈ c.ops →
     o.done = false → o.pages = [] → mayReissue s key = true → Unordered s c → o.priv = c.priv →
     (∀ y sx n, o.kind ≠ .ldsym y sx n) → (∀ a ∈ o.accs, a.lane < 32) →
     let wrong (a : Acc) : Bool := match a.op with
       | .atom _ w64 _ _ => decide (a.va.toNat % (if w64 then 8 else 4) ≠ 0)
       | .fprop .. | .fread _ | .fwait _ | .frcy _ => decide (a.va.toNat % 16 ≠ 0)
       | _ => false
     let w := { whoLane s c o.active o.priv with lanes := o.active }
     let refuses (t : State) (bad : Mask → Prop) (va : Word) : Prop := ∃ c' o', resumeOp s key o = putCrew t key c' ∧
       o' ∈ c'.ops ∧ o'.id = o.id ∧ o'.done = true ∧ o'.cls = clsProt ∧ o'.accs = [] ∧ o'.reqs = [] ∧ o'.dsts = [] ∧
       o'.fin = 0 ∧ o'.addr = va ∧ bad o'.bad
     (∀ sx w64, o.kind = .atom sx w64 → ∀ a ∈ o.accs, wrong a = true →
       (∀ b ∈ o.accs, wrong b = true → a.lane ≤ b.lane) → (∀ b ∈ o.accs, b.lane = a.lane → b = a) →
       refuses s (fun m => ∀ l, l < 32 → inMask m l = o.accs.any fun b => decide (b.lane = l) && wrong b) a.va) ∧
     ((∀ sx w64, o.kind ≠ .atom sx w64) → (∃ a ∈ o.accs, wrong a = true) →
       ∃ t, ∃ a ∈ o.accs, (∀ x, cellGet t.mem x &&& 0xFC = cellGet s.mem x &&& 0xFC) ∧
         refuses t (fun m => inMask m a.lane = true ∧ (∀ l, l < a.lane → inMask m l = false) ∧
           (∀ b ∈ o.accs, wrong b = true → inMask m b.lane = true) ∧
           (∀ b ∈ o.accs, (∃ p ∈ accParts b, ∀ s1, Translated s { s1 with nextId := s.nextId } →
             (xlat s1 { w with lanes := oneLane b.lane } (accKind p.2.2) p.1).2 = .prot) →
             inMask m b.lane = true) ∧
           ∀ l, inMask m l = true → ∃ b ∈ o.accs, b.lane = l ∧ (wrong b = true ∨
             ∃ p ∈ accParts b, ∃ s1, Translated s { s1 with nextId := s.nextId } ∧
               let found := (xlat s1 { w with lanes := oneLane b.lane } (accKind p.2.2) p.1).2
               (found = .prot ∨
                 ∃ phys ty, found = .ok phys ty ∧ (accBad b ty || kindBars o.kind ty) = true))) a.va)) ∧
  (∀ (s : State) (crew op req : Nat) (c : Crew) (o : Op) (r : Req), Arrives s crew op req c o r →
     Unordered s c → o.priv = c.priv → r.ty ≠ 0xB → r.ty ≠ tyRefused → r.snap = false → r.lane < 32 →
     r.op ≠ .pres →
     let good (q : Req) : Prop := unreachable s q.phys = false ∧
       ∀ x ∈ s.ecc, x < q.phys / 32 ∨ (q.phys + q.n - 1) / 32 < x
     let plain (q : Req) : Prop := good q ∧ (q.phys < wsBase 0 ∨ cxlBase ≤ q.phys)
     let mine := ((opsBefore c o).map (storesOf r.lane)).flatten
     0 < r.n → good r →
     (r.op = .read → (∀ q ∈ mine, q.phys + q.n ≤ r.phys ∨ r.phys + r.n ≤ q.phys) →
       ∃ k, exec (.memoryRequestArrive crew op req) s = .next (putReq { markVeil s crew (seqBefore c o r) with
         tokens := k } crew op { r with st := .done, val := cellsGet s.mem r.phys r.n })) ∧
     (∀ pre q post data, r.op = .read → mine = pre ++ q :: post →
       (∀ p ∈ post, p.phys + p.n ≤ r.phys ∨ r.phys + r.n ≤ p.phys) → q.op = .write data → q.ty = r.ty →
       r.ty ≠ tyCord → q.phys ≤ r.phys → r.phys + r.n ≤ q.phys + q.n → good q →
       (r.phys < wsBase 0 ∨ cxlBase ≤ r.phys) →
       exec (.memoryRequestArrive crew op req) s = .next (putReq (markVeil s crew (seqBefore c o r)) crew op
         { r with st := .done, val := (data.drop (r.phys - q.phys)).take r.n })) ∧
     (o.sem ≠ 3 → markVeil s crew (seqBefore c o r) = s) ∧
     (∀ data, r.op = .write data → data.length = r.n → plain r → o.reqs.Nodup →
       (∀ q ∈ o.reqs, q.stores = true → q.st = .waiting → q.phys / 32 = r.phys / 32 → q = r) →
       (∀ pre post, o.reqs = pre ++ r :: post → ∀ q ∈ pre, q.lane = r.lane → q.st ≠ .waiting) →
       ∃ b k, exec (.memoryRequestArrive crew op req) s =
         .next (putReq { s with mem := cellsPut s.mem r.phys data, behind := b, tokens := k } crew op
           { r with st := .done, val := [] })) ∧
     (∀ q data data', o.reqs = [r, q] → r.id ≠ q.id → r.lane < q.lane → q.lane < 32 →
       r.op = .write data → q.op = .write data' → data.length = r.n → data'.length = q.n → 0 < q.n →
       q.st = .waiting → q.ty ≠ 0xB → q.ty ≠ tyRefused → q.phys / 32 = r.phys / 32 → plain r → plain q →
       ∃ b k, exec (.memoryRequestArrive crew op req) s =
         .next (putReq (putReq
           { s with mem := cellsPut (cellsPut s.mem r.phys data) q.phys data', behind := b, tokens := k } crew op
           { r with st := .done, val := [] }) crew op { q with st := .done, val := [] })) ∧
     (∀ code w64 v x, r.op = .atom code w64 v x → r.n = (if w64 then 8 else 4) →
       0x64 ≤ code → code ≤ 0x70 →
       (∀ q ∈ o.reqs, q.st = .waiting → q.phys = r.phys → q = r) → o.reqs.Nodup →
       let old := cellsGet s.mem r.phys r.n
       let new : List Byte := if w64 then wordBytes 8 (atomicWord code (wordOf old) v x)
         else wordBytes 4 ((atomicWord code ((wordOf old).setWidth 32) (v.setWidth 32)
           (x.setWidth 32)).setWidth 64)
       ∃ b k, exec (.memoryRequestArrive crew op req) s =
         .next (putReq { markAhead s crew r.phys r.n (aheadOf c o r) with
           mem := cellsPut s.mem r.phys new, behind := b, tokens := k } crew op
           { r with st := .done, val := old })) ∧
     (mine = [] → markAhead s crew r.phys r.n (aheadOf c o r) = s) ∧
     (∀ code w64 v x, r.op = .atom code w64 v x → (o.sem < 2 ∨ o.scope ≤ 4) → ∀ q ∈ mine, q.stores = true →
       ∀ p ∈ opsBefore c o, q ∈ p.reqs → ∃ c', mget (markAhead s crew r.phys r.n (aheadOf c o r)).crews crew = some c' ∧
         ∃ p' ∈ c'.ops, p'.id = p.id ∧ { q with ahead := (4, r.phys, r.n) :: q.ahead } ∈ p'.reqs)) ∧
  (∀ (s : State) (crew op req : Nat) (c : Crew) (o : Op) (r : Req), Arrives s crew op req c o r →
     Unordered s c → o.priv = c.priv → r.ty ≠ 0xB → r.lane < 32 →
     let w := { whoLane s c (oneLane r.lane) o.priv with lanes := oneLane r.lane }
     let bad := s.ecc.any fun x => decide (r.phys / 32 ≤ x ∧ x ≤ (r.phys + r.n - 1) / 32)
     let refused (slice kind : Nat) : Prop := ∃ k, exec (.memoryRequestArrive crew op req) s =
       .next (putReq (vlogAdd { s with tokens := k } slice kind r.va w) crew op { r with st := .bad })
     let alone : Prop := o.reqs.Nodup ∧ ∀ q ∈ o.reqs, q.st = .waiting → q.stores = true →
       q.phys / 32 = r.phys / 32 → q = r
     (r.ty ≠ tyRefused → r.op = .read → bad = true → refused (sliceOf s r.phys) 0) ∧
     (r.ty ≠ tyRefused → r.op = .read → bad = false → unreachable s r.phys = true →
       refused (sliceOf s r.phys) 1) ∧
     (∀ data, r.ty ≠ tyRefused → r.op = .write data → data.length = r.n → alone →
       (bad = true → refused (sliceOf s r.phys) 0) ∧
       (bad = false → unreachable s r.phys = true → refused (sliceOf s r.phys) 1) ∧
       (bad = false → wsBase 0 ≤ r.phys → r.phys < cxlBase → refused (sliceOf s r.phys) 1)) ∧
     (∀ slice kind, r.ty = tyRefused → kind < 2 → r.phys = refusedAt slice kind →
       (r.op = .read ∨ ∃ data, r.op = .write data) → refused slice kind)) ∧
  ((∀ (s : State) (key : Nat) (c : Crew) (o : Op) (l : Launch) (u : UnitSt), mget s.crews key = some c →
     o ∈ c.ops → o.done = false → o.accs ≠ [] → o.pages = [] → mayReissue s key = true → c.priv = false →
     o.priv = false → mget s.units c.uid = some u → mget s.launches u.lid = some l → l.ordered = true →
     mayTranslate s c o = true → (∀ y sx n, o.kind ≠ .ldsym y sx n) → o.kind ≠ .frcy →
     (∀ a ∈ o.accs, accMis a = false ∧ a.lane < 32 ∧ match a.op with
       | .xrd _ | .xsnap _ => False
       | _ => True) →
     let w := { whoLane s c o.active false with lanes := o.active }
     let all := (o.accs.map fun a => (accParts a).map fun p => (a, p)).flatten
     let entry (r : Req) (data : List Byte) : SerEntry := .store r.phys r.va data c.slot r.lane
     let holds (es : List SerEntry) : UnitSt :=
       { u with serial := u.serial ++ es, serialBytes := u.serialBytes + (es.map serSize).sum }
     let add (t : State) (es : List SerEntry) : State := { t with units := mput t.units c.uid (holds es) }
     let refused (t : State) (a : Acc) : Prop := ∃ c' o', resumeOp s key o = putCrew t key c' ∧ o' ∈ c'.ops ∧
       o'.id = o.id ∧ o'.done = true ∧ o'.cls = clsProt ∧ o'.bad = oneLane a.lane ∧ o'.addr = a.va ∧ o'.reqs = []
     (∀ (rs : List Req) (t : State) (es : List (Req × List Byte)), rs ≠ [] → Reaches w o.kind all s rs t → (∀ r ∈ rs, sharing t w r.va.toNat r.ty = .shared) →
       rs.map (·.op) = es.map (fun e : Req × List Byte => .write e.2) → rs = es.map (·.1) →
       u.serialBytes + ((es.map fun e => 16 + e.2.length).sum) ≤ 2 ^ 20 →
       resumeOp s key o = putCrew (add t (es.map fun e => entry e.1 e.2)) key (putOp c { o with
         accs := [], pages := []
         reqs := o.reqs ++ rs.map fun r => { r with st := .done, defer := true } })) ∧
     ∀ a r t, o.accs = [a] → Reaches w o.kind all s [r] t →
       (∀ data, r.op = .write data → sharing t w r.va.toNat r.ty = .shared →
         2 ^ 20 < u.serialBytes + 16 + data.length → refused t a) ∧
       ((r.op = .read ∨ (∃ data, r.op = .write data) ∨ ∃ code w64 v x, r.op = .atom code w64 v x) →
         (r.op ≠ .read → sharing t w r.va.toNat r.ty ≠ .shared) →
         resumeOp s key o = putCrew t key (putOp c { o with
           accs := [], pages := []
           reqs := o.reqs ++ [{ r with snap := decide (r.op = .read ∧ sharing t w r.va.toNat r.ty = .shared) }] })) ∧
       (∀ code w64 v x, r.op = .atom code w64 v x → sharing t w r.va.toNat r.ty = .shared →
         r.phys % (if w64 then 8 else 4) = 0 →
         (∀ e ∈ u.serial, ∀ p va cd d64 v' x' sl ln, e = .atom p va cd d64 v' x' sl ln →
           p % (if d64 then 8 else 4) = 0 ∧ 0x64 ≤ cd ∧ cd ≤ 0x70) →
         (2 ^ 20 < u.serialBytes + 32 → refused t a) ∧
         (u.serialBytes + 32 ≤ 2 ^ 20 → resumeOp s key o =
           putCrew (add t [.atom r.phys r.va code w64 v x c.slot r.lane]) key (putOp c { o with
             accs := [], pages := []
             reqs := o.reqs ++ [{ r with
               st := .done, defer := true
               val := (List.range (if w64 then 8 else 4)).map fun i =>
                 afterAtomics (cellGet l.snap) u.serial (r.phys + i) }] }))) ∧
       (∀ v g, r.op = .fprop v g → badCellTag v.toNat = false → c.core < 256 → c.slot < 64 →
         let w1 := wordOf (cellsGet l.snap (r.phys + 8) 8)
         let winner : BitVec 40 := BitVec.ofNat 2 (c.core / 64 % 4) ++ BitVec.ofNat 6 (c.core % 64) ++
           BitVec.ofNat 6 c.slot ++ BitVec.ofNat 5 r.lane ++ (0 : BitVec 21)
         let status (win : BitVec 40) (code : BitVec 8) : Word := win ++ code ++ w1.extractLsb' 0 16
         wordOf (cellsGet l.snap r.phys 8) = 0 → w1.extractLsb' 16 48 = 0 → g = w1.extractLsb' 0 16 →
         (2 ^ 20 < u.serialBytes + 32 → refused t a) ∧
         (u.serialBytes + 32 ≤ 2 ^ 20 →
           let proposed (es : List SerEntry) : Prop := ∃ va x wn sl ln, .prop r.phys va x g wn sl ln ∈ es
           let answer (x st : Word) : Prop := resumeOp s key o =
             putCrew (add t [.prop r.phys r.va v g (winner ++ (0 : BitVec 24)) c.slot r.lane]) key (putOp c { o with
               accs := [], pages := []
               reqs := o.reqs ++ [{ r with st := .done, defer := true, val := wordBytes 8 x ++ wordBytes 8 st }] })
           (¬ proposed u.serial → answer v (status winner 0)) ∧
           ∀ pre post va1 v1 wn sl ln, u.serial = pre ++ .prop r.phys va1 v1 g wn sl ln :: post → ¬ proposed pre →
             answer v1 (status (wn.extractLsb' 24 40) 1)))) ∧
   ∀ (s : State) (crew op req : Nat) (c : Crew) (o : Op) (r : Req) (l : Launch), Arrives s crew op req c o r →
     o.priv = c.priv → r.ty ≠ 0xB → r.ty ≠ tyRefused → r.lane < 32 →
     let w := { whoLane s c (oneLane r.lane) o.priv with lanes := oneLane r.lane }
     let sh := sharing s w r.va.toNat r.ty
     mget s.launches w.lid = some l → 0 < r.n →
     (r.op = .read → r.snap = true → sh = .shared → eccBad s r.phys r.n = false → unreachable s r.phys = false →
       ∃ k f b, exec (.memoryRequestArrive crew op req) s = .next (putReq { markVeil s crew (seqBefore c o r) with
         tokens := k, free := f } crew op { r with st := .done, val := b }) ∧ b.length = r.n ∧
         ∀ i, i < r.n → b.getD i 0 = cellGet l.snap (r.phys + i) ∨ b.getD i 0 = cellGet s.mem (r.phys + i)) ∧
     (sh = .foreign → o.reqs = [r] →
       (r.op = .read ∨ (∃ data, r.op = .write data) ∨ ∃ code w64 v x, r.op = .atom code w64 v x) →
       exec (.memoryRequestArrive crew op req) s =
         .next (putReq (vlogAdd (markAhead (markVeil s crew (seqBefore c o r)) crew r.phys r.n (aheadOf c o r))
           (sliceOf s r.phys) 2 r.va w) crew op { r with st := .bad }))) ∧
  (∀ (s : State) (crew op req : Nat) (c : Crew) (o p : Op) (r q : Req), mget s.crews crew = some c →
     c.ops.find? (fun x => decide (x.id = op)) = some o →
     o.reqs.find? (fun x => decide (x.id = req)) = some r →
     p ∈ c.ops → p.id ≠ o.id → p.priv = o.priv → p.seq < o.seq → q ∈ p.reqs → q.lane = r.lane →
     (q.st = .waiting ∨ q.st = .waiter) → q.phys < r.phys + r.n → r.phys < q.phys + q.n →
     (r.op = .read → q.op.reads = false → forwarded s c o r = none) → r.op ≠ .pres →
     exec (.memoryRequestArrive crew op req) s = .next s ∧ exec (.flintProposal crew op req) s = .next s ∧
     exec (.flintRecycle crew op req) s = .next s)

/-- A proposal of the current generation decides an undecided cell and gets its own value with status 0; in a
decided cell it gets the decision with status 1, and one of an earlier generation gets status 2 and what the
cell holds, decided or not; one of a generation to come gets an error response (R303 to R305, R310). Those who
wait for the decision get it (R312). FRCY of the current generation makes a decided cell undecided with the next
generation; otherwise the cell stays as it is, with status 1 while it is undecided and status 2 for another
generation (R305, R313). -/
def Obligations.FlintCells : Prop :=
  (∀ (s : State) (crew op req : Nat) (c : Crew) (o : Op) (r : Req) (v : Word) (g : BitVec 16),
     Arrives s crew op req c o r → r.op = .fprop v g → r.ty ≠ tyRefused → r.lane < 32 → c.core < 256 →
     c.slot < 64 → eccBad s r.phys 16 = false →
     let v0 := wordOf (cellsGet s.mem r.phys 8)
     let w1 := wordOf (cellsGet s.mem (r.phys + 8) 8)
     let winner : BitVec 40 := BitVec.ofNat 2 (c.core / 64 % 4) ++ BitVec.ofNat 6 (c.core % 64) ++
       BitVec.ofNat 6 c.slot ++ BitVec.ofNat 5 r.lane ++ (0 : BitVec 21)
     let status (win : BitVec 40) (code : BitVec 8) : Word := win ++ code ++ w1.extractLsb' 0 16
     let has (t : State) (k i j : Nat) (p : Req → Prop) : Prop := ∃ c' o' r', mget t.crews k = some c' ∧
       o' ∈ c'.ops ∧ o'.id = i ∧ r' ∈ o'.reqs ∧ r'.id = j ∧ p r'
     let answers (a b : Word) (q : Req) : Prop := q.st = .done ∧ q.val = wordBytes 8 a ++ wordBytes 8 b
     let answered (t : State) (a b : Word) : Prop := has t crew op req (answers a b)
     (v0 = 0 → w1.extractLsb' 16 48 = 0 → g = w1.extractLsb' 0 16 →
       ∃ t, exec (.flintProposal crew op req) s = .next t ∧ answered t v (status winner 0) ∧
         wordOf (cellsGet t.mem r.phys 8) = v ∧
         wordOf (cellsGet t.mem (r.phys + 8) 8) = status winner 1 ∧
         (∀ a, (a < r.phys ∨ r.phys + 16 ≤ a) → cellGet t.mem a = cellGet s.mem a) ∧
         (∀ x ∈ t.waiters, x.phys = r.phys → x.gen ≠ g) ∧
         ∀ k i j, (k, i, j) ≠ (crew, op, req) →
           has s k i j (fun q => q.st = .waiter ∧ q.op = .fwait g ∧ q.phys = r.phys) →
           has t k i j (answers v (status winner 0))) ∧
     (v0 = 0 → w1.extractLsb' 16 48 = 0 → 0x8000 ≤ (g - w1.extractLsb' 0 16).toNat →
       ∃ t, exec (.flintProposal crew op req) s = .next t ∧ t.mem = s.mem ∧ answered t 0 (status 0 2)) ∧
     (v0 = 0 → w1.extractLsb' 16 48 = 0 → 0 < (g - w1.extractLsb' 0 16).toNat →
       (g - w1.extractLsb' 0 16).toNat < 0x8000 →
       ∃ t, exec (.flintProposal crew op req) s = .next t ∧ t.mem = s.mem ∧
         has t crew op req fun q => q.st = .bad) ∧
     (w1.extractLsb' 16 8 = 1 → w1.extractLsb' 24 20 = 0 →
       1 ≤ (v0.extractLsb' 60 4).toNat → (v0.extractLsb' 60 4).toNat < 8 →
       (g = w1.extractLsb' 0 16 → ∃ t, exec (.flintProposal crew op req) s = .next t ∧ t.mem = s.mem ∧
         answered t v0 (status (w1.extractLsb' 24 40) 1)) ∧
       (0x8000 ≤ (g - w1.extractLsb' 0 16).toNat → ∃ t, exec (.flintProposal crew op req) s = .next t ∧
         t.mem = s.mem ∧ answered t v0 (status (w1.extractLsb' 24 40) 2)))) ∧
  (∀ (s : State) (crew op req : Nat) (c : Crew) (o : Op) (r : Req) (g : BitVec 16),
     Arrives s crew op req c o r → r.op = .frcy g → r.ty ≠ tyRefused → r.lane < 32 →
     eccBad s r.phys 16 = false →
     let v0 := wordOf (cellsGet s.mem r.phys 8)
     let w1 := wordOf (cellsGet s.mem (r.phys + 8) 8)
     let decided := w1.extractLsb' 16 8 = 1 ∧ w1.extractLsb' 24 20 = 0 ∧
       1 ≤ (v0.extractLsb' 60 4).toNat ∧ (v0.extractLsb' 60 4).toNat < 8
     let answered (t : State) (b : Word) : Prop := ∃ c' o' r', mget t.crews crew = some c' ∧ o' ∈ c'.ops ∧
       o'.id = op ∧ r' ∈ o'.reqs ∧ r'.id = req ∧ r'.st = .done ∧ r'.val = wordBytes 8 b
     (decided → g = w1.extractLsb' 0 16 →
       ∃ t, exec (.flintRecycle crew op req) s = .next t ∧
         answered t (w1.extractLsb' 24 40 ++ (0 : BitVec 8) ++ (g + 1)) ∧
         wordOf (cellsGet t.mem r.phys 8) = 0 ∧
         wordOf (cellsGet t.mem (r.phys + 8) 8) = (g + 1).setWidth 64 ∧
         ∀ a, (a < r.phys ∨ r.phys + 16 ≤ a) → cellGet t.mem a = cellGet s.mem a) ∧
     (decided → g ≠ w1.extractLsb' 0 16 → ∃ t, exec (.flintRecycle crew op req) s = .next t ∧
       t.mem = s.mem ∧ answered t (w1.extractLsb' 24 40 ++ (2 : BitVec 8) ++ w1.extractLsb' 0 16)) ∧
     (v0 = 0 → w1.extractLsb' 16 48 = 0 →
       ∃ t, exec (.flintRecycle crew op req) s = .next t ∧ t.mem = s.mem ∧
         answered t ((0 : BitVec 40) ++ (if g = w1.extractLsb' 0 16 then (1 : BitVec 8) else 2) ++
           w1.extractLsb' 0 16)))

/-- An operation whose requests are all performed completes: each destination entry gets its result, its flag
falls, and the operation is gone; other entries and PCs stay as they are (R71, R72, R79, R173, R179, R309). -/
def Obligations.OperationsComplete : Prop :=
  ∀ (s : State) (crew : Nat) (c : Crew) (o : Op), mget s.crews crew = some c → o ∈ c.ops →
    (∀ p ∈ c.ops, p.id = o.id → p = o) → o.done = false → o.accs = [] → o.left = 0 → o.priv = c.priv →
    (∀ r ∈ o.reqs, r.st = .done) → (o.dsts.map fun d => (d.1, d.2.2)).Nodup →
    let bytes (l : Nat) : List Byte := ((o.reqs.filter fun r => decide (r.lane = l)).map (·.val)).flatten
    let value (l part : Nat) : Option Word := match o.kind with
      | .ld sx n => some (if n = 16 then wordOf (((bytes l).drop (8 * part)).take 8)
        else if sx then sext (wordOf (bytes l)) (8 * n) else wordOf (bytes l))
      | .atom sx w64 => some (if sx && !w64 then sext (wordOf (bytes l)) 32 else wordOf (bytes l))
      | .st | .pres | .flint | .frcy => some (wordOf (((bytes l).drop (8 * part)).take 8))
      | _ => none
    (value 0 0).isSome = true →
    ∃ c', exec (.longLatencyComplete crew o.id) s = .next (putCrew s crew c') ∧
      (∀ p ∈ c'.ops, p.id ≠ o.id) ∧
      (∀ f, o.flag = some f → mgetD c'.flags f 0 = mgetD c.flags f 0 - 1) ∧
      (∀ d ∈ o.dsts, mget (thOf c' d.1).rf d.2.2 = (value d.1 d.2.1).map .known) ∧
      (∀ l e, (∀ d ∈ o.dsts, d.1 ≠ l ∨ d.2.2 ≠ e) → mget (thOf c' l).rf e = mget (thOf c l).rf e) ∧
      (∀ l, (thOf c' l).pc = (thOf c l).pc ∧ (thOf c' l).preds = (thOf c l).preds ∧
        (thOf c' l).frame = (thOf c l).frame)

/-- A reader at the due cycle or later sees the last result in program order for each register, whatever else is
in flight for it (R71). The results of an instruction may complete before its class latency has passed, in all
lanes together: then they are in place, and writes of the same targets that come before them are dropped (R71,
R88). -/
def Obligations.ExposedLatency : Prop :=
  (∀ (c : Crew) (now : Nat) (p : PendW) (entry : Nat) (v : RegVal), p ∈ c.pend → p.tgt = .reg entry v →
     p.due ≤ now →
     (∀ q ∈ c.pend, q.lane = p.lane → (∃ w, q.tgt = .reg entry w) → q = p ∨ q.seq < p.seq) →
     mgetD (thOf (settle now c) p.lane).rf entry (.known 0) = v ∧
     ∀ q ∈ (settle now c).pend, q.lane = p.lane → ∀ w, q.tgt ≠ .reg entry w) ∧
  (∀ (s : State) (crew k : Nat) (c : Crew) (p : PendW), mget s.crews crew = some c → c.pend[k]? = some p →
     let now (q : PendW) : Prop := q ∈ c.pend ∧ (q.seq = p.seq ∨ q.due = 0)
     ∃ c', exec (.resultWriteComplete crew k) s = .next (putCrew s crew c') ∧
       (∀ q e v, now q → q.tgt = .reg e v →
         (∀ z, now z → z.lane = q.lane → (∃ w, z.tgt = .reg e w) → z = q) →
         mget (thOf c' q.lane).rf e = some v ∧
         ∀ z ∈ c'.pend, z.lane = q.lane → z.seq < q.seq → ∀ w, z.tgt ≠ .reg e w) ∧
       (∀ l e, (∀ q, now q → q.lane = l → ∀ w, q.tgt ≠ .reg e w) →
         mget (thOf c' l).rf e = mget (thOf c l).rf e) ∧
       (∀ q ∈ c'.pend, q.seq ≠ p.seq) ∧
       (∀ q ∈ c'.pend, ∀ e w, q.tgt = .reg e w → q ∈ c.pend) ∧
       (∀ l, (∀ q, now q → q.lane = l → ∀ n b, q.tgt ≠ .pred n b) → (thOf c' l).preds = (thOf c l).preds) ∧
       ∀ l, (thOf c' l).pc = (thOf c l).pc)

/-! ## Fences, barriers and expert counters -/

/-- FENCE goes on once the earlier reads and writes that its kind names are performed in the active lanes; until
then its group waits, or goes on while only stores with known targets are in the way, which it marks with its
scope: past a release or both, and past a sequential FENCE of a scope narrower than the package, where these
stores also keep their bytes from the scope. Whether it does is free (log 4). An access by another thread in the
scope of such a store to the bytes that it keeps waits for that store (R185, R187, R192 to R195); PRES does not
(R177). Threads arrive at a hardware barrier once their earlier accesses are performed. A thread that has
already arrived in this generation is held for the next one; with BAR every other thread waits too. When the
last live member has arrived, the generation ends and its waiting threads go on (R40 to R42, R203). -/
def Obligations.FencesAndBarriers : Prop :=
  ((∀ (h : Hdr) (scope : BitVec 3) (kind : BitVec 2) (s : State) (c : Crew) (act : Mask),
     let i : Instr := .fence h scope kind
     let reads := decide (kind ≠ 1)
     let writes := decide (kind ≠ 0)
     let later : State := { s with free := s.free + 1 }
     let waits (t : State) : Prop := exec i s = .next { putCrew (startOf s c) s.iss.crew
       { modThs c (lanesOf (groupOf s c)) (fun _ u => { u with park := .quiet act reads writes }) with
         hint := Hints.none } with free := t.free }
     Issues i s c act →
     (maskBusy c act reads writes = false → Does i s c act [] s c (fun _ => nextWord s) []) ∧
     (maskBusy c act reads writes = true →
       (kind = 0 ∨ maskBusy c act reads false = true ∨ (kind = 3 ∧ 5 ≤ scope.toNat) ∨
         (∃ l ∈ lanesOf act, ∃ o ∈ c.ops, opBusy c l false true o = true ∧ storesOnly o l = false) → waits s) ∧
       (kind ≠ 0 → waits s ∨ waits later ∨ ∃ c1, Does i s c act [] later c1 (fun _ => nextWord s) [] ∧
         (let bare (c : Crew) : Crew := { c with ops := c.ops.map fun o => { o with reqs := o.reqs.map fun q =>
            { q with vis := if kind = 3 then 0 else q.vis, fenced := 0 } } }
          bare c1 = bare c) ∧
         ∀ o ∈ c1.ops, o.priv = c.priv → ∀ q ∈ o.reqs, inMask act q.lane = true → q.lane < 32 → q.open_ = true →
           q.op.reads = false → scope.toNat ≤ q.fenced ∧ (kind = 3 → scope.toNat ≤ q.vis)))) ∧
   ∀ (s : State) (crew op req : Nat) (c : Crew) (o p : Op) (r q : Req) (d : Nat × Crew) (scope at_ n : Nat),
     mget s.crews crew = some c → c.ops.find? (fun x => decide (x.id = op)) = some o →
     o.reqs.find? (fun x => decide (x.id = req)) = some r → d ∈ s.crews → p ∈ d.2.ops → q ∈ p.reqs →
     (scope = q.vis ∧ q.vis ≠ 0 ∧ at_ = q.phys ∧ n = q.n ∨ (scope, at_, n) ∈ q.ahead) → q.st = .waiting →
     at_ < r.phys + r.n → r.phys < at_ + n →
     sameInstance s scope (whoLane s d.2 0 d.2.priv) (whoLane s c 0 o.priv) = true →
     (d.2.uid ≠ c.uid ∨ q.lane ≠ r.lane) → r.op ≠ .pres →
     exec (.memoryRequestArrive crew op req) s = .next s ∧ exec (.flintProposal crew op req) s = .next s ∧
       exec (.flintRecycle crew op req) s = .next s) ∧
  (∀ (h : Hdr) (n : BitVec 4) (lvl : BitVec 2) (s : State) (c : Crew) (act : Mask) (u : UnitSt),
     c.priv = false → mget s.units c.uid = some u → maskBusy c act true true = false →
     let key := barKey lvl.toNat n.toNat c.idx u.cluster
     let b := barGet s c.uid u.lid lvl.toNat key
     let ids := (lanesOf act).map (threadIndex s c)
     let put (t : State) (b : Bar) : State := barPut t c.uid u.lid lvl.toNat key b
     let goes (i : Instr) (waits : Bool) : Prop := Issues i s c act →
       let b' : Bar :=
         { arrived := b.arrived ++ ids.filter fun t => !b.arrived.contains t
           waiting := b.waiting ++ if waits then ids.filter fun t => !b.arrived.contains t else []
           next := b.next ++ (ids.filter b.arrived.contains).map fun t => (t, waits) }
       let c1 := modThs c ((lanesOf act).filter fun l => waits || b.arrived.contains (threadIndex s c l))
         fun _ t => { t with park := .bar lvl.toNat n.toNat (if lvl.toNat < 2 then c.uid else u.lid) }
       ∃ t c', Issued [] s t c1 c' (groupOf s c) act (fun _ => nextWord s) [] ∧
         ((barMembers s c.uid u.lid lvl.toNat key).all (fun ms => ms.any fun m => !b'.arrived.contains m) →
           exec i s = .next (put t b')) ∧
         ((barMembers s c.uid u.lid lvl.toNat key).any (fun ms => ms.all b'.arrived.contains) →
           b'.next = [] → exec i s = .next (unparkAll (put t Bar.idle) u.lid b'.waiting))
     goes (.bar h n lvl) true ∧ goes (.barArv h n lvl) false)

/-- Threads arrive at a named barrier under the count of its open use, which the first arrival names; a number
outside the launch's barriers or a count outside 1 to 32 × crews raises PROTECTION (R44, R45). All active lanes
arrive in one step, and the use ends only after the last of them (log 35, DEDUCED). A named barrier's use ends
when its count has arrived, or as soon as it can no longer be reached; each waiter goes on with its status
predicate saying which (R44 to R46). -/
def Obligations.NamedBarriers : Prop :=
  (∀ (h : Hdr) (pd : PCode) (n : BitVec 5) (b : Code) (s : State) (c : Crew) (act : Mask) (u : UnitSt)
     (la : Launch),
     c.priv = false → mget s.units c.uid = some u → mget s.launches u.lid = some la →
     let nb := mgetD u.nbars n.toNat NBar.idle
     let ids := (lanesOf act).map (threadIndex s c)
     let goes (i : Instr) (pd : Nat) (waits : Bool) : Prop := Issues i s c act → Plain c act [b] →
       let count := ((regW c (lowLane act) b.toNat).extractLsb' 0 11).toNat
       let wrong := (nb.count = 0 ∨ (∃ t ∈ ids, t ∈ nb.arrived)) ∧ (count = 0 ∨ 32 * la.crews < count)
       (la.nbar ≤ n.toNat ∨ wrong → TrapsAt i s c act clsProt 0 act) ∧
       (n.toNat < la.nbar → ¬wrong → maskBusy c act true true = false →
         let fresh := ids.filter fun t => !nb.arrived.contains t
         let nb' : NBar :=
           { count := if nb.count = 0 then count else nb.count
             arrived := nb.arrived ++ fresh
             waiting := nb.waiting ++ if waits then fresh.map fun t => (t, pd) else []
             next := nb.next ++ (ids.filter nb.arrived.contains).map fun t => (t, waits, pd, count) }
         let c1 := modThs c ((lanesOf act).filter fun l => waits || nb.arrived.contains (threadIndex s c l))
           fun _ t => { t with park := .nbar n.toNat pd }
         ∃ t c', Issued [b.toNat] s t c1 c' (groupOf s c) act (fun _ => nextWord s) [] ∧
           exec i s = .next (nbarSettle
             (modUnit t c.uid fun u => { u with nbars := mput u.nbars n.toNat nb' }) c.uid u.lid n.toNat)) ∧
       (n.toNat < la.nbar → ¬wrong → maskBusy c act true true = true →
         Parks i s c (.quiet act true true))
     goes (.nbar h pd n b) pd.toNat true ∧ goes (.nbarArv h n b) 7 false) ∧
  (∀ (s : State) (uid n : Nat) (u : UnitSt) (b : NBar) (ms : List Nat), mget s.units uid = some u →
     mget u.nbars n = some b → b.next = [] → b.count ≠ 0 → barMembers s uid u.lid 1 0 = some ms →
     (b.waiting.map (·.1)).Nodup →
     let full := decide (b.count ≤ b.arrived.length)
     let missing := (ms.filter fun t => !b.arrived.contains t).length
     let t := nbarSettle s uid u.lid n
     (full = false → b.count - b.arrived.length ≤ missing → t = s) ∧
     (full = true ∨ missing < b.count - b.arrived.length →
       (∀ x ∈ b.waiting, ∀ key lane c, threadAt s u.lid x.1 = some (key, lane) → mget s.crews key = some c →
         (∀ y ∈ b.waiting, y ≠ x → threadAt s u.lid y.1 ≠ some (key, lane)) →
         ∃ c', mget t.crews key = some c' ∧ (progTh c' lane).park = .none ∧
           (x.2 < 7 → (progTh c' lane).preds.getLsbD x.2 = full) ∧
           (progTh c' lane).pc = (progTh c lane).pc ∧ (progTh c' lane).rf = (progTh c lane).rf) ∧
       ∃ u', mget t.units uid = some u' ∧ mget u'.nbars n = some NBar.idle))

/-- XCNT adds each active lane's increment to its counter, saturating, and completes at once when the lanes have
nothing earlier on its way; it waits for their earlier reads, and earlier stores may stay behind it with marks
(R187, R188, log 4). In an ordered launch the increments enter the serial buffer, lanes in order, after the
crew's earlier operations; one that would pass 1 MiB raises PROTECTION (R332). A counter outside the job's
window raises PROTECTION and counts nothing (R285 to R287). XRD and XSNAP put one request for each active lane
in flight, to a register or through a port; with a counter outside the window the operation records PROTECTION
at once (R286, R287). At the counter, XRD answers its value and XSNAP answers it and clears the counter; each
spends a token (R360), and XSNAP marks the lane's stores that it goes ahead of (R187, log 4). -/
def Obligations.ExpertCounters : Prop :=
  (∀ (h : Hdr) (a b : Code) (s : State) (c : Crew) (act : Mask),
     let i : Instr := .xcnt h a b
     Issues i s c act → Plain c act [a, b] →
     let bad := maskOf fun l => inMask act l && (counterOf s c (regW c l a.toNat)).isNone
     (bad ≠ 0 → TrapsAt i s c act clsProt 0 bad) ∧
     let ordered := isOrdered s (whoLane s c 0 c.priv).lid && !c.priv
     let place (l : Nat) : Nat := xctrPlace ((counterOf s c (regW c l a.toNat)).getD 0)
     let inc (l : Nat) : Nat := (regW c l b.toNat).toNat % 2 ^ 32
     let counts (k : Map Nat) : State := { s with
       tokens := k
       xctrs := (lanesOf act).foldl (fun m l =>
         let x := (counterOf s c (regW c l a.toNat)).getD 0
         mput m x (min (mgetD m x 0 + inc l) 0xFFFFFFFF)) s.xctrs }
     let quiet : Prop := maskBusy c act true true = false ∧
       (∀ l ∈ lanesOf act, ∀ o ∈ c.ops, storesOf l o = []) ∧
       ∀ l ∈ lanesOf act, veiled s (whoLane s c act c.priv) (some l) (place l) 4 = false
     let bare (c : Crew) : Crew := { c with ops := c.ops.map fun o => { o with reqs := o.reqs.map fun q =>
       { q with ahead := [] } } }
     (bad = 0 → ordered = false → quiet →
       ∃ k, Does i s c act [a.toNat, b.toNat] (counts k) c (fun _ => nextWord s) []) ∧
     (bad = 0 → ordered = false → maskBusy c act true false = true → Parks i s c (.quiet act true true)) ∧
     (bad = 0 → ordered = false → Parks i s c (.quiet act true true) ∨ Parks i s c .veil ∨
       ∃ k c1, Does i s c act [a.toNat, b.toNat] (counts k) c1 (fun _ => nextWord s) [] ∧ bare c1 = bare c ∧
         ∀ o ∈ c1.ops, o.priv = c.priv → ∀ l ∈ lanesOf act, ∀ q ∈ storesOf l o, (4, place l, 4) ∈ q.ahead) ∧
     (bad = 0 → ordered = true → appendsOpen c = true → Parks i s c .appends) ∧
     ∀ u, bad = 0 → ordered = true → appendsOpen c = false → quiet → mget s.units c.uid = some u →
       (u.serialBytes + 32 * (lanesOf act).length ≤ 2 ^ 20 →
         Does i s c act [a.toNat, b.toNat] { s with units := mput s.units c.uid { u with
             serial := u.serial ++ (lanesOf act).map fun l =>
               .count ((counterOf s c (regW c l a.toNat)).getD 0) (inc l) c.slot
             serialBytes := u.serialBytes + 32 * (lanesOf act).length } }
           c (fun _ => nextWord s) []) ∧
       (2 ^ 20 < u.serialBytes + 32 * (lanesOf act).length → TrapsAt i s c act clsProt 0 (maskOf fun l =>
         inMask act l && decide (2 ^ 20 < u.serialBytes + 32 * ((lanesOf act).filter (decide <| · ≤ l)).length)))) ∧
  ((∀ (h : Hdr) (d a : Code) (s : State) (c : Crew) (act : Mask), Plain c act [a] →
     let bad := maskOf fun l => inMask act l && (counterOf s c (regW c l a.toNat)).isNone
     let p := portOf c d.toNat
     let goes (i : Instr) (req : Nat → AccOp) : Prop := Issues i s c act →
       let accs := laneAccs act (fun _ => 0) 4 fun l => req ((counterOf s c (regW c l a.toNat)).getD 0)
       let o := opFor s c act .xcounter (trackedLook c) accs
         (if d.toNat < 28 then entriesOf c act d.toNat 0 else [])
       (bad = 0 → d.toNat < 28 → Launches i s c act [a.toNat] s c o) ∧
       (bad = 0 → 28 ≤ d.toNat → p.handle ≠ 0 →
         Launches i s c act [a.toNat] s (setPort c d.toNat { advancePort p with wr := true })
           { o with args := ((lanesOf act).filter fun l => portInside p (portCoord p l)).map fun l =>
               (l, portAddr p (portCoord p l), BitVec.ofNat 64 p.size, 0) }) ∧
       (28 ≤ d.toNat → p.handle = 0 → TrapsAt i s c act clsProt 0 act) ∧
       (bad ≠ 0 → d.toNat < 28 ∨ p.handle ≠ 0 → ∃ t c', Issued [a.toNat] s t c c' (groupOf s c) act (fun _ => nextWord s) [] ∧
         exec i s = .next { putCrew t s.iss.crew { c' with ops := c'.ops ++ [{ o with
           bad := bad, cls := clsProt, done := true, accs := [], dsts := [] }] } with nextId := s.nextId + 1 })
     goes (.xrd h d a) .xrd ∧ goes (.xsnap h d a) .xsnap) ∧
   ∀ (s : State) (crew op req x : Nat) (c : Crew) (o : Op) (r : Req), Arrives s crew op req c o r →
     Unordered s c → r.ty ≠ tyRefused →
     let answered := { r with st := .done, val := wordBytes 8 (BitVec.ofNat 64 (mgetD s.xctrs x 0)) }
     (r.op = .xrd x → ∃ k, exec (.memoryRequestArrive crew op req) s =
       .next (putReq { markVeil s crew (seqBefore c o r) with tokens := k } crew op answered)) ∧
     (r.op = .xsnap x → ∃ k, exec (.memoryRequestArrive crew op req) s =
       .next (putReq { markAhead s crew r.phys r.n (aheadOf c o r) with xctrs := mdel s.xctrs x, tokens := k }
         crew op answered)))

/-! ## Streams, landing counters and engines -/

/-- STRM binds a port to the layout record at its handle, or unbinds it, after the lanes' earlier reads and
their stores to the record (R186, R188); a refused record's PROTECTION names every active lane (log 52,
DEDUCED). STRMS sets a position and carries upward; STRMS.RD reads one; LAYH drops entries of the core's layout
cache (R63, R283, R284). Advancing a stream port by one issue moves dimension 0 by 32 and carries upward: the
position is the old one plus 32 in the mixed radix of the extents, where the last dimension takes the rest. Each
position keeps 32 bits (R63, R64; that the carry is exact is read from the manual by inference, log 65). -/
def Obligations.Streams : Prop :=
  (∀ (h : Hdr) (q : BitVec 2) (d a : Code) (dim : BitVec 3) (s : State) (c : Crew) (act : Mask),
     Plain c act [a] →
     let code := 28 + q.toNat
     let p := portOf c code
     let v := regW c (lowLane act) a.toNat
     let w := { (issueCtx (.strm h q a) s c).w with lanes := oneLane (lowLane act) }
     (Issues (.strm h q a) s c act →
       (v = 0 → Does (.strm h q a) s c act [a.toNat] s (setPort c code Port.unbound) (fun _ => nextWord s) []) ∧
       (v.toNat % 64 ≠ 0 → TrapsAt (.strm h q a) s c act clsProt v act) ∧
       (v ≠ 0 → v.toNat % 64 = 0 →
         (maskBusy c act true false = true → Parks (.strm h q a) s c (.quiet act true false)) ∧
         (maskBusy c act true false = false → (lanesOf act).any (loadHeld c) = true →
           Parks (.strm h q a) s c (.quiet act true true))) ∧
       (v ≠ 0 → v.toNat % 64 = 0 → maskBusy c act true false = false → (lanesOf act).any (loadHeld c) = false →
         (∀ e ∈ parts v 64, ∀ s' phys ty, xlat (startOf s c) (issueCtx (.strm h q a) s c).w .load e.1 =
           (s', .ok phys ty) → ∀ l ∈ lanesOf act, ∀ o ∈ c.ops, o.priv = c.priv → ∀ r ∈ storesOf l o,
             phys + e.2 ≤ r.phys ∨ r.phys + r.n ≤ phys) →
         ∀ s1 ws, layRead w .load v (startOf s c) = .ok s1 ws →
         mget s1.crews s.iss.crew = some c →
         let elem := ((ws.getD 0 0).extractLsb' 60 4).toNat
         let dims := ((ws.getD 0 0).extractLsb' 57 3).toNat
         let half (k j : Nat) : BitVec 32 := (ws.getD (k + j / 2) 0).extractLsb' (32 * (j % 2)) 32
         let valid := elem ≤ 3 ∧ 1 ≤ dims ∧ dims ≤ 5 ∧ (∀ j, j < dims → half 2 j ≠ 0) ∧
           (ws.getD 4 0).extractLsb' 32 32 = 0 ∧ (ws.getD 7 0).extractLsb' 32 32 = 0
         (valid → Does (.strm h q a) s c act [a.toNat] { s1 with nextSeq := s.nextSeq }
           (setPort c code
             { handle := v, base := ((ws.getD 0 0).extractLsb' 0 57).setWidth 64, size := 2 ^ elem
               pad := ws.getD 1 0
               stride := [0, 1, 2, 3, 4].map fun j => if j < dims then half 5 j else 0
               ext := [0, 1, 2, 3, 4].map fun j => if j < dims then (half 2 j).toNat else 1
               pos := [0, 0, 0, 0, 0], wr := false })
           (fun _ => nextWord s) []) ∧
         (¬valid → exec (.strm h q a) s = .next (takeTrap s1 s.iss.crew (trapOf s act clsProt v act))))) ∧
     (Issues (.strms h q a dim) s c act →
       (p.handle = 0 → TrapsAt (.strms h q a dim) s c act clsProt 0 act) ∧
       (p.handle ≠ 0 → Does (.strms h q a dim) s c act [a.toNat] s
         (setPort c code { p with
           pos := (carryFrom dim.toNat (p.pos.set dim.toNat (v.toNat % 2 ^ 32)) p.ext).map (· % 2 ^ 32) })
         (fun _ => nextWord s) [])) ∧
     (Issues (.strmsRd h d q dim) s c act → d.toNat < 28 →
       (p.handle = 0 → TrapsAt (.strmsRd h d q dim) s c act clsProt 0 act) ∧
       (p.handle ≠ 0 → Does (.strmsRd h d q dim) s c act [] s
         (regAtOnce s c act d fun _ => (BitVec.ofNat 32 (p.pos.getD dim.toNat 0)).setWidth 64)
         (fun _ => nextWord s) [])) ∧
     (Issues (.layh h a) s c act → Does (.layh h a) s c act [a.toNat]
       { s with lcache := s.lcache.filter fun e => !(decide (e.1 = c.core ∧
           e.2.1 = (whoLane s c 0 c.priv).job) && (lanesOf act).any fun l => regW c l a.toNat = e.2.2.1) }
       c (fun _ => nextWord s) []) ∧
     (Issues (.layhAll h) s c act → Does (.layhAll h) s c act []
       { s with lcache := s.lcache.filter fun e => decide (e.1 ≠ c.core) } c (fun _ => nextWord s) [])) ∧
  (∀ (p : Port) (a b c d e a' b' c' d' e' : Nat), p.pos = [a, b, c, d, e] → p.ext = [a', b', c', d', e'] →
     1 ≤ a' → 1 ≤ b' → 1 ≤ c' → 1 ≤ d' → a' ≤ 2 ^ 32 → b' ≤ 2 ^ 32 → c' ≤ 2 ^ 32 → d' ≤ 2 ^ 32 →
     ∃ u v w x y, (advancePort p).pos = [u, v, w, x, y % 2 ^ 32] ∧ u < a' ∧ v < b' ∧ w < c' ∧ x < d' ∧
       u + a' * (v + b' * (w + c' * (x + d' * y))) = a + 32 + a' * (b + b' * (c + c' * (d + d' * e))) ∧
       advancePort p = { p with pos := (advancePort p).pos })

/-- LCSET, LCSET.Z and LCSET.FREE set or free the counters that the active lanes name, but for those of other
units, on the core or swapped out; LCWAIT goes on once each has reached its total, LCWAIT.C then takes the total
away; LCRD reads (R274 to R276). The counter that several lanes name takes the lowest lane's total (log 34). -/
def Obligations.LandingCounters : Prop :=
  ∀ (h : Hdr) (pd : PCode) (d a b : Code) (s : State) (c : Crew) (act : Mask), Plain c act [a, b] →
    let num (l : Nat) : Nat := (regW c l a.toNat).toNat % 64
    let key (n : Nat) : Nat := c.core * 64 + n
    let at_ (n : Nat) : LCtr := mgetD s.lctrs (key n) (LCtr.zero c.uid)
    let foreign (n : Nat) : Bool := (mget s.lctrs (key n)).any (fun k => decide (k.owner ≠ c.uid)) ||
      s.units.any fun p => decide (p.1 ≠ c.uid ∧ p.2.core = c.core ∧ p.2.res = .swapped ∧ p.2.isOver = false) &&
        (mget p.2.lcs n).isSome
    let owned (n : Nat) : Bool := (mget s.lctrs (key n)).any fun k => decide (k.owner = c.uid)
    let firsts := (lanesOf act).filter fun l => (lanesOf act).all fun j => decide (l ≤ j ∨ num j ≠ num l)
    let sets (i : Instr) (srcs : List Code) (put : Map LCtr → Nat → Map LCtr) : Prop := Issues i s c act →
      Does i s c act (srcs.map (·.toNat))
        { s with lctrs := (firsts.filter fun l => !foreign (num l)).foldl put s.lctrs }
        (predAtOnce s c act pd fun l => !foreign (num l)) (fun _ => nextWord s) []
    let total (l : Nat) : Nat := (regW c l b.toNat).toNat % 2 ^ 31
    let reached (n : Nat) : Bool := (at_ n).err || decide ((at_ n).expect ≤ (at_ n).landed)
    let strange := maskOf fun l => inMask act l && !owned (num l)
    let failed := maskOf fun l => inMask act l && (at_ (num l)).err
    let waits (i : Instr) (m : Map LCtr) : Prop := Issues i s c act →
      (strange ≠ 0 → TrapsAt i s c act clsProt 0 strange) ∧
      (strange = 0 → firsts.any (fun l => !reached (num l)) = true →
        Parks i s c (.lcwait (firsts.map num))) ∧
      (strange = 0 → firsts.all (fun l => reached (num l)) = true → failed ≠ 0 →
        let k := at_ (num (lowLane failed))
        exec i s = .next (takeTrap (startOf s c) s.iss.crew
          { trapOf s act clsProt k.eaddr failed with cmd := k.ecmd, bytes := k.ebytes })) ∧
      (strange = 0 → firsts.all (fun l => reached (num l)) = true → failed = 0 →
        Does i s c act [a.toNat] { s with lctrs := m } c (fun _ => nextWord s) [])
    let reads (i : Instr) (f : LCtr → Word) : Prop := Issues i s c act → d.toNat < 28 →
      Does i s c act [a.toNat] s
        (regAtOnce s c act d fun l => if foreign (num l) then 0 else f (at_ (num l))) (fun _ => nextWord s) []
    sets (.lcset h pd a b) [a, b] (fun m l =>
      mput m (key (num l)) { at_ (num l) with owner := c.uid, expect := total l }) ∧
    sets (.lcsetZ h pd a b) [a, b] (fun m l =>
      mput m (key (num l)) { LCtr.zero c.uid with expect := total l }) ∧
    sets (.lcsetFree h pd a) [a] (fun m l => mdel m (key (num l))) ∧
    waits (.lcwait h a 0) s.lctrs ∧
    waits (.lcwait h a 1) (firsts.foldl (fun m l => mput m (key (num l))
      { at_ (num l) with landed := (at_ (num l)).landed - (at_ (num l)).expect }) s.lctrs) ∧
    reads (.lcrd h d a 0) (fun k => BitVec.ofNat 64 ((if k.err then 2 ^ 63 else 0) + k.expect * 2 ^ 32 +
      k.landed)) ∧
    reads (.lcrd h d a 1) (fun k => BitVec.ofNat 64 (k.cst * 2 ^ 62 + k.dropped * 2 ^ 24 + k.skipped))

/-- PUSH hands the active lanes' commands to a queue in lane order until one is refused; the predicate is 1 in
the lanes from that one on (R266, R269). To the HOST queue, with room for all, every lane's eight words are
appended. A command that enters the serial buffer of an ordered launch waits until the crew's earlier operations
have entered it (R332; log 76, DEDUCED); one that would pass 1 MiB traps; and one whose layout record lies on a
page that faults, or in a bank that refreshes, waits with the whole PUSH (R157, R166, R272). KICK hands over the
lists of the active lanes, of which a core holds eight; a list outside the unit's own share, misaligned or
without entries raises PROTECTION, and one on a page that faults waits (log 43, DEDUCED). Its entries are then
taken as if they were pushed, and the list's landing counter gains 1 after the last (R270). -/
def Obligations.EngineQueues : Prop :=
  (∀ (h : Hdr) (pd : PCode) (a : Code) (queue : BitVec 2) (s : State) (c : Crew) (act : Mask),
     let i : Instr := .push h pd a queue
     let srcs := (List.range 8).map fun k => a.toNat + k
     let words (l : Nat) : List Word := srcs.map fun r => regW c l r
     Issues i s c act → a.toNat ≤ 20 → Known c act srcs →
     let x := issueCtx i s c
     let late (s1 : State) : Prop := appendsOpen c = true ∧ serialUsed s c.uid ≠ serialUsed s1 c.uid
     (∀ s1 left, pushLanes x queue.toNat words (lanesOf act) (startOf s c) = (s1, left, none) →
       (late s1 → Parks i s c .appends) ∧
       (¬ late s1 → mget s1.crews s.iss.crew = some c →
         Does i s c act srcs { s1 with nextSeq := s.nextSeq } (predAtOnce s c act pd fun l => left.contains l)
           (fun _ => nextWord s) [])) ∧
     (∀ s1 left l, pushLanes x queue.toNat words (lanesOf act) (startOf s c) = (s1, left, some (.isOver l)) →
       if appendsOpen c then Parks i s c .appends else TrapsAt i s c act clsProt 0 (oneLane l)) ∧
     (∀ s1 left phys n, pushLanes x queue.toNat words (lanesOf act) (startOf s c) =
       (s1, left, some (.later (.lines phys n))) → Parks i s c (.lines phys n)) ∧
     (∀ s1 left w k va ty lv, pushLanes x queue.toNat words (lanesOf act) (startOf s c) =
       (s1, left, some (.later (.page w k va ty lv))) →
       exec i s = .next (putCrew (faultEnter (startOf s c) w k va ty lv).1 s.iss.crew
         { modThs c (lanesOf (groupOf s c)) (fun _ t =>
             { t with park := .page [(faultEnter (startOf s c) w k va ty lv).2] }) with hint := Hints.none })) ∧
     (queue = 3 → let job := jobOf s x.w.lid
       (s.hostQ.filter fun e => decide (e.1 = job)).length + (lanesOf act).length ≤ 256 →
       Does i s c act srcs
         { s with
           hostQ := s.hostQ ++ (lanesOf act).map fun l => (job, words l, c.uid)
           cmdSeq := mput s.cmdSeq c.core (mgetD s.cmdSeq c.core 0 + (lanesOf act).length) }
         (predAtOnce s c act pd fun _ => false) (fun _ => nextWord s) [])) ∧
  ((∀ (h : Hdr) (pd : PCode) (a b : Code) (s : State) (c : Crew) (act : Mask),
     let i : Instr := .kick h pd a b
     Issues i s c act → Plain c act [a, b] →
     let addr (l : Nat) : Word := regW c l a.toNat
     let count (l : Nat) : Nat := (regW c l b.toNat).toNat
     let good (l : Nat) : Prop := (addr l).toNat % 64 = 0 ∧ count l % 256 ≠ 0 ∧ count l < 2 ^ 15 ∧
       ∃ s' phys off, xlat (startOf s c) (issueCtx i s c).w .engRead (addr l) = (s', .ok phys 7) ∧
         heldPart phys = some (c.uid, 0, off)
     let waits (l : Nat) : Prop := (addr l).toNat % 64 = 0 ∧ count l % 256 ≠ 0 ∧ count l < 2 ^ 15 ∧
       ∃ s' ty lv, xlat (startOf s c) (issueCtx i s c).w .engRead (addr l) = (s', .page ty lv)
     let free := 8 - (s.klists.filter fun k => decide (k.core = c.core)).length
     ((∃ l ∈ lanesOf act, ¬good l ∧ ¬waits l) → ∃ bad, bad ≠ 0 ∧
       (∀ l, l < 32 → (inMask bad l = true ↔ inMask act l = true ∧ ¬good l ∧ ¬waits l)) ∧
       TrapsAt i s c act clsProt (addr (lowLane bad)) bad) ∧
     ((∀ l ∈ lanesOf act, good l) →
       Does i s c act [a.toNat, b.toNat]
         { s with klists := s.klists ++ ((lanesOf act).take free).map fun l =>
             { core := c.core, uid := c.uid, lid := (whoLane s c 0 c.priv).lid, slot := c.slot, lane := l
               addr := addr l, left := count l % 256
               bump := if (count l).testBit 14 then some (count l / 256 % 64) else none
               sem := c.hint.sem, crew := s.iss.crew, kseq := s.nextSeq, pages := [] } }
         (predAtOnce s c act pd fun l => ((lanesOf act).drop free).contains l) (fun _ => nextWord s) []) ∧
     ((∀ l ∈ lanesOf act, good l ∨ waits l) → (∃ l ∈ lanesOf act, waits l) → c.rej = [] → ∃ s1 ids, ids ≠ [] ∧
       mget s1.crews s.iss.crew = some c ∧ pagesOpen s1 ids = ids ∧
       exec i s = .next (putCrew s1 s.iss.crew
         { modThs c (lanesOf (groupOf s c)) (fun _ t => { t with park := .page ids }) with hint := Hints.none }))) ∧
   ∀ (s s1 s2 : State) (k : KList) (bytes : List Byte),
     s.klists.find? (fun k => decide (k.core = s.subj)) = some k → k.pages = [] →
     queueLen s s.subj 0 < 64 →
     let w : Who := { job := jobOf s k.lid, core := s.subj, uid := k.uid, lid := k.lid, slot := k.slot
                      lanes := 0, priv := false, cmd := 0, host := false }
     (∀ s' phys ty, xlat s w .engRead k.addr = (s', .ok phys ty) → presentAll s phys 64 = true) →
     vread w .engRead false k.addr 64 s = .ok s1 bytes →
     takeCmd s1
       { core := k.core, uid := k.uid, lid := k.lid, slot := k.slot, lane := k.lane, crew := k.crew
         pseq := k.kseq, rel := decide (2 ≤ k.sem) || ((bytesWords 8 bytes).getD 0 0).getLsbD 51 }
       (fun _ => false) 0 (bytesWords 8 bytes) = .ok s2 →
     exec .kickEntryTake s = .next (if k.left ≤ 1 then
         let s3 := { s2 with klists := s2.klists.erase k }
         k.bump.elim s3 fun n => countLanded s3 k.uid n 1
       else { s2 with klists := s2.klists.map fun j =>
         if j = k then { k with left := k.left - 1, addr := k.addr + 64, pages := [] } else j }))

/-- An engine command that may start or go on reads what it can, all of it or one part, since no order holds
among its reads (R188): its event changes the command and TLBs, and of memory only the access bits of page-table
entries (R155, R266, R273, R277 to R281). What COPY, GATHER, SCATTER and MCAST read and write, byte by byte: the
rows that GATHER's index vector names are packed in its order, with the pad value for a row that the table does
not have; of rows with one index SCATTER writes the highest. EXPAND puts packed elements where a row's mask has
ones and zeros elsewhere; REGROUP packs rows by expert, in the order of the rows, and writes where each expert's
rows begin (R277 to R281). -/
def Obligations.EngineWork : Prop :=
  (∀ (s s1 : State) (c c1 : Cmd), findCmd s c.core c.seq = some c → c.queue = 0 → c.err = none →
     c.deferred = false → (c.started = false ∨ c.todo ≠ []) → c.pages = [] → firstInQueue s c = true →
     (c.rel = true → quietBefore s c.crew c.lane c.pseq = true) →
     advanceCmd s.subj (cmdWho s c false) { c.noteLate s.cycle with pages := [] } s = .ok s1 c1 →
     let goes (i : Instr) (kind : Nat) : Prop := c.kind = kind →
       exec i s = .next { s1 with cmds := s1.cmds.map fun d => if d.core = c1.core ∧ d.seq = c1.seq then
         { c1 with recv := if c1.recv = [] then recvOf s1 (cmdWho s c false) c1 none else c1.recv } else d } ∧
       ∀ a, cellGet s1.mem a = cellGet s.mem a ∨ (cellGet s1.mem a = cellGet s.mem a ||| 2 ∧
         ∃ va e b, walk s (jobOf s c.lid) (stackOf c.core) va = .leaf e (some a) b)
     goes (.copy c.core c.seq) 0 ∧ goes (.gather c.core c.seq) 1 ∧ goes (.scatter c.core c.seq) 2 ∧
     goes (.mcast c.core c.seq) 3 ∧ goes (.expand c.core c.seq) 4 ∧ goes (.regroup c.core c.seq) 5) ∧
  ((∀ (s : State) (w : Who) (c : Cmd), c.w 4 = 0 →
     ∃ c1, planCopy w c s = .ok s c1 ∧ c1 = { c with started := true, seen := [], todo := c1.todo } ∧
       ∀ k, k < c.count * c.esz → ∃ p ∈ c1.todo, ∃ a d m, p.src = some a ∧ p.dsts = [(.va d, some 0)] ∧
         m < p.n ∧ a + BitVec.ofNat 64 m = c.words.getD 1 0 + BitVec.ofNat 64 k ∧
         d + BitVec.ofNat 64 m = c.words.getD 2 0 + BitVec.ofNat 64 k) ∧
   (∀ (s : State) (c : Cmd),
     ∃ c1, planMcast c s = .ok s c1 ∧
       (∀ u, u ∈ c1.recv ↔ ∃ i, i < 8 ∧ (c.w 3).testBit i = true ∧
         ∃ st, clusterUnit s c.uid i = some (u, st)) ∧
       ∀ k, k < c.count * c.esz → ∀ u ∈ c1.recv, ∃ p ∈ c1.todo, ∃ a m, p.src = some a ∧ m < p.n ∧
         a + BitVec.ofNat 64 m = c.words.getD 1 0 + BitVec.ofNat 64 k ∧
         ∃ f, (.share u f, some 0) ∈ p.dsts ∧ f + m = c.w 2 + k) ∧
   (∀ (esz row mask m : Nat) (dst va : Word) (i b : Nat), i < m → b < esz → m ≤ 64 →
     let before := ((List.range i).filter mask.testBit).length
     ∃ p ∈ expandRow esz row mask dst (List.range m) va, ∃ d k, p.dsts = [(.va d, some row)] ∧ k < p.n ∧
       d + BitVec.ofNat 64 k = dst + BitVec.ofNat 64 (i * esz + b) ∧
       if mask.testBit i then ∃ a, p.src = some a ∧ a + BitVec.ofNat 64 k = va + BitVec.ofNat 64 (before * esz + b)
       else p.src = none ∧ p.data.getD k 0 = 0) ∧
   (∀ (s s1 : State) (w : Who) (c c0 : Cmd) (bytes : List Byte) (pick : Nat),
     engFetch pick w c (c.words.getD 3 0) (4 * c.count) s = .ok s1 (c0, some bytes) →
     let expert (k : Nat) : Nat := natOf ((bytes.drop (4 * k)).take 4)
     let experts := ((c.words.getD 4 0).extractLsb' 32 16).toNat
     let row := ((c.words.getD 4 0).extractLsb' 0 32).toNat * c.esz
     let count (p : Nat → Bool) : Nat := ((List.range c.count).filter p).length
     let below (x : Nat) : Nat := count fun k => decide (expert k < x)
     let place (k : Nat) : Nat := below (expert k) + count fun j => decide (j < k ∧ expert j = expert k)
     ∃ c1, planRegroup pick w c s = .ok s1 c1 ∧ c1.started = true ∧
       c1.skipped = count (fun k => decide (experts ≤ expert k)) ∧
       (∀ k b, k < c.count → expert k < experts → b < row → ∃ p ∈ c1.todo, ∃ a d m, p.src = some a ∧
         p.dsts = [(.va d, some k)] ∧ m < p.n ∧
         a + BitVec.ofNat 64 m = c.words.getD 1 0 + BitVec.ofNat 64 (k * row + b) ∧
         d + BitVec.ofNat 64 m = c.words.getD 2 0 + BitVec.ofNat 64 (place k * row + b)) ∧
       (∃ p ∈ c1.todo, p.src = none ∧ p.dsts = [(.va (c.words.getD 5 0), none)] ∧
         p.data = ((List.range (experts + 1)).map fun x => wordBytes 4 (BitVec.ofNat 64 (below x))).flatten) ∧
       c1.adds = if (c.words.getD 6 0).getLsbD 16 then (List.range experts).filterMap fun x =>
           (xIndex s1 w.job (((c.words.getD 6 0).extractLsb' 0 16).toNat + x)).map fun i =>
             (i, below (x + 1) - below x)
         else []) ∧
   ∀ (s s0 s1 : State) (w : Who) (c c0 : Cmd) (r : LayRec) (bytes : List Byte) (pick : Nat),
     engRec w c (some 2) s = .ok s0 r →
     engFetch pick w c (c.words.getD 3 0) (4 * c.count) s0 = .ok s1 (c0, some bytes) →
     let index (k : Nat) : Nat := natOf ((bytes.drop (4 * k)).take 4)
     let skips (word : Nat) (k : Nat) : Bool := word.testBit 32 && decide (index k = word % 2 ^ 32)
     let packed (k j b : Nat) : Word := BitVec.ofNat 64 (k * (r.ext.getD 0 1 * c.esz) + j * c.esz + b)
     let elem (i j b : Nat) : Word := rowAddr r i j + BitVec.ofNat 64 b
     (∃ c1, planGather pick w c s = .ok s1 c1 ∧
       c1.skipped = ((List.range c.count).filter (skips (c.w 1))).length ∧
       ∀ k j b, k < c.count → skips (c.w 1) k = false → j < r.ext.getD 0 1 → b < c.esz →
         ∃ p ∈ c1.todo, ∃ d m, (.va d, some k) ∈ p.dsts ∧ m < p.n ∧
           d + BitVec.ofNat 64 m = c.words.getD 2 0 + packed k j b ∧
           if index k < r.ext.getD 1 1 then ∃ a, p.src = some a ∧ a + BitVec.ofNat 64 m = elem (index k) j b
           else p.src = none ∧ p.data.getD m 0 = r.pad.extractLsb' (8 * b) 8) ∧
     ∃ c1, planScatter pick w c s = .ok s1 c1 ∧
       c1.skipped = ((List.range c.count).filter (skips (c.w 2))).length ∧
       c1.dropped = ((List.range c.count).filter fun k =>
         !skips (c.w 2) k && decide (r.ext.getD 1 1 ≤ index k)).length ∧
       (∀ p ∈ c1.todo, ∀ d ∈ p.dsts, ∃ k, d.2 = some k ∧ k < c.count ∧ skips (c.w 2) k = false ∧
         index k < r.ext.getD 1 1 ∧ ∀ j, k < j → j < c.count → index j ≠ index k) ∧
       ∀ k j b, k < c.count → skips (c.w 2) k = false → index k < r.ext.getD 1 1 →
         (∀ x, k < x → x < c.count → index x ≠ index k) → j < r.ext.getD 0 1 → b < c.esz →
         ∃ p ∈ c1.todo, ∃ a d m, p.src = some a ∧ (.va d, some k) ∈ p.dsts ∧ m < p.n ∧
           a + BitVec.ofNat 64 m = c.words.getD 1 0 + packed k j b ∧
           d + BitVec.ofNat 64 m = elem (index k) j b)

/-- Bytes land at their destinations, those of a sector that a command has read together and as one access, so
that each sector part is seen whole; the receiver's counter gains one for each byte. A command whose bytes have
all landed ends: its counters get what is missing of its total, an error record if it met an error, and it is
gone, with the place that a proposal it never made held in the serial buffer (R162, R167, R273 to R275, R315).
The refresh window of a weight-store bank ends by time alone: at the cycle reached the bank is not refreshing
(R166). -/
def Obligations.LandingAndEnd : Prop :=
  ((∀ (c : Cmd) (skip n : Nat),
     let pick := (c.landing skip n).1
     let others := (c.landing skip n).2
     (∀ b, c.land.count b = pick.count b + others.count b) ∧
     (∀ b ∈ pick, (c.todo.any fun p => p.touches b.at_.sector) = false ∧
       ∀ d ∈ others, d.at_.sector ≠ b.at_.sector) ∧
     (n = 1 → ∀ b, c.land[skip]? = some b → (c.todo.any fun p => p.touches b.at_.sector) = false →
       ∃ d ∈ pick, d.at_.sector = b.at_.sector)) ∧
   (∀ bs : List LandB, (landRuns bs).flatten = bs ∧ ∀ r ∈ landRuns bs, ∃ b rest, r = b :: rest ∧
     (∀ d ∈ r, d.at_.sector = b.at_.sector) ∧
     ∀ (w : Who) (lane : Nat) (va : Word), b.at_ = .va va →
       landBs w lane r = vwritePart w .engWrite false lane va (r.map (·.byte))) ∧
   (∀ (s s1 : State) (c : Cmd) (skip n uid : Nat) (rest : List Nat),
     findCmd s c.core c.seq = some c → c.err = none → c.started = true → c.deferred = false → c.pages = [] →
     c.dueAt s.cycle = false → c.land ≠ [] → c.recv = uid :: rest → c.rows = false →
     let pick := (c.landing skip n).1
     pick ≠ [] → (∀ b ∈ pick, b.row.isSome = true ∧ ∀ u f, b.at_ ≠ .share u f) →
     landList (cmdWho s c false) c.lane (landRuns pick) s [] = (s1, pick, [], none) →
     ∃ t c1, exec (.copyBytesLand c.core c.seq skip n) s = .next t ∧ t.mem = s1.mem ∧
       t.lctrs = (countLanded s1 uid c.lc pick.length).lctrs ∧
       c1 ∈ t.cmds ∧ c1.core = c.core ∧ c1.seq = c.seq ∧
       c1.land = (c.landing skip n).2 ∧ c1.landed = c.landed + pick.length ∧ c1.todo = c.todo) ∧
   (∀ (s : State) (c : Cmd) (uid : Nat) (u : UnitSt) (k : LCtr),
     findCmd s c.core c.seq = some c → c.deferred = false → c.recv = [uid] →
     (c.err.isSome = true ∨ (c.started = true ∧ c.todo = [] ∧ c.land = [] ∧ c.prop = false ∧ c.pages = [] ∧
       c.adds = [])) → c.isColl = false →
     mget s.units uid = some u → u.res ≠ .swapped → mget s.lctrs (u.core * 64 + c.lc) = some k →
     k.owner = uid →
     ∃ t, exec (.commandEnd c.core c.seq) s = .next t ∧
       (isOrdered s c.lid = false ∨ c.prop = false ∨ c.proposed = true → t.mem = s.mem ∧ t.crews = s.crews) ∧
       (isOrdered s c.lid = true → c.prop = true → c.proposed = false → ∀ v, mget t.units c.uid = some v →
         ∀ e ∈ v.serial, e.placeOf c.core c.seq = false) ∧
       (∀ d, d ∈ t.cmds ↔ d ∈ s.cmds ∧ (d.core ≠ c.core ∨ d.seq ≠ c.seq)) ∧
       ∃ k', mget t.lctrs (u.core * 64 + c.lc) = some k' ∧
         k'.landed = min (k.landed + (c.total - mgetD c.counted uid 0)) 0xFFFFFFFF ∧
         k'.skipped = min (k.skipped + c.skipped) 0xFFFFFF ∧
         k'.dropped = min (k.dropped + c.dropped) 0xFFFFFF ∧
         k'.err = (k.err || c.err.isSome) ∧ k'.expect = k.expect ∧
         (∀ a, c.err = some a → k.err = false → k'.eaddr = a ∧ k'.ecmd = BitVec.ofNat 64 c.id ∧
           k'.ebytes = BitVec.ofNat 64 c.landed)) ∧
   ∀ (s s1 : State) (c : Cmd), findCmd s c.core c.seq = some c → c.dueAt s.cycle = true → c.pages = [] →
     let c1 := { c with late := true }
     proposeCmd (cmdWho s c false) { c1 with pages := [] } (putCmd s c1) = .ok s1 () →
     exec (.deadlinePass c.core c.seq) s = .next (putCmd s1 { c1 with proposed := true, pages := [] })) ∧
  (∀ s : State, ∃ t, exec .wsRefreshWindowEnd s = .next t ∧ s.cycle ≤ t.cycle ∧ t.mem = s.mem ∧
     t.crews = s.crews ∧ ∀ phys, wsBase 0 ≤ phys → phys < cxlBase → phys / 128 % 64 = s.subj % 64 →
       refreshing t phys = false)

/-! ## The Granite bank -/

/-- The traps that come before a Granite instruction's effect, in their order: a live lane that is not active, a
column or a plane that the unit does not hold, or a request beyond the core's columns or the quota, and an
operand of lane 0 while lane 0 is not live (R215, R216). That ILLEGAL-CONVERGENCE names the active lanes, and
that the records have ADDR 0, is log 72 (DESIGN CHOICE). -/
def Obligations.GraniteTraps : Prop :=
  ∀ (i : Instr) (s : State) (c : Crew) (act : Mask) (u : UnitSt) (lane0 held : Bool),
    mget s.units c.uid = some u → graniteNeeds s u i = some (lane0, held) → Issues i s c act →
    (liveMask c &&& ~~~act ≠ 0 → TrapsAt i s c act clsConvergence 0 act) ∧
    (liveMask c = act → held = false → TrapsAt i s c act clsResv 0 act) ∧
    (liveMask c = act → held = true → lane0 = true → inMask act 0 = false → TrapsAt i s c act clsProt 0 act)

/-- RESV is granted whole or not at all: the unit then holds the columns given and every plane of the mask, new
planes and new columns are zero, and what it held is kept. RESV.W retires and parks its lanes until then (log
46, DEDUCED). RLS gives everything back, once earlier Granite instructions of the unit have taken effect, and
lets waiting requests be tried (R207 to R210, R212, R217). -/
def Obligations.Reservations : Prop :=
  ∀ (h : Hdr) (pd : PCode) (k m : BitVec 4) (s : State) (c : Crew) (act : Mask) (u : UnitSt),
    mget s.units c.uid = some u → liveMask c = act →
    (graniteNeeds s u (.resv h pd k m)).any (·.2) = true →
    (∀ new, resvPick (startOf s c) u k.toNat = some new →
      new.length = k.toNat - u.cols.length ∧ (∀ j ∈ new, j ∈ liveCols s u.core) ∧
      ∃ u1 mem,
        u1 = { u with
          cols := (List.range 8).filter fun j => u.cols.contains j || new.contains j
          planes := u.planes ||| m, zs := u1.zs, ovf := u1.ovf, blocks := u1.blocks } ∧
        (∀ z row col, z < 4 → row < 32 → col < 8 →
          planeCordOf u1 z row col = if (m.getLsbD z = true ∧ u.planes.getLsbD z = false) ∨ col ∈ new then 0
            else planeCordOf u z row col) ∧
        (∀ b, mget u1.blocks b = if b / 64 ∈ new then none else mget u.blocks b) ∧
        (∀ a, cellGet mem a = if new.any fun j =>
            decide (columnOf c.uid j ≤ a ∧ a < columnOf c.uid j + 2 ^ 18) then 0 else cellGet s.mem a) ∧
        let s1 := { s with units := mput s.units c.uid u1, mem := mem }
        (Issues (.resv h pd k m) s c act → Does (.resv h pd k m) s c act [] s1
          (predAtOnce s c act pd fun _ => true) (fun _ => nextWord s) []) ∧
        (Issues (.resvW h pd k m) s c act → Does (.resvW h pd k m) s c act [] s1
          (predAtOnce s c act pd fun _ => true) (fun _ => nextWord s) [])) ∧
    (resvPick (startOf s c) u k.toNat = none →
      (Issues (.resv h pd k m) s c act → Does (.resv h pd k m) s c act [] s
        (predAtOnce s c act pd fun _ => false) (fun _ => nextWord s) []) ∧
      (Issues (.resvW h pd k m) s c act → Does (.resvW h pd k m) s c act [] s
        (modThs c (lanesOf act) fun _ t => { t with park := .resv k.toNat m.toNat pd.toNat })
        (fun _ => nextWord s) [])) ∧
    (Issues (.rls h) s c act →
      let u1 := { u with cols := [], planes := 0, zs := [], ovf := [], blocks := [] }
      let s1 := grantWaiting { startOf s c with units := mput s.units c.uid u1 } u.core
      (graniteBusy (startOf s c) c.uid = false →
        Does (.rls h) s c act [] { s1 with nextSeq := s.nextSeq } c (fun _ => nextWord s) []) ∧
      (graniteBusy (startOf s c) c.uid = true → Parks (.rls h) s c (.granite true)))

/-- GUARD sets the guard register from a slot or from lane 0's operand, which must be in order; BPTR sets the
B-pointer from lane 0 and BPTR.RD reads it for each held column (R206, R218, R225). PACK puts the rounded value
of each lane at its place, where every value fits the guarded range, and takes GUARD-OVERFLOW after itself
otherwise; UNPK gives the places as binary32 values (R219, R220). KEXT reads places, KSLS slides a cord or a
pair by lane 0's count of places, and KADD adds or subtracts place by place; a sum outside the place range is
reported after the instruction (R221 to R223). -/
def Obligations.CordInstructions : Prop :=
  (∀ (h : Hdr) (d a b : Code) (q : BitVec 1) (n : BitVec 3) (s : State) (c : Crew) (act : Mask) (u : UnitSt),
     mget s.units c.uid = some u → liveMask c = act →
     (Issues (.guard h q n) s c act →
       let w := slotBits s c n
       Does (.guard h q n) s c act [] s
         { c with width := (w.extractLsb' 12 5).toNat, guard := (w.extractLsb' 17 5).toNat
                  quiet := decide (q = 1) } (fun _ => nextWord s) []) ∧
     (Issues (.guardReg h a q) s c act → inMask act 0 = true → Plain c act [a] →
       let width := ((regW c 0 a.toNat).extractLsb' 0 7).toNat
       let g := ((regW c 0 a.toNat).extractLsb' 8 6).toNat
       (4 ≤ width ∧ width ≤ 64 ∧ g < width → Does (.guardReg h a q) s c act [a.toNat] s
         { c with width := width, guard := g, quiet := decide (q = 1) } (fun _ => nextWord s) []) ∧
       (¬(4 ≤ width ∧ width ≤ 64 ∧ g < width) → TrapsAt (.guardReg h a q) s c act clsProt 0 act)) ∧
     (Issues (.bptr h a b) s c act → inMask act 0 = true → Plain c act [a, b] →
       Does (.bptr h a b) s c act [a.toNat, b.toNat] s
         { c with bptr := (regW c 0 a.toNat).toNat % 2 ^ 11, bstep := (regW c 0 b.toNat).toNat % 2 ^ 11 }
         (fun _ => nextWord s) []) ∧
     (Issues (.bptrRd h d) s c act → d.toNat < 28 →
       Does (.bptrRd h d) s c act [] s
         (regAtOnce s c act d fun l => if l < u.cols.length then
           BitVec.ofNat 64 (u.cols.getD l 0 * 2 ^ 32 + c.bstep * 2 ^ 16 + c.bptr) else -1)
         (fun _ => nextWord s) [])) ∧
  (∀ (h : Hdr) (d a b : Code) (k : BitVec 4) (n : BitVec 3) (s : State) (c : Crew) (act : Mask) (u : UnitSt),
     mget s.units c.uid = some u → liveMask c = act → 4 ≤ c.width → c.width ≤ 64 → c.guard < c.width →
     let w := c.width
     let off := (zimm c (0 : BitVec 0)).toNat % 2 ^ 11
     let at_ (l : Nat) : Option Nat := packPlace (zimm c (0 : BitVec 0)).toNat (1024 / w) l
     let val (l : Nat) : Option (Int × Bool) :=
       packVal (slotOf s c n).1 c.hint.mode (((regW c l b.toNat).setWidth 8).toInt + expoOf s c n)
         (regW c l a.toNat)
     let out (l : Nat) : Bool := (at_ l).isSome && (val l).all fun v =>
       decide (v.1 < -(2 ^ (w - c.guard - 1)) ∨ 2 ^ (w - c.guard - 1) ≤ v.1)
     (Issues (.pack h k a b n) s c act → Plain c act [a, b] →
       ((∀ l ∈ lanesOf act, out l = false) → ∃ new,
         Places w new (fun q => match (lanesOf act).find? fun l => decide (at_ l = some q) with
           | some l => ((val l).map (·.1)).getD 0
           | none => placeOf w (cordOfCrew c k.toNat) q) ∧
         Does (.pack h k a b n) s c act [a.toNat, b.toNat] s
           (withCord s (flagsAtOnce s c act fun l => if (at_ l).isSome && (val l).any (·.2) then flagIX else 0)
             k.toNat new) (fun _ => nextWord s) []) ∧
       (∀ bad q, bad ≠ 0 → (∀ l, l < 32 → (inMask bad l = true ↔ inMask act l = true ∧ out l = true)) →
         (∃ l ∈ lanesOf bad, at_ l = some q) → (∀ l ∈ lanesOf bad, ∀ p, at_ l = some p → q ≤ p) →
         TrapsAfter (.pack h k a b n) s c act [a.toNat, b.toNat] s c clsGuard
           (BitVec.ofNat 64 (k.toNat * 2 ^ 16 + q)) bad)) ∧
     (Issues (.unpk h d k b n) s c act → Plain c act [b] → d.toNat < 28 →
       let res (l : Nat) : FRes := roundI f32 1
         (if off + l < 1024 / w then placeOf w (cordOfCrew c k.toNat) (off + l) else 0)
         (((regW c l b.toNat).setWidth 16).toInt + expoOf s c n)
       Does (.unpk h d k b n) s c act [b.toNat] s
         (regAtOnce s (flagsAtOnce s c act fun l => (res l).flags) act d fun l => BitVec.ofNat 64 (res l).bits)
         (fun _ => nextWord s) [])) ∧
  (∀ (h : Hdr) (d b : Code) (k ka kb : BitVec 4) (p : BitVec 1) (s : State) (c : Crew) (act : Mask) (u : UnitSt),
     mget s.units c.uid = some u → liveMask c = act → 4 ≤ c.width → c.width ≤ 64 →
     let w := c.width
     let n := 1024 / w
     let pair := decide (p = 1)
     (Issues (.kext h d ka b p) s c act → Plain c act [b] → d.toNat < 28 →
       Does (.kext h d ka b p) s c act [b.toNat] s
         (regAtOnce s c act d fun l =>
           BitVec.ofInt 64 (pairOf c ka.toNat pair ((regW c l b.toNat).toNat % 2 ^ 10)))
         (fun _ => nextWord s) []) ∧
     (Issues (.ksls h k ka b p) s c act → inMask act 0 = true → Plain c act [b] →
       let count := ((regW c 0 b.toNat).setWidth 10).toInt
       let at_ (q : Nat) : Int :=
         let j : Int := (q : Int) - count
         if j < 0 then 0 else pairOf c ka.toNat pair j.toNat
       ∃ low high, Places w low at_ ∧ Places w high (fun q => at_ (n + q)) ∧
         Does (.ksls h k ka b p) s c act [b.toNat] s
           (if pair then withCord s (withCord s c k.toNat low) (k.toNat + 1) high else withCord s c k.toNat low)
           (fun _ => nextWord s) []) ∧
     (Issues (.kadd h k ka kb p) s c act →
       let sum (q : Nat) : Int :=
         let x := placeOf w (cordOfCrew c ka.toNat) q
         let y := placeOf w (cordOfCrew c kb.toNat) q
         if p = 1 then x - y else x + y
       ((∀ q, q < n → Fits w (sum q)) → ∃ new, Places w new sum ∧
         Does (.kadd h k ka kb p) s c act [] s (withCord s c k.toNat new) (fun _ => nextWord s) []) ∧
       (∀ q, q < n → ¬Fits w (sum q) → (∀ r, r < q → Fits w (sum r)) →
         TrapsAfter (.kadd h k ka kb p) s c act [] s c clsGuard
           (BitVec.ofNat 64 (k.toNat * 2 ^ 16 + q)) act)))

/-- KLD and KST issue one access of 128 bytes of lane 0, to memory or to a cord of a held column's B-slice; an
operand that is misaligned or has reserved bits makes the operation fail, and a column that is not held raises
RESERVATION. KST.B is performed at once, unless an earlier access of lane 0 that comes before it is in flight.
KLD writes its cord when the bytes are there, unless a later write of the cord has come first (R71, R188, R215,
R224). Bits above the places are stored and loaded as 0 (log 63), a failing operand names lane 0 (log 31), and
which earlier accesses hold KST.B back is log 71 (all DEDUCED). -/
def Obligations.CordLoadsAndStores : Prop :=
  (∀ (h : Hdr) (k : BitVec 4) (a : Code) (s : State) (c : Crew) (act : Mask) (u : UnitSt),
    mget s.units c.uid = some u → liveMask c = act → inMask act 0 = true → Plain c act [a] →
    let cordBytes : List Byte := (List.range 128).map fun i =>
      (trimmed c.width (cordOfCrew c k.toNat)).extractLsb' (8 * i) 8
    let goes (i : Instr) (kind : OpKind) (op : AccOp) (ks : List Nat) : Prop := Issues i s c act →
      let va := memAddr c 0 a
      let o (accs : List Acc) : Op := { opFor s c act kind (trackedLook c) accs [] with kdst := ks }
      (va.toNat % 128 = 0 →
        Launches i s c act [a.toNat] s c (o [{ lane := 0, va := va, n := 128, op := op }])) ∧
      (va.toNat % 128 ≠ 0 → Fails i s c act [a.toNat] (o []) (oneLane 0) va)
    let launchesB (i : Instr) (o : Op) : Prop := Launches i s c act [a.toNat] { s with nextId := s.nextId + 1 } c o
    let busy (o : Op) (r : Req) : Prop := ∃ p ∈ c.ops, p.priv = c.priv ∧ p.seq < s.nextSeq ∧ heldBy false o r p = true
    let storesB (i : Instr) (o : Op) (r : Req) : Prop :=
      (∀ p ∈ c.ops, p.id ≠ o.id) → eccBad s r.phys 128 = false →
      (busy o r → launchesB i o) ∧
      (¬busy o r → unitHere s c = true → (∀ d ∈ s.crews, ∀ p ∈ d.2.ops, ∀ q ∈ p.reqs, q.vis = 0 ∧ q.ahead = []) →
        ∃ t c' k, Issued [a.toNat] { s with nextId := s.nextId + 1 } t c c'
          (groupOf s c) act (fun _ => nextWord s) [] ∧
        exec i s = .next (modCrew (wr { withOp t s.iss.crew o with tokens := k } r.phys cordBytes) s.iss.crew
          fun c2 => { c2 with ops := c2.ops.map fun p =>
            if p.id = o.id then { p with reqs := [{ r with st := .done }] } else p }))
    let goesB (i : Instr) (kind : OpKind) (op : AccOp) (ks : List Nat) (runs : Op → Req → Prop) : Prop :=
      Issues i s c act → u.cols ≠ [] →
      let w := regW c 0 a.toNat
      let j := w.toNat % 8
      let cordNo := (w.extractLsb' 16 11).toNat
      let o := { opFor s c act kind (trackedLook c) [] [] with kdst := ks }
      (u.cols.length ≤ j → TrapsAt i s c act clsResv 0 act) ∧
      (j < u.cols.length → w.toNat = cordNo * 2 ^ 16 + j →
        let r : Req := { id := s.nextId, lane := 0, va := w
                         phys := columnOf c.uid (u.cols.getD j 0) + 128 * cordNo, ty := tyCord, n := 128, op := op
                         st := .waiting, val := [], snap := false, defer := false }
        runs { o with id := s.nextId + 1, reqs := [r] } r) ∧
      (j < u.cols.length → w.toNat ≠ cordNo * 2 ^ 16 + j → Fails i s c act [a.toNat] o (oneLane 0) w)
    goes (.kld h k a) (.kld k.toNat c.width) .read [k.toNat] ∧ goes (.kst h k a) .kst (.write cordBytes) [] ∧
    goesB (.kldB h k a) (.kld k.toNat c.width) .read [k.toNat] (fun o _ => launchesB (.kldB h k a) o) ∧
    goesB (.kstB h k a) .kst (.write cordBytes) [] (storesB (.kstB h k a))) ∧
  ∀ (s : State) (crew k width : Nat) (c : Crew) (o : Op) (r : Req), mget s.crews crew = some c → o ∈ c.ops →
    (∀ p ∈ c.ops, p.id = o.id → p = o) → o.done = false → o.accs = [] → o.left = 0 → o.dsts = [] →
    o.reqs = [r] → r.lane = 0 → inMask o.active 0 = true → r.st = .done → o.kind = .kld k width →
    ∃ c', exec (.longLatencyComplete crew o.id) s = .next (putCrew s crew c') ∧
      (k ∈ o.kdst → mget c'.cords k = some (trimmed width (BitVec.ofNat 1024 (natOf r.val)))) ∧
      (k ∉ o.kdst → c'.cords = c.cords) ∧
      (∀ j, j ≠ k → mget c'.cords j = mget c.cords j) ∧ ∀ p ∈ c'.ops, p.id ≠ o.id

/-- MULK.S adds, in each row with a multiplier that is not 0 and each held column, the multiplier times the
column's B cord to the plane's cord, place by place; where a sum leaves the place range the cord stays and its
overflow bit is set. The B-pointer goes on by its step. Unless QUIET is set, recorded overflows are reported
after the instruction. It waits for the crew's stores of B-slices (log 71, DEDUCED), and spends tokens (R224,
R226, R360). MULK.C issues the convolution of two cords, to be written to a pair at completion, each where no
later write of it has come first; where a place of it leaves the range, completion records GUARD-OVERFLOW at the
lowest such place and writes nothing (R71, R215, R216, R227). ACCRD reads a plane's cord of a row and a held
column, with the bits above its places 0 (log 63, DEDUCED), ACCRD.OV the overflow bits of each row, ACCZ clears
a plane, and ACCCV gives places of a plane as binary32 values (R228 to R230). -/
def Obligations.MultiplyAccumulate : Prop :=
  (∀ (h : Hdr) (z : BitVec 2) (a : Code) (s : State) (c : Crew) (act : Mask) (u : UnitSt),
     mget s.units c.uid = some u → liveMask c = act → 4 ≤ c.width → c.width ≤ 64 → u.cols ≠ [] →
     u.cols.Nodup → (∀ j ∈ u.cols, j < 8) → u.planes.getLsbD z.toNat = true →
     Issues (.mulkS h z a) s c act → Plain c act [a] →
     (cordStores c = true → Parks (.mulkS h z a) s c (.granite false)) ∧
     (cordStores c = false →
       let n := c.width
       let at_ (col : Nat) : Nat := columnOf c.uid col + 128 * c.bptr
       (∀ col ∈ u.cols, presentAll (startOf s c) (at_ col) 128 = true ∧ eccBad s (at_ col) 128 = false) →
       let B (col : Nat) : BitVec 1024 := BitVec.ofNat 1024 (natOf (cellsGet s.mem (at_ col) 128))
       let A (row : Nat) : Int := if inMask act row then ((regW c row a.toNat).setWidth 16).toInt else 0
       let sum (row col q : Nat) : Int :=
         placeOf n (planeCordOf u z.toNat row col) q + A row * placeOf n (B col) q
       let spills (row col : Nat) : Prop := A row ≠ 0 ∧ ∃ q, q < 1024 / n ∧ ¬Fits n (sum row col q)
       let key (row col : Nat) : Nat := (z.toNat * 32 + row) * 8 + col
       ∃ u1 k, u1 = { u with zs := u1.zs, ovf := u1.ovf } ∧
         (∀ row col, row < 32 → col ∈ u.cols →
           (spills row col → planeCordOf u1 z.toNat row col = planeCordOf u z.toNat row col) ∧
           (¬spills row col → Places n (planeCordOf u1 z.toNat row col) (sum row col)) ∧
           (key row col ∈ u1.ovf ↔ key row col ∈ u.ovf ∨ spills row col)) ∧
         (∀ k, (∀ row col, row < 32 → col ∈ u.cols → k ≠ key row col) →
           mget u1.zs k = mget u.zs k ∧ (k ∈ u1.ovf ↔ k ∈ u.ovf)) ∧
         let s1 := { s with units := mput s.units c.uid u1, tokens := k }
         let c1 := { c with bptr := (c.bptr + c.bstep) % 2048 }
         (c.quiet = true ∨ (∀ row col, row < 32 → col ∈ u.cols → ¬spills row col) →
           Does (.mulkS h z a) s c act [a.toNat] s1 c1 (fun _ => nextWord s) []) ∧
         (c.quiet = false → ∀ (rows : Mask) (cols : Nat), cols < 256 → rows ≠ 0 →
           (∀ row, row < 32 → (inMask rows row = true ↔ ∃ col ∈ u.cols, spills row col)) →
           (∀ j, j < 8 → (cols.testBit j = true ↔ j < u.cols.length ∧ ∃ row, row < 32 ∧ spills row (u.cols.getD j 0))) →
           TrapsAfter (.mulkS h z a) s c act [a.toNat] s1 c1 clsGuard
             (BitVec.ofNat 64 (z.toNat * 2 ^ 8 + cols)) rows))) ∧
  ((∀ (h : Hdr) (d a b : BitVec 4) (s : State) (c : Crew) (act : Mask) (u : UnitSt),
     mget s.units c.uid = some u → liveMask c = act → 4 ≤ c.width → c.width ≤ 64 → u.cols ≠ [] →
     Issues (.mulkC h d a b) s c act →
     let w := c.width
     let n := 1024 / w
     let conv (k : Nat) : Int := ((List.range n).map fun q =>
       if q ≤ k ∧ k - q < n then
         placeOf w (cordOfCrew c a.toNat) q * placeOf w (cordOfCrew c b.toNat) (k - q)
       else 0).sum
     let issues (kind : OpKind) : Prop :=
       ∃ k, Launches (.mulkC h d a b) s c act [] { s with tokens := k } c
         { opFor s c act kind (trackedLook c) [] [] with kdst := [d.toNat, d.toNat + 1] }
     ((∀ k, k < 2 * n → Fits w (conv k)) → ∃ lo hi, Places w lo conv ∧ Places w hi (fun k => conv (n + k)) ∧
       issues (.mulkc d.toNat lo hi none)) ∧
     ∀ k, k < 2 * n → ¬Fits w (conv k) → (∀ j, j < k → Fits w (conv j)) →
       ∃ lo hi, issues (.mulkc d.toNat lo hi (some (d.toNat * 2 ^ 16 + k)))) ∧
   ∀ (s : State) (crew k : Nat) (c : Crew) (o : Op) (lo hi : BitVec 1024), mget s.crews crew = some c →
     o ∈ c.ops → (∀ p ∈ c.ops, p.id = o.id → p = o) → o.done = false → o.accs = [] → o.left = 0 →
     o.dsts = [] → o.reqs = [] →
     (o.kind = .mulkc k lo hi none → ∃ c', exec (.longLatencyComplete crew o.id) s = .next (putCrew s crew c') ∧
       (∀ j, mget c'.cords j = if j ∉ o.kdst then mget c.cords j else if j = k + 1 then some hi
         else if j = k then some lo else mget c.cords j) ∧
       ∀ p ∈ c'.ops, p.id ≠ o.id) ∧
     ∀ place, o.kind = .mulkc k lo hi (some place) →
       ∃ c' o', exec (.longLatencyComplete crew o.id) s = .next (putCrew s crew c') ∧ c'.cords = c.cords ∧
         o' ∈ c'.ops ∧ o'.id = o.id ∧ o'.done = true ∧ o'.bad = o.active ∧ o'.cls = clsGuard ∧
         o'.addr = BitVec.ofNat 64 place) ∧
  (∀ (h : Hdr) (d b : Code) (k : BitVec 4) (z : BitVec 2) (n : BitVec 3) (s : State) (c : Crew) (act : Mask)
     (u : UnitSt), mget s.units c.uid = some u → liveMask c = act → 4 ≤ c.width → c.width ≤ 64 →
     u.cols ≠ [] → u.planes.getLsbD z.toNat = true →
     let col (v : Word) : Nat := (v.extractLsb' 8 3).toNat
     (Issues (.accrd h k z b) s c act → inMask act 0 = true → Plain c act [b] →
       let v := regW c 0 b.toNat
       (col v < u.cols.length → Does (.accrd h k z b) s c act [b.toNat] s
         (withCord s c k.toNat (trimmed c.width <| planeCordOf u z.toNat (v.toNat % 32) (u.cols.getD (col v) 0)))
         (fun _ => nextWord s) []) ∧
       (u.cols.length ≤ col v → TrapsAt (.accrd h k z b) s c act clsResv 0 act)) ∧
     (Issues (.accrdOv h d z) s c act → d.toNat < 28 →
       Does (.accrdOv h d z) s c act [] s
         (regAtOnce s c act d fun l => fromBits 64 fun j =>
           (u.cols[j]?).any fun col => u.ovf.contains ((z.toNat * 32 + l) * 8 + col))
         (fun _ => nextWord s) []) ∧
     (Issues (.accz h z) s c act → ∃ u1, u1 = { u with zs := u1.zs, ovf := u1.ovf } ∧
       (∀ y row x, row < 32 → x < 8 →
         planeCordOf u1 y row x = (if y = z.toNat then 0 else planeCordOf u y row x) ∧
         ((y * 32 + row) * 8 + x ∈ u1.ovf ↔ y ≠ z.toNat ∧ (y * 32 + row) * 8 + x ∈ u.ovf)) ∧
       Does (.accz h z) s c act [] { s with units := mput s.units c.uid u1 } c (fun _ => nextWord s) []) ∧
     (Issues (.acccv h d z b n) s c act → Plain c act [b] → d.toNat < 28 →
       let v (l : Nat) : Word := regW c l b.toNat
       let res (l : Nat) : FRes := roundI f32 c.hint.mode
         (if (v l).toNat % 256 < 1024 / c.width then
           placeOf c.width (planeCordOf u z.toNat l (u.cols.getD (col (v l)) 0)) ((v l).toNat % 256) else 0)
         (((v l).extractLsb' 16 16).toInt + expoOf s c n)
       ((∀ l ∈ lanesOf act, col (v l) < u.cols.length) → Does (.acccv h d z b n) s c act [b.toNat] s
         (regAtOnce s (flagsAtOnce s c act fun l => (res l).flags) act d fun l => BitVec.ofNat 64 (res l).bits)
         (fun _ => nextWord s) []) ∧
       ((∃ l ∈ lanesOf act, u.cols.length ≤ col (v l)) → TrapsAt (.acccv h d z b n) s c act clsResv 0 act)) ∧
     (Issues (.acccv h d z b n) s c act → Plain c act [b] → 28 ≤ d.toNat → (portOf c d.toNat).handle = 0 →
       TrapsAt (.acccv h d z b n) s c act
         (if ∃ l ∈ lanesOf act, u.cols.length ≤ col (regW c l b.toNat) then clsResv else clsProt) 0 act))

/-! ## Terms -/

/-- TAG reads a word's tag or its value, or gives a value a tag; MKT makes a word of its table. A lane whose
operand breaks the table takes TERM-TAG while the others' results are written (R249 to R251). -/
def Obligations.TermWords : Prop :=
  ∀ (h : Hdr) (d a b : Code) (tag : BitVec 4) (s : State) (c : Crew) (act : Mask),
    let goes (i : Instr) (srcs : List Code) (good : Nat → Bool) (v : Nat → Word) : Prop :=
      Issues i s c act → Plain c act srcs →
      let done := maskOf fun l => inMask act l && good l
      (done = act →
        Does i s c act (srcs.map (·.toNat)) s (regAtOnce s c act d v) (fun _ => nextWord s) []) ∧
      (done ≠ act → exec i s = .next (takeTrap (startOf s (regAtOnce s c done d v)) s.iss.crew
        { trapOf s act clsTag 0 (act &&& ~~~done) with clanes := done }))
    let wa (l : Nat) : Word := regW c l a.toNat
    goes (.tagGet h d a) [a] (fun _ => true) (fun l => wa l >>> 60) ∧
    goes (.tagVal h d a) [a] (fun _ => true) (fun l =>
      if wa l >>> 60 = 3 then ((wa l).setWidth 60).signExtend 64
      else if wa l >>> 60 = 4 then ((wa l).setWidth 32).setWidth 64
      else ((wa l).setWidth 60).setWidth 64) ∧
    goes (.tagSet h d a b) [a, b] (fun l => decide ((regW c l b.toNat).toNat % 16 < 9))
      (fun l => tagged ((regW c l b.toNat).setWidth 4) (wa l)) ∧
    (tag.toNat ≤ 8 → goes (.mkt h d a tag) (if tag = 0 then [] else [a]) (fun l => mktTakes tag.toNat (wa l))
      (fun l => if tag = 0 then 0 else if tag = 4 then tagged 4 (((wa l).setWidth 32).setWidth 64)
        else tagged tag (wa l)))

/-- The other term instructions wait for the earlier accesses of their lanes, but for stores whose targets are
known (R186 to R188, log 4), then do the lanes' work in lane order: with the work done in every lane the result
is in place before the next instruction, FAILB's lanes go to their alternatives, and UNIFY, UNIFYC and BIND
complete later (R249 to R263). What the work of a lane is, the statements that follow say; the agenda may give
the lanes their steps in another order (log 11). -/
def Obligations.TermInstructions : Prop :=
  ∀ (s : State) (c : Crew) (act : Mask),
    let s0 := startOf s c
    (∀ i fm, termForm i = some fm → Issues i s c act → Plain c act fm.srcs →
      (maskBusy c act true false = true → Parks i s c (.quiet act true false)) ∧
      (maskBusy c act true false = false → (lanesOf act).any (loadHeld c) = true → Parks i s c (.quiet act true true)) ∧
      (maskBusy c act true false = false → (lanesOf act).any (loadHeld c) = false → splitAhead s s.iss.crew = false →
        ∀ f m s1 c1,
        LanesDo (issueCtx i s c) i (fm.args c) f (lanesOf act) [] s0 m s1 → Aside s c s1 c1 →
        let does (c2 : Crew) (pc : Nat → Word) : Prop :=
          Does i s c act (fm.srcs.map (·.toNat)) (unissued s s1) c2 pc []
        match fm.dst with
        | .nowhere => does c1 (fun _ => nextWord s)
        | .word d => does (atOnce s c1 act fun l => toReg c d.toNat l ((f l).getD 0)) (fun _ => nextWord s)
        | .back p => does (predAtOnce s c1 act p fun l => (f l).isNone) (fun l => (f l).getD (nextWord s))
        | .later d => (∀ l ∈ lanesOf act, (f l).isSome = true) →
          Launches i s c act (fm.srcs.map (·.toNat)) (unissued s s1) c1
            { opFor s c act (.term i) (trackedLook c) [] (entriesOf c act d.toNat 0) with
              args := (lanesOf act).foldl (fun m l => mput m l ((fm.args c l).1, (fm.args c l).2, 0)) []
              logs := m, res := (lanesOf act).foldl (fun r l => mput r l ((f l).getD 0)) [], fin := act })) ∧
    (∀ (h : Hdr) (a : Code), let i : Instr := .cut h a
      Issues i s c act → Plain c act [a] →
      (∀ l ∈ lanesOf act, (progTh c l).choice.toNat % 16 = 0 ∧ (regW c l a.toNat = 0 ∨
        ((regW c l a.toNat).toNat % 16 = 0 ∧ (regW c l a.toNat).toNat ≤ (progTh c l).choice.toNat))) →
      Does i s c act [a.toNat] s (atOnce s c act fun l => .spec 17 (regW c l a.toNat)) (fun _ => nextWord s) []) ∧
    ∀ (h : Hdr) (d : Code), let i : Instr := .tmark h d
      Issues i s c act →
      (∀ l ∈ lanesOf act, (progTh c l).trail.toNat % 16 = 0 ∧ (progTh c l).heap.toNat % 8 = 0) →
      Does i s c act [] s
        (atOnce s (regAtOnce s c act d fun l => (progTh c l).trail) act fun l =>
          toReg c (d.toNat + 1) l (progTh c l).heap) (fun _ => nextWord s) []

/-- The steps of a lane's work pass the lane's earlier stores but for those to their own bytes, which they wait
for; a step that writes marks the others, or waits (R186 to R188, log 4). A lane with no such store, while no
store is kept from other threads, does its work step by step as the statements that follow say. Dereferencing
gives a word that is neither REF nor LNB as it is, and follows a REF to the word at its address: an unbound
variable gives its REF, a value is the result, and a REF is followed further. A variable that holds LNB is
unbound in a lane to which its vector gives nothing, and its lane's binding is followed otherwise. A malformed
word raises TERM-TAG with the address at which it stands (R236, R240; that a popped word stands at its place in
the pair list is log 11, DEDUCED). ARG gives the address of an argument that is in range, FUNC a term's functor,
and both raise TERM-TAG for other words (R252). CHOICE writes the frame's four words at %trail and moves %trail
and %choice; RETRY writes a new alternative; RETRY.TRUST goes back to the frame before, and takes its own frame
off the trail when it is the top; FAILB without a choice point has nothing to return to; undoing a trail entry
puts the old word back, or empties the lane's slot; HALLOC moves its heap pointer by eight bytes for each word,
and refuses 2^16 words or more. A misaligned %choice raises PROTECTION (R239, R243, R245, R246, R253, R258 to
R260); that its ADDR is the register's value, and which instructions check it, is log 54 (DEDUCED), and the
other addresses reported are log 79 (DESIGN CHOICE). Unifying two words: equal results of dereferencing agree
without a binding, words of other kinds disagree; an unbound variable that meets a value is bound to it. Binding
a variable of the lane's own heap writes the word and a trail entry with the old contents; one that another lane
binds first is unified again (R241, R243, R244, R255, R264). -/
def Obligations.TermAccesses : Prop :=
  (∀ (t : TLane) (m : Map TLog) (s : State) (c : Crew), mget s.crews t.x.key = some c →
     let mine := ((c.ops.filter fun o => decide (o.priv = t.x.c.priv ∧ o.seq < t.x.seq)).map (storesOf t.l)).flatten
     let open_ : Prop := ∀ d ∈ s.crews, ∀ p ∈ d.2.ops, ∀ q ∈ p.reqs, q.veils = []
     (mine = [] → open_ → ∀ {α : Type} (p : TProg α), p.run (tdo t m) s = p.run (tstep t m) s) ∧
     ∀ (a : TAcc) (va : Word) (n : Nat) (k : AccKind) (writes : Bool) (s' : State) (phys ty : Nat),
       a.place = some (va, n, k, writes) → xlat s t.w k va = (s', .ok phys ty) →
       ((∃ q ∈ mine, meets q.phys q.n phys n = true) → tdo t m a s = .wait s 0 0) ∧
       ((∀ q ∈ mine, meets q.phys q.n phys n = false) → open_ →
         (writes = false → tdo t m a s = tstep t m a s) ∧
         (writes = true → mine ≠ [] → tdo t m a s = .wait s 0 0 ∨
           tdo t m a s = tstep t m a (markAhead s t.x.key phys n mine)))) ∧
  (∀ (t : TLane) (m : Map TLog) (w k : Word) (s : State),
     let res := (deref t w k).run (tstep t m) s
     (badWord w = true → res = .err s clsTag k) ∧
     (badWord w = false → w >>> 60 ≠ 1 → w >>> 60 ≠ 8 → res = .ok s { w := w, g := none, at_ := k }) ∧
     (badWord w = false → w >>> 60 = 8 → res = .err s clsTag k) ∧
     (badWord w = false → w >>> 60 = 1 → ∀ s1 v g, varRead t (w &&& (2 ^ 57 - 1)) s = .ok s1 (v, g) →
       let a := w &&& (2 ^ 57 - 1)
       (badWord v = true → res = .err s1 clsTag a) ∧
       (v = 0 → res = .ok s1 { w := w, g := g, at_ := k }) ∧
       (badWord v = false → v ≠ 0 → v >>> 60 ≠ 1 → v >>> 60 ≠ 8 →
         res = .ok s1 { w := v, g := none, at_ := a }) ∧
       (badWord v = false → v >>> 60 = 8 → ∀ s2 hd, tload t (v &&& (2 ^ 57 - 1)) s1 = .ok s2 hd →
         let mine := (hd.extractLsb' 48 8).toNat = t.x.c.core ∧ (hd.extractLsb' 40 6).toNat = t.x.c.slot ∧
           hd.getLsbD t.l = true
         (¬mine → res = .ok s2 { w := w, g := g, at_ := k }) ∧
         (mine → ∀ s3 b, let slot := (v &&& (2 ^ 57 - 1)) + BitVec.ofNat 64 (8 * (1 + t.l))
           tload t slot s2 = .ok s3 b →
           (badWord b = true → res = .err s3 clsTag slot) ∧
           (badWord b = false → b >>> 60 ≠ 1 → b >>> 60 ≠ 8 → res = .ok s3 { w := b, g := none, at_ := slot }))))) ∧
  (∀ (t : TLane) (m : Map TLog) (w : Word) (i : Nat) (s : State),
     let arg := (argAddr w i).run (tstep t m) s
     let func := (funcLane w).run (tstep t m) s
     let a := w &&& (2 ^ 57 - 1)
     (badWord w = true → arg = .err s clsTag 0 ∧ func = .err s clsTag 0) ∧
     (badWord w = false →
     (w >>> 60 = 7 → (i = 1 ∨ i = 2 → arg = .ok s (a + BitVec.ofNat 64 (8 * (i - 1)))) ∧
       (i ≠ 1 → i ≠ 2 → arg = .err s clsTag 0) ∧ func = .ok s 0x6000000000000002) ∧
     (w >>> 60 = 5 → ∀ s1 f, tload t a s = .ok s1 f →
       (f >>> 60 = 6 → 1 ≤ i → i ≤ f.toNat % 256 → arg = .ok s1 (a + BitVec.ofNat 64 (8 * i))) ∧
       (f >>> 60 = 6 → i = 0 ∨ f.toNat % 256 < i → arg = .err s1 clsTag 0) ∧
       (f >>> 60 = 6 → func = .ok s1 f) ∧
       (f >>> 60 ≠ 6 → arg = .err s1 clsTag a ∧ func = .err s1 clsTag a)) ∧
     (w >>> 60 = 2 → func = .ok s (6 <<< 60 ||| (w &&& (2 ^ 52 - 1)) <<< 8)) ∧
     (w >>> 60 ≠ 5 → w >>> 60 ≠ 7 → arg = .err s clsTag 0 ∧
       (w >>> 60 ≠ 2 → func = .err s clsTag 0)))) ∧
  (∀ (t : TLane) (m : Map TLog) (s : State) (th : Thread), TRegs t s th →
     let run {α : Type} (p : TProg α) : VRes α := p.run (tstep t m) s
     (th.choice.toNat % 16 ≠ 0 → run trustLane = .err s clsProt th.choice ∧
       run failLane = .err s clsProt th.choice ∧ ∀ alt, run (retryLane alt) = .err s clsProt th.choice ∧
       run (cutLane alt) = .err s clsProt th.choice) ∧
     (th.choice.toNat % 16 = 0 → th.trail.toNat % 16 = 0 → th.heap.toNat % 8 = 0 →
       ∀ alt : Word, alt.toNat % 4 = 0 → alt.toNat < 2 ^ 57 → ∀ a b d e,
       tstore t th.trail (7 <<< 61 ||| th.choice &&& (2 ^ 57 - 1)) s = .ok a () →
       tstore t (th.trail + 8) th.heap a = .ok b () →
       tstore t (th.trail + 16) (7 <<< 61 ||| alt) b = .ok d () →
       tstore t (th.trail + 24) (th.trail + 32) d = .ok e () →
       run (choiceLane alt) = .ok (withSpec t 17 th.trail (withSpec t 16 (th.trail + 32) e)) ()) ∧
     (∀ alt : Word, ¬(alt.toNat % 4 = 0 ∧ alt.toNat < 2 ^ 57) → run (choiceLane alt) = .err s clsProt alt) ∧
     (th.choice = 0 → run trustLane = .err s clsProt 0 ∧ run failLane = .ok s none ∧
       ∀ alt, run (retryLane alt) = .err s clsProt 0) ∧
     (th.choice ≠ 0 → th.choice.toNat % 16 = 0 →
       (∀ alt : Word, alt.toNat % 4 = 0 → alt.toNat < 2 ^ 57 → ∀ a,
         tstore t (th.choice + 16) (7 <<< 61 ||| alt) s = .ok a () → run (retryLane alt) = .ok a ()) ∧
       ∀ s1 w, tload t th.choice s = .ok s1 w → TRegs t s1 th → th.trail.toNat % 16 = 0 →
       run trustLane = .ok (withSpec t 17 (w &&& (2 ^ 57 - 1))
         (if th.trail = th.choice + 32 then withSpec t 16 th.choice s1 else s1)) ()) ∧
     (∀ (k va : Word) (l : Nat) (old : Word), badWord old = false → l < 32 →
       (∀ v a, v.toNat < 2 ^ 57 → v.toNat % 8 = 0 → tstore t v old s = .ok a () →
         run (undoEntry k (BitVec.ofNat 64 (l * 2 ^ 56 + v.toNat / 8)) old) = .ok a ()) ∧
       (∀ a b x, let vec := old &&& (2 ^ 57 - 1)
         tstore t (vec + BitVec.ofNat 64 (8 * (1 + l))) 0 s = .ok a () →
         tatomic t vec (fun o => some (o &&& ~~~ (BitVec.ofNat 64 (2 ^ l)))) a = .ok b x →
         run (undoEntry k (BitVec.ofNat 64 (2 ^ 61 + l * 2 ^ 56 + va.toNat % 2 ^ 54)) old) = .ok b ())) ∧
     (∀ n : Word, n.toNat < 2 ^ 16 → th.heap.toNat % 8 = 0 →
       run (hallocLane false false n) = .ok (withSpec t 14 (th.heap + 8 * n) s) th.heap) ∧
     ∀ n : Word, 2 ^ 16 ≤ n.toNat → ∀ z k, run (hallocLane z k n) = .err s clsProt 0) ∧
  (∀ (t : TLane) (m : Map TLog) (a b k : Word) (x y : Deref) (s s1 s2 : State),
     (deref t a k).run (tstep t m) s = .ok s1 x → (deref t b (k + 8)).run (tstep t m) s1 = .ok s2 y →
     let res := (unifyPair t false a b k).run (tstep t m) s
     (x.w = 0 → res = .err s2 clsTag x.at_) ∧
     (x.w ≠ 0 → y.w = 0 → res = .err s2 clsTag y.at_) ∧
     (x.w ≠ 0 → x.w = y.w → res = .ok s2 true) ∧
     (x.w ≠ 0 → y.w ≠ 0 → x.w ≠ y.w → x.w >>> 60 ≠ 1 → y.w >>> 60 ≠ 1 →
       (x.w >>> 60 ≠ y.w >>> 60 ∨ (x.w >>> 60 ≠ 5 ∧ x.w >>> 60 ≠ 7)) → res = .ok s2 false) ∧
     (y.w ≠ 0 → x.w >>> 60 = 1 → y.w >>> 60 ≠ 1 → x.g = none → ∀ s3 s4 s5 low old th,
       let v := x.w &&& (2 ^ 57 - 1)
       tload t v s2 = .ok s3 0 → TRegs t s3 th → th.heap.toNat % 8 = 0 → th.pdl.toNat % 16 = 0 →
       tload t th.pdl s3 = .ok s4 low → (low &&& (2 ^ 57 - 1)).toNat ≤ v.toNat → v.toNat < th.heap.toNat →
       tatomic t v (fun o => if o = 0 then some y.w else none) s4 = .ok s5 old →
       (old = 0 → TRegs t s5 th → th.trail.toNat % 16 = 0 → ∀ s6 s7,
         tstore t th.trail (BitVec.ofNat 64 (t.l * 2 ^ 56 + v.toNat / 8)) s5 = .ok s6 () →
         tstore t (th.trail + 8) 0 s6 = .ok s7 () →
         res = .ok (withSpec t 16 (th.trail + 16) s7) true) ∧
       (old ≠ 0 → ∀ s6 w s7, tload t v s5 = .ok s6 w → badWord w = false → w ≠ 0 → w >>> 60 ≠ 8 →
         (pdlPush x.w y.w).run (tstep t m) s6 = .ok s7 () → res = .ok s7 true)))

/-! ## Symbols and system instructions -/

/-- SYMQ gives the masks of pending, faulted and used symbols, SYMQ.R says what a register of the program holds,
SYMW waits for symbols that are pending in active lanes, takes SYMBOL-FAULT for the lowest that is faulted there
and goes on otherwise, and SYMSET gives a symbol's registers their values in the lanes named and ORs the flags
of its recorded steps (R296, R298, R300 to R302). That SYMQ.R in a routine examines the trapped program's
register is log 29 (DEDUCED). -/
def Obligations.SymbolInstructions : Prop :=
  ∀ (h : Hdr) (d a b : Code) (s : State) (c : Crew) (act : Mask),
    let inLane (l : Nat) (faulted : Bool) (y : Nat) : Bool :=
      (c.syms.any fun p => decide (p.1 = y) && p.2.lanes.any fun x => decide (x.lane = l) && (x.faulted == faulted))
    let used (y : Nat) : Bool := c.syms.any fun p => decide (p.1 = y)
    (c.syms.all (fun p => decide (p.1 < 16)) = true → Issues (.symq h d) s c act →
      Does (.symq h d) s c act [] s
        (regAtOnce s c act d fun l => fromBits 48 fun i =>
          if i < 16 then inLane l false i else if i < 32 then inLane l true (i - 16) else used (i - 32))
        (fun _ => nextWord s) []) ∧
    (Issues (.symqR h d a) s c act → Does (.symqR h d a) s c act [] s
      (regAtOnce s c act d fun l => match regOf (progTh c l) a.toNat with
        | .known _ => 0
        | .iform y _ _ => BitVec.ofNat 64 (256 + y)
        | .fform y steps => BitVec.ofNat 64 (1024 * (steps.length % 4) + 512 + 256 + y))
      (fun _ => nextWord s) []) ∧
    (Issues (.symw h a) s c act → Plain c act [a] →
      let m := (regW c (lowLane act) a.toNat).toNat % 2 ^ 16
      let some_ (faulted : Bool) (y : Nat) : Prop := m.testBit y = true ∧ ∃ l ∈ lanesOf act, inLane l faulted y = true
      ((∃ y, y < 16 ∧ some_ false y) → c.syms.all (fun p => decide (p.1 < 16)) = true →
        ParksOnSymbols (.symw h a) s c act fun _ => m) ∧
      (∀ y, y < 16 → (c.syms.map (·.1)).Nodup → some_ true y → (∀ z, z < y → ¬some_ true z) →
        (∀ z, ¬some_ false z) →
        exec (.symw h a) s = .next (takeSymTrap (startOf s c) s.iss.crew y s.iss.start)) ∧
      ((∀ y, ¬some_ false y ∧ ¬some_ true y) → Does (.symw h a) s c act [a.toNat] s c (fun _ => nextWord s) [])) ∧
    (Issues (.symset h a b) s c act → c.priv = true → Plain c act [a, b] →
      let y := (regW c (lowLane act) a.toNat).toNat % 16
      (∀ l ∈ lanesOf act, ∃ z, mget c.syms y = some z ∧ ∃ x ∈ z.lanes, x.lane = l) →
      ∃ c1, Does (.symset h a b) s c act [a.toNat, b.toNat] s c1 (fun _ => nextWord s) [] ∧
        (∀ l ∈ lanesOf act, ∀ e v, mget (progTh c l).rf e = some v → mget (progTh c1 l).rf e =
          some (if v.symbol = some y then .known (formValue v (regW c l b.toNat)) else v)) ∧
        (∀ l ∈ lanesOf act, ∀ z x, mget c.syms y = some z →
          z.lanes.find? (fun x => decide (x.lane = l)) = some x → (progTh c1 l).fpstat =
            (progTh c l).fpstat ||| BitVec.ofNat 64 (stepFlags x.recs (regW c l b.toNat))) ∧
        (∀ l, inMask act l = false → progTh c1 l = progTh c l) ∧
        (∀ z, mget c1.syms y = some z → ∀ x ∈ z.lanes, inMask act x.lane = false) ∧
        (∀ z, z ≠ y → mget c1.syms z = mget c.syms z) ∧
        c1 = { c with th := c1.th, syms := c1.syms })

/-- A crew image holds each lane's registers, PC, meeting register, predicates and sticky flags, and the crew's
region mask, flags, guard register and B-pointer at their words; loading the image of a crew puts the same
values back (R347). CTXS stores the crew's image and CTXL loads one, at the lowest active lane's address, once
earlier accesses are performed (R186, R188); a misaligned address raises PROTECTION. CFLUSH writes back the
lines named, or all that the job's tables map (log 33, DEDUCED, as is the check of every line first; lines of
256 bytes are log 13, DEDUCED), and changes no byte that software reads; it waits for stores that a release
FENCE of package scope before it covers (R194). CNDW writes a condition word of the launch's graph; a launch
that no task started has none (R337, R347, R348, R350). -/
def Obligations.ContextInstructions : Prop :=
  (∀ (c : Crew),
     let w := crewImage c
     w.length = 1056 ∧
     (∀ l i, l < 32 → i < 28 → w.getD (32 * l + i) 0 = (regOf (progTh c l) i).word) ∧
     (∀ l, l < 32 → w.getD (32 * l + 28) 0 = (progTh c l).pc ∧ w.getD (32 * l + 29) 0 = (progTh c l).mr ∧
       w.getD (32 * l + 31) 0 = (progTh c l).fpstat ∧
       ((w.getD (32 * l + 30) 0).extractLsb' 0 7 = (progTh c l).preds.setWidth 7) ∧
       (w.getD (32 * l + 30) 0).getLsbD 8 = (progTh c l).live ∧
       ∀ i, i < 28 → (w.getD (32 * l + 30) 0).getLsbD (36 + i) = (regOf (progTh c l) i).symbol.isSome) ∧
     w.getD 1024 0 = c.region.setWidth 64 ∧
     (∀ f, f < 8 → ((w.getD 1025 0).extractLsb' (6 * f) 6).toNat = mgetD c.flags f 0 % 64) ∧
     (∀ f, f < 4 → ((w.getD 1026 0).extractLsb' (6 * f) 6).toNat = mgetD c.flags (8 + f) 0 % 64) ∧
     ((w.getD 1027 0).getLsbD 15 = c.quiet ∧ ((w.getD 1027 0).extractLsb' 0 7).toNat = c.width % 128 ∧
       ((w.getD 1027 0).extractLsb' 8 6).toNat = c.guard % 64) ∧
     (c.bptr < 2 ^ 11 → c.bstep < 2 ^ 11 → ((w.getD 1028 0).extractLsb' 0 11).toNat = c.bptr ∧
       ((w.getD 1028 0).extractLsb' 16 11).toNat = c.bstep) ∧
     (∀ i, 1029 ≤ i → i < 1056 → w.getD i 0 = 0) ∧
     (c.width < 128 → c.guard < 64 → c.bptr < 2 ^ 11 → c.bstep < 2 ^ 11 →
       (∀ l, l < 32 → (progTh c l).preds.getLsbD 7 = true ∧ (progTh c l).fpstat.toNat < 64) →
       let c1 := loadImage c w
       c1.region = c.region ∧ c1.quiet = c.quiet ∧ c1.guard = c.guard ∧ c1.width = c.width ∧
       c1.bptr = c.bptr ∧ c1.bstep = c.bstep ∧
       ∀ l, l < 32 → (progTh c1 l).pc = (progTh c l).pc ∧ (progTh c1 l).mr = (progTh c l).mr ∧
         (progTh c1 l).preds = (progTh c l).preds ∧ (progTh c1 l).fpstat = (progTh c l).fpstat ∧
         (progTh c1 l).live = (progTh c l).live ∧
         ∀ e, mgetD (progTh c1 l).rf e (.known 0) = mgetD (progTh c l).rf e (.known 0))) ∧
  (∀ (h : Hdr) (a b : Code) (s : State) (c : Crew) (act : Mask),
     let l := lowLane act
     let va := regW c l a.toNat
     let s0 := startOf s c
     let fenced : Prop := ∃ l ∈ lanesOf act, ∃ o ∈ c.ops, o.priv = c.priv ∧ ∃ q ∈ storesOf l o, 5 ≤ q.fenced
     let image (i : Instr) (k : AccKind) (s2 : State) : Prop :=
       ∃ ps, Translates (issueCtx i s c).w k [1, 2, 5] ((parts va 8448).map (·.1)) s0 ps s2
     (Plain c act [a] → c.priv = true →
       (Issues (.ctxs h a) s c act →
         (maskBusy c act true true = true → Parks (.ctxs h a) s c (.quiet act true true)) ∧
         (maskBusy c act true true = false → va.toNat % 256 ≠ 0 → TrapsAt (.ctxs h a) s c act clsProt va (oneLane l)) ∧
         (maskBusy c act true true = false → va.toNat % 256 = 0 → ∀ s2, image (.ctxs h a) .store s2 → ∀ s1,
           vwrite (issueCtx (.ctxs h a) s c).w .store false l va (wordsBytes (crewImage c)) s2 = .ok s1 () →
           Aside s c s1 c →
           Does (.ctxs h a) s c act [a.toNat] (unissued s s1) c (fun _ => nextWord s) [])) ∧
       (Issues (.ctxl h a) s c act →
         (maskBusy c act true true = true → Parks (.ctxl h a) s c (.quiet act true true)) ∧
         (maskBusy c act true true = false → va.toNat % 256 ≠ 0 → TrapsAt (.ctxl h a) s c act clsProt va (oneLane l)) ∧
         (maskBusy c act true true = false → va.toNat % 256 = 0 → ∀ s2, image (.ctxl h a) .load s2 → ∀ s1 bytes,
           vread (issueCtx (.ctxl h a) s c).w .load false va 8448 s2 = .ok s1 bytes → Aside s c s1 c →
           let ws := bytesWords 1056 bytes
           (∀ j, j < 32 → (ws.getD (32 * j + 28) 0).toNat % 4 = 0 ∧ (ws.getD (32 * j + 29) 0).toNat % 4 = 0) →
           Does (.ctxl h a) s c act [a.toNat] (unissued s s1) (loadImage c ws) (fun _ => nextWord s) []))) ∧
     (Plain c act [a] → ∀ i ∈ [Instr.cflushWb h a, Instr.cflushInv h a], Issues i s c act →
       let vas := (lanesOf act).map fun j => regW c j a.toNat
       let all (u : State) (ps : List Nat) (t : State) : Prop :=
         Translates (issueCtx i s c).w .load (List.range 16) vas u ps t
       (fenced → Parks i s c (.quiet act false true)) ∧
       (¬fenced → Unordered s c ∨ c.priv = true → ∀ ps0 s2 ps s3, all s0 ps0 s2 → all s2 ps s3 →
         Does i s c act [a.toNat]
           (unissued s { s3 with behind := s.behind.filter (fun x =>
             ps.all fun p => decide (x.1 / lineBytes ≠ p / lineBytes)) })
           c (fun _ => nextWord s) [])) ∧
     (Issues (.cflushAll h) s c act → c.priv = true → fenced → Parks (.cflushAll h) s c (.quiet act false true)) ∧
     (Issues (.cflushAll h) s c act → c.priv = true → ¬fenced → ∃ behind,
       Does (.cflushAll h) s c act [] { s with behind := behind } c (fun _ => nextWord s) [] ∧
       (∀ x ∈ behind, x ∈ s.behind) ∧
       ∀ x ∈ s.behind, hasHome x.1 = true → s.ecc = [] →
         (x ∈ behind ↔ ¬Mapped s (issueCtx (.cflushAll h) s c).w x.1)) ∧
     (Issues (.cndw h a b) s c act → Plain c act [a, b] →
       let task := taskOf s0 (issueCtx (.cndw h a b) s c)
       (task = none → TrapsAt (.cndw h a b) s c act clsProt 0 act) ∧
       (∀ t, task = some t → maskBusy c act true true = true →
         Parks (.cndw h a b) s c (.quiet act true true)) ∧
       (∀ t, task = some t → maskBusy c act true true = false → ∀ s1,
         writeCond { stack := t.1, job := (issueCtx (.cndw h a b) s c).w.job, header := t.2.1 }
           (regW c (highLane act) a.toNat).toNat (regW c (highLane act) b.toNat) s0 = .ok s1 () →
         Aside s c s1 c →
         Does (.cndw h a b) s c act [a.toNat, b.toNat] (unissued s s1) c (fun _ => nextWord s) [])))

/-- CANCEL issues and then cancels its unit, launch, graph, phase or job; a launch without a graph or a phase
has none to cancel and raises PROTECTION. The threads of a cancelled unit end and its serial buffer is
discarded, and of its commands only those that have read a source byte go on. It is over, and holds no column
and no plane, once the writes that it has issued are performed and those commands have ended, and not before
(R48, R49, R203, R349). -/
def Obligations.Cancelling : Prop :=
  (∀ (h : Hdr) (lvl : BitVec 3) (s : State) (c : Crew) (act : Mask), Issues (.cancel h lvl) s c act →
    let x := issueCtx (.cancel h lvl) s c
    let s0 := startOf s c
    let goes (k : State → State) : Prop := ∃ t c', Issued [] s t c c' (groupOf s c) act (fun _ => nextWord s) [] ∧
      exec (.cancel h lvl) s = .next (k t)
    (lvl = 0 → goes fun t => afterWalks (cancelUnit t c.uid)) ∧
    (lvl = 1 → goes fun t => afterWalks (cancelLaunch t x.w.lid false none)) ∧
    (lvl = 2 → (taskOf s0 x = none → TrapsAt (.cancel h lvl) s c act clsProt 0 act) ∧
      ∀ k, taskOf s0 x = some k → goes fun t => cancelGraphAt t x.w.job k.1 k.2.1) ∧
    (lvl = 3 → (phaseAt s0 x = none → TrapsAt (.cancel h lvl) s c act clsProt 0 act) ∧
      ∀ p, phaseAt s0 x = some p → goes fun t => cancelPhase t p) ∧
    (4 ≤ lvl.toNat → goes fun t => cancelJob t x.w.job)) ∧
  ∀ (s : State) (uid : Nat) (u : UnitSt), mget s.units uid = some u → u.isOver = false → u.cancelled = false →
    let t := cancelUnit s uid
    let away := u.res = .saving ∨ u.res = .swapped ∨ u.res = .restoring
    let left : Prop :=
      (¬away ∧ ∃ p ∈ s.crews, p.2.uid = uid ∧ ∃ o ∈ p.2.ops, o.done = false ∧
        ((∃ a ∈ o.accs, a.op.writes = true) ∨ ∃ r ∈ o.reqs, r.op.writes = true)) ∨
      ∃ d ∈ s.cmds, d.uid = uid ∧ d.hasRead = true ∧ d.deferred = false
    (∃ v, mget t.units uid = some v ∧ v.cancelled = true ∧ v.serial = [] ∧
      (left → v.isOver = false) ∧
      (¬left → (∀ p ∈ s.crews, mget s.crews p.1 = some p.2 ∧ (p.2.uid = uid → p.2.syms = [])) →
        v.isOver = true ∧ v.cols = [] ∧ v.planes = 0 ∧ v.res = .gone)) ∧
    (∀ k c, mget t.crews k = some c → c.uid = uid → ∀ l, l < 32 → (progTh c l).live = false) ∧
    (∀ d, d ∈ t.cmds ↔ d ∈ s.cmds ∧ (d.uid = uid → d.hasRead = true ∧ d.deferred = false)) ∧
    (∀ d ∈ t.klists, d.uid ≠ uid)

/-! ## Units, graphs, collectives and the host -/

/-- A cluster that may be admitted now gets one unit on each core, in order, with threads at the entry PC and
the parameter in w0; one that may not is left waiting. It is the lowest of its launch's waiting clusters that
can be placed. Unless the launch is ordered the cores are distinct live cores of one hardware cluster, as many
as the cluster has units that no CANCEL has ended before (R26, R33 to R36, R49, R56, R208, R319; placing it
without those units is log 59, DEDUCED). -/
def Obligations.Admission : Prop :=
  ∀ (s : State) (lid k : Nat) (cores : List Nat) (l : Launch), mget s.launches lid = some l →
    (admissible s lid k cores = false → exec (.clusterAdmit lid k cores) s = .next s) ∧
    (admissible s lid k cores = true → l.crews ≤ 32 →
      k < l.clusters ∧ k ∉ l.admitted ∧ canPlace s lid l k = true ∧
      ((l.units.map (·.1)).Pairwise (· < ·) → ∀ j, j < k → j ∉ l.admitted → canPlace s lid l j = false) ∧
      cores.length = (l.unitsLeft k).length ∧
      (l.ordered = false → cores.Nodup ∧
        ∀ c ∈ cores, coreLive s c = true ∧ c / 8 = cores.headD 0 / 8) ∧
      ∃ t, exec (.clusterAdmit lid k cores) s = .next t ∧ t.mem = s.mem ∧ t.jobs = s.jobs ∧ t.cmds = s.cmds ∧
        ((mget t.launches lid).map fun l => l.admitted) = some (l.admitted ++ [k]) ∧
        (∀ uid, uid < s.nextUid ∨ s.nextUid + cores.length ≤ uid → mget t.units uid = mget s.units uid) ∧
        ∀ i core n, cores[i]? = some core → (l.unitsLeft k)[i]? = some n →
          ∃ u, mget t.units (s.nextUid + i) = some u ∧ u.lid = lid ∧ u.cluster = k ∧ u.u = n ∧ u.core = core ∧
            u.crews = l.crews ∧ u.ctr = 32 * l.crews ∧ u.res = .resident ∧ u.shareSize = l.scratch ∧
            u.cols = [] ∧ u.planes = 0 ∧ u.ended = false ∧
            ∀ j, j < l.crews → ∃ c, mget t.crews ((s.nextUid + i) * 32 + j) = some c ∧ c.uid = s.nextUid + i ∧
              c.idx = j ∧ c.core = core ∧ c.priv = false ∧ c.region = 0 ∧ c.width = 16 ∧ c.guard = 7 ∧
              c.bptr = 0 ∧ c.bstep = 1 ∧ c.ops = [] ∧ c.pend = [] ∧
              ∀ n, n < 32 → (progTh c n).live = true ∧ (progTh c n).pc = l.words.getD 0 0 ∧
                (progTh c n).mr = 0 ∧ (progTh c n).frame = 0 ∧
                ∀ e, mgetD (progTh c n).rf e (.known 0) =
                  .known (if e = 0 then l.words.getD 12 0 else 0))

/-- A unit whose threads have ended and whose work has drained completes: its share reads zero (log 75, DESIGN
CHOICE), its counters are free, and its launch's counter falls by one; in an ordered launch it first awaits its
serial phase, which performs the buffer's entries in order and then completes it. A unit that has not drained
goes on, and a cancelled one is counted when what it has issued is performed (R48, R49, R160, R203, R333).
POOLMAP_LOAD puts the pool bitmap in place for a launch that still waits for it (R82, R318); it is read as stack
0 sees it (log 55, DESIGN CHOICE). -/
def Obligations.UnitsComplete : Prop :=
  (∀ (s : State) (u : UnitSt) (l : Launch), mget s.units s.subj = some u → mget s.launches u.lid = some l →
     (u.cancelled = false → unitDrained s s.subj = false → exec .unitComplete s = .next s) ∧
     (u.cancelled = true → u.isOver = false → s.walks = [] → 2 ≤ l.count →
       (workDone s s.subj = false → exec .unitComplete s = .next s) ∧
       (workDone s s.subj = true → ∃ t v, exec .unitComplete s = .next t ∧ mget t.units s.subj = some v ∧
         v.isOver = true ∧ v.cols = [] ∧
         (mget t.launches u.lid).map (fun l => (l.count, l.anyCancelled)) = some (l.count - 1, true))) ∧
     (u.cancelled = false → unitDrained s s.subj = true → l.ordered = true → ∃ t v, exec .unitComplete s = .next t ∧
       mget t.units s.subj = some v ∧ v.ended = true ∧ v.isOver = false ∧ v.serial = u.serial) ∧
     (u.cancelled = false → unitDrained s s.subj = true → l.ordered = false → l.words.length = 32 → 2 ≤ l.count → s.walks = [] →
       ∃ t v, exec .unitComplete s = .next t ∧ mget t.units s.subj = some v ∧ v.isOver = true ∧ v.res = .gone ∧
         v.cols = [] ∧ (mget t.launches u.lid).map Launch.count = some (l.count - 1) ∧
         (∀ a, shareOf s.subj ≤ a → a < shareOf s.subj + 2 ^ 22 → cellGet t.mem a = 0) ∧
         ∀ x ∈ t.lctrs, x.2.owner ≠ s.subj) ∧
     (phaseUnit s l = some s.subj → l.pages = [] →
       (u.serial = [] → exec .serialPhase s = .next (afterWalks (countUnit s s.subj))) ∧
       (∀ x inc slot rest, u.serial = .count x inc slot :: rest → ∃ t v, exec .serialPhase s = .next t ∧
         mget t.units s.subj = some v ∧ v.serial = rest ∧ t.mem = s.mem ∧
         (∀ y, mgetD t.xctrs y 0 = if y = x then min (mgetD s.xctrs x 0 + inc) 0xFFFFFFFF
           else mgetD s.xctrs y 0)) ∧
       (∀ e rest s1, u.serial = e :: rest →
         serialWork (phaseWho s u s.subj e.place.1 e.place.2.1) e s = .ok s1 () →
         mget s1.units s.subj = some u → ∃ t v, exec .serialPhase s = .next t ∧ t.mem = s1.mem ∧
           mget t.units s.subj = some v ∧ v.serial = rest)) ∧
     (phaseUnit s l ≠ some s.subj → exec .serialPhase s = .next s)) ∧
  (∀ (s : State) (l : Launch), mget s.launches s.subj = some l → l.isOver = false →
     (l.poolReady = true → exec .poolmapLoad s = .next s) ∧
     (l.poolReady = false → l.pages = [] → ∀ s1 bytes,
       readPool { job := l.job, core := 0, uid := 0, lid := s.subj, slot := 0, lanes := 0, priv := false
                  cmd := 0, host := false } l s = .ok s1 bytes →
       s1.launches = s.launches →
       exec .poolmapLoad s = .next { s1 with
         launches := mput s.launches s.subj { l with pool := bytes, poolReady := true, pages := [] } }))

/-- What makes a unit leave its core: the wait clock past SWAPTH while something waits for admission, a
reservation deadlock, of which the youngest unit leaves, and pre-emption, which takes units of lower priority
whose leaving makes room, the fewest that suffice on any hardware cluster. Nothing else changes when a unit
starts to leave (R51, R211, R322; that only launches with clusters to be admitted count as waiting is the
model's choice, log 73, and a unit's image stands in State and not in the SWAP area, log 56, DEDUCED). A unit
that has drained is saved, with its results in place and its requests withdrawn; a saved unit has left its core,
with its landing counters in its image; one is restored to the crew slots that it left, once they are free,
takes its counters back and runs again (R53, R242, R274). -/
def Obligations.UnitsLeave : Prop :=
  ((∀ (s : State) (u : UnitSt) (l : Launch), mget s.units s.subj = some u → mget s.launches u.lid = some l →
     u.res = .resident → u.ended = false → u.isOver = false → u.cancelled = false →
     let limit := s.swapth.toNat % 2 ^ 32
     (l.swappable = true → (∃ p ∈ s.launches, p.2.waiting = true) → limit ≠ 0 → limit < u.clock →
       exec .waitClockSwap s = .next { s with units := mput s.units s.subj { u with res := .draining } }) ∧
     (l.swappable = false ∨ (∀ p ∈ s.launches, p.2.waiting = false) ∨ limit = 0 ∨ u.clock ≤ limit →
       exec .waitClockSwap s = .next s)) ∧
   (∀ (s : State), 2 ≤ (deadUnits s s.subj).length → noGrant s s.subj = true →
     (∀ u ∈ coreUnits s s.subj, u.res ≠ .draining ∧ u.res ≠ .saving) →
     ∃ p ∈ deadUnits s s.subj, exec .reservationDeadlock s =
         .next { s with units := mmod s.units p.1 fun u => { u with res := .draining } } ∧
       ∀ q ∈ deadUnits s s.subj, q.2.lid < p.2.lid ∨
         (q.2.lid = p.2.lid ∧ unitIndex s q.2 ≤ unitIndex s p.2)) ∧
   ∀ (s : State) (lid k hw : Nat) (l : Launch), mget s.launches lid = some l →
     let n := (l.unitsLeft k).length
     (canPlace s lid l k = true ∨ l.waits k = false → exec (.preEmpt lid k hw) s = .next s) ∧
     (l.waiting = true → l.waits k = true → hw < 32 → canPlace s lid l k = false →
       (∀ h, h < 32 → roomWithout s lid l n h [] = false) → ∀ gone, preemptSet s lid l n hw = some gone →
       (bestSet s lid l n hw gone = false → exec (.preEmpt lid k hw) s = .next s) ∧
       (bestSet s lid l n hw gone = true → roomWithout s lid l n hw gone = true ∧
       (∀ h other, h < 32 → preemptSet s lid l n h = some other → gone.length ≤ other.length) ∧
       (∀ uid ∈ gone, ∃ u, (uid, u) ∈ s.units ∧ unitPrio s u < l.prio ∧ unitSwappable s u = true ∧
         u.core / 8 = hw) ∧
       ∃ t, exec (.preEmpt lid k hw) s = .next t ∧ t = { s with units := t.units } ∧
         ∀ uid, mget t.units uid = (mget s.units uid).map fun u =>
           if uid ∈ gone then { u with res := .draining } else u))) ∧
  (∀ (s : State) (u : UnitSt), mget s.units s.subj = some u → u.isOver = false → u.ended = false →
     u.cancelled = false →
     (u.res = .draining → unitQuiet s s.subj = true → ∃ t v, exec .drainDone s = .next t ∧
       mget t.units s.subj = some v ∧ v.res = .saving ∧
       ∀ k c, mget t.crews k = some c → c.uid = s.subj →
         c.pend = [] ∧ c.hint = Hints.none ∧ ∀ o ∈ c.ops, o.done = true ∨ ∀ r ∈ o.reqs, r.open_ = false ∨ r.ty = tyCord) ∧
     (u.res = .draining → unitQuiet s s.subj = false → exec .drainDone s = .next s) ∧
     (u.res = .saving → resvWaiters s u.core = [] → ∃ t, exec .saveDone s = .next t ∧
       mget t.units s.subj = some { u with
         res := .swapped
         lcs := (s.lctrs.filter fun p => decide (p.2.owner = s.subj)).map fun p => (p.1 % 64, p.2) } ∧
       t = { s with units := t.units, lctrs := s.lctrs.filter fun p => decide (p.2.owner ≠ s.subj) }) ∧
     (u.res ≠ .saving → exec .saveDone s = .next s) ∧
     (restorable s u = true → firstRestore s s.subj u = true → admitBefore s u = false →
       (∀ n ∈ u.slots, n < 64 ∧ ∀ v ∈ coreUnits s u.core, n ∉ v.slots) ∧
       ∃ t v, exec .restoreStart s = .next t ∧
         mget t.units s.subj = some v ∧ v = { u with res := .restoring, shareBase := v.shareBase, lcs := [] } ∧
         t.mem = s.mem ∧ t.crews = s.crews ∧
         ∀ p ∈ u.lcs, p.1 < 64 → (u.lcs.map (·.1)).Nodup → mget t.lctrs (u.core * 64 + p.1) = some p.2) ∧
     (restorable s u = false → exec .restoreStart s = .next s) ∧
     (u.res = .restoring → (∀ p ∈ s.crews, p.2.disp = none) → ∃ t v, exec .restoreDone s = .next t ∧
       mget t.units s.subj = some v ∧ v.res = .resident) ∧
     (u.res ≠ .restoring → exec .restoreDone s = .next s))

/-- Threads that waited for a page go on once its fault-queue entry is served, and the entry is forgotten;
COMPAT routing puts the results of the last instruction in place before the next (R67, R157). -/
def Obligations.ReplayAndRouting : Prop :=
  (∀ (s : State) (job entry id : Nat) (f : FaultEnt), ringEntry s job entry (·.served) = some (id, f) →
    mget s.faults id = some f → f.rejected = false → s.walks = [] →
    (∀ p ∈ s.crews, ∀ o ∈ p.2.ops, o.accs = []) →
    ∃ t, exec (.pageFaultReplay job entry) s = .next t ∧ mget t.faults id = none ∧ t.mem = s.mem ∧
      ∀ k c, mget s.crews k = some c → ∃ c', mget t.crews k = some c' ∧
        ∀ l, (thOf c l).park = .page [id] → thOf c' l = { thOf c l with park := .none }) ∧
  (∀ (s : State) (job entry : Nat), ringEntry s job entry (·.served) = none →
    exec (.pageFaultReplay job entry) s = .next s) ∧
  ∀ (s : State) (c : Crew), mget s.crews s.subj = some c →
    ((mgetD s.compat c.core 0).getLsbD 8 = true → ∃ c', exec .compatRoute s = .next (putCrew s s.subj c') ∧
      (∀ p ∈ c'.pend, p.seq + 1 ≠ s.nextSeq) ∧
      ∀ p ∈ c.pend, p.seq + 1 = s.nextSeq → ∀ e v, p.tgt = .reg e v →
        (∀ q ∈ c.pend, q.lane = p.lane → (∃ w, q.tgt = .reg e w) → q = p ∨ q.seq < p.seq) →
        mgetD (thOf c' p.lane).rf e (.known 0) = v) ∧
    ((mgetD s.compat c.core 0).getLsbD 8 = false → exec .compatRoute s = .next (putCrew s s.subj c))

/-- A collective of which every rank has joined reads the sources, in any order of their parts (R188), and gives
each member's destination its result: the reduction in every rank or in the root, the root's bytes, all ranks'
bytes in order, or the rank's part of the reduction (R288, R289). The reduction takes the elements left to
right. A command of a group of no ranks completes at once as EMPTY, whatever its lane still has in flight
(R200). -/
def Obligations.Collectives : Prop :=
  (∀ (s s1 : State) (job : Nat) (group : Word) (c0 : Cmd) (cs : List Cmd) (srcs : List (Nat × List Byte)),
    groupCmds s job group = c0 :: cs →
    (∀ c ∈ c0 :: cs, c.joined = true ∧ collAgree s c0 c = true ∧ c.rank < c0.collP) →
    (c0 :: cs).length = c0.collP → ((c0 :: cs).map (·.rank)).Nodup →
    (s.cmds.map fun c => (c.core, c.seq)).Nodup → c0.collP ≤ c0.nl * clustersOf s c0.lid →
    let lids := dedup ((findColl s job group).elim [] (·.lids) ++ (c0 :: cs).map (·.lid))
    lids.length ≤ c0.nl →
    pickSources s.subj ((c0 :: cs).foldl (fun l c => insRank c l) [])
      (putColl s { job := job, group := group, lids := lids }) = CollRead.ok s1 srcs → s1.cmds = s.cmds →
    let goes (i : Instr) (kind : Nat) : Prop := c0.kind = kind → ∃ t, exec i s = .next t ∧ t.mem = s1.mem ∧
      findColl t job group = none ∧ ∀ c ∈ c0 :: cs, ∃ c1 ∈ t.cmds, c1 = { c with
        started := true, hasRead := true, cst := 0, pages := [], seen := []
        land := ((collOut c srcs).map fun o => (withPos 0 o.2).map fun x =>
          ({ at_ := .va (c.words.getD 2 0 + BitVec.ofNat 64 o.1 + BitVec.ofNat 64 x.1), byte := x.2
             row := none } : LandB)).flatten }
    goes (.allreduce job group) 8 ∧ goes (.reduce job group) 9 ∧ goes (.bcast job group) 10 ∧
    goes (.allgather job group) 11 ∧ goes (.redscat job group) 12) ∧
  (∀ (s : State) (job : Nat) (group : Word) (c : Cmd), groupCmds s job group = [c] → c.collP = 0 →
    (s.cmds.map fun c => (c.core, c.seq)).Nodup → c ∈ s.cmds → (c.joined = true ∨ firstInQueue s c = true) →
    let goes (i : Instr) (kind : Nat) : Prop := c.kind = kind → ∃ t, exec i s = .next t ∧
      { c with joined := true, started := true, cst := 1 } ∈ t.cmds ∧ t = { s with cmds := t.cmds }
    goes (.allreduce job group) 8 ∧ goes (.reduce job group) 9 ∧ goes (.bcast job group) 10 ∧
    goes (.allgather job group) 11 ∧ goes (.redscat job group) 12) ∧
  (∀ (c : Cmd) (srcs : List (Nat × List Byte)), c.esz ≠ 0 →
    let n := srcElems c
    (∀ p ∈ srcs, p.2.length = n * c.esz) →
    let elem (p : Nat × List Byte) (i : Nat) : Nat := natOf ((p.2.drop (i * c.esz)).take c.esz)
    let red (i : Nat) : Nat := match srcs with
      | [] => 0
      | p :: ps => ps.foldl (fun a q => redOp c.cop c.esz a (elem q i)) (elem p i)
    let out (lo k : Nat) : List Byte := ((List.range k).map fun i => bytesOf c.esz (red (lo + i))).flatten
    (srcs ≠ [] → c.kind = 8 → collOut c srcs = [(0, out 0 n)]) ∧
    (srcs ≠ [] → c.kind = 9 → collOut c srcs = if c.rank = c.root then [(0, out 0 n)] else []) ∧
    (c.kind = 10 → ∀ p ∈ srcs, p.1 = c.root → (∀ q ∈ srcs, q.1 = c.root → q = p) →
      collOut c srcs = [(0, p.2)]) ∧
    (c.kind = 11 → collOut c srcs = srcs.map fun p => (p.1 * c.count * c.esz, p.2)) ∧
    (srcs ≠ [] → c.kind = 12 → c.rank < c.collP →
      collOut c srcs = [(0, out (c.rank * c.count) c.count)])) ∧
  ∀ (size a b : Nat), redOp 0 size a b = (a + b) % 2 ^ (8 * size) ∧ redOp 3 size a b = min a b ∧
    redOp 4 size a b = max a b

/-- A GRAPH command, and the start of the task at the head of a graph's ready queue, is done whole once no page
stops it; an error is logged with kind 6. START needs a graph that is IDLE or DONE, CANCEL one that is RUNNING
or STALLED, RETRY and ABANDON a FAULTED task, all three on the walker that runs the graph (R323 to R325, R328).
Before the package is ready for launches none is taken (R356). A ready queue is kept by higher priority, then
lower index; replacing a field of a task control block's word leaves the word's other bits (R324, R325). -/
def Obligations.GraphCommands : Prop :=
  ((∀ (s : State) (c : GraphCmd), (∀ j ∈ s.walks, ∀ k, j.kind ≠ .cmd c k) →
     let goes (i : Instr) (kind : Nat) : Prop :=
       (s.bootst ≠ 4 → exec i s = .next s) ∧
       (s.bootst = 4 → (c.queued = true → (s.graphQ.find? fun q => decide (q.2.stack = c.stack)) = some (kind, c)) →
       (∀ s1, graphCommand c kind s = .ok s1 () → exec i s = .next (afterWalks
         (if c.queued then { s1 with graphQ := popGraph c.stack s1.graphQ } else s1))) ∧
       (∀ s1 cls a, graphCommand c kind s = .err s1 cls a → c.queued = false →
         exec i s = .next (afterWalks (vlogAdd s1 (if c.req = 0 then 0 else (graphWho c).core / 64 * 16) 6 a (graphWho c)))))
     goes (.graphStart c) 0 ∧ goes (.graphRetry c) 1 ∧ goes (.graphAbandon c) 2 ∧ goes (.graphCancel c) 3 ∧
     goes (.graphLaunch c) 4) ∧
   (∀ (s : State) (stack job : Nat) (header : Word) (r : GraphRun), r ∈ s.graphs →
     (s.graphs.find? fun r => r.is job header) = some r → r.stack = stack → r.ready ≠ [] →
     (s.bootst ≠ 4 → exec (.taskStart stack job header) s = .next s) ∧
     (s.bootst = 4 → (∀ j ∈ s.walks, j.kind ≠ .next stack job header) → ∀ s1,
       takeReady { stack := stack, job := job, header := header } s = .ok s1 () →
       exec (.taskStart stack job header) s = .next (afterWalks s1))) ∧
   ∀ (c : GraphCmd) (s s1 : State) (st : Nat),
     let g := graphOn s c
     (∀ r, (s.graphs.find? fun r => r.is c.job c.addr) = some r → g = { graphAt c with stack := r.stack }) ∧
     (gstate (graphAt c) s = .ok s1 st →
       (st ≠ 0 → st ≠ 3 → graphCommand c 0 s = .err s1 clsProt c.addr) ∧
       (st = 0 ∨ st = 3 → graphCommand c 0 s = startGraph (graphAt c) none s1)) ∧
     (gstate g s = .ok s1 st →
       (st ≠ 1 → st ≠ 2 → graphCommand c 3 s = .err s1 clsProt c.addr) ∧
       (st = 1 ∨ st = 2 → graphCommand c 3 s = cancelGraph g s1)) ∧
     ∀ n s2, gtasks g s = .ok s1 n →
       (n ≤ c.task → graphCommand c 1 s = .err s1 clsProt c.addr ∧ graphCommand c 2 s = .err s1 clsProt c.addr) ∧
       (c.task < n → tstatus g c.task s1 = .ok s2 st → st ≠ 4 →
         graphCommand c 1 s = .err s2 clsProt c.addr ∧ graphCommand c 2 s = .err s2 clsProt c.addr) ∧
       (c.task < n → tstatus g c.task s1 = .ok s2 4 →
         graphCommand c 2 s = taskOver g c.task 5 (fun _ => vpure false) s2)) ∧
  ((∀ (x : Nat × Nat × Bool) (q : List (Nat × Nat × Bool)),
     let before (a b : Nat × Nat × Bool) : Prop := b.2.1 < a.2.1 ∨ (a.2.1 = b.2.1 ∧ a.1 ≤ b.1)
     q.Pairwise before → (insReady x q).Pairwise before ∧ ∀ y, y ∈ insReady x q ↔ y = x ∨ y ∈ q) ∧
   ∀ (w hi lo v : Nat), lo ≤ hi →
     bits (setBits w hi lo v) hi lo = v % 2 ^ (hi + 1 - lo) ∧
     ∀ i, (i < lo ∨ hi < i) → (setBits w hi lo v).testBit i = w.testBit i)

/-- The control window: a write of the tail takes as many records of the job's launch queue as it passes; a
record is taken with its sequence and counted, or refused with the test that it fails; before the package is
ready for launches none is taken. The ring heads move and the entries passed are served (R48, R316 to R319,
R353, R356). That the queue is a list of State, and that the event carries records to append, are log 69 and log
40 (DESIGN CHOICE). The host cancels what it names, a unit also before it is admitted, and nothing when there is
none (R49, R349, R353). -/
def Obligations.LaunchQueueAndRings : Prop :=
  ((∀ (s : State) (job : Nat) (tail : BitVec 16) (r : List Word), (mgetD s.jobs job (jobReset job)).length = 8 →
     r.length = 32 → s.bootst = 4 → mgetD s.lqueue job [] = [] →
     tail = mgetD s.lqtail job 0 + 1 →
     let count := ((ctxW s job 5).extractLsb' 32 32).toNat
     let why := recWhy s (newLaunch s job r none)
     count + 1 < 2 ^ 32 → ∃ t l, exec (.lqtailWrite job tail [r]) s = .next t ∧
       t.nextLid = s.nextLid + 1 ∧ mget t.launches s.nextLid = some l ∧ l.job = job ∧ l.seq = s.nextLid ∧
       l.words.getD 18 0 = BitVec.ofNat 64 s.nextLid ∧
       (∀ i, i < 32 → i ≠ 18 → i ≠ 19 → l.words.getD i 0 = r.getD i 0) ∧
       (∀ lid, lid ≠ s.nextLid → mget t.launches lid = mget s.launches lid) ∧ t.mem = s.mem ∧
       (why = 0 → l.isOver = false ∧ l.status = 0 ∧ ((ctxW t job 5).extractLsb' 32 32).toNat = count + 1) ∧
       (why ≠ 0 → l.isOver = true ∧ l.status = 5 ∧ ((ctxW t job 5).extractLsb' 32 32).toNat = count)) ∧
   (∀ (s : State) (job : Nat) (tail : BitVec 16) (rs : List (List Word)), s.bootst ≠ 4 →
     exec (.lqtailWrite job tail rs) s =
       .next { s with lqueue := mput s.lqueue job (mgetD s.lqueue job [] ++ rs) }) ∧
   (∀ (s : State) (job : Nat) (tail : BitVec 16) (rs : List (List Word)), s.bootst = 4 →
     let q := mgetD s.lqueue job [] ++ rs
     let n := (tail.toNat + 2 ^ 16 - (mgetD s.lqtail job 0).toNat) % 2 ^ 16
     ∃ t, exec (.lqtailWrite job tail rs) s = .next t ∧ t.nextLid = s.nextLid + min n q.length ∧
       mgetD t.lqtail job 0 = tail ∧ mgetD t.lqueue job [] = q.drop n) ∧
   ∀ (s : State) (job : Nat) (f h : BitVec 16), (mgetD s.jobs job (jobReset job)).length = 8 →
     (∀ p ∈ s.faults, p.2.job = job → p.2.ring.isSome = true ∨ p.2.served = true ∨ p.2.rejected = true) →
     let size := 2 ^ ((ctxW s job 1).extractLsb' 60 4).toNat
     let old := ((ctxW s job 2).extractLsb' 48 16).toNat
     let w2 := ctxW s job 2
     ∃ t, exec (.ringHeadWrite job f h) s = .next t ∧ t.mem = s.mem ∧
       ctxW t job 2 = f ++ w2.extractLsb' 32 16 ++ h ++ w2.extractLsb' 0 16 ∧
       (∀ j i, (j ≠ job ∨ i ≠ 2) → ctxW t j i = ctxW s j i) ∧
       ∀ id e, mget s.faults id = some e → ∃ e', mget t.faults id = some e' ∧
         e'.served = (e.served || (decide (e.job = job) && e.ring.any fun at_ =>
           decide ((at_ + size - old % size) % size < (f.toNat + size - old % size) % size))) ∧
         e'.rejected = e.rejected ∧ e'.words = e.words) ∧
  (∀ (s : State) (job lid u id : Nat) (header : Word),
     (∀ l uid, mget s.launches lid = some l → l.job = job →
       exec (.hostCancelLaunch job lid) s = .next (afterWalks (cancelLaunch s lid false none)) ∧
       (mget l.units u = some uid → exec (.hostCancelUnit job lid u) s = .next (afterWalks (cancelUnit s uid))) ∧
       (mget l.units u = none → l.isOver = false → l.ending = false →
         exec (.hostCancelUnit job lid u) s = .next (afterWalks (cancelEarly s lid l u))) ∧
       (mget l.units u = none → l.isOver = true ∨ l.ending = true →
         exec (.hostCancelUnit job lid u) s = .next s)) ∧
     ((∀ l, mget s.launches lid = some l → l.job ≠ job) →
       exec (.hostCancelLaunch job lid) s = .next s ∧ exec (.hostCancelUnit job lid u) s = .next s) ∧
     (∀ r, (s.graphs.find? fun r => r.is job header) = some r →
       exec (.hostCancelGraph job header) s = .next (cancelGraphAt s job r.stack header)) ∧
     ((s.graphs.find? fun r => r.is job header) = none → exec (.hostCancelGraph job header) s = .next s) ∧
     (∀ p, (s.phases.find? fun p => decide (p.job = job ∧ p.id = id) && !p.isOver) = some p →
       exec (.hostCancelPhase job id) s = .next (afterWalks (cancelPhase s p))) ∧
     ((s.phases.find? fun p => decide (p.job = job ∧ p.id = id) && !p.isOver) = none →
       exec (.hostCancelPhase job id) s = .next s) ∧
     exec (.hostCancelJob job) s = .next (cancelJob s job))

/-- A disposition of a TRAPPED crew: RESUME takes it out of its routine, KILL ends its threads, FAIL fails its
launch, at once while its unit stands on its core and after restore otherwise; REJECT rejects a fault-queue
entry. A disposition without a crew or a trap to answer is ignored and logged with kind 1 for whoever stored it
(R337, R339, R341, R353), with the address that a thread stored to, at slice 0 of its stack (log 20, DESIGN
CHOICE). -/
def Obligations.Dispositions : Prop :=
  let ignored (s : State) (job cs : Nat) : State :=
    let w := if s.subj = 0 then whoHost job else { whoHost job with
      host := false, core := (s.subj - 1) / 2 ^ 38 % 256, slot := (s.subj - 1) / 2 ^ 32 % 64
      lanes := BitVec.ofNat 32 (s.subj - 1) }
    vlogAdd s (if s.subj = 0 then 0 else w.core / 64 * 16) 1
      (if s.subj = 0 then BitVec.ofNat 64 (0xC0000000000 + job * 2 ^ 18 + 0x1000 + 8 * cs)
        else BitVec.ofNat 64 ((s.subj - 1) / 2 ^ 46)) w
  (∀ (s : State) (job cs key : Nat) (c : Crew) (u : UnitSt), dispCrew s job cs = some (key, c, u) →
    mget s.crews key = some c →
    let s1 := putCrew s key { c with answered := true }
    let w := whoLane s1 { c with answered := true } 0 true
    let goes (i : Instr) (kind : Nat) (now : State) : Prop :=
      (c.priv = true → c.answered = false → u.res = .resident → exec i s = .next now) ∧
      (c.priv = true → c.answered = false → u.res ≠ .resident →
        exec i s = .next (putCrew s key { c with answered := true, disp := some kind })) ∧
      (c.priv = false ∨ c.answered = true → exec i s = .next (ignored s job cs))
    goes (.dispResume job cs) 1 (eret s1 key) ∧ goes (.dispKill job cs) 2 (endLanes s1 key (-1)) ∧
    goes (.dispFail job cs) 3
      (afterWalks (cancelLaunch s1 w.lid true (c.trap.map fun t => frecWords w.lid c t)))) ∧
  (∀ (s : State) (job cs : Nat), dispCrew s job cs = none → ∀ i ∈ [Instr.dispResume job cs,
    .dispKill job cs, .dispFail job cs], exec i s = .next (ignored s job cs)) ∧
  ∀ (s : State) (job cs : Nat) (e : BitVec 16),
    (∀ id f, ringEntry s job e.toNat (fun f => !f.served && !f.rejected) = some (id, f) →
      exec (.dispReject job cs e) s =
        .next (replayAll { s with faults := mput s.faults id { f with rejected := true } })) ∧
    (ringEntry s job e.toNat (fun f => !f.served && !f.rejected) = none →
      exec (.dispReject job cs e) s = .next (ignored s job cs))

/-- What host cores and devices do to memory: a load gives the bytes there, a store writes them, a store to a
weight store while a unit runs and an access to bytes with an uncorrectable error or to no memory are refused
and logged; memory stands behind the CXL ports only where one is enabled, and a device only behind an enabled
port; a job's context words are written with reserved bits 0 and JCNT as it was; the oldest command of a job's
HOST queue can be taken (R165, R169, R266, R316, R351, R352, R357). A load or store may spend tokens of the
stack whose home slice it reaches (R360). Appending a launch record is logs 40 and 69 (DESIGN CHOICE), taking
the oldest command log 60 (DEDUCED), and all 8 TiB behind any enabled CXL port log 68 (DESIGN CHOICE). -/
def Obligations.HostAccesses : Prop :=
  ∀ (s : State) (addr : Word) (n job : Nat) (data : List Byte) (ws : List Word),
    let a := addr.toNat
    let memory (n : Nat) : Prop := a + n ≤ 2 ^ 38 ∨ (dramBase 0 ≤ a ∧ a + n ≤ dramBase 4) ∨
      (wsBase 0 ≤ a ∧ a + n ≤ wsBase 4) ∨
      (cxlBase ≤ a ∧ a + n ≤ rawScratch 0 ∧ 16 ≤ s.part.ports.toNat)
    let good (n : Nat) : Prop := eccBad s a n = false
    let store : State → Prop := fun t => exec (.hostAccess (.store addr data)) s = .next t
    let refused (slice kind : Nat) : State := vlogAdd s slice kind addr (whoHost 0)
    (memory n → good n → (∀ i, i < n → refreshing s (a + i) = false) → unreachable s a = false →
      ∃ k, exec (.hostAccess (.load addr n)) s =
        .next { s with hostRead := cellsGet s.mem a n, tokens := k } ∧ (hasHome a = false → k = s.tokens)) ∧
    (s.part.ports.getLsbD (s.subj % 8) = false → exec (.pcieDeviceAccess addr n) s = .next s) ∧
    (s.part.ports.getLsbD (s.subj % 8) = true → memory n → good n → (∀ c ∈ s.behind, c.1 < a ∨ a + n ≤ c.1) →
      exec (.pcieDeviceAccess addr n) s = .next { s with devRead := cellsGet s.mem a n }) ∧
    (memory data.length → good data.length → (a < wsBase 0 ∨ cxlBase ≤ a ∨ anyRunning s = false) →
      ∃ b k, store { s with mem := cellsPut s.mem a data, behind := b, tokens := k } ∧ (hasHome a = false → k = s.tokens)) ∧
    (memory data.length → good data.length → wsBase 0 ≤ a → a < cxlBase → anyRunning s = true →
      store (refused (sliceOf s a) 1)) ∧
    (memory data.length → eccBad s a data.length = true → store (refused (sliceOf s a) 0)) ∧
    (¬memory data.length → isDevice a = false → store (refused 0 1)) ∧
    (job < 64 → ws.length = 8 → ∃ t, exec (.hostAccess (.context job ws)) s = .next t ∧
      t = { s with jobs := t.jobs } ∧ (∀ i ∈ [2, 3, 7], ctxW t job i = ws.getD i 0) ∧
      ctxW t job 5 = ctxW s job 5 ∧ ctxW t job 0 = ws.getD 0 0 &&& 0x01FFFFFFFFFFF03F ∧
      (∀ i ∈ [1, 4], ctxW t job i = ws.getD i 0 &&& 0xF1FFFFFFFFFFFFFF) ∧
      ctxW t job 6 = ws.getD 6 0 &&& 0x1FFFFFFFF ∧ ∀ j i, j ≠ job → ctxW t j i = ctxW s j i) ∧
    (∀ pre q uid post, s.hostQ = pre ++ (job, q, uid) :: post → (∀ p ∈ pre, p.1 ≠ job) →
      exec (.hostAccess (.take job)) s =
        .next { s with hostQ := pre ++ post, hostRead := wordsBytes q }) ∧
    exec (.hostAccess (.append job ws)) s =
      .next { s with lqueue := mput s.lqueue job (mgetD s.lqueue job [] ++ [ws]) } ∧
    (∀ stack id headers, s.bootst ≠ 4 → exec (.hostAccess (.phase job stack id headers)) s = .next s) ∧
    (∀ stack id, s.bootst = 4 → (s.phases.all fun p => decide (p.job ≠ job ∨ p.id ≠ id)) = true → ∃ t,
        exec (.hostAccess (.phase job stack id [])) s = .next t ∧ t.mem = s.mem ∧
          ∃ p ∈ t.phases, p.job = job ∧ p.id = id ∧ p.isOver = true)

/-- Power-on verifies the three images in order and then what the configuration record says: the first failure
stops it with its number and step in BOOTST, the digests of the images that passed before it stand in M0 to M2,
and a part that boots has all three there and M3 zero. M3 is extended by hashing, and an attestation report
takes the nonce that started it and ends in a signature of 512 bytes (R356 to R358). The hash is SHA-512 (log
26, PRESUMED); what a failed boot leaves, and that the event carries the images, is log 49 (DESIGN CHOICE).
Links, power and clocks: a fibre that fails leaves every route and stays out, a retried flit changes nothing
that is seen, a refill gives its stack tokens, the governor sets the clock of the home slices or the crossbar
but not the arithmetic clock, and an inlet above 40 °C lowers the power limit of a module and of nothing else
(R354, R355, R360 to R362). How much a refill gives and how far the limit falls is free (log 18, DESIGN CHOICE). -/
def Obligations.BootLinksAndPower : Prop :=
  ((∀ (a b r : BootImage) (cfg : PartCfg) (s : State),
     let fresh := { State.reset with
       agenda := s.agenda, free := s.free, onModule := s.onModule, limit := if s.onModule then 2400 else 2200 }
     let ok (i : BootImage) (kind : Nat) : Prop := imageFail i kind = 0
     let digest (i : BootImage) : BitVec 512 := BitVec.ofNat 512 (natOf ((i.header.drop 64).take 64))
     let version (i : BootImage) : Word := wordOf ((i.header.drop 8).take 8)
     let stops (passed : List BootImage) (fail : Nat) : Prop :=
       exec (.powerOn a b r cfg) s = .next { fresh with
         bootst := BitVec.ofNat 64 (fail * 16 + passed.length)
         meas := passed.map digest ++ List.replicate (4 - passed.length) 0
         versions := passed.map version ++ List.replicate (3 - passed.length) 0 }
     (¬ok a 1 → stops [] (imageFail a 1)) ∧
     (ok a 1 → ¬ok b 2 → stops [a] (imageFail b 2)) ∧
     (ok a 1 → ok b 2 → ¬ok r 3 → stops [a, b] (imageFail r 3)) ∧
     (ok a 1 → ok b 2 → ok r 3 → recordOk cfg = false → stops [a, b] 4) ∧
     (ok a 1 → ok b 2 → ok r 3 → recordOk cfg = true → exec (.powerOn a b r cfg) s = .next { fresh with
       bootst := 4, part := cfg, meas := [a, b, r].map digest ++ [0], versions := [a, b, r].map version }) ∧
     (ok a 1 → (a.header.take 4) = [0x31, 0x56, 0x4C, 0x5A] ∧ a.header.length = 128 ∧
       sha512 a.body = (a.header.drop 64).take 64 ∧ a.body.length % 64 = 0)) ∧
   ∀ (s : State) (x : BitVec 512),
     let extended := sha512 (bytesOf 64 (s.meas.getD 3 0).toNat ++ bytesOf 64 x.toNat)
     exec (.measureExtend x) s = .next { s with meas := s.meas.set 3 (BitVec.ofNat 512 (natOf extended)) } ∧
     exec (.attestNonce x) s = .next { s with nonce := some x } ∧
     (s.nonce = none → exec .attestReportDone s = .next s) ∧
     (s.nonce = some x → ∃ signature, signature.length = 512 ∧ exec .attestReportDone s = .next { s with
       nonce := none, free := s.free + 1
       report := bytesOf 64 x.toNat ++ (s.meas.map fun m => bytesOf 64 m.toNat).flatten ++
         wordsBytes s.versions ++ bytesOf 8 (capsOf s).toNat ++ signature })) ∧
  (∀ (s : State) (region clk : Nat),
     exec .flitCrcRetry s = .next s ∧
     (∃ t, exec .fibreFail s = .next t ∧ t = { s with deadFibres := t.deadFibres } ∧
       ∀ f, f ∈ t.deadFibres ↔ f ∈ s.deadFibres ∨ (f = s.subj ∧ f < 64)) ∧
     (∃ t, exec .tokenRefill s = .next t ∧ t = { s with tokens := t.tokens, free := s.free + 1 } ∧
       (mget t.tokens (s.subj % 4)).isSome = true ∧
       ∀ k, k ≠ s.subj % 4 → mget t.tokens k = mget s.tokens k) ∧
     exec (.governorClockSet region clk) s = .next (if region = 1 ∨ region = 2 then
       { s with clocks := mput s.clocks region clk } else s) ∧
     (s.subj ≤ 40 ∨ s.onModule = false → exec .moduleOvertemp s = .next s) ∧
     (40 < s.subj → s.onModule = true → ∃ limit, (0 < s.limit → limit < s.limit) ∧ limit ≤ s.limit ∧
       exec .moduleOvertemp s = .next { s with limit := limit, free := s.free + 1 }))
end

