-- ==== Sys2Proof/Laws/Memory.lean ====
section
/-! SUPPORT. Laws of memory cells: reads after writes, and the canonical form. -/

namespace Sys2Proof.Machine

/-- Every address of a list lies above a bound. -/
def cellsAbove (a : Nat) (m : List Host.Cell) : Prop := ∀ p ∈ m, a < p.1

theorem memWf_cons (a : Nat) (v : Byte) (t : List Host.Cell) :
    memWf ((a, v) :: t) = true ↔ v ≠ 0 ∧ cellsAbove a t ∧ memWf t = true := by
  induction t generalizing a v with
  | nil => simp [memWf, cellsAbove]
  | cons p t ih =>
    obtain ⟨b, w⟩ := p
    have hdef : memWf ((a, v) :: (b, w) :: t) = (decide (v ≠ 0) && decide (a < b) && memWf ((b, w) :: t)) := rfl
    rw [hdef]
    simp only [Bool.and_eq_true, decide_eq_true_eq, cellsAbove, List.mem_cons, forall_eq_or_imp]
    constructor
    · rintro ⟨⟨h1, h2⟩, h3⟩
      refine ⟨h1, ⟨h2, ?_⟩, h3⟩
      intro q hq
      exact Nat.lt_trans h2 ((ih b w).mp h3 |>.2.1 q hq)
    · rintro ⟨h1, ⟨h2, _⟩, h3⟩
      exact ⟨⟨h1, h2⟩, h3⟩

theorem cellGet_above {m : List Host.Cell} {a : Nat} (h : cellsAbove a m) : cellGet m a = 0 := by
  induction m with
  | nil => rfl
  | cons p t ih =>
    obtain ⟨k, v⟩ := p
    have h1 : a < k := h (k, v) (by simp)
    have h2 : k ≠ a := by omega
    simp only [cellGet, h2, if_false]
    exact ih fun q hq => h q (by simp [hq])

theorem cellGet_cellIns (m : List Host.Cell) (a : Nat) (b : Byte) (c : Nat) :
    cellGet (cellIns m a b) c = if a = c then b else cellGet m c := by
  induction m with
  | nil => simp [cellIns, cellGet]
  | cons p t ih =>
    obtain ⟨k, v⟩ := p
    unfold cellIns
    by_cases h1 : a < k
    · simp only [h1, if_true, cellGet]
    · by_cases h2 : k = a
      · subst h2; simp only [h1, if_true, if_false, cellGet]; split <;> rfl
      · simp only [h1, h2, if_false, cellGet, ih]
        by_cases h3 : k = c
        · subst h3; simp [Ne.symm h2]
        · simp [h3]

theorem cellGet_cellDel (m : List Host.Cell) (a c : Nat) :
    cellGet (cellDel m a) c = if a = c then 0 else cellGet m c := by
  induction m with
  | nil => simp [cellDel, cellGet]
  | cons p t ih =>
    obtain ⟨k, v⟩ := p
    unfold cellDel
    by_cases h : k = a
    · subst h
      simp only [if_true, ih, cellGet]
      by_cases h2 : k = c <;> simp [h2]
    · simp only [h, if_false, cellGet, ih]
      by_cases h2 : k = c
      · subst h2; simp [Ne.symm h]
      · simp [h2]

/-- A byte reads as it was last written. -/
theorem cellGet_cellPut (m : List Host.Cell) (a : Nat) (b : Byte) (c : Nat) :
    cellGet (cellPut m a b) c = if a = c then b else cellGet m c := by
  unfold cellPut
  split
  · rename_i h; rw [cellGet_cellDel, h]
  · exact cellGet_cellIns m a b c

theorem cellsAbove_cellIns {m : List Host.Cell} {k a : Nat} {b : Byte} (h : cellsAbove k m) (ha : k < a) :
    cellsAbove k (cellIns m a b) := by
  induction m with
  | nil => intro q hq; simp [cellIns] at hq; subst hq; exact ha
  | cons p t ih =>
    obtain ⟨c, v⟩ := p
    have ht : cellsAbove k t := fun q hq => h q (by simp [hq])
    have hc : k < c := h (c, v) (by simp)
    unfold cellIns
    split
    · intro q hq
      simp only [List.mem_cons] at hq
      rcases hq with rfl | rfl | hq
      · exact ha
      · exact hc
      · exact ht q hq
    · split
      · intro q hq
        simp only [List.mem_cons] at hq
        rcases hq with rfl | hq
        · exact ha
        · exact ht q hq
      · intro q hq
        simp only [List.mem_cons] at hq
        rcases hq with rfl | hq
        · exact hc
        · exact ih ht q hq

theorem cellsAbove_cellDel {m : List Host.Cell} {k a : Nat} (h : cellsAbove k m) :
    cellsAbove k (cellDel m a) := by
  induction m with
  | nil => exact h
  | cons p t ih =>
    obtain ⟨c, v⟩ := p
    have ht : cellsAbove k t := fun q hq => h q (by simp [hq])
    unfold cellDel
    split
    · exact ih ht
    · intro q hq
      simp only [List.mem_cons] at hq
      rcases hq with rfl | hq
      · exact h _ (by simp)
      · exact ih ht q hq

theorem memWf_cellIns {m : List Host.Cell} (h : memWf m = true) (a : Nat) {b : Byte} (hb : b ≠ 0) :
    memWf (cellIns m a b) = true := by
  induction m with
  | nil => exact decide_eq_true hb
  | cons p t ih =>
    obtain ⟨c, v⟩ := p
    have h' := (memWf_cons c v t).mp h
    unfold cellIns
    by_cases h1 : a < c
    · rw [if_pos h1, memWf_cons]
      refine ⟨hb, ?_, h⟩
      intro q hq
      simp only [List.mem_cons] at hq
      rcases hq with rfl | hq
      · exact h1
      · exact Nat.lt_trans h1 (h'.2.1 q hq)
    · rw [if_neg h1]
      by_cases h2 : c = a
      · rw [if_pos h2, memWf_cons]
        exact ⟨hb, h2 ▸ h'.2.1, h'.2.2⟩
      · rw [if_neg h2, memWf_cons]
        exact ⟨h'.1, cellsAbove_cellIns h'.2.1 (by omega), ih h'.2.2⟩

theorem memWf_cellDel {m : List Host.Cell} (h : memWf m = true) (a : Nat) : memWf (cellDel m a) = true := by
  induction m with
  | nil => rfl
  | cons p t ih =>
    obtain ⟨c, v⟩ := p
    have h' := (memWf_cons c v t).mp h
    unfold cellDel
    split
    · exact ih h'.2.2
    · rw [memWf_cons]
      exact ⟨h'.1, cellsAbove_cellDel h'.2.1, ih h'.2.2⟩

/-- Writing one byte keeps the canonical form. -/
theorem memWf_cellPut {m : List Host.Cell} (h : memWf m = true) (a : Nat) (b : Byte) :
    memWf (cellPut m a b) = true := by
  unfold cellPut
  split
  · exact memWf_cellDel h a
  · rename_i hb; exact memWf_cellIns h a hb

/-- Writing bytes keeps the canonical form. -/
theorem memWf_cellsPut {m : List Host.Cell} (h : memWf m = true) (a : Nat) (l : List Byte) :
    memWf (cellsPut m a l) = true := by
  induction l generalizing m a with
  | nil => exact h
  | cons b t ih => exact ih (memWf_cellPut h a b) (a + 1)

/-- A byte after a write of bytes: the byte written, or the byte that was there. -/
theorem cellGet_cellsPut (m : List Host.Cell) (a : Nat) (l : List Byte) (c : Nat) :
    cellGet (cellsPut m a l) c =
      if a ≤ c ∧ c < a + l.length then l.getD (c - a) 0 else cellGet m c := by
  induction l generalizing m a with
  | nil =>
    have : ¬ (a ≤ c ∧ c < a + ([] : List Byte).length) := by simp
    simp only [cellsPut, this, if_false]
  | cons b t ih =>
    rw [cellsPut, ih, cellGet_cellPut]
    simp only [List.length_cons]
    by_cases h1 : a = c
    · subst h1
      have h2 : ¬ (a + 1 ≤ a ∧ a < a + 1 + t.length) := by omega
      have h3 : a ≤ a ∧ a < a + (t.length + 1) := by omega
      rw [if_neg h2, if_pos rfl, if_pos h3]
      simp
    · by_cases h2 : a + 1 ≤ c ∧ c < a + 1 + t.length
      · have h3 : a ≤ c ∧ c < a + (t.length + 1) := by omega
        have h4 : c - a = (c - (a + 1)) + 1 := by omega
        rw [if_pos h2, if_pos h3, h4, List.getD_cons_succ]
      · have h3 : ¬ (a ≤ c ∧ c < a + (t.length + 1)) := by omega
        rw [if_neg h2, if_neg h1, if_neg h3]

theorem cellsGet_length (m : List Host.Cell) (a n : Nat) : (cellsGet m a n).length = n := by
  induction n generalizing a with
  | zero => rfl
  | succ n ih => simp [cellsGet, ih]

theorem cellsGet_getD (m : List Host.Cell) (a n i : Nat) (h : i < n) :
    (cellsGet m a n).getD i 0 = cellGet m (a + i) := by
  induction n generalizing a i with
  | zero => omega
  | succ n ih =>
    cases i with
    | zero => simp [cellsGet]
    | succ i =>
      simp only [cellsGet, List.getD_cons_succ]
      rw [ih (a + 1) i (by omega)]
      congr 1
      omega

/-- Bytes written and read back at one place are the bytes written. -/
theorem cellsGet_cellsPut_same (m : List Host.Cell) (a : Nat) (l : List Byte) :
    cellsGet (cellsPut m a l) a l.length = l := by
  apply List.ext_getElem
  · exact cellsGet_length _ _ _
  · intro i h1 h2
    have e1 : (cellsGet (cellsPut m a l) a l.length)[i] = (cellsGet (cellsPut m a l) a l.length).getD i 0 := by
      simp [h1]
    rw [e1, cellsGet_getD _ _ _ _ h2, cellGet_cellsPut]
    have : a ≤ a + i ∧ a + i < a + l.length := by omega
    rw [if_pos this]
    simp [h2]

end Sys2Proof.Machine
end

