-- ==== Sys2Proof/Laws/State.lean ====
section
/-! SUPPORT. What each update of the state leaves alone: one lemma for each field and update. -/

namespace Sys2Proof.Machine

variable (s : State)

@[simp] theorem putCrew_crews (key : Nat) (c : Crew) : (putCrew s key c).crews = mput s.crews key c := rfl
@[simp] theorem modUnit_units (uid : Nat) (f : UnitSt → UnitSt) :
    (modUnit s uid f).units = mmod s.units uid f := rfl
@[simp] theorem modLaunch_launches (lid : Nat) (f : Launch → Launch) :
    (modLaunch s lid f).launches = mmod s.launches lid f := rfl
@[simp] theorem setCtxW_jobs (job i : Nat) (w : Word) :
    (setCtxW s job i w).jobs = mput s.jobs job ((mgetD s.jobs job (jobReset job)).set i w) := rfl
@[simp] theorem wr_mem (phys : Nat) (data : List Byte) : (wr s phys data).mem = cellsPut s.mem phys data := rfl

/-! ## putCrew -/

@[simp] theorem putCrew_cycle (key : Nat) (c : Crew) : (putCrew s key c).cycle = s.cycle := rfl
@[simp] theorem putCrew_mem (key : Nat) (c : Crew) : (putCrew s key c).mem = s.mem := rfl
@[simp] theorem putCrew_behind (key : Nat) (c : Crew) : (putCrew s key c).behind = s.behind := rfl
@[simp] theorem putCrew_ecc (key : Nat) (c : Crew) : (putCrew s key c).ecc = s.ecc := rfl
@[simp] theorem putCrew_jobs (key : Nat) (c : Crew) : (putCrew s key c).jobs = s.jobs := rfl
@[simp] theorem putCrew_lqtail (key : Nat) (c : Crew) : (putCrew s key c).lqtail = s.lqtail := rfl
@[simp] theorem putCrew_lqueue (key : Nat) (c : Crew) : (putCrew s key c).lqueue = s.lqueue := rfl
@[simp] theorem putCrew_launches (key : Nat) (c : Crew) : (putCrew s key c).launches = s.launches := rfl
@[simp] theorem putCrew_units (key : Nat) (c : Crew) : (putCrew s key c).units = s.units := rfl
@[simp] theorem putCrew_lctrs (key : Nat) (c : Crew) : (putCrew s key c).lctrs = s.lctrs := rfl
@[simp] theorem putCrew_cmds (key : Nat) (c : Crew) : (putCrew s key c).cmds = s.cmds := rfl
@[simp] theorem putCrew_klists (key : Nat) (c : Crew) : (putCrew s key c).klists = s.klists := rfl
@[simp] theorem putCrew_hostQ (key : Nat) (c : Crew) : (putCrew s key c).hostQ = s.hostQ := rfl
@[simp] theorem putCrew_graphQ (key : Nat) (c : Crew) : (putCrew s key c).graphQ = s.graphQ := rfl
@[simp] theorem putCrew_colls (key : Nat) (c : Crew) : (putCrew s key c).colls = s.colls := rfl
@[simp] theorem putCrew_graphs (key : Nat) (c : Crew) : (putCrew s key c).graphs = s.graphs := rfl
@[simp] theorem putCrew_walks (key : Nat) (c : Crew) : (putCrew s key c).walks = s.walks := rfl
@[simp] theorem putCrew_phases (key : Nat) (c : Crew) : (putCrew s key c).phases = s.phases := rfl
@[simp] theorem putCrew_faults (key : Nat) (c : Crew) : (putCrew s key c).faults = s.faults := rfl
@[simp] theorem putCrew_vlog (key : Nat) (c : Crew) : (putCrew s key c).vlog = s.vlog := rfl
@[simp] theorem putCrew_vseq (key : Nat) (c : Crew) : (putCrew s key c).vseq = s.vseq := rfl
@[simp] theorem putCrew_vsel (key : Nat) (c : Crew) : (putCrew s key c).vsel = s.vsel := rfl
@[simp] theorem putCrew_waiters (key : Nat) (c : Crew) : (putCrew s key c).waiters = s.waiters := rfl
@[simp] theorem putCrew_fcache (key : Nat) (c : Crew) : (putCrew s key c).fcache = s.fcache := rfl
@[simp] theorem putCrew_lcache (key : Nat) (c : Crew) : (putCrew s key c).lcache = s.lcache := rfl
@[simp] theorem putCrew_tlb (key : Nat) (c : Crew) : (putCrew s key c).tlb = s.tlb := rfl
@[simp] theorem putCrew_rawPend (key : Nat) (c : Crew) : (putCrew s key c).rawPend = s.rawPend := rfl
@[simp] theorem putCrew_xctrs (key : Nat) (c : Crew) : (putCrew s key c).xctrs = s.xctrs := rfl
@[simp] theorem putCrew_swapth (key : Nat) (c : Crew) : (putCrew s key c).swapth = s.swapth := rfl
@[simp] theorem putCrew_compat (key : Nat) (c : Crew) : (putCrew s key c).compat = s.compat := rfl
@[simp] theorem putCrew_compatBy (key : Nat) (c : Crew) : (putCrew s key c).compatBy = s.compatBy := rfl
@[simp] theorem putCrew_cmdSeq (key : Nat) (c : Crew) : (putCrew s key c).cmdSeq = s.cmdSeq := rfl
@[simp] theorem putCrew_sched (key : Nat) (c : Crew) : (putCrew s key c).sched = s.sched := rfl
@[simp] theorem putCrew_part (key : Nat) (c : Crew) : (putCrew s key c).part = s.part := rfl
@[simp] theorem putCrew_deadFibres (key : Nat) (c : Crew) : (putCrew s key c).deadFibres = s.deadFibres := rfl
@[simp] theorem putCrew_bootst (key : Nat) (c : Crew) : (putCrew s key c).bootst = s.bootst := rfl
@[simp] theorem putCrew_meas (key : Nat) (c : Crew) : (putCrew s key c).meas = s.meas := rfl
@[simp] theorem putCrew_versions (key : Nat) (c : Crew) : (putCrew s key c).versions = s.versions := rfl
@[simp] theorem putCrew_nonce (key : Nat) (c : Crew) : (putCrew s key c).nonce = s.nonce := rfl
@[simp] theorem putCrew_report (key : Nat) (c : Crew) : (putCrew s key c).report = s.report := rfl
@[simp] theorem putCrew_onModule (key : Nat) (c : Crew) : (putCrew s key c).onModule = s.onModule := rfl
@[simp] theorem putCrew_tokens (key : Nat) (c : Crew) : (putCrew s key c).tokens = s.tokens := rfl
@[simp] theorem putCrew_clocks (key : Nat) (c : Crew) : (putCrew s key c).clocks = s.clocks := rfl
@[simp] theorem putCrew_limit (key : Nat) (c : Crew) : (putCrew s key c).limit = s.limit := rfl
@[simp] theorem putCrew_hostRead (key : Nat) (c : Crew) : (putCrew s key c).hostRead = s.hostRead := rfl
@[simp] theorem putCrew_devRead (key : Nat) (c : Crew) : (putCrew s key c).devRead = s.devRead := rfl
@[simp] theorem putCrew_agenda (key : Nat) (c : Crew) : (putCrew s key c).agenda = s.agenda := rfl
@[simp] theorem putCrew_subj (key : Nat) (c : Crew) : (putCrew s key c).subj = s.subj := rfl
@[simp] theorem putCrew_iss (key : Nat) (c : Crew) : (putCrew s key c).iss = s.iss := rfl
@[simp] theorem putCrew_free (key : Nat) (c : Crew) : (putCrew s key c).free = s.free := rfl
@[simp] theorem putCrew_nextUid (key : Nat) (c : Crew) : (putCrew s key c).nextUid = s.nextUid := rfl
@[simp] theorem putCrew_nextLid (key : Nat) (c : Crew) : (putCrew s key c).nextLid = s.nextLid := rfl
@[simp] theorem putCrew_nextSeq (key : Nat) (c : Crew) : (putCrew s key c).nextSeq = s.nextSeq := rfl
@[simp] theorem putCrew_nextId (key : Nat) (c : Crew) : (putCrew s key c).nextId = s.nextId := rfl
@[simp] theorem putCrew_turn (key : Nat) (c : Crew) : (putCrew s key c).turn = s.turn := rfl

/-! ## modCrew -/

@[simp] theorem modCrew_cycle (key : Nat) (f : Crew → Crew) : (modCrew s key f).cycle = s.cycle := by
  unfold modCrew; split <;> rfl
@[simp] theorem modCrew_mem (key : Nat) (f : Crew → Crew) : (modCrew s key f).mem = s.mem := by
  unfold modCrew; split <;> rfl
@[simp] theorem modCrew_behind (key : Nat) (f : Crew → Crew) : (modCrew s key f).behind = s.behind := by
  unfold modCrew; split <;> rfl
@[simp] theorem modCrew_ecc (key : Nat) (f : Crew → Crew) : (modCrew s key f).ecc = s.ecc := by
  unfold modCrew; split <;> rfl
@[simp] theorem modCrew_jobs (key : Nat) (f : Crew → Crew) : (modCrew s key f).jobs = s.jobs := by
  unfold modCrew; split <;> rfl
@[simp] theorem modCrew_lqtail (key : Nat) (f : Crew → Crew) : (modCrew s key f).lqtail = s.lqtail := by
  unfold modCrew; split <;> rfl
@[simp] theorem modCrew_lqueue (key : Nat) (f : Crew → Crew) : (modCrew s key f).lqueue = s.lqueue := by
  unfold modCrew; split <;> rfl
@[simp] theorem modCrew_launches (key : Nat) (f : Crew → Crew) : (modCrew s key f).launches = s.launches := by
  unfold modCrew; split <;> rfl
@[simp] theorem modCrew_units (key : Nat) (f : Crew → Crew) : (modCrew s key f).units = s.units := by
  unfold modCrew; split <;> rfl
@[simp] theorem modCrew_lctrs (key : Nat) (f : Crew → Crew) : (modCrew s key f).lctrs = s.lctrs := by
  unfold modCrew; split <;> rfl
@[simp] theorem modCrew_cmds (key : Nat) (f : Crew → Crew) : (modCrew s key f).cmds = s.cmds := by
  unfold modCrew; split <;> rfl
@[simp] theorem modCrew_klists (key : Nat) (f : Crew → Crew) : (modCrew s key f).klists = s.klists := by
  unfold modCrew; split <;> rfl
@[simp] theorem modCrew_hostQ (key : Nat) (f : Crew → Crew) : (modCrew s key f).hostQ = s.hostQ := by
  unfold modCrew; split <;> rfl
@[simp] theorem modCrew_graphQ (key : Nat) (f : Crew → Crew) : (modCrew s key f).graphQ = s.graphQ := by
  unfold modCrew; split <;> rfl
@[simp] theorem modCrew_colls (key : Nat) (f : Crew → Crew) : (modCrew s key f).colls = s.colls := by
  unfold modCrew; split <;> rfl
@[simp] theorem modCrew_graphs (key : Nat) (f : Crew → Crew) : (modCrew s key f).graphs = s.graphs := by
  unfold modCrew; split <;> rfl
@[simp] theorem modCrew_walks (key : Nat) (f : Crew → Crew) : (modCrew s key f).walks = s.walks := by
  unfold modCrew; split <;> rfl
@[simp] theorem modCrew_phases (key : Nat) (f : Crew → Crew) : (modCrew s key f).phases = s.phases := by
  unfold modCrew; split <;> rfl
@[simp] theorem modCrew_faults (key : Nat) (f : Crew → Crew) : (modCrew s key f).faults = s.faults := by
  unfold modCrew; split <;> rfl
@[simp] theorem modCrew_vlog (key : Nat) (f : Crew → Crew) : (modCrew s key f).vlog = s.vlog := by
  unfold modCrew; split <;> rfl
@[simp] theorem modCrew_vseq (key : Nat) (f : Crew → Crew) : (modCrew s key f).vseq = s.vseq := by
  unfold modCrew; split <;> rfl
@[simp] theorem modCrew_vsel (key : Nat) (f : Crew → Crew) : (modCrew s key f).vsel = s.vsel := by
  unfold modCrew; split <;> rfl
@[simp] theorem modCrew_waiters (key : Nat) (f : Crew → Crew) : (modCrew s key f).waiters = s.waiters := by
  unfold modCrew; split <;> rfl
@[simp] theorem modCrew_fcache (key : Nat) (f : Crew → Crew) : (modCrew s key f).fcache = s.fcache := by
  unfold modCrew; split <;> rfl
@[simp] theorem modCrew_lcache (key : Nat) (f : Crew → Crew) : (modCrew s key f).lcache = s.lcache := by
  unfold modCrew; split <;> rfl
@[simp] theorem modCrew_tlb (key : Nat) (f : Crew → Crew) : (modCrew s key f).tlb = s.tlb := by
  unfold modCrew; split <;> rfl
@[simp] theorem modCrew_rawPend (key : Nat) (f : Crew → Crew) : (modCrew s key f).rawPend = s.rawPend := by
  unfold modCrew; split <;> rfl
@[simp] theorem modCrew_xctrs (key : Nat) (f : Crew → Crew) : (modCrew s key f).xctrs = s.xctrs := by
  unfold modCrew; split <;> rfl
@[simp] theorem modCrew_swapth (key : Nat) (f : Crew → Crew) : (modCrew s key f).swapth = s.swapth := by
  unfold modCrew; split <;> rfl
@[simp] theorem modCrew_compat (key : Nat) (f : Crew → Crew) : (modCrew s key f).compat = s.compat := by
  unfold modCrew; split <;> rfl
@[simp] theorem modCrew_compatBy (key : Nat) (f : Crew → Crew) : (modCrew s key f).compatBy = s.compatBy := by
  unfold modCrew; split <;> rfl
@[simp] theorem modCrew_cmdSeq (key : Nat) (f : Crew → Crew) : (modCrew s key f).cmdSeq = s.cmdSeq := by
  unfold modCrew; split <;> rfl
@[simp] theorem modCrew_sched (key : Nat) (f : Crew → Crew) : (modCrew s key f).sched = s.sched := by
  unfold modCrew; split <;> rfl
@[simp] theorem modCrew_part (key : Nat) (f : Crew → Crew) : (modCrew s key f).part = s.part := by
  unfold modCrew; split <;> rfl
@[simp] theorem modCrew_deadFibres (key : Nat) (f : Crew → Crew) :
    (modCrew s key f).deadFibres = s.deadFibres := by
  unfold modCrew; split <;> rfl
@[simp] theorem modCrew_bootst (key : Nat) (f : Crew → Crew) : (modCrew s key f).bootst = s.bootst := by
  unfold modCrew; split <;> rfl
@[simp] theorem modCrew_meas (key : Nat) (f : Crew → Crew) : (modCrew s key f).meas = s.meas := by
  unfold modCrew; split <;> rfl
@[simp] theorem modCrew_versions (key : Nat) (f : Crew → Crew) : (modCrew s key f).versions = s.versions := by
  unfold modCrew; split <;> rfl
@[simp] theorem modCrew_nonce (key : Nat) (f : Crew → Crew) : (modCrew s key f).nonce = s.nonce := by
  unfold modCrew; split <;> rfl
@[simp] theorem modCrew_report (key : Nat) (f : Crew → Crew) : (modCrew s key f).report = s.report := by
  unfold modCrew; split <;> rfl
@[simp] theorem modCrew_onModule (key : Nat) (f : Crew → Crew) : (modCrew s key f).onModule = s.onModule := by
  unfold modCrew; split <;> rfl
@[simp] theorem modCrew_tokens (key : Nat) (f : Crew → Crew) : (modCrew s key f).tokens = s.tokens := by
  unfold modCrew; split <;> rfl
@[simp] theorem modCrew_clocks (key : Nat) (f : Crew → Crew) : (modCrew s key f).clocks = s.clocks := by
  unfold modCrew; split <;> rfl
@[simp] theorem modCrew_limit (key : Nat) (f : Crew → Crew) : (modCrew s key f).limit = s.limit := by
  unfold modCrew; split <;> rfl
@[simp] theorem modCrew_hostRead (key : Nat) (f : Crew → Crew) : (modCrew s key f).hostRead = s.hostRead := by
  unfold modCrew; split <;> rfl
@[simp] theorem modCrew_devRead (key : Nat) (f : Crew → Crew) : (modCrew s key f).devRead = s.devRead := by
  unfold modCrew; split <;> rfl
@[simp] theorem modCrew_agenda (key : Nat) (f : Crew → Crew) : (modCrew s key f).agenda = s.agenda := by
  unfold modCrew; split <;> rfl
@[simp] theorem modCrew_subj (key : Nat) (f : Crew → Crew) : (modCrew s key f).subj = s.subj := by
  unfold modCrew; split <;> rfl
@[simp] theorem modCrew_iss (key : Nat) (f : Crew → Crew) : (modCrew s key f).iss = s.iss := by
  unfold modCrew; split <;> rfl
@[simp] theorem modCrew_free (key : Nat) (f : Crew → Crew) : (modCrew s key f).free = s.free := by
  unfold modCrew; split <;> rfl
@[simp] theorem modCrew_nextUid (key : Nat) (f : Crew → Crew) : (modCrew s key f).nextUid = s.nextUid := by
  unfold modCrew; split <;> rfl
@[simp] theorem modCrew_nextLid (key : Nat) (f : Crew → Crew) : (modCrew s key f).nextLid = s.nextLid := by
  unfold modCrew; split <;> rfl
@[simp] theorem modCrew_nextSeq (key : Nat) (f : Crew → Crew) : (modCrew s key f).nextSeq = s.nextSeq := by
  unfold modCrew; split <;> rfl
@[simp] theorem modCrew_nextId (key : Nat) (f : Crew → Crew) : (modCrew s key f).nextId = s.nextId := by
  unfold modCrew; split <;> rfl
@[simp] theorem modCrew_turn (key : Nat) (f : Crew → Crew) : (modCrew s key f).turn = s.turn := by
  unfold modCrew; split <;> rfl

/-! ## modUnit -/

@[simp] theorem modUnit_cycle (uid : Nat) (f : UnitSt → UnitSt) : (modUnit s uid f).cycle = s.cycle := rfl
@[simp] theorem modUnit_mem (uid : Nat) (f : UnitSt → UnitSt) : (modUnit s uid f).mem = s.mem := rfl
@[simp] theorem modUnit_behind (uid : Nat) (f : UnitSt → UnitSt) : (modUnit s uid f).behind = s.behind := rfl
@[simp] theorem modUnit_ecc (uid : Nat) (f : UnitSt → UnitSt) : (modUnit s uid f).ecc = s.ecc := rfl
@[simp] theorem modUnit_jobs (uid : Nat) (f : UnitSt → UnitSt) : (modUnit s uid f).jobs = s.jobs := rfl
@[simp] theorem modUnit_lqtail (uid : Nat) (f : UnitSt → UnitSt) : (modUnit s uid f).lqtail = s.lqtail := rfl
@[simp] theorem modUnit_lqueue (uid : Nat) (f : UnitSt → UnitSt) : (modUnit s uid f).lqueue = s.lqueue := rfl
@[simp] theorem modUnit_launches (uid : Nat) (f : UnitSt → UnitSt) :
    (modUnit s uid f).launches = s.launches := rfl
@[simp] theorem modUnit_crews (uid : Nat) (f : UnitSt → UnitSt) : (modUnit s uid f).crews = s.crews := rfl
@[simp] theorem modUnit_lctrs (uid : Nat) (f : UnitSt → UnitSt) : (modUnit s uid f).lctrs = s.lctrs := rfl
@[simp] theorem modUnit_cmds (uid : Nat) (f : UnitSt → UnitSt) : (modUnit s uid f).cmds = s.cmds := rfl
@[simp] theorem modUnit_klists (uid : Nat) (f : UnitSt → UnitSt) : (modUnit s uid f).klists = s.klists := rfl
@[simp] theorem modUnit_hostQ (uid : Nat) (f : UnitSt → UnitSt) : (modUnit s uid f).hostQ = s.hostQ := rfl
@[simp] theorem modUnit_graphQ (uid : Nat) (f : UnitSt → UnitSt) : (modUnit s uid f).graphQ = s.graphQ := rfl
@[simp] theorem modUnit_colls (uid : Nat) (f : UnitSt → UnitSt) : (modUnit s uid f).colls = s.colls := rfl
@[simp] theorem modUnit_graphs (uid : Nat) (f : UnitSt → UnitSt) : (modUnit s uid f).graphs = s.graphs := rfl
@[simp] theorem modUnit_walks (uid : Nat) (f : UnitSt → UnitSt) : (modUnit s uid f).walks = s.walks := rfl
@[simp] theorem modUnit_phases (uid : Nat) (f : UnitSt → UnitSt) : (modUnit s uid f).phases = s.phases := rfl
@[simp] theorem modUnit_faults (uid : Nat) (f : UnitSt → UnitSt) : (modUnit s uid f).faults = s.faults := rfl
@[simp] theorem modUnit_vlog (uid : Nat) (f : UnitSt → UnitSt) : (modUnit s uid f).vlog = s.vlog := rfl
@[simp] theorem modUnit_vseq (uid : Nat) (f : UnitSt → UnitSt) : (modUnit s uid f).vseq = s.vseq := rfl
@[simp] theorem modUnit_vsel (uid : Nat) (f : UnitSt → UnitSt) : (modUnit s uid f).vsel = s.vsel := rfl
@[simp] theorem modUnit_waiters (uid : Nat) (f : UnitSt → UnitSt) : (modUnit s uid f).waiters = s.waiters := rfl
@[simp] theorem modUnit_fcache (uid : Nat) (f : UnitSt → UnitSt) : (modUnit s uid f).fcache = s.fcache := rfl
@[simp] theorem modUnit_lcache (uid : Nat) (f : UnitSt → UnitSt) : (modUnit s uid f).lcache = s.lcache := rfl
@[simp] theorem modUnit_tlb (uid : Nat) (f : UnitSt → UnitSt) : (modUnit s uid f).tlb = s.tlb := rfl
@[simp] theorem modUnit_rawPend (uid : Nat) (f : UnitSt → UnitSt) : (modUnit s uid f).rawPend = s.rawPend := rfl
@[simp] theorem modUnit_xctrs (uid : Nat) (f : UnitSt → UnitSt) : (modUnit s uid f).xctrs = s.xctrs := rfl
@[simp] theorem modUnit_swapth (uid : Nat) (f : UnitSt → UnitSt) : (modUnit s uid f).swapth = s.swapth := rfl
@[simp] theorem modUnit_compat (uid : Nat) (f : UnitSt → UnitSt) : (modUnit s uid f).compat = s.compat := rfl
@[simp] theorem modUnit_compatBy (uid : Nat) (f : UnitSt → UnitSt) :
    (modUnit s uid f).compatBy = s.compatBy := rfl
@[simp] theorem modUnit_cmdSeq (uid : Nat) (f : UnitSt → UnitSt) : (modUnit s uid f).cmdSeq = s.cmdSeq := rfl
@[simp] theorem modUnit_sched (uid : Nat) (f : UnitSt → UnitSt) : (modUnit s uid f).sched = s.sched := rfl
@[simp] theorem modUnit_part (uid : Nat) (f : UnitSt → UnitSt) : (modUnit s uid f).part = s.part := rfl
@[simp] theorem modUnit_deadFibres (uid : Nat) (f : UnitSt → UnitSt) :
    (modUnit s uid f).deadFibres = s.deadFibres := rfl
@[simp] theorem modUnit_bootst (uid : Nat) (f : UnitSt → UnitSt) : (modUnit s uid f).bootst = s.bootst := rfl
@[simp] theorem modUnit_meas (uid : Nat) (f : UnitSt → UnitSt) : (modUnit s uid f).meas = s.meas := rfl
@[simp] theorem modUnit_versions (uid : Nat) (f : UnitSt → UnitSt) :
    (modUnit s uid f).versions = s.versions := rfl
@[simp] theorem modUnit_nonce (uid : Nat) (f : UnitSt → UnitSt) : (modUnit s uid f).nonce = s.nonce := rfl
@[simp] theorem modUnit_report (uid : Nat) (f : UnitSt → UnitSt) : (modUnit s uid f).report = s.report := rfl
@[simp] theorem modUnit_onModule (uid : Nat) (f : UnitSt → UnitSt) :
    (modUnit s uid f).onModule = s.onModule := rfl
@[simp] theorem modUnit_tokens (uid : Nat) (f : UnitSt → UnitSt) : (modUnit s uid f).tokens = s.tokens := rfl
@[simp] theorem modUnit_clocks (uid : Nat) (f : UnitSt → UnitSt) : (modUnit s uid f).clocks = s.clocks := rfl
@[simp] theorem modUnit_limit (uid : Nat) (f : UnitSt → UnitSt) : (modUnit s uid f).limit = s.limit := rfl
@[simp] theorem modUnit_hostRead (uid : Nat) (f : UnitSt → UnitSt) :
    (modUnit s uid f).hostRead = s.hostRead := rfl
@[simp] theorem modUnit_devRead (uid : Nat) (f : UnitSt → UnitSt) : (modUnit s uid f).devRead = s.devRead := rfl
@[simp] theorem modUnit_agenda (uid : Nat) (f : UnitSt → UnitSt) : (modUnit s uid f).agenda = s.agenda := rfl
@[simp] theorem modUnit_subj (uid : Nat) (f : UnitSt → UnitSt) : (modUnit s uid f).subj = s.subj := rfl
@[simp] theorem modUnit_iss (uid : Nat) (f : UnitSt → UnitSt) : (modUnit s uid f).iss = s.iss := rfl
@[simp] theorem modUnit_free (uid : Nat) (f : UnitSt → UnitSt) : (modUnit s uid f).free = s.free := rfl
@[simp] theorem modUnit_nextUid (uid : Nat) (f : UnitSt → UnitSt) : (modUnit s uid f).nextUid = s.nextUid := rfl
@[simp] theorem modUnit_nextLid (uid : Nat) (f : UnitSt → UnitSt) : (modUnit s uid f).nextLid = s.nextLid := rfl
@[simp] theorem modUnit_nextSeq (uid : Nat) (f : UnitSt → UnitSt) : (modUnit s uid f).nextSeq = s.nextSeq := rfl
@[simp] theorem modUnit_nextId (uid : Nat) (f : UnitSt → UnitSt) : (modUnit s uid f).nextId = s.nextId := rfl
@[simp] theorem modUnit_turn (uid : Nat) (f : UnitSt → UnitSt) : (modUnit s uid f).turn = s.turn := rfl

/-! ## modLaunch -/

@[simp] theorem modLaunch_cycle (lid : Nat) (f : Launch → Launch) : (modLaunch s lid f).cycle = s.cycle := rfl
@[simp] theorem modLaunch_mem (lid : Nat) (f : Launch → Launch) : (modLaunch s lid f).mem = s.mem := rfl
@[simp] theorem modLaunch_behind (lid : Nat) (f : Launch → Launch) :
    (modLaunch s lid f).behind = s.behind := rfl
@[simp] theorem modLaunch_ecc (lid : Nat) (f : Launch → Launch) : (modLaunch s lid f).ecc = s.ecc := rfl
@[simp] theorem modLaunch_jobs (lid : Nat) (f : Launch → Launch) : (modLaunch s lid f).jobs = s.jobs := rfl
@[simp] theorem modLaunch_lqtail (lid : Nat) (f : Launch → Launch) :
    (modLaunch s lid f).lqtail = s.lqtail := rfl
@[simp] theorem modLaunch_lqueue (lid : Nat) (f : Launch → Launch) :
    (modLaunch s lid f).lqueue = s.lqueue := rfl
@[simp] theorem modLaunch_units (lid : Nat) (f : Launch → Launch) : (modLaunch s lid f).units = s.units := rfl
@[simp] theorem modLaunch_crews (lid : Nat) (f : Launch → Launch) : (modLaunch s lid f).crews = s.crews := rfl
@[simp] theorem modLaunch_lctrs (lid : Nat) (f : Launch → Launch) : (modLaunch s lid f).lctrs = s.lctrs := rfl
@[simp] theorem modLaunch_cmds (lid : Nat) (f : Launch → Launch) : (modLaunch s lid f).cmds = s.cmds := rfl
@[simp] theorem modLaunch_klists (lid : Nat) (f : Launch → Launch) :
    (modLaunch s lid f).klists = s.klists := rfl
@[simp] theorem modLaunch_hostQ (lid : Nat) (f : Launch → Launch) : (modLaunch s lid f).hostQ = s.hostQ := rfl
@[simp] theorem modLaunch_graphQ (lid : Nat) (f : Launch → Launch) :
    (modLaunch s lid f).graphQ = s.graphQ := rfl
@[simp] theorem modLaunch_colls (lid : Nat) (f : Launch → Launch) : (modLaunch s lid f).colls = s.colls := rfl
@[simp] theorem modLaunch_graphs (lid : Nat) (f : Launch → Launch) :
    (modLaunch s lid f).graphs = s.graphs := rfl
@[simp] theorem modLaunch_walks (lid : Nat) (f : Launch → Launch) : (modLaunch s lid f).walks = s.walks := rfl
@[simp] theorem modLaunch_phases (lid : Nat) (f : Launch → Launch) :
    (modLaunch s lid f).phases = s.phases := rfl
@[simp] theorem modLaunch_faults (lid : Nat) (f : Launch → Launch) :
    (modLaunch s lid f).faults = s.faults := rfl
@[simp] theorem modLaunch_vlog (lid : Nat) (f : Launch → Launch) : (modLaunch s lid f).vlog = s.vlog := rfl
@[simp] theorem modLaunch_vseq (lid : Nat) (f : Launch → Launch) : (modLaunch s lid f).vseq = s.vseq := rfl
@[simp] theorem modLaunch_vsel (lid : Nat) (f : Launch → Launch) : (modLaunch s lid f).vsel = s.vsel := rfl
@[simp] theorem modLaunch_waiters (lid : Nat) (f : Launch → Launch) :
    (modLaunch s lid f).waiters = s.waiters := rfl
@[simp] theorem modLaunch_fcache (lid : Nat) (f : Launch → Launch) :
    (modLaunch s lid f).fcache = s.fcache := rfl
@[simp] theorem modLaunch_lcache (lid : Nat) (f : Launch → Launch) :
    (modLaunch s lid f).lcache = s.lcache := rfl
@[simp] theorem modLaunch_tlb (lid : Nat) (f : Launch → Launch) : (modLaunch s lid f).tlb = s.tlb := rfl
@[simp] theorem modLaunch_rawPend (lid : Nat) (f : Launch → Launch) :
    (modLaunch s lid f).rawPend = s.rawPend := rfl
@[simp] theorem modLaunch_xctrs (lid : Nat) (f : Launch → Launch) : (modLaunch s lid f).xctrs = s.xctrs := rfl
@[simp] theorem modLaunch_swapth (lid : Nat) (f : Launch → Launch) :
    (modLaunch s lid f).swapth = s.swapth := rfl
@[simp] theorem modLaunch_compat (lid : Nat) (f : Launch → Launch) :
    (modLaunch s lid f).compat = s.compat := rfl
@[simp] theorem modLaunch_compatBy (lid : Nat) (f : Launch → Launch) :
    (modLaunch s lid f).compatBy = s.compatBy := rfl
@[simp] theorem modLaunch_cmdSeq (lid : Nat) (f : Launch → Launch) :
    (modLaunch s lid f).cmdSeq = s.cmdSeq := rfl
@[simp] theorem modLaunch_sched (lid : Nat) (f : Launch → Launch) : (modLaunch s lid f).sched = s.sched := rfl
@[simp] theorem modLaunch_part (lid : Nat) (f : Launch → Launch) : (modLaunch s lid f).part = s.part := rfl
@[simp] theorem modLaunch_deadFibres (lid : Nat) (f : Launch → Launch) :
    (modLaunch s lid f).deadFibres = s.deadFibres := rfl
@[simp] theorem modLaunch_bootst (lid : Nat) (f : Launch → Launch) :
    (modLaunch s lid f).bootst = s.bootst := rfl
@[simp] theorem modLaunch_meas (lid : Nat) (f : Launch → Launch) : (modLaunch s lid f).meas = s.meas := rfl
@[simp] theorem modLaunch_versions (lid : Nat) (f : Launch → Launch) :
    (modLaunch s lid f).versions = s.versions := rfl
@[simp] theorem modLaunch_nonce (lid : Nat) (f : Launch → Launch) : (modLaunch s lid f).nonce = s.nonce := rfl
@[simp] theorem modLaunch_report (lid : Nat) (f : Launch → Launch) :
    (modLaunch s lid f).report = s.report := rfl
@[simp] theorem modLaunch_onModule (lid : Nat) (f : Launch → Launch) :
    (modLaunch s lid f).onModule = s.onModule := rfl
@[simp] theorem modLaunch_tokens (lid : Nat) (f : Launch → Launch) :
    (modLaunch s lid f).tokens = s.tokens := rfl
@[simp] theorem modLaunch_clocks (lid : Nat) (f : Launch → Launch) :
    (modLaunch s lid f).clocks = s.clocks := rfl
@[simp] theorem modLaunch_limit (lid : Nat) (f : Launch → Launch) : (modLaunch s lid f).limit = s.limit := rfl
@[simp] theorem modLaunch_hostRead (lid : Nat) (f : Launch → Launch) :
    (modLaunch s lid f).hostRead = s.hostRead := rfl
@[simp] theorem modLaunch_devRead (lid : Nat) (f : Launch → Launch) :
    (modLaunch s lid f).devRead = s.devRead := rfl
@[simp] theorem modLaunch_agenda (lid : Nat) (f : Launch → Launch) :
    (modLaunch s lid f).agenda = s.agenda := rfl
@[simp] theorem modLaunch_subj (lid : Nat) (f : Launch → Launch) : (modLaunch s lid f).subj = s.subj := rfl
@[simp] theorem modLaunch_iss (lid : Nat) (f : Launch → Launch) : (modLaunch s lid f).iss = s.iss := rfl
@[simp] theorem modLaunch_free (lid : Nat) (f : Launch → Launch) : (modLaunch s lid f).free = s.free := rfl
@[simp] theorem modLaunch_nextUid (lid : Nat) (f : Launch → Launch) :
    (modLaunch s lid f).nextUid = s.nextUid := rfl
@[simp] theorem modLaunch_nextLid (lid : Nat) (f : Launch → Launch) :
    (modLaunch s lid f).nextLid = s.nextLid := rfl
@[simp] theorem modLaunch_nextSeq (lid : Nat) (f : Launch → Launch) :
    (modLaunch s lid f).nextSeq = s.nextSeq := rfl
@[simp] theorem modLaunch_nextId (lid : Nat) (f : Launch → Launch) :
    (modLaunch s lid f).nextId = s.nextId := rfl
@[simp] theorem modLaunch_turn (lid : Nat) (f : Launch → Launch) : (modLaunch s lid f).turn = s.turn := rfl

/-! ## setCtxW -/

@[simp] theorem setCtxW_cycle (job i : Nat) (w : Word) : (setCtxW s job i w).cycle = s.cycle := rfl
@[simp] theorem setCtxW_mem (job i : Nat) (w : Word) : (setCtxW s job i w).mem = s.mem := rfl
@[simp] theorem setCtxW_behind (job i : Nat) (w : Word) : (setCtxW s job i w).behind = s.behind := rfl
@[simp] theorem setCtxW_ecc (job i : Nat) (w : Word) : (setCtxW s job i w).ecc = s.ecc := rfl
@[simp] theorem setCtxW_lqtail (job i : Nat) (w : Word) : (setCtxW s job i w).lqtail = s.lqtail := rfl
@[simp] theorem setCtxW_lqueue (job i : Nat) (w : Word) : (setCtxW s job i w).lqueue = s.lqueue := rfl
@[simp] theorem setCtxW_launches (job i : Nat) (w : Word) : (setCtxW s job i w).launches = s.launches := rfl
@[simp] theorem setCtxW_units (job i : Nat) (w : Word) : (setCtxW s job i w).units = s.units := rfl
@[simp] theorem setCtxW_crews (job i : Nat) (w : Word) : (setCtxW s job i w).crews = s.crews := rfl
@[simp] theorem setCtxW_lctrs (job i : Nat) (w : Word) : (setCtxW s job i w).lctrs = s.lctrs := rfl
@[simp] theorem setCtxW_cmds (job i : Nat) (w : Word) : (setCtxW s job i w).cmds = s.cmds := rfl
@[simp] theorem setCtxW_klists (job i : Nat) (w : Word) : (setCtxW s job i w).klists = s.klists := rfl
@[simp] theorem setCtxW_hostQ (job i : Nat) (w : Word) : (setCtxW s job i w).hostQ = s.hostQ := rfl
@[simp] theorem setCtxW_graphQ (job i : Nat) (w : Word) : (setCtxW s job i w).graphQ = s.graphQ := rfl
@[simp] theorem setCtxW_colls (job i : Nat) (w : Word) : (setCtxW s job i w).colls = s.colls := rfl
@[simp] theorem setCtxW_graphs (job i : Nat) (w : Word) : (setCtxW s job i w).graphs = s.graphs := rfl
@[simp] theorem setCtxW_walks (job i : Nat) (w : Word) : (setCtxW s job i w).walks = s.walks := rfl
@[simp] theorem setCtxW_phases (job i : Nat) (w : Word) : (setCtxW s job i w).phases = s.phases := rfl
@[simp] theorem setCtxW_faults (job i : Nat) (w : Word) : (setCtxW s job i w).faults = s.faults := rfl
@[simp] theorem setCtxW_vlog (job i : Nat) (w : Word) : (setCtxW s job i w).vlog = s.vlog := rfl
@[simp] theorem setCtxW_vseq (job i : Nat) (w : Word) : (setCtxW s job i w).vseq = s.vseq := rfl
@[simp] theorem setCtxW_vsel (job i : Nat) (w : Word) : (setCtxW s job i w).vsel = s.vsel := rfl
@[simp] theorem setCtxW_waiters (job i : Nat) (w : Word) : (setCtxW s job i w).waiters = s.waiters := rfl
@[simp] theorem setCtxW_fcache (job i : Nat) (w : Word) : (setCtxW s job i w).fcache = s.fcache := rfl
@[simp] theorem setCtxW_lcache (job i : Nat) (w : Word) : (setCtxW s job i w).lcache = s.lcache := rfl
@[simp] theorem setCtxW_tlb (job i : Nat) (w : Word) : (setCtxW s job i w).tlb = s.tlb := rfl
@[simp] theorem setCtxW_rawPend (job i : Nat) (w : Word) : (setCtxW s job i w).rawPend = s.rawPend := rfl
@[simp] theorem setCtxW_xctrs (job i : Nat) (w : Word) : (setCtxW s job i w).xctrs = s.xctrs := rfl
@[simp] theorem setCtxW_swapth (job i : Nat) (w : Word) : (setCtxW s job i w).swapth = s.swapth := rfl
@[simp] theorem setCtxW_compat (job i : Nat) (w : Word) : (setCtxW s job i w).compat = s.compat := rfl
@[simp] theorem setCtxW_compatBy (job i : Nat) (w : Word) : (setCtxW s job i w).compatBy = s.compatBy := rfl
@[simp] theorem setCtxW_cmdSeq (job i : Nat) (w : Word) : (setCtxW s job i w).cmdSeq = s.cmdSeq := rfl
@[simp] theorem setCtxW_sched (job i : Nat) (w : Word) : (setCtxW s job i w).sched = s.sched := rfl
@[simp] theorem setCtxW_part (job i : Nat) (w : Word) : (setCtxW s job i w).part = s.part := rfl
@[simp] theorem setCtxW_deadFibres (job i : Nat) (w : Word) :
    (setCtxW s job i w).deadFibres = s.deadFibres := rfl
@[simp] theorem setCtxW_bootst (job i : Nat) (w : Word) : (setCtxW s job i w).bootst = s.bootst := rfl
@[simp] theorem setCtxW_meas (job i : Nat) (w : Word) : (setCtxW s job i w).meas = s.meas := rfl
@[simp] theorem setCtxW_versions (job i : Nat) (w : Word) : (setCtxW s job i w).versions = s.versions := rfl
@[simp] theorem setCtxW_nonce (job i : Nat) (w : Word) : (setCtxW s job i w).nonce = s.nonce := rfl
@[simp] theorem setCtxW_report (job i : Nat) (w : Word) : (setCtxW s job i w).report = s.report := rfl
@[simp] theorem setCtxW_onModule (job i : Nat) (w : Word) : (setCtxW s job i w).onModule = s.onModule := rfl
@[simp] theorem setCtxW_tokens (job i : Nat) (w : Word) : (setCtxW s job i w).tokens = s.tokens := rfl
@[simp] theorem setCtxW_clocks (job i : Nat) (w : Word) : (setCtxW s job i w).clocks = s.clocks := rfl
@[simp] theorem setCtxW_limit (job i : Nat) (w : Word) : (setCtxW s job i w).limit = s.limit := rfl
@[simp] theorem setCtxW_hostRead (job i : Nat) (w : Word) : (setCtxW s job i w).hostRead = s.hostRead := rfl
@[simp] theorem setCtxW_devRead (job i : Nat) (w : Word) : (setCtxW s job i w).devRead = s.devRead := rfl
@[simp] theorem setCtxW_agenda (job i : Nat) (w : Word) : (setCtxW s job i w).agenda = s.agenda := rfl
@[simp] theorem setCtxW_subj (job i : Nat) (w : Word) : (setCtxW s job i w).subj = s.subj := rfl
@[simp] theorem setCtxW_iss (job i : Nat) (w : Word) : (setCtxW s job i w).iss = s.iss := rfl
@[simp] theorem setCtxW_free (job i : Nat) (w : Word) : (setCtxW s job i w).free = s.free := rfl
@[simp] theorem setCtxW_nextUid (job i : Nat) (w : Word) : (setCtxW s job i w).nextUid = s.nextUid := rfl
@[simp] theorem setCtxW_nextLid (job i : Nat) (w : Word) : (setCtxW s job i w).nextLid = s.nextLid := rfl
@[simp] theorem setCtxW_nextSeq (job i : Nat) (w : Word) : (setCtxW s job i w).nextSeq = s.nextSeq := rfl
@[simp] theorem setCtxW_nextId (job i : Nat) (w : Word) : (setCtxW s job i w).nextId = s.nextId := rfl
@[simp] theorem setCtxW_turn (job i : Nat) (w : Word) : (setCtxW s job i w).turn = s.turn := rfl

/-! ## wr -/

@[simp] theorem wr_cycle (phys : Nat) (data : List Byte) : (wr s phys data).cycle = s.cycle := rfl
@[simp] theorem wr_ecc (phys : Nat) (data : List Byte) : (wr s phys data).ecc = s.ecc := rfl
@[simp] theorem wr_jobs (phys : Nat) (data : List Byte) : (wr s phys data).jobs = s.jobs := rfl
@[simp] theorem wr_lqtail (phys : Nat) (data : List Byte) : (wr s phys data).lqtail = s.lqtail := rfl
@[simp] theorem wr_lqueue (phys : Nat) (data : List Byte) : (wr s phys data).lqueue = s.lqueue := rfl
@[simp] theorem wr_launches (phys : Nat) (data : List Byte) : (wr s phys data).launches = s.launches := rfl
@[simp] theorem wr_units (phys : Nat) (data : List Byte) : (wr s phys data).units = s.units := rfl
@[simp] theorem wr_crews (phys : Nat) (data : List Byte) : (wr s phys data).crews = s.crews := rfl
@[simp] theorem wr_lctrs (phys : Nat) (data : List Byte) : (wr s phys data).lctrs = s.lctrs := rfl
@[simp] theorem wr_cmds (phys : Nat) (data : List Byte) : (wr s phys data).cmds = s.cmds := rfl
@[simp] theorem wr_klists (phys : Nat) (data : List Byte) : (wr s phys data).klists = s.klists := rfl
@[simp] theorem wr_hostQ (phys : Nat) (data : List Byte) : (wr s phys data).hostQ = s.hostQ := rfl
@[simp] theorem wr_graphQ (phys : Nat) (data : List Byte) : (wr s phys data).graphQ = s.graphQ := rfl
@[simp] theorem wr_colls (phys : Nat) (data : List Byte) : (wr s phys data).colls = s.colls := rfl
@[simp] theorem wr_graphs (phys : Nat) (data : List Byte) : (wr s phys data).graphs = s.graphs := rfl
@[simp] theorem wr_walks (phys : Nat) (data : List Byte) : (wr s phys data).walks = s.walks := rfl
@[simp] theorem wr_phases (phys : Nat) (data : List Byte) : (wr s phys data).phases = s.phases := rfl
@[simp] theorem wr_faults (phys : Nat) (data : List Byte) : (wr s phys data).faults = s.faults := rfl
@[simp] theorem wr_vlog (phys : Nat) (data : List Byte) : (wr s phys data).vlog = s.vlog := rfl
@[simp] theorem wr_vseq (phys : Nat) (data : List Byte) : (wr s phys data).vseq = s.vseq := rfl
@[simp] theorem wr_vsel (phys : Nat) (data : List Byte) : (wr s phys data).vsel = s.vsel := rfl
@[simp] theorem wr_waiters (phys : Nat) (data : List Byte) : (wr s phys data).waiters = s.waiters := rfl
@[simp] theorem wr_fcache (phys : Nat) (data : List Byte) : (wr s phys data).fcache = s.fcache := rfl
@[simp] theorem wr_lcache (phys : Nat) (data : List Byte) : (wr s phys data).lcache = s.lcache := rfl
@[simp] theorem wr_tlb (phys : Nat) (data : List Byte) : (wr s phys data).tlb = s.tlb := rfl
@[simp] theorem wr_rawPend (phys : Nat) (data : List Byte) : (wr s phys data).rawPend = s.rawPend := rfl
@[simp] theorem wr_xctrs (phys : Nat) (data : List Byte) : (wr s phys data).xctrs = s.xctrs := rfl
@[simp] theorem wr_swapth (phys : Nat) (data : List Byte) : (wr s phys data).swapth = s.swapth := rfl
@[simp] theorem wr_compat (phys : Nat) (data : List Byte) : (wr s phys data).compat = s.compat := rfl
@[simp] theorem wr_compatBy (phys : Nat) (data : List Byte) : (wr s phys data).compatBy = s.compatBy := rfl
@[simp] theorem wr_cmdSeq (phys : Nat) (data : List Byte) : (wr s phys data).cmdSeq = s.cmdSeq := rfl
@[simp] theorem wr_sched (phys : Nat) (data : List Byte) : (wr s phys data).sched = s.sched := rfl
@[simp] theorem wr_part (phys : Nat) (data : List Byte) : (wr s phys data).part = s.part := rfl
@[simp] theorem wr_deadFibres (phys : Nat) (data : List Byte) :
    (wr s phys data).deadFibres = s.deadFibres := rfl
@[simp] theorem wr_bootst (phys : Nat) (data : List Byte) : (wr s phys data).bootst = s.bootst := rfl
@[simp] theorem wr_meas (phys : Nat) (data : List Byte) : (wr s phys data).meas = s.meas := rfl
@[simp] theorem wr_versions (phys : Nat) (data : List Byte) : (wr s phys data).versions = s.versions := rfl
@[simp] theorem wr_nonce (phys : Nat) (data : List Byte) : (wr s phys data).nonce = s.nonce := rfl
@[simp] theorem wr_report (phys : Nat) (data : List Byte) : (wr s phys data).report = s.report := rfl
@[simp] theorem wr_onModule (phys : Nat) (data : List Byte) : (wr s phys data).onModule = s.onModule := rfl
@[simp] theorem wr_tokens (phys : Nat) (data : List Byte) : (wr s phys data).tokens = s.tokens := rfl
@[simp] theorem wr_clocks (phys : Nat) (data : List Byte) : (wr s phys data).clocks = s.clocks := rfl
@[simp] theorem wr_limit (phys : Nat) (data : List Byte) : (wr s phys data).limit = s.limit := rfl
@[simp] theorem wr_hostRead (phys : Nat) (data : List Byte) : (wr s phys data).hostRead = s.hostRead := rfl
@[simp] theorem wr_devRead (phys : Nat) (data : List Byte) : (wr s phys data).devRead = s.devRead := rfl
@[simp] theorem wr_agenda (phys : Nat) (data : List Byte) : (wr s phys data).agenda = s.agenda := rfl
@[simp] theorem wr_subj (phys : Nat) (data : List Byte) : (wr s phys data).subj = s.subj := rfl
@[simp] theorem wr_iss (phys : Nat) (data : List Byte) : (wr s phys data).iss = s.iss := rfl
@[simp] theorem wr_free (phys : Nat) (data : List Byte) : (wr s phys data).free = s.free := rfl
@[simp] theorem wr_nextUid (phys : Nat) (data : List Byte) : (wr s phys data).nextUid = s.nextUid := rfl
@[simp] theorem wr_nextLid (phys : Nat) (data : List Byte) : (wr s phys data).nextLid = s.nextLid := rfl
@[simp] theorem wr_nextSeq (phys : Nat) (data : List Byte) : (wr s phys data).nextSeq = s.nextSeq := rfl
@[simp] theorem wr_nextId (phys : Nat) (data : List Byte) : (wr s phys data).nextId = s.nextId := rfl
@[simp] theorem wr_turn (phys : Nat) (data : List Byte) : (wr s phys data).turn = s.turn := rfl

/-! ## vlogAdd -/

@[simp] theorem vlogAdd_cycle (slice kind : Nat) (addr : Word) (w : Who) :
    (vlogAdd s slice kind addr w).cycle = s.cycle := rfl
@[simp] theorem vlogAdd_mem (slice kind : Nat) (addr : Word) (w : Who) :
    (vlogAdd s slice kind addr w).mem = s.mem := rfl
@[simp] theorem vlogAdd_behind (slice kind : Nat) (addr : Word) (w : Who) :
    (vlogAdd s slice kind addr w).behind = s.behind := rfl
@[simp] theorem vlogAdd_ecc (slice kind : Nat) (addr : Word) (w : Who) :
    (vlogAdd s slice kind addr w).ecc = s.ecc := rfl
@[simp] theorem vlogAdd_jobs (slice kind : Nat) (addr : Word) (w : Who) :
    (vlogAdd s slice kind addr w).jobs = s.jobs := rfl
@[simp] theorem vlogAdd_lqtail (slice kind : Nat) (addr : Word) (w : Who) :
    (vlogAdd s slice kind addr w).lqtail = s.lqtail := rfl
@[simp] theorem vlogAdd_lqueue (slice kind : Nat) (addr : Word) (w : Who) :
    (vlogAdd s slice kind addr w).lqueue = s.lqueue := rfl
@[simp] theorem vlogAdd_launches (slice kind : Nat) (addr : Word) (w : Who) :
    (vlogAdd s slice kind addr w).launches = s.launches := rfl
@[simp] theorem vlogAdd_units (slice kind : Nat) (addr : Word) (w : Who) :
    (vlogAdd s slice kind addr w).units = s.units := rfl
@[simp] theorem vlogAdd_crews (slice kind : Nat) (addr : Word) (w : Who) :
    (vlogAdd s slice kind addr w).crews = s.crews := rfl
@[simp] theorem vlogAdd_lctrs (slice kind : Nat) (addr : Word) (w : Who) :
    (vlogAdd s slice kind addr w).lctrs = s.lctrs := rfl
@[simp] theorem vlogAdd_cmds (slice kind : Nat) (addr : Word) (w : Who) :
    (vlogAdd s slice kind addr w).cmds = s.cmds := rfl
@[simp] theorem vlogAdd_klists (slice kind : Nat) (addr : Word) (w : Who) :
    (vlogAdd s slice kind addr w).klists = s.klists := rfl
@[simp] theorem vlogAdd_hostQ (slice kind : Nat) (addr : Word) (w : Who) :
    (vlogAdd s slice kind addr w).hostQ = s.hostQ := rfl
@[simp] theorem vlogAdd_graphQ (slice kind : Nat) (addr : Word) (w : Who) :
    (vlogAdd s slice kind addr w).graphQ = s.graphQ := rfl
@[simp] theorem vlogAdd_colls (slice kind : Nat) (addr : Word) (w : Who) :
    (vlogAdd s slice kind addr w).colls = s.colls := rfl
@[simp] theorem vlogAdd_graphs (slice kind : Nat) (addr : Word) (w : Who) :
    (vlogAdd s slice kind addr w).graphs = s.graphs := rfl
@[simp] theorem vlogAdd_walks (slice kind : Nat) (addr : Word) (w : Who) :
    (vlogAdd s slice kind addr w).walks = s.walks := rfl
@[simp] theorem vlogAdd_phases (slice kind : Nat) (addr : Word) (w : Who) :
    (vlogAdd s slice kind addr w).phases = s.phases := rfl
@[simp] theorem vlogAdd_faults (slice kind : Nat) (addr : Word) (w : Who) :
    (vlogAdd s slice kind addr w).faults = s.faults := rfl
@[simp] theorem vlogAdd_vsel (slice kind : Nat) (addr : Word) (w : Who) :
    (vlogAdd s slice kind addr w).vsel = s.vsel := rfl
@[simp] theorem vlogAdd_waiters (slice kind : Nat) (addr : Word) (w : Who) :
    (vlogAdd s slice kind addr w).waiters = s.waiters := rfl
@[simp] theorem vlogAdd_fcache (slice kind : Nat) (addr : Word) (w : Who) :
    (vlogAdd s slice kind addr w).fcache = s.fcache := rfl
@[simp] theorem vlogAdd_lcache (slice kind : Nat) (addr : Word) (w : Who) :
    (vlogAdd s slice kind addr w).lcache = s.lcache := rfl
@[simp] theorem vlogAdd_tlb (slice kind : Nat) (addr : Word) (w : Who) :
    (vlogAdd s slice kind addr w).tlb = s.tlb := rfl
@[simp] theorem vlogAdd_rawPend (slice kind : Nat) (addr : Word) (w : Who) :
    (vlogAdd s slice kind addr w).rawPend = s.rawPend := rfl
@[simp] theorem vlogAdd_xctrs (slice kind : Nat) (addr : Word) (w : Who) :
    (vlogAdd s slice kind addr w).xctrs = s.xctrs := rfl
@[simp] theorem vlogAdd_swapth (slice kind : Nat) (addr : Word) (w : Who) :
    (vlogAdd s slice kind addr w).swapth = s.swapth := rfl
@[simp] theorem vlogAdd_compat (slice kind : Nat) (addr : Word) (w : Who) :
    (vlogAdd s slice kind addr w).compat = s.compat := rfl
@[simp] theorem vlogAdd_compatBy (slice kind : Nat) (addr : Word) (w : Who) :
    (vlogAdd s slice kind addr w).compatBy = s.compatBy := rfl
@[simp] theorem vlogAdd_cmdSeq (slice kind : Nat) (addr : Word) (w : Who) :
    (vlogAdd s slice kind addr w).cmdSeq = s.cmdSeq := rfl
@[simp] theorem vlogAdd_sched (slice kind : Nat) (addr : Word) (w : Who) :
    (vlogAdd s slice kind addr w).sched = s.sched := rfl
@[simp] theorem vlogAdd_part (slice kind : Nat) (addr : Word) (w : Who) :
    (vlogAdd s slice kind addr w).part = s.part := rfl
@[simp] theorem vlogAdd_deadFibres (slice kind : Nat) (addr : Word) (w : Who) :
    (vlogAdd s slice kind addr w).deadFibres = s.deadFibres := rfl
@[simp] theorem vlogAdd_bootst (slice kind : Nat) (addr : Word) (w : Who) :
    (vlogAdd s slice kind addr w).bootst = s.bootst := rfl
@[simp] theorem vlogAdd_meas (slice kind : Nat) (addr : Word) (w : Who) :
    (vlogAdd s slice kind addr w).meas = s.meas := rfl
@[simp] theorem vlogAdd_versions (slice kind : Nat) (addr : Word) (w : Who) :
    (vlogAdd s slice kind addr w).versions = s.versions := rfl
@[simp] theorem vlogAdd_nonce (slice kind : Nat) (addr : Word) (w : Who) :
    (vlogAdd s slice kind addr w).nonce = s.nonce := rfl
@[simp] theorem vlogAdd_report (slice kind : Nat) (addr : Word) (w : Who) :
    (vlogAdd s slice kind addr w).report = s.report := rfl
@[simp] theorem vlogAdd_onModule (slice kind : Nat) (addr : Word) (w : Who) :
    (vlogAdd s slice kind addr w).onModule = s.onModule := rfl
@[simp] theorem vlogAdd_tokens (slice kind : Nat) (addr : Word) (w : Who) :
    (vlogAdd s slice kind addr w).tokens = s.tokens := rfl
@[simp] theorem vlogAdd_clocks (slice kind : Nat) (addr : Word) (w : Who) :
    (vlogAdd s slice kind addr w).clocks = s.clocks := rfl
@[simp] theorem vlogAdd_limit (slice kind : Nat) (addr : Word) (w : Who) :
    (vlogAdd s slice kind addr w).limit = s.limit := rfl
@[simp] theorem vlogAdd_hostRead (slice kind : Nat) (addr : Word) (w : Who) :
    (vlogAdd s slice kind addr w).hostRead = s.hostRead := rfl
@[simp] theorem vlogAdd_devRead (slice kind : Nat) (addr : Word) (w : Who) :
    (vlogAdd s slice kind addr w).devRead = s.devRead := rfl
@[simp] theorem vlogAdd_agenda (slice kind : Nat) (addr : Word) (w : Who) :
    (vlogAdd s slice kind addr w).agenda = s.agenda := rfl
@[simp] theorem vlogAdd_subj (slice kind : Nat) (addr : Word) (w : Who) :
    (vlogAdd s slice kind addr w).subj = s.subj := rfl
@[simp] theorem vlogAdd_iss (slice kind : Nat) (addr : Word) (w : Who) :
    (vlogAdd s slice kind addr w).iss = s.iss := rfl
@[simp] theorem vlogAdd_free (slice kind : Nat) (addr : Word) (w : Who) :
    (vlogAdd s slice kind addr w).free = s.free := rfl
@[simp] theorem vlogAdd_nextUid (slice kind : Nat) (addr : Word) (w : Who) :
    (vlogAdd s slice kind addr w).nextUid = s.nextUid := rfl
@[simp] theorem vlogAdd_nextLid (slice kind : Nat) (addr : Word) (w : Who) :
    (vlogAdd s slice kind addr w).nextLid = s.nextLid := rfl
@[simp] theorem vlogAdd_nextSeq (slice kind : Nat) (addr : Word) (w : Who) :
    (vlogAdd s slice kind addr w).nextSeq = s.nextSeq := rfl
@[simp] theorem vlogAdd_nextId (slice kind : Nat) (addr : Word) (w : Who) :
    (vlogAdd s slice kind addr w).nextId = s.nextId := rfl
@[simp] theorem vlogAdd_turn (slice kind : Nat) (addr : Word) (w : Who) :
    (vlogAdd s slice kind addr w).turn = s.turn := rfl

/-! ## spend -/

@[simp] theorem spend_cycle (stack kind : Nat) : (spend s stack kind).cycle = s.cycle := rfl
@[simp] theorem spend_mem (stack kind : Nat) : (spend s stack kind).mem = s.mem := rfl
@[simp] theorem spend_behind (stack kind : Nat) : (spend s stack kind).behind = s.behind := rfl
@[simp] theorem spend_ecc (stack kind : Nat) : (spend s stack kind).ecc = s.ecc := rfl
@[simp] theorem spend_jobs (stack kind : Nat) : (spend s stack kind).jobs = s.jobs := rfl
@[simp] theorem spend_lqtail (stack kind : Nat) : (spend s stack kind).lqtail = s.lqtail := rfl
@[simp] theorem spend_lqueue (stack kind : Nat) : (spend s stack kind).lqueue = s.lqueue := rfl
@[simp] theorem spend_launches (stack kind : Nat) : (spend s stack kind).launches = s.launches := rfl
@[simp] theorem spend_units (stack kind : Nat) : (spend s stack kind).units = s.units := rfl
@[simp] theorem spend_crews (stack kind : Nat) : (spend s stack kind).crews = s.crews := rfl
@[simp] theorem spend_lctrs (stack kind : Nat) : (spend s stack kind).lctrs = s.lctrs := rfl
@[simp] theorem spend_cmds (stack kind : Nat) : (spend s stack kind).cmds = s.cmds := rfl
@[simp] theorem spend_klists (stack kind : Nat) : (spend s stack kind).klists = s.klists := rfl
@[simp] theorem spend_hostQ (stack kind : Nat) : (spend s stack kind).hostQ = s.hostQ := rfl
@[simp] theorem spend_graphQ (stack kind : Nat) : (spend s stack kind).graphQ = s.graphQ := rfl
@[simp] theorem spend_colls (stack kind : Nat) : (spend s stack kind).colls = s.colls := rfl
@[simp] theorem spend_graphs (stack kind : Nat) : (spend s stack kind).graphs = s.graphs := rfl
@[simp] theorem spend_walks (stack kind : Nat) : (spend s stack kind).walks = s.walks := rfl
@[simp] theorem spend_phases (stack kind : Nat) : (spend s stack kind).phases = s.phases := rfl
@[simp] theorem spend_faults (stack kind : Nat) : (spend s stack kind).faults = s.faults := rfl
@[simp] theorem spend_vlog (stack kind : Nat) : (spend s stack kind).vlog = s.vlog := rfl
@[simp] theorem spend_vseq (stack kind : Nat) : (spend s stack kind).vseq = s.vseq := rfl
@[simp] theorem spend_vsel (stack kind : Nat) : (spend s stack kind).vsel = s.vsel := rfl
@[simp] theorem spend_waiters (stack kind : Nat) : (spend s stack kind).waiters = s.waiters := rfl
@[simp] theorem spend_fcache (stack kind : Nat) : (spend s stack kind).fcache = s.fcache := rfl
@[simp] theorem spend_lcache (stack kind : Nat) : (spend s stack kind).lcache = s.lcache := rfl
@[simp] theorem spend_tlb (stack kind : Nat) : (spend s stack kind).tlb = s.tlb := rfl
@[simp] theorem spend_rawPend (stack kind : Nat) : (spend s stack kind).rawPend = s.rawPend := rfl
@[simp] theorem spend_xctrs (stack kind : Nat) : (spend s stack kind).xctrs = s.xctrs := rfl
@[simp] theorem spend_swapth (stack kind : Nat) : (spend s stack kind).swapth = s.swapth := rfl
@[simp] theorem spend_compat (stack kind : Nat) : (spend s stack kind).compat = s.compat := rfl
@[simp] theorem spend_compatBy (stack kind : Nat) : (spend s stack kind).compatBy = s.compatBy := rfl
@[simp] theorem spend_cmdSeq (stack kind : Nat) : (spend s stack kind).cmdSeq = s.cmdSeq := rfl
@[simp] theorem spend_sched (stack kind : Nat) : (spend s stack kind).sched = s.sched := rfl
@[simp] theorem spend_part (stack kind : Nat) : (spend s stack kind).part = s.part := rfl
@[simp] theorem spend_deadFibres (stack kind : Nat) : (spend s stack kind).deadFibres = s.deadFibres := rfl
@[simp] theorem spend_bootst (stack kind : Nat) : (spend s stack kind).bootst = s.bootst := rfl
@[simp] theorem spend_meas (stack kind : Nat) : (spend s stack kind).meas = s.meas := rfl
@[simp] theorem spend_versions (stack kind : Nat) : (spend s stack kind).versions = s.versions := rfl
@[simp] theorem spend_nonce (stack kind : Nat) : (spend s stack kind).nonce = s.nonce := rfl
@[simp] theorem spend_report (stack kind : Nat) : (spend s stack kind).report = s.report := rfl
@[simp] theorem spend_onModule (stack kind : Nat) : (spend s stack kind).onModule = s.onModule := rfl
@[simp] theorem spend_clocks (stack kind : Nat) : (spend s stack kind).clocks = s.clocks := rfl
@[simp] theorem spend_limit (stack kind : Nat) : (spend s stack kind).limit = s.limit := rfl
@[simp] theorem spend_hostRead (stack kind : Nat) : (spend s stack kind).hostRead = s.hostRead := rfl
@[simp] theorem spend_devRead (stack kind : Nat) : (spend s stack kind).devRead = s.devRead := rfl
@[simp] theorem spend_agenda (stack kind : Nat) : (spend s stack kind).agenda = s.agenda := rfl
@[simp] theorem spend_subj (stack kind : Nat) : (spend s stack kind).subj = s.subj := rfl
@[simp] theorem spend_iss (stack kind : Nat) : (spend s stack kind).iss = s.iss := rfl
@[simp] theorem spend_free (stack kind : Nat) : (spend s stack kind).free = s.free := rfl
@[simp] theorem spend_nextUid (stack kind : Nat) : (spend s stack kind).nextUid = s.nextUid := rfl
@[simp] theorem spend_nextLid (stack kind : Nat) : (spend s stack kind).nextLid = s.nextLid := rfl
@[simp] theorem spend_nextSeq (stack kind : Nat) : (spend s stack kind).nextSeq = s.nextSeq := rfl
@[simp] theorem spend_nextId (stack kind : Nat) : (spend s stack kind).nextId = s.nextId := rfl
@[simp] theorem spend_turn (stack kind : Nat) : (spend s stack kind).turn = s.turn := rfl

end Sys2Proof.Machine
end

