-- ==== Sys2Proof/Laws/Formed.lean ====
section
/-! SUPPORT. The operations that every meaning is made of keep the form of a state. -/

namespace Sys2Proof.Machine

/-! ## Maps and the parts that the form rests on -/

theorem mem_mput {β : Type} {m : Map β} {k : Nat} {v : β} {p : Nat × β} (h : p ∈ mput m k v) :
    p = (k, v) ∨ p ∈ m := by
  induction m with
  | nil => simpa [mput] using h
  | cons q t ih =>
    obtain ⟨k', v'⟩ := q
    unfold mput at h
    split at h
    · simpa using h
    · split at h
      · rcases List.mem_cons.1 h with h | h
        · exact .inl h
        · exact .inr (List.mem_cons_of_mem _ h)
      · rcases List.mem_cons.1 h with h | h
        · exact .inr (by simp [h])
        · exact (ih h).imp_right (List.mem_cons_of_mem _)

theorem mem_of_mget {β : Type} {m : Map β} {k : Nat} {v : β} (h : mget m k = some v) : (k, v) ∈ m := by
  induction m with
  | nil => exact nomatch h
  | cons q t ih =>
    obtain ⟨k', v'⟩ := q
    unfold mget at h
    split at h
    · next e => simp_all
    · exact List.mem_cons_of_mem _ (ih h)

/-- The form rests on the memory and the job contexts only. -/
theorem Formed.congr {s t : State} (h : Formed s) (hm : t.mem = s.mem) (hj : t.jobs = s.jobs) : Formed t := by
  unfold Formed
  rw [hm, hj]
  exact h

theorem Formed.context_length {s : State} (h : Formed s) (job : Nat) :
    (mgetD s.jobs job (jobReset job)).length = 8 := by
  unfold mgetD
  cases e : mget s.jobs job with
  | none => rfl
  | some w => exact h.2 _ (mem_of_mget e)

/-! ## Updates of the state -/

theorem Formed.setCtxW {s : State} (h : Formed s) (job i : Nat) (w : Word) : Formed (setCtxW s job i w) := by
  refine ⟨h.1, fun p hp => ?_⟩
  rcases mem_mput hp with rfl | hp
  · simpa using h.context_length job
  · exact h.2 p hp

theorem Formed.wr {s : State} (h : Formed s) (phys : Nat) (data : List Byte) : Formed (wr s phys data) :=
  ⟨memWf_cellsPut h.1 phys data, h.2⟩

theorem Formed.wr64 {s : State} (h : Formed s) (phys v : Nat) : Formed (wr64 s phys v) := h.wr _ _

theorem Formed.putCrew {s : State} (h : Formed s) (key : Nat) (c : Crew) : Formed (putCrew s key c) := h

theorem Formed.modCrew {s : State} (h : Formed s) (key : Nat) (f : Crew → Crew) : Formed (modCrew s key f) :=
  h.congr (by simp) (by simp)

/-- With no store in the way of a sequential order nothing is marked. -/
@[simp] theorem markVeil_nil (s : State) (key : Nat) : markVeil s key [] = s := rfl

theorem Formed.markVeil {s : State} (h : Formed s) (key : Nat) (xs : List (Nat × List Req)) :
    Formed (markVeil s key xs) := by
  unfold Sys2Proof.Machine.markVeil
  split
  · exact h
  · exact h.modCrew _ _

/-- A write that goes ahead of no store marks none. -/
@[simp] theorem markAhead_nil (s : State) (key phys n : Nat) : markAhead s key phys n [] = s := rfl

theorem Formed.markAhead {s : State} (h : Formed s) (key phys n : Nat) (qs : List Req) :
    Formed (markAhead s key phys n qs) := by
  unfold Sys2Proof.Machine.markAhead
  split
  · exact h
  · exact h.modCrew _ _

theorem Formed.modUnit {s : State} (h : Formed s) (uid : Nat) (f : UnitSt → UnitSt) :
    Formed (modUnit s uid f) := h

theorem Formed.modLaunch {s : State} (h : Formed s) (lid : Nat) (f : Launch → Launch) :
    Formed (modLaunch s lid f) := h

theorem Formed.vlogAdd {s : State} (h : Formed s) (slice kind : Nat) (addr : Word) (w : Who) :
    Formed (vlogAdd s slice kind addr w) := h

theorem cellsAbove_filter {m : List Host.Cell} {a : Nat} (p : Host.Cell → Bool) (h : cellsAbove a m) :
    cellsAbove a (m.filter p) := fun q hq => h q (List.mem_filter.1 hq).1

theorem memWf_filter {m : List Host.Cell} (h : memWf m = true) (p : Host.Cell → Bool) :
    memWf (m.filter p) = true := by
  induction m with
  | nil => exact h
  | cons q t ih =>
    obtain ⟨a, v⟩ := q
    have h' := (memWf_cons a v t).1 h
    rw [List.filter_cons]
    split
    · exact (memWf_cons a v _).2 ⟨h'.1, cellsAbove_filter p h'.2.1, ih h'.2.2⟩
    · exact ih h'.2.2

theorem memWf_zeroRange {m : List Host.Cell} (h : memWf m = true) (a n : Nat) :
    memWf (zeroRange m a n) = true := memWf_filter h _

theorem Formed.freeShare {s : State} (h : Formed s) (uid : Nat) : Formed (freeShare s uid) :=
  ⟨memWf_zeroRange h.1 _ _, h.2⟩

theorem Formed.tlbFill {s : State} (h : Formed s) (core job va b e : Nat) :
    Formed (tlbFill s core job va b e) := h

theorem Formed.spend {s : State} (h : Formed s) (stack kind : Nat) : Formed (spend s stack kind) := h

theorem Formed.spendAccess {s : State} (h : Formed s) (w : Who) (phys : Nat) : Formed (spendAccess s w phys) := by
  have key (b d : Bool) (k n : Nat) : Formed
      (if d then Machine.spend (if b then s else Machine.spend s k 1) n 2
        else if b then s else Machine.spend s k 1) := by
    cases b <;> cases d <;> exact h
  exact key _ _ _ _

theorem Formed.spendWalk {s : State} (h : Formed s) (w : Who) (va : Nat) : Formed (spendWalk s w va) := by
  have key (l : List Nat) : ∀ t, Formed t → Formed (l.foldl (fun s a => Machine.spend s (sliceOf s a / 16) 2) t) := by
    induction l with
    | nil => exact fun _ h => h
    | cons a l ih => exact fun t ht => ih _ (ht.spend _ _)
  unfold Machine.spendWalk
  dsimp only
  split
  · exact h
  · exact key _ _ h

theorem Formed.setAcDt {s : State} (h : Formed s) (at_ : Option Nat) (e : Nat) (k : AccKind) :
    Formed (setAcDt s at_ e k) := by
  unfold Machine.setAcDt
  dsimp only
  generalize (if k.writes && !bitAt _ 0 then _ else _) = e2
  cases at_ with
  | none => exact h
  | some a =>
    dsimp only
    split
    · exact h
    · exact ⟨memWf_cellsPut h.1 _ _, h.2⟩

theorem Formed.leafFor {s : State} (h : Formed s) (w : Who) (va : Nat) : Formed (leafFor s w va).1 := by
  unfold Machine.leafFor
  dsimp only
  split <;> exact h

theorem Formed.peekAc {s : State} (h : Formed s) (w : Who) (va : Nat) : Formed (peekAc s w va) := by
  unfold Machine.peekAc
  split
  · exact ((h.spendWalk _ _).setAcDt _ _ _).spendAccess _ _
  · exact (h.spendWalk _ _).setAcDt _ _ _
  · exact h

theorem Formed.ownerAc {s : State} (h : Formed s) (w : Who) (va ty : Nat) : Formed (ownerAc s w va ty) := by
  have key (l : List Nat) : ∀ t, Formed t → Formed (l.foldl (fun s a => Machine.peekAc s w a) t) := by
    induction l with
    | nil => exact fun _ h => h
    | cons a l ih => exact fun t ht => ih _ (ht.peekAc w a)
  unfold Machine.ownerAc
  split
  · split
    · exact h
    · dsimp only
      split
      · exact h
      · exact key _ _ h
  · exact h

theorem Formed.xlat {s : State} (h : Formed s) (w : Who) (k : AccKind) (va : Word) :
    Formed (xlat s w k va).1 := by
  unfold Machine.xlat
  split
  · exact h
  · have hl := (h.spendWalk w va.toNat).leafFor w va.toNat
    split
    · next e => rw [e] at hl; exact hl
    · next e => rw [e] at hl; exact hl
    · next e => rw [e] at hl; exact hl
    · next e =>
      rw [e] at hl
      split
      · exact hl
      · split
        · exact ((Formed.setAcDt hl _ _ _).tlbFill _ _ _ _ _).ownerAc _ _ _
        · exact (Formed.setAcDt hl _ _ _).tlbFill _ _ _ _ _
        · exact hl

theorem Formed.faultPut {s : State} (h : Formed s) (id : Nat) (f : FaultEnt) : Formed (faultPut s id f) := by
  unfold Machine.faultPut
  dsimp only
  split
  · exact h
  · exact (h.wr _ _).setCtxW _ _ _

theorem Formed.faultEnter {s : State} (h : Formed s) (w : Who) (k : AccKind) (va : Word) (ty lv : Nat) :
    Formed (faultEnter s w k va ty lv).1 :=
  Formed.faultPut (s := { s with nextId := s.nextId + 1 }) h _ _

/-! ## Accesses at their targets -/

theorem Formed.writeTgt {s : State} (h : Formed s) (w : Who) (va : Word) (phys : Nat) (data : List Byte) :
    Formed (writeTgt s w va phys data).1 := by
  have h := h.spendAccess w phys
  unfold Machine.writeTgt
  dsimp only
  split
  · exact h.vlogAdd _ _ _ _
  · split
    · exact h.vlogAdd _ _ _ _
    · exact h.wr _ _

theorem Formed.atomTgt {s : State} (h : Formed s) (w : Who) (va : Word) (phys op : Nat) (w64 : Bool)
    (v x : Word) : Formed (atomTgt s w va phys op w64 v x).1 := by
  have h := h.spendAccess w phys
  unfold Machine.atomTgt
  dsimp only
  split
  · exact h.vlogAdd _ _ _ _
  · split
    · exact h.vlogAdd _ _ _ _
    · exact h.wr _ _

theorem Formed.serAppend {s : State} (h : Formed s) (uid : Nat) (e : SerEntry) :
    Formed (serAppend s uid e).1 := by
  unfold Machine.serAppend
  split
  · exact h
  · split <;> exact h

theorem Formed.mmioRead {s : State} (h : Formed s) (w : Who) (va : Word) (a n : Nat) :
    Formed (mmioRead s w va a n).1 := by
  have h := h.spendAccess w a
  unfold Machine.mmioRead
  dsimp only
  split <;> exact h

theorem Formed.withAgenda {s : State} (h : Formed s) (a : List Happening) : Formed { s with agenda := a } := h

theorem Formed.ctlStore {s : State} (h : Formed s) (w : Who) (va : Word) (job off : Nat) (v : Word) :
    Formed (ctlStore s w va job off v).1 := by
  unfold Machine.ctlStore
  split
  · refine Formed.withAgenda ?_ _
    split
    · exact h.peekAc _ _
    · exact h
  · split <;> exact h.vlogAdd _ _ _ _

theorem Formed.mmioWrite {s : State} (h : Formed s) (w : Who) (va : Word) (a : Nat) (data : List Byte) :
    Formed (mmioWrite s w va a data).1 := by
  have h := h.spendAccess w a
  unfold Machine.mmioWrite
  dsimp only
  split
  · exact h.ctlStore _ _ _ _ _
  · exact h.vlogAdd _ _ _ _

theorem sharedBytes_same (s : State) (snap : List Host.Cell) (a n : Nat) :
    (sharedBytes s snap a n).1.mem = s.mem ∧ (sharedBytes s snap a n).1.jobs = s.jobs := by
  induction n generalizing s a with
  | zero => exact ⟨rfl, rfl⟩
  | succ n ih =>
    have h : (sharedByte s snap a).1.mem = s.mem ∧ (sharedByte s snap a).1.jobs = s.jobs := by
      unfold sharedByte
      dsimp only
      split <;> exact ⟨rfl, rfl⟩
    exact ⟨(ih _ _).1.trans h.1, (ih _ _).2.trans h.2⟩

theorem Formed.readTgt {s : State} (h : Formed s) (w : Who) (va : Word) (phys n : Nat) (sh : Bool) :
    Formed (readTgt s w va phys n sh).1 := by
  have h := h.spendAccess w phys
  unfold Machine.readTgt
  dsimp only
  split
  · exact h.vlogAdd _ _ _ _
  split
  · exact h.vlogAdd _ _ _ _
  · split
    · exact h.congr (sharedBytes_same _ _ _ _).1 (sharedBytes_same _ _ _ _).2
    · exact h

/-! ## Work that accesses memory -/

/-- The state that work leaves. -/
def VRes.state {α : Type} : VRes α → State
  | .ok s _ => s
  | .page s _ _ _ _ _ => s
  | .err s _ _ => s
  | .wait s _ _ => s

/-- Work that keeps the form of a state. -/
def Keeps {α : Type} (m : VM α) : Prop := ∀ s, Formed s → Formed (m s).state

theorem Keeps.pure {α : Type} (a : α) : Keeps (vpure a) := fun _ h => h

theorem Keeps.err {α : Type} (cls : Nat) (addr : Word) : Keeps (verr cls addr : VM α) := fun _ h => h

theorem Keeps.get : Keeps vget := fun _ h => h

theorem Keeps.mod {f : State → State} (hf : ∀ s, Formed s → Formed (f s)) : Keeps (vmod f) := hf

theorem Keeps.bind {α β : Type} {m : VM α} {f : α → VM β} (hm : Keeps m) (hf : ∀ a, Keeps (f a)) :
    Keeps (vbind m f) := by
  intro s h
  have := hm s h
  unfold vbind
  split
  · next e => rw [e] at this; exact hf _ _ this
  all_goals (next e => rw [e] at this; exact this)

theorem Keeps.fold {α β : Type} {f : β → α → VM β} (hf : ∀ b a, Keeps (f b a)) (l : List α) (b : β) :
    Keeps (vfold f b l) := by
  induction l generalizing b with
  | nil => exact Keeps.pure b
  | cons a t ih => exact Keeps.bind (hf b a) ih

theorem Keeps.xlat (w : Who) (k : AccKind) (va : Word) : Keeps (vxlat w k va) := by
  intro s h
  have := h.xlat w k va
  unfold vxlat
  split <;> (next e => rw [e] at this; exact this)

theorem Keeps.readPart (w : Who) (k : AccKind) (waits : Bool) (va : Word) (n : Nat) :
    Keeps (vreadPart w k waits va n) := by
  refine Keeps.bind (Keeps.xlat w k va) fun p s h => ?_
  obtain ⟨phys, ty⟩ := p
  dsimp only
  split
  · exact h
  · split
    · split
      · exact h
      · have := h.mmioRead w va phys n
        split <;> (next e => rw [e] at this; exact this)
    · split
      · exact h
      · have := h.readTgt w va phys n
        split <;> (next e =>
          have g := this (decide (sharing s w va.toNat ty = .shared)); rw [e] at g; exact g)

theorem Keeps.read (w : Who) (k : AccKind) (waits : Bool) (va : Word) (n : Nat) :
    Keeps (vread w k waits va n) :=
  Keeps.fold (fun _ _ => Keeps.bind (Keeps.readPart w k waits _ _) fun _ => Keeps.pure _) _ _

theorem Keeps.read64 (w : Who) (k : AccKind) (va : Word) : Keeps (vread64 w k va) :=
  Keeps.bind (Keeps.read w k false va 8) fun _ => Keeps.pure _

theorem Keeps.writePart (w : Who) (k : AccKind) (strict : Bool) (lane : Nat) (va : Word) (data : List Byte) :
    Keeps (vwritePart w k strict lane va data) := by
  refine Keeps.bind (Keeps.xlat w k va) fun p s h => ?_
  obtain ⟨phys, ty⟩ := p
  dsimp only
  split
  · split
    · exact h
    · have := h.mmioWrite w va phys data
      split <;> (next e => rw [e] at this; exact this)
  · split
    · exact h
    · split
      · exact h
      · have := h.serAppend w.uid (.store phys va data w.slot lane)
        split <;> (next e => rw [e] at this; exact this)
    · have := h.writeTgt w va phys data
      split <;> (next e => rw [e] at this; exact this)

theorem Keeps.write (w : Who) (k : AccKind) (strict : Bool) (lane : Nat) (va : Word) (data : List Byte) :
    Keeps (vwrite w k strict lane va data) :=
  Keeps.bind (Keeps.fold (fun _ _ => Keeps.bind (Keeps.writePart w k strict lane _ _) fun _ => Keeps.pure _) _ _)
    fun _ => Keeps.pure _

theorem Keeps.write64 (w : Who) (k : AccKind) (va v : Word) : Keeps (vwrite64 w k va v) :=
  Keeps.write w k true 0 va _

theorem Keeps.atomic64 (w : Who) (va : Word) (f : Word → Option Word) : Keeps (vatomic64 w va f) := by
  refine Keeps.bind (Keeps.xlat w .termAtomic va) fun p s h => ?_
  obtain ⟨phys, ty⟩ := p
  dsimp only
  split
  · exact h
  · split
    · exact h.vlogAdd _ _ _ _
    · split
      · exact h.vlogAdd _ _ _ _
      · split
        · exact h.spendAccess _ _
        · exact (h.spendAccess _ _).wr64 _ _

end Sys2Proof.Machine
end

