-- ==== Sys2Proof/Laws/Maps.lean ====
section
/-! SUPPORT. Laws of finite maps, byte strings and lane masks. -/

namespace Sys2Proof.Machine

variable {β : Type}

@[simp] theorem mget_nil (k : Nat) : mget ([] : Map β) k = none := rfl

theorem mget_mput (m : Map β) (k k' : Nat) (v : β) :
    mget (mput m k v) k' = if k = k' then some v else mget m k' := by
  induction m with
  | nil => simp [mput, mget]
  | cons p t ih =>
    obtain ⟨a, b⟩ := p
    unfold mput
    by_cases h1 : k < a
    · simp only [h1, if_true, mget]
    · by_cases h2 : a = k
      · subst h2
        simp only [h1, if_true, if_false, mget]
        split <;> rfl
      · simp only [h1, h2, if_false, mget, ih]
        by_cases h3 : a = k'
        · subst h3; simp [Ne.symm h2]
        · simp [h3]

@[simp] theorem mget_mput_same (m : Map β) (k : Nat) (v : β) : mget (mput m k v) k = some v := by
  simp [mget_mput]

theorem mget_mput_other (m : Map β) {k k' : Nat} (v : β) (h : k ≠ k') :
    mget (mput m k v) k' = mget m k' := by
  simp [mget_mput, h]

@[simp] theorem mput_mput (m : Map β) (k : Nat) (v w : β) : mput (mput m k v) k w = mput m k w := by
  induction m with
  | nil => simp [mput]
  | cons p t ih =>
    obtain ⟨a, b⟩ := p
    unfold mput
    by_cases h1 : k < a
    · simp [mput, h1]
    · by_cases h2 : a = k
      · subst h2; simp [mput]
      · simp [mput, h1, h2, ih]

theorem mget_map (m : Map β) (f : β → β) (k : Nat) :
    mget (m.map fun p => (p.1, f p.2)) k = (mget m k).map f := by
  induction m with
  | nil => rfl
  | cons p t ih =>
    obtain ⟨a, b⟩ := p
    simp only [List.map_cons, mget]
    split
    · rfl
    · exact ih

theorem mget_mdel (m : Map β) (k k' : Nat) :
    mget (mdel m k) k' = if k = k' then none else mget m k' := by
  induction m with
  | nil => simp [mdel]
  | cons p t ih =>
    obtain ⟨a, b⟩ := p
    unfold mdel
    by_cases h : a = k
    · subst h
      simp only [if_true, ih, mget]
      by_cases h2 : a = k' <;> simp [h2]
    · simp only [h, if_false, mget, ih]
      by_cases h2 : a = k'
      · subst h2; simp [Ne.symm h]
      · simp [h2]

theorem mgetD_mput (m : Map β) (k k' : Nat) (v d : β) :
    mgetD (mput m k v) k' d = if k = k' then v else mgetD m k' d := by
  unfold mgetD
  rw [mget_mput]
  split <;> rfl

theorem mget_mmod (m : Map β) (k k' : Nat) (f : β → β) :
    mget (mmod m k f) k' = if k = k' then (mget m k').map f else mget m k' := by
  unfold mmod
  cases h : mget m k with
  | none => by_cases hk : k = k'
            · subst hk; simp [h]
            · simp [hk]
  | some v =>
    rw [mget_mput]
    by_cases hk : k = k'
    · subst hk; simp [h]
    · simp [hk]

/-! ## Lanes -/

theorem mem_lanes {l : Nat} : l ∈ lanes ↔ l < 32 := by
  constructor
  · intro h
    have : ∀ x ∈ lanes, x < 32 := by decide
    exact this l h
  · intro h
    have : ∀ x : Fin 32, x.1 ∈ lanes := by decide
    exact this ⟨l, h⟩

theorem nodup_lanes : lanes.Nodup := by decide

theorem mem_lanesOf {m : Mask} {l : Nat} : l ∈ lanesOf m ↔ l < 32 ∧ inMask m l = true := by
  simp [lanesOf, List.mem_filter, mem_lanes]

theorem nodup_lanesOf (m : Mask) : (lanesOf m).Nodup := nodup_lanes.sublist List.filter_sublist

theorem bitAt_eq_testBit (v i : Nat) : bitAt v i = v.testBit i := by
  simp [bitAt, Nat.testBit_eq_decide_div_mod_eq]

theorem inMask_lt {m : Mask} {l : Nat} (h : inMask m l = true) : l < 32 := by
  rw [inMask, bitAt_eq_testBit] at h
  apply Classical.byContradiction
  intro hl
  have : m.toNat.testBit l = false :=
    Nat.testBit_lt_two_pow (Nat.lt_of_lt_of_le m.isLt (Nat.pow_le_pow_right (by decide) (by omega)))
  simp [this] at h

/-- Setting rising bits one by one. -/
theorem foldl_bits (p : Nat → Bool) (i n a : Nat) (ha : a < 2 ^ n) :
    ((List.range' n i).foldl (fun a l => if p l then a + 2 ^ l else a) a).testBit =
      fun j => if n ≤ j ∧ j < n + i then p j else a.testBit j := by
  induction i generalizing n a with
  | zero =>
    funext j
    have : ¬ (n ≤ j ∧ j < n + 0) := by omega
    simp only [this, if_false, List.range'_zero, List.foldl_nil]
  | succ i ih =>
    rw [List.range'_succ, List.foldl_cons]
    have h2 : (if p n then a + 2 ^ n else a) < 2 ^ (n + 1) := by
      have : 2 ^ (n + 1) = 2 ^ n + 2 ^ n := by omega
      split <;> omega
    rw [ih (n + 1) _ h2]
    funext j
    by_cases h3 : n + 1 ≤ j ∧ j < n + 1 + i
    · have h4 : n ≤ j ∧ j < n + (i + 1) := by omega
      simp [h3, h4]
    · have hb : (if p n then a + 2 ^ n else a).testBit j = if j = n then p n else a.testBit j := by
        by_cases hp : p n
        · simp only [hp, if_true]
          rw [Nat.add_comm]
          by_cases hj : j = n
          · subst hj; simp [Nat.testBit_two_pow_add_eq, Nat.testBit_lt_two_pow ha]
          · simp only [hj, if_false]
            by_cases hlt : j < n
            · rw [Nat.testBit_two_pow_add_gt hlt]
            · have e1 : (2 ^ n + a).testBit j = false :=
                Nat.testBit_lt_two_pow (Nat.lt_of_lt_of_le (by have : 2 ^ (n + 1) = 2 ^ n + 2 ^ n := by omega
                                                               omega) (Nat.pow_le_pow_right (by decide) (show n + 1 ≤ j by omega)))
              have e2 : a.testBit j = false :=
                Nat.testBit_lt_two_pow (Nat.lt_of_lt_of_le ha (Nat.pow_le_pow_right (by decide) (by omega)))
              rw [e1, e2]
        · simp only [hp]
          by_cases hj : j = n
          · subst hj; simp [Nat.testBit_lt_two_pow ha]
          · simp [hj]
      by_cases hj : j = n
      · subst hj
        have h4 : j ≤ j ∧ j < j + (i + 1) := by omega
        have h5 : ¬ (j + 1 ≤ j) := by omega
        simp [h4, hb]
      · have h4 : ¬ (n ≤ j ∧ j < n + (i + 1)) := by omega
        rw [if_neg h3, if_neg h4, hb, if_neg hj]

theorem inMask_maskOf (p : Nat → Bool) (l : Nat) : inMask (maskOf p) l = (decide (l < 32) && p l) := by
  have h := foldl_bits p 32 0 0 (by decide)
  have hr : List.range' 0 32 = lanes := by decide
  rw [hr] at h
  rw [inMask, bitAt_eq_testBit]
  unfold maskOf
  rw [BitVec.toNat_ofNat, Nat.testBit_mod_two_pow, congrFun h l]
  by_cases hl : l < 32 <;> simp [hl]

theorem mask_ext {a b : Mask} (h : ∀ l, l < 32 → inMask a l = inMask b l) : a = b := by
  apply BitVec.eq_of_toNat_eq
  apply Nat.eq_of_testBit_eq
  intro i
  by_cases hi : i < 32
  · have := h i hi
    rwa [inMask, inMask, bitAt_eq_testBit, bitAt_eq_testBit] at this
  · have e1 : a.toNat.testBit i = false :=
      Nat.testBit_lt_two_pow (Nat.lt_of_lt_of_le a.isLt (Nat.pow_le_pow_right (by decide) (by omega)))
    have e2 : b.toNat.testBit i = false :=
      Nat.testBit_lt_two_pow (Nat.lt_of_lt_of_le b.isLt (Nat.pow_le_pow_right (by decide) (by omega)))
    rw [e1, e2]

theorem lanesOf_ne_nil {m : Mask} (h : m ≠ 0) : lanesOf m ≠ [] := by
  intro e
  apply h
  apply mask_ext
  intro l hl
  have hn : l ∉ lanesOf m := by rw [e]; simp
  rw [mem_lanesOf] at hn
  have : inMask (0 : Mask) l = false := by simp [inMask, bitAt]
  rw [this]
  cases hm : inMask m l
  · rfl
  · exact absurd ⟨hl, hm⟩ hn

end Sys2Proof.Machine
end

