-- ==== Sys2Proof/Laws/Issue.lean ====
section
/-! SUPPORT. What issuing an instruction does: the gate, the retirement, and results in flight. -/

namespace Sys2Proof.Machine

/-! ## Threads of a crew -/

theorem modTh_eq (c : Crew) (l : Nat) (f : Thread → Thread) :
    modTh c l f = { c with th := (modTh c l f).th, rt := (modTh c l f).rt } := by
  unfold modTh setTh; split <;> rfl

theorem modTh_priv (c : Crew) (l : Nat) (f : Thread → Thread) : (modTh c l f).priv = c.priv := by
  unfold modTh setTh; split <;> rfl

theorem modTh_th (c : Crew) (l : Nat) (f : Thread → Thread) (h : c.priv = true) :
    (modTh c l f).th = c.th := by simp [modTh, setTh, h]

theorem modTh_rt (c : Crew) (l : Nat) (f : Thread → Thread) (h : c.priv = false) :
    (modTh c l f).rt = c.rt := by simp [modTh, setTh, h]

theorem thOf_modTh (c : Crew) (l k : Nat) (f : Thread → Thread) :
    thOf (modTh c l f) k = if l = k then f (thOf c l) else thOf c k := by
  unfold thOf ths modTh setTh
  cases h : c.priv <;> simp only [mgetD_mput, Bool.false_eq_true, if_false, if_true] <;>
    split <;> simp [thOf, ths, h]

theorem modThs_cons (c : Crew) (l : Nat) (ls : List Nat) (f : Nat → Thread → Thread) :
    modThs c (l :: ls) f = modThs (modTh c l (f l)) ls f := rfl

theorem modThs_eq (c : Crew) (ls : List Nat) (f : Nat → Thread → Thread) :
    modThs c ls f = { c with th := (modThs c ls f).th, rt := (modThs c ls f).rt } := by
  induction ls generalizing c with
  | nil => rfl
  | cons l ls ih => rw [modThs_cons, ih]; rw [modTh_eq c l (f l)]

theorem modThs_priv (c : Crew) (ls : List Nat) (f : Nat → Thread → Thread) :
    (modThs c ls f).priv = c.priv := by rw [modThs_eq]

theorem modThs_th (c : Crew) (ls : List Nat) (f : Nat → Thread → Thread) (h : c.priv = true) :
    (modThs c ls f).th = c.th := by
  induction ls generalizing c with
  | nil => rfl
  | cons l ls ih => rw [modThs_cons, ih _ (by rw [modTh_priv, h]), modTh_th _ _ _ h]

theorem modThs_rt (c : Crew) (ls : List Nat) (f : Nat → Thread → Thread) (h : c.priv = false) :
    (modThs c ls f).rt = c.rt := by
  induction ls generalizing c with
  | nil => rfl
  | cons l ls ih => rw [modThs_cons, ih _ (by rw [modTh_priv, h]), modTh_rt _ _ _ h]

theorem thOf_modThs (c : Crew) (ls : List Nat) (f : Nat → Thread → Thread) (h : ls.Nodup) (k : Nat) :
    thOf (modThs c ls f) k = if k ∈ ls then f k (thOf c k) else thOf c k := by
  induction ls generalizing c with
  | nil => simp [modThs]
  | cons l ls ih =>
    have hn := List.nodup_cons.mp h
    rw [modThs_cons, ih _ hn.2, thOf_modTh]
    by_cases hk : l = k
    · subst hk; simp [hn.1]
    · simp [hk, Ne.symm hk]

/-- What `settleMeet` makes of one thread of the program. -/
def meetTh (c : Crew) (t : Thread) : Thread :=
  if t.live && decide (t.mr ≠ 0) && decide (t.pc = t.mr) && t.atPc then
    if meetDone c t.mr then { t with mr := 0, held := false } else { t with held := true }
  else { t with held := false }

theorem settleMeet_eq (c : Crew) :
    settleMeet c = { c with th := c.th.map fun p => (p.1, meetTh c p.2) } := rfl

theorem meetTh_same (c : Crew) (t : Thread) :
    meetTh c t = { t with mr := (meetTh c t).mr, held := (meetTh c t).held } := by
  unfold meetTh; split
  · split <;> rfl
  · rfl

theorem meetTh_meets (c : Crew) (t : Thread) :
    ((meetTh c t).mr, (meetTh c t).held) =
      if t.mr ≠ 0 ∧ (t.live && decide (t.pc = t.mr) && t.atPc) = true then
        (if meetDone c t.mr then (0, false) else (t.mr, true)) else (t.mr, false) := by
  have e : (t.live && decide (t.mr ≠ 0) && decide (t.pc = t.mr) && t.atPc) = true ↔
      t.mr ≠ 0 ∧ (t.live && decide (t.pc = t.mr) && t.atPc) = true := by
    simp only [Bool.and_eq_true, decide_eq_true_eq]
    constructor
    · rintro ⟨⟨⟨a, b⟩, c⟩, d⟩; exact ⟨b, ⟨a, c⟩, d⟩
    · rintro ⟨b, ⟨a, c⟩, d⟩; exact ⟨⟨⟨a, b⟩, c⟩, d⟩
  unfold meetTh
  by_cases h : t.mr ≠ 0 ∧ (t.live && decide (t.pc = t.mr) && t.atPc) = true
  · rw [if_pos (e.mpr h), if_pos h]; split <;> rfl
  · rw [if_neg (fun g => h (e.mp g)), if_neg h]

theorem meetTh_absent (c : Crew) : meetTh c Thread.absent = Thread.absent := rfl

theorem progTh_settleMeet (c : Crew) (l : Nat) : progTh (settleMeet c) l = meetTh c (progTh c l) := by
  unfold progTh mgetD
  rw [settleMeet_eq]
  simp only [mget_map]
  cases mget c.th l with
  | none => simp [meetTh_absent]
  | some t => rfl

theorem thOf_priv {c : Crew} (h : c.priv = true) (l : Nat) : thOf c l = mgetD c.rt l Thread.absent := by
  simp [thOf, ths, h]

theorem thOf_prog {c : Crew} (h : c.priv = false) (l : Nat) : thOf c l = progTh c l := by
  simp [thOf, ths, h, progTh]

/-! ## Retirement -/

theorem issuing_crew {s : State} {c : Crew} (h : issuing s = some c) :
    ∃ c0, mget s.crews s.iss.crew = some c0 ∧ settle s.cycle c0 = c := by
  unfold issuing at h
  cases h0 : mget s.crews s.iss.crew with
  | none => simp [h0] at h
  | some c0 => exact ⟨c0, rfl, by simpa [h0] using h⟩

@[simp] theorem issueCtx_key (i : Instr) (s : State) (c : Crew) : (issueCtx i s c).key = s.iss.crew := rfl
@[simp] theorem issueCtx_c (i : Instr) (s : State) (c : Crew) : (issueCtx i s c).c = c := rfl
@[simp] theorem issueCtx_grp (i : Instr) (s : State) (c : Crew) : (issueCtx i s c).grp = groupOf s c := rfl
@[simp] theorem issueCtx_pc (i : Instr) (s : State) (c : Crew) : (issueCtx i s c).pc = s.iss.pc := rfl
@[simp] theorem issueCtx_start (i : Instr) (s : State) (c : Crew) :
    (issueCtx i s c).start = s.iss.start := rfl
@[simp] theorem issueCtx_next (i : Instr) (s : State) (c : Crew) : (issueCtx i s c).next = nextWord s := rfl
@[simp] theorem issueCtx_hn (i : Instr) (s : State) (c : Crew) : (issueCtx i s c).hn = c.hint := rfl
@[simp] theorem issueCtx_u (i : Instr) (s : State) (c : Crew) : (issueCtx i s c).u = usesOf i := rfl
@[simp] theorem issueCtx_seq (i : Instr) (s : State) (c : Crew) : (issueCtx i s c).seq = s.nextSeq := rfl

theorem Issues.ctx_act {i : Instr} {s : State} {c : Crew} {act : Mask} (h : Issues i s c act) :
    (issueCtx i s c).act = act := h.active

/-- An instruction that issues runs its own meaning. -/
theorem gate_issues {i : Instr} {s : State} {c : Crew} {act : Mask} (h : Issues i s c act)
    (k : Ctx → State → State) : gate i k s = .next (k (issueCtx i s c) (startOf s c)) := by
  obtain ⟨c0, h0, hc⟩ := issuing_crew h.crew
  have hl : launchOf (putCrew s s.iss.crew c) c = launchOf s c := rfl
  unfold gate
  simp only [h0, hc]
  have e1 : hintsOk (ctxOf i (putCrew s s.iss.crew c) c).u (ctxOf i (putCrew s s.iss.crew c) c).hn = true :=
    h.hints
  have e2 : contextBad (launchOf (putCrew s s.iss.crew c) c) (ctxOf i (putCrew s s.iss.crew c) c).hn i
      = false := h.fields
  have e3 : (ctxOf i (putCrew s s.iss.crew c) c).act = act := h.active
  have e4 : holdOf c (ctxOf i (putCrew s s.iss.crew c) c).u (ctxOf i (putCrew s s.iss.crew c) c).hn
      (ctxOf i (putCrew s s.iss.crew c) c).act = .go := by rw [e3]; exact h.go
  simp only [e1, e2, e4, Bool.not_true, Bool.false_eq_true, if_false]
  rw [if_neg (by rw [e3]; exact h.any)]
  rfl

theorem modCrew_putCrew (s : State) (k : Nat) (c : Crew) (f : Crew → Crew) :
    modCrew (putCrew s k c) k f = putCrew s k (f c) := by
  simp [modCrew, putCrew]

theorem putCrew_putCrew (s : State) (k : Nat) (c d : Crew) :
    putCrew (putCrew s k c) k d = putCrew s k d := by
  simp [putCrew]

theorem groupAt_absent {c : Crew} {pc : Word} {l : Nat} (h : inMask (groupAt c pc) l = true) :
    (thOf c l).free = true ∧ (thOf c l).pc = pc := by
  rw [groupAt, inMask_maskOf] at h
  simp only [Bool.and_eq_true, decide_eq_true_eq] at h
  exact h.2

/-- A context of an instruction that issues, as its meaning uses it. -/
structure CtxOk (x : Ctx) (s : State) (c : Crew) (act : Mask) (srcs : List Nat) : Prop where
  key : x.key = s.iss.crew
  crew : x.c = c
  act : x.act = act
  grp : x.grp = groupOf s c
  next : x.next = nextWord s
  seq : x.seq = s.nextSeq
  srcs : x.u.srcs = srcs

theorem Issues.ctx {i : Instr} {s : State} {c : Crew} {act : Mask} (h : Issues i s c act) :
    CtxOk (issueCtx i s c) s c act (usesOf i).srcs :=
  ⟨rfl, rfl, h.active, rfl, rfl, rfl, rfl⟩

/-- The state while an instruction works: its crew with results in flight. -/
def flight (s : State) (c : Crew) (p : List PendW) : State :=
  { putCrew s s.iss.crew { c with pend := p } with nextSeq := s.nextSeq + 1 }

theorem startOf_flight (s : State) (c : Crew) : startOf s c = flight s c c.pend := rfl

theorem issueCycles_eq (c : Crew) (srcs : List Nat) (act : Mask) :
    issueCycles c srcs act = if unstaged c srcs = true ∧ act ≠ 0 then 2 else 1 := by simp [issueCycles]

theorem issueCycles_congr {c c1 : Crew} {srcs : List Nat} (h : unstaged c1 srcs = unstaged c srcs) (act : Mask) :
    issueCycles c1 srcs act = issueCycles c srcs act := by rw [issueCycles_eq, issueCycles_eq, h]

/-- The retirement of a crew that an instruction's own work has made `c1` in the state `s1`: its lanes
move and its meeting is settled. -/
theorem retireTo_working {x : Ctx} {s : State} {c c1 : Crew} {act : Mask} {srcs : List Nat}
    (hx : CtxOk x s c act srcs) (s1 : State) (new : List PendW) (tgt : Nat → Word)
    (hi : s1.iss = s.iss) (hc : s1.cycle = s.cycle) (hn : s1.nextSeq = s.nextSeq)
    (hk : c1.core = c.core) (hs : c1.slot = c.slot) (hun : unstaged c1 srcs = unstaged c srcs) :
    ∃ c', Issued srcs s1 (retireTo x (flight s1 c1 (c1.pend ++ new)) tgt) c1 c' (groupOf s c) act tgt new := by
  let g (l : Nat) (t : Thread) : Thread :=
    { t with pc := if inMask act l then tgt l else nextWord s, stamp := s.nextSeq }
  let d1 : Crew := { c1 with pend := c1.pend ++ new }
  let d2 : Crew := modThs d1 (lanesOf (groupOf s c)) g
  let d3 : Crew := { d2 with
    hint := Hints.none, rej := []
    ready := s.cycle + issueCycles d2 srcs act
    stamp := s.nextSeq
    ops := d2.ops.map (Op.passed d2.priv (groupOf s c)) }
  let d4 : Crew := settleMeet d3
  have hp2 : d2.priv = c1.priv := modThs_priv d1 _ g
  have hp4 : d4.priv = c1.priv := hp2
  have hth1 (l : Nat) : thOf d1 l = thOf c1 l := rfl
  have hnw : nextWord s1 = nextWord s := by unfold nextWord; rw [hi]
  have hth2 (l : Nat) : thOf d2 l = { thOf c1 l with
      pc := pcAfter s1 c1 (groupOf s c) act tgt l
      stamp := if inMask (groupOf s c) l then s1.nextSeq else (thOf c1 l).stamp } := by
    have e := thOf_modThs d1 (lanesOf (groupOf s c)) g (nodup_lanesOf _) l
    show thOf (modThs d1 (lanesOf (groupOf s c)) g) l = _
    rw [e]
    by_cases hl : inMask (groupOf s c) l = true
    · have hm : l ∈ lanesOf (groupOf s c) := mem_lanesOf.mpr ⟨inMask_lt hl, hl⟩
      simp [hm, g, hth1, pcAfter, hl, hnw, hn]
    · have hm : l ∉ lanesOf (groupOf s c) := fun hm => hl (mem_lanesOf.mp hm).2
      simp [hm, hth1, pcAfter, hl]
  have hun2 : issueCycles d2 srcs act = issueCycles c1 srcs act := by
    show issueCycles (modThs d1 _ g) _ _ = _
    rw [modThs_eq]; rfl
  have hd2 : d2 = { d1 with th := d2.th, rt := d2.rt } := modThs_eq d1 _ g
  have hpm (l : Nat) : progTh d4 l = meetTh d3 (progTh d2 l) := progTh_settleMeet d3 l
  have e : retireTo x (flight s1 c1 (c1.pend ++ new)) tgt =
      { s1 with crews := mput s1.crews s1.iss.crew d4
                sched := mput s1.sched (c1.core * 4 + c1.slot % 4)
                  (s1.cycle + issueCycles c1 srcs act)
                nextSeq := s1.nextSeq + 1 } := by
    unfold retireTo modCrew flight putCrew
    simp only [hx.key, hi, mget_mput_same, hx.crew, hx.srcs, mput_mput]
    simp only [retireCrew, hx.grp, hx.act, hx.next, hx.seq, hx.srcs, ← hk, ← hs, ← issueCycles_congr hun]
    rw [← hi, hc, hn]
  refine ⟨d4, ?_⟩
  rw [e]
  constructor
  · show _ = ({ s1 with crews := mput s1.crews s1.iss.crew d4, sched := mput s1.sched _ d4.ready, nextSeq := _ } : State)
    have : d4.ready = s1.cycle + issueCycles c1 srcs act := by
      show s.cycle + issueCycles d2 srcs act = _
      rw [hun2, hc]
    rw [this]
  · show settleMeet d3 = _
    rw [settleMeet_eq]
    have : d3 = { c1 with
      th := d2.th, rt := d2.rt, pend := c1.pend ++ new, hint := Hints.none, rej := []
      ready := s1.cycle + issueCycles c1 srcs act
      stamp := s1.nextSeq
      ops := c1.ops.map (Op.passed c1.priv (groupOf s c)) } := by
      show ({ d2 with
        hint := Hints.none, rej := []
        ready := s.cycle + issueCycles d2 srcs act
        stamp := s.nextSeq
        ops := d2.ops.map (Op.passed d2.priv (groupOf s c)) } : Crew) = _
      rw [hun2, hp2, hc, hn]
      rw [hd2]
    show ({ d3 with th := d4.th } : Crew) = _
    rw [this, issueCycles_eq]
    show _ = ({ c1 with
      th := d4.th, rt := d2.rt, pend := _, hint := _, rej := _, ready := _, stamp := _, ops := _ } : Crew)
    rfl
  · intro l
    cases hp : c1.priv with
    | true =>
      have h4 : thOf d4 l = thOf d2 l := by
        rw [thOf_priv (hp4.trans hp), thOf_priv (hp2.trans hp)]
        rfl
      rw [h4, hth2]
    | false =>
      have h4 : thOf d4 l = meetTh d3 (thOf d2 l) := by
        rw [thOf_prog (hp4.trans hp), thOf_prog (hp2.trans hp), hpm]
      have hs := meetTh_same d3 (thOf d2 l)
      rw [h4, hs, hth2]
  · intro hp l
    have : d2.th = c1.th := modThs_th d1 _ g hp
    have e2 : progTh d2 l = progTh c1 l := by unfold progTh; rw [this]
    rw [hpm, e2]
    exact meetTh_same _ _
  · intro hp
    show d2.rt = c1.rt
    exact modThs_rt d1 _ g hp
  · intro l
    have hmr (l : Nat) : (progTh d2 l).mr = (progTh c1 l).mr := by
      cases hp : c1.priv with
      | true =>
        have : d2.th = c1.th := modThs_th d1 _ g hp
        unfold progTh; rw [this]
      | false =>
        rw [← thOf_prog (hp2.trans hp), ← thOf_prog hp, hth2]
    have hlive (l : Nat) : (progTh d2 l).live = (progTh c1 l).live := by
      cases hp : c1.priv with
      | true =>
        have : d2.th = c1.th := modThs_th d1 _ g hp
        unfold progTh; rw [this]
      | false =>
        rw [← thOf_prog (hp2.trans hp), ← thOf_prog hp, hth2]
    have hat (k : Nat) (m : Word) : arrivedAt d4 m k =
        ((progTh d2 k).live && decide ((progTh d2 k).pc = m) && (progTh d2 k).atPc) := by
      unfold arrivedAt Thread.atPc; rw [hpm, meetTh_same]
    have hall (m : Word) : meetDone d3 m = allMet c1 d4 m := by
      unfold meetDone allMet
      congr 1; funext k
      rw [hat]
      show (!((progTh d2 k).live && decide ((progTh d2 k).mr = m)) ||
        (decide ((progTh d2 k).pc = m) && (progTh d2 k).atPc)) = _
      rw [hmr k, hlive k]
      cases (progTh c1 k).live <;> simp
    dsimp only
    rw [hat, hpm, meetTh_meets, hall, hmr l]

/-- The retirement of a crew whose results are in flight. -/
theorem retireTo_issued {x : Ctx} {s : State} {c : Crew} {act : Mask} {srcs : List Nat}
    (hx : CtxOk x s c act srcs) (new : List PendW) (tgt : Nat → Word) :
    ∃ c', Issued srcs s (retireTo x (flight s c (c.pend ++ new)) tgt) c c' (groupOf s c) act tgt new :=
  retireTo_working hx s new tgt rfl rfl rfl rfl rfl rfl

/-- An instruction that goes on to the next word. -/
theorem retire_issued {x : Ctx} {s : State} {c : Crew} {act : Mask} {srcs : List Nat}
    (hx : CtxOk x s c act srcs) (new : List PendW) :
    ∃ c', Issued srcs s (retire x (flight s c (c.pend ++ new))) c c' (groupOf s c) act
      (fun _ => nextWord s) new := by
  unfold retire
  rw [hx.next]
  exact retireTo_issued hx new _

/-! ## Results in flight -/

theorem foldl_pend (lat seq now : Nat) (tgt : Nat → Option PTgt) (hl : lat ≠ 0) (ls : List Nat) (c : Crew) :
    ls.foldl (fun (c : Crew) l =>
      match tgt l with
      | none => c
      | some t =>
        if lat = 0 then completeW c l t seq
        else { c with pend := c.pend ++
          [{ lane := l, tgt := t, seq := seq, due := now + lat, born := now }] }) c =
    { c with pend := c.pend ++ ls.filterMap fun l => (tgt l).map fun t =>
        ({ lane := l, tgt := t, seq := seq, due := now + lat, born := now } : PendW) } := by
  induction ls generalizing c with
  | nil => simp
  | cons l ls ih =>
    rw [List.foldl_cons, ih]
    cases h : tgt l with
    | none => simp [h]
    | some t => simp [h, hl]

section InFlight
variable {x : Ctx} {s : State} {c : Crew} {act : Mask} {srcs : List Nat}

/-- Results go in flight behind those that are there. -/
theorem writeTgts_flight (hx : CtxOk x s c act srcs) (p : List PendW) {lat : Nat} (hl : lat ≠ 0)
    (tgt : Nat → Option PTgt) :
    writeTgts x (flight s c p) lat tgt =
    flight s c (p ++ (lanesOf act).filterMap fun l => (tgt l).map fun t =>
      ({ lane := l, tgt := t, seq := s.nextSeq, due := s.cycle + lat, born := s.cycle } : PendW)) := by
  unfold writeTgts modCrew flight putCrew
  simp only [hx.key, mget_mput_same, hx.seq, hx.act, mput_mput]
  congr 2
  exact foldl_pend lat s.nextSeq s.cycle tgt hl (lanesOf act) _

theorem filterMap_some {α β : Type} (l : List α) (f : α → β) :
    (l.filterMap fun a => some (f a)) = l.map f := by simp

theorem results_def (s : State) (act : Mask) (lat : Nat) (f : Nat → PTgt) :
    ((lanesOf act).filterMap fun l => (some (f l)).map fun t =>
      ({ lane := l, tgt := t, seq := s.nextSeq, due := s.cycle + lat, born := s.cycle } : PendW)) =
    results s act lat f := by
  simp only [Option.map_some, filterMap_some]
  rfl

/-- A register result goes in flight. -/
theorem writeReg_flight (hx : CtxOk x s c act srcs) (p : List PendW) {lat : Nat} (d : Nat) (hl : lat ≠ 0)
    (v : Nat → RegVal) :
    writeReg x (flight s c p) lat d v =
    flight s c (p ++ results s act lat fun l => .reg ((thOf c l).frame + d) (v l)) := by
  unfold writeReg
  rw [writeTgts_flight hx p hl _, results_def]
  simp only [dstEntry, entryOf, hx.crew]

/-- A predicate result goes in flight. -/
theorem writePred_flight (hx : CtxOk x s c act srcs) (q : List PendW) {lat : Nat} (p : Nat) (hl : lat ≠ 0)
    (v : Nat → Bool) :
    writePred x (flight s c q) lat p v = flight s c (q ++ predResults s act lat p v) := by
  unfold writePred predResults
  split
  · simp
  · rw [writeTgts_flight hx q hl _, results_def]

/-- Flags go in flight in the lanes that raise some. -/
theorem writeFlags_flight (hx : CtxOk x s c act srcs) (q : List PendW) {lat : Nat} (hl : lat ≠ 0)
    (f : Nat → Nat) :
    writeFlags x (flight s c q) lat f = flight s c (q ++ flagResults s act lat f) := by
  unfold writeFlags
  rw [writeTgts_flight hx q hl _]
  congr 2
  unfold flagResults
  induction lanesOf act with
  | nil => rfl
  | cons l t ih =>
    by_cases h : f l = 0
    · simp [h, ih]
    · simp [h, ih]

/-- An instruction that writes one register and goes on. -/
theorem writeReg_retire (hx : CtxOk x s c act srcs) (new : List PendW) {lat : Nat} (d : Nat) (hl : lat ≠ 0)
    (v : Nat → RegVal) :
    ∃ c', Issued srcs s (retire x (writeReg x (flight s c (c.pend ++ new)) lat d v)) c c' (groupOf s c) act
      (fun _ => nextWord s) (new ++ results s act lat fun l => .reg ((thOf c l).frame + d) (v l)) := by
  rw [writeReg_flight hx _ d hl v, List.append_assoc]
  exact retire_issued hx _

end InFlight

/-! ## Known sources -/

theorem srcSyms_known {c : Crew} {act : Mask} {srcs : List Nat} (h : Known c act srcs) :
    srcSyms c act srcs = 0 := by
  unfold srcSyms
  have : ∀ x ∈ ((lanesOf act).map fun l => srcs.map fun r =>
      if r < 28 then
        match (regOf (thOf c l) r).symbol with
        | none => 0
        | some y => 2 ^ y
      else 0).flatten, x = 0 := by
    intro x hx
    simp only [List.mem_flatten, List.mem_map] at hx
    obtain ⟨_, ⟨l, hl, rfl⟩, hx⟩ := hx
    simp only [List.mem_map] at hx
    obtain ⟨r, hr, rfl⟩ := hx
    split
    · rw [h l hl r hr]
    · rfl
  generalize (List.map _ _).flatten = xs at this
  induction xs with
  | nil => rfl
  | cons a t ih =>
    rw [List.foldl_cons, this a (by simp)]
    exact ih fun x hx => this x (by simp [hx])

theorem portCodes_window {srcs : List Nat} (h : ∀ a ∈ srcs, a < 28) : portCodes srcs = [] := by
  induction srcs with
  | nil => rfl
  | cons a t ih =>
    have : ¬ 28 ≤ a := by have := h a (by simp); omega
    simp only [portCodes, this, if_false]
    exact ih fun b hb => h b (by simp [hb])

/-- Known window registers are read with no effect. -/
theorem fetchSources_window {x : Ctx} {s : State} {c : Crew} {act : Mask} {us : List Nat}
    (hx : CtxOk x s c act us) (s1 : State) {srcs : List Nat} (hw : ∀ a ∈ srcs, a < 28)
    (hk : Known c act srcs) (d : Option Nat) (hd : ∀ k, d = some k → k < 28) :
    fetchSources x s1 srcs d = .ok s1 [] := by
  unfold fetchSources
  simp only [hx.crew, hx.act, srcSyms_known hk, portCodes_window hw]
  cases d with
  | none => rfl
  | some k =>
    have : ¬ 28 ≤ k := by have := hd k rfl; omega
    simp [unboundPort, this]

theorem srcOf_window {c : Crew} {l r : Nat} (v : PortVals) (h : r < 28) :
    srcOf c v l r = regOf (thOf c l) r := by simp [srcOf, h]

theorem srcW_window {c : Crew} {l r : Nat} (v : PortVals) (h : r < 28) : srcW c v l r = regW c l r := by
  simp [srcW, srcOf, h, regW]

theorem known_word {v : RegVal} (h : v.symbol = none) : v = .known v.word := by
  cases v <;> simp_all [RegVal.symbol, RegVal.word]

theorem finish_window (x : Ctx) (s : State) (lat d : Nat) (v : Nat → RegVal) (h : d < 28) :
    finish x s lat d v = retire x (writeReg x s lat d v) := by simp [finish, h]

theorem results_congr {s : State} {act : Mask} {lat : Nat} {f g : Nat → PTgt}
    (h : ∀ l ∈ lanesOf act, f l = g l) : results s act lat f = results s act lat g := by
  unfold results
  apply List.map_congr_left
  intro l hl
  rw [h l hl]

/-- What `compute` does on window registers that hold known values: the value that its function gives
goes to the destination. -/
theorem compute_issued {x : Ctx} {s : State} {c : Crew} {act : Mask} {us : List Nat}
    (hx : CtxOk x s c act us)
    {lat d : Nat} {codes : List Nat} {f : Nat → List RegVal → Option RegVal} (hl : lat ≠ 0) (hd : d < 28)
    (hw : ∀ a ∈ codes, a < 28) (hk : Known c act codes) (v : Nat → Word)
    (hv : ∀ l ∈ lanesOf act, f l (codes.map fun r => .known (regW c l r)) = some (.known (v l))) :
    ∃ c', Issued us s (compute x (startOf s c) lat d codes f) c c' (groupOf s c) act
      (fun _ => nextWord s)
      (results s act lat fun l => toReg c d l (v l)) := by
  have hf : (codes.filter fun r => decide (28 ≤ r)) = [] := by
    rw [List.filter_eq_nil_iff]
    intro a ha
    have := hw a ha
    simp; omega
  have hsrc (l : Nat) (hl : l ∈ lanesOf act) :
      (codes.map fun r => srcOf c [] l r) = codes.map fun r => .known (regW c l r) := by
    apply List.map_congr_left
    intro r hr
    rw [srcOf_window _ (hw r hr), known_word (hk l hl r hr)]
    rfl
  unfold compute
  simp only [hx.crew, hx.act, srcSyms_known hk, hf]
  rw [if_neg (by simp), fetchSources_window hx _ (by simp) (fun _ _ _ hr => by simp at hr) _ (by simpa using hd)]
  simp only [finish_window _ _ _ _ _ hd, startOf_flight]
  obtain ⟨c', hc⟩ := writeReg_retire hx [] (lat := lat) d hl
    (fun l => (f l (codes.map fun r => srcOf c [] l r)).getD (.known 0))
  refine ⟨c', ?_⟩
  have e : (results s act lat fun l => PTgt.reg ((thOf c l).frame + d)
      ((f l (codes.map fun r => srcOf c [] l r)).getD (.known 0))) =
      results s act lat fun l => toReg c d l (v l) := by
    apply results_congr
    intro l hl
    simp only [hsrc l hl, hv l hl, toReg, Option.getD_some]
  rw [← e]
  simpa using hc

/-- What `withSources` does on window registers that hold known values. -/
theorem withSources_window {x : Ctx} {s : State} {c : Crew} {act : Mask} {us : List Nat}
    (hx : CtxOk x s c act us) (s1 : State) {srcs : List Nat} (hw : ∀ a ∈ srcs, a < 28)
    (hk : Known c act srcs) (d : Option Nat) (hd : ∀ k, d = some k → k < 28)
    (k : State → (Nat → Nat → Word) → State) :
    withSources x s1 srcs d k = k s1 fun l code => srcW c [] l code := by
  unfold withSources
  rw [fetchSources_window hx s1 hw hk d hd]
  simp only [hx.crew]

end Sys2Proof.Machine
end

