-- ==== Sys2Proof/Laws/Terms.lean ====
section
/-! SUPPORT. Work in steps: what doing it to its end answers, and what going through it with a log answers. -/

namespace Sys2Proof.Machine

variable {α β : Type} (d : TAcc → VM TVal)

@[simp] theorem TProg.run_ret (a : α) (s : State) : (TProg.ret a).run d s = .ok s a := rfl
@[simp] theorem TProg.run_fail (c : Nat) (a : Word) (s : State) :
    (TProg.fail c a : TProg α).run d s = .err s c a := rfl

theorem TProg.run_step {a : TAcc} {k : TVal → TProg α} {s s1 : State} {v : TVal} (h : d a s = .ok s1 v)
    (hv : ∀ c x, v ≠ .fail c x) : (TProg.step a k).run d s = (k v).run d s1 := by
  simp only [TProg.run, vbind, h]

theorem TProg.bind_step (a : TAcc) (k : TVal → TProg α) (f : α → TProg β) :
    (TProg.step a k).bind f = .step a fun v => (k v).bind f := rfl
@[simp] theorem TProg.bind_ret (a : α) (f : α → TProg β) : (TProg.ret a).bind f = f a := rfl
@[simp] theorem TProg.bind_fail (c : Nat) (a : Word) (f : α → TProg β) :
    (TProg.fail c a : TProg α).bind f = .fail c a := rfl
@[simp] theorem TProg.ret_andThen (q : TProg β) : (TProg.ret ()).andThen q = q := rfl
@[simp] theorem TProg.fail_andThen (c : Nat) (a : Word) (q : TProg β) :
    (TProg.fail c a : TProg Unit).andThen q = .fail c a := rfl

/-- Work after work that has been done goes on from what it has left. -/
theorem TProg.run_bind (p : TProg α) (f : α → TProg β) {s s1 : State} {a : α} (h : p.run d s = .ok s1 a) :
    (p.bind f).run d s = (f a).run d s1 := by
  induction p generalizing s with
  | ret b => cases h; rfl
  | fail c b => cases h
  | stuck => cases h
  | step b k ih =>
    simp only [TProg.bind, TProg.run, vbind] at h ⊢
    split at h
    · split at h
      · cases h
      · exact ih _ h
    all_goals cases h

/-- Work after work that meets a fault does not begin. -/
theorem TProg.run_bind_err (p : TProg α) (f : α → TProg β) {s s1 : State} {c : Nat} {x : Word}
    (h : p.run d s = .err s1 c x) : (p.bind f).run d s = .err s1 c x := by
  induction p generalizing s with
  | ret b => cases h
  | fail c b => cases h; rfl
  | stuck => cases h
  | step b k ih =>
    simp only [TProg.bind, TProg.run, vbind] at h ⊢
    split at h
    · split at h
      · cases h; rfl
      · exact ih _ h
    · cases h
    · cases h; rfl
    · cases h

/-- Work that has been gone through to its end answers what doing it answers. -/
theorem TProg.run_of_go (p : TProg α) {s s1 : State} {log log1 : TLog} {a : α}
    (h : p.go d none s log = (s1, log1, .ret a)) : p.run d s = .ok s1 a := by
  induction p generalizing s log with
  | ret b => simp only [TProg.go, Prod.mk.injEq, TEnd.ret.injEq] at h; simp [h.1, h.2.2]
  | fail c b => simp [TProg.go] at h
  | stuck => simp [TProg.go] at h
  | step b k ih =>
    simp only [TProg.go, reduceCtorEq, if_false, Option.map_none] at h
    simp only [TProg.run, vbind]
    cases hd : d b s with
    | ok s2 v =>
      rw [hd] at h
      cases v with
      | fail c x => simp at h
      | word w g => exact ih _ h
      | bound r => exact ih _ h
    | page => simp [hd] at h
    | err => simp [hd] at h
    | wait => simp [hd] at h

end Sys2Proof.Machine
end

