-- ==== Sys2Proof/Laws/Values.lean ====
section
/-! SUPPORT. The values of integer results in the specification's terms. -/

namespace Sys2Proof.Machine

theorem signedOf_toInt {n : Nat} (v : BitVec n) : signedOf n v.toNat = v.toInt := by
  unfold signedOf
  rw [BitVec.toInt_eq_toNat_cond, Nat.mod_eq_of_lt v.isLt]

theorem signedOf_setWidth {m : Nat} (n : Nat) (v : BitVec m) :
    signedOf n v.toNat = (v.setWidth n).toInt := by
  rw [← signedOf_toInt, BitVec.toNat_setWidth]
  unfold signedOf
  rw [Nat.mod_mod]

theorem sext_eq (v : Word) (n : Nat) : sext v n = (v.setWidth n).signExtend 64 := by
  unfold sext wordOfInt
  rw [signedOf_setWidth]
  rfl

theorem atWidth_eq (w : BitVec 1) (v : Word) : atWidth w v = narrow w v := by
  unfold atWidth narrow
  rw [sext_eq]

theorem widthOf_eq (w : BitVec 1) : widthOf w = bitsOf w := rfl

theorem lowBits_eq (w : BitVec 1) (v : Word) : lowBits w v = unsig w v := by
  unfold lowBits unsig widthOf
  split
  · exact Nat.mod_eq_of_lt v.isLt
  · rw [BitVec.toNat_setWidth]

theorem readInt_eq (w u : BitVec 1) (v : Word) : readInt w u v = num w u v := by
  unfold readInt num
  rw [lowBits_eq]
  split
  · rfl
  · unfold widthOf
    split
    · rw [signedOf_toInt]
    · rw [signedOf_setWidth]

end Sys2Proof.Machine
end

