-- ==== Sys2Proof/Tests/Slice0.lean ====
section
/-! SUPPORT. Tests: words of the specification, ill-formed terms, single instructions on a small state, and
a state for the hypotheses of each statement. -/

namespace Sys2Proof.Tests

open Sys2Proof.Machine

set_option Elab.async false

/-! ## A small state: one launch, one unit, one crew of two threads at 0x1000 -/

/-- A guard that always holds. -/
def H : Hdr := { sp := 0, pg := 7, pn := 0 }

/-- A thread whose registers from w0 on hold the given words. -/
def thread (ws : List Word) : Thread :=
  { Thread.init with pc := 0x1000, rf := (List.range ws.length).zip (ws.map .known) }

/-- The launch, the unit and the crew. -/
def la0 : Launch := loadLaunch 3 1
/-- The unit. -/
def un0 : UnitSt := startUnit 3 0 0 5 1 [7] 0 0
/-- The crew, with words for w0 on in lanes 0 and 1. -/
def crewOf (a b : List Word) : Crew := { startCrew la0 1 0 7 5 with th := [(0, thread a), (1, thread b)] }

/-- The machine about to run a word at 0x1000 of that crew. -/
def stOf (c : Crew) : State :=
  { State.reset with
    jobs := [], launches := [(3, la0)], units := [(1, un0)], crews := [(32, c)]
    iss := { crew := 32, pc := 0x1000, start := 0x1000 }, cycle := 100, nextSeq := 9 }

/-- The register results that an instruction puts in flight: lane, stack entry and value. -/
def regsOf (i : Instr) (s : State) : List (Nat × Nat × Word) :=
  match exec i s with
  | .next t => match mget t.crews s.iss.crew with
    | none => []
    | some c => c.pend.filterMap fun p => match p.tgt with
      | .reg e v => some (p.lane, e, v.word)
      | _ => none
  | _ => []


/-! ## Words: from the specification's own examples (04 R68, and each instruction's rule) -/

/-- A word decodes to an instruction that has this word. -/
def reads (w : IWord) (i : Instr) : Prop := decode w = .ok i ∧ encode i = some w

/-- A word raises ILLEGAL-ENCODING. -/
def illegal (w : IWord) : Prop := decode w = .error .illegalEncoding

theorem test_words_integer :
    reads 0x02388405 (.neg H 4 4 1) ∧ reads 0x01CA0530 (.add ⟨3, 1, 0⟩ 16 5 6 0) ∧
    reads 0x0338A450 (.mul H 5 4 10 0) ∧ reads 0x06386115 (.div H 3 1 2 1 1) ∧
    reads 0x1838C000 (.movi H 6 0) ∧ reads 0x1938A5FF (.addi H 5 5 0xFF) ∧
    reads 0x1BB92934 (.ori ⟨2, 7, 0⟩ 9 9 0x34) ∧ reads 0x1D388443 (.shi H 4 4 1 3) :=
  ⟨⟨rfl, rfl⟩, ⟨rfl, rfl⟩, ⟨rfl, rfl⟩, ⟨rfl, rfl⟩, ⟨rfl, rfl⟩, ⟨rfl, rfl⟩, ⟨rfl, rfl⟩, rfl, rfl⟩

theorem test_words_predicates :
    reads 0x1E382701 (.cmpi H 1 7 0 0 0 1) ∧ reads 0x1F39642E (.cmp H 3 4 5 3 1 0) ∧
    reads 0x20382238 (.pset H 1 2 7 0) ∧ illegal 0x1F3B642E :=
  ⟨⟨rfl, rfl⟩, ⟨rfl, rfl⟩, ⟨rfl, rfl⟩, rfl⟩

theorem test_words_control :
    reads 0x223BFFFE (.bra H 0x3FFFE) ∧ reads 0x23380500 (.brx H 5) ∧ reads 0x26380000 (.ret H) ∧
    reads 0x273A800A (.meet H 20 10) ∧ reads 0x29380000 (.exit H) ∧ reads 0x2A380600 (.kill H 6) ∧
    reads 0x2B387FFC (.loop H 3 0x1FFC) ∧ reads 0x2D380900 (.trap H 9) ∧ reads 0x2E380000 (.nop H) ∧
    illegal 0x26380100 :=
  ⟨⟨rfl, rfl⟩, ⟨rfl, rfl⟩, ⟨rfl, rfl⟩, ⟨rfl, rfl⟩, ⟨rfl, rfl⟩, ⟨rfl, rfl⟩, ⟨rfl, rfl⟩, ⟨rfl, rfl⟩, ⟨rfl, rfl⟩, rfl⟩

theorem test_words_exchange :
    reads 0x30388203 (.vote H 4 2 0 3) ∧ reads 0x31392887 (.shflImm H 9 8 16 3) ∧
    reads 0x3238E700 (.cred H 7 7 0) ∧ reads 0x36386000 (.movs H 3 0) ∧ reads 0x3739C800 (.movsw H 14 8) :=
  ⟨⟨rfl, rfl⟩, ⟨rfl, rfl⟩, ⟨rfl, rfl⟩, ⟨rfl, rfl⟩, rfl, rfl⟩

theorem test_words_float :
    reads 0x3838A638 (.fadd H 5 6 7 0) ∧ reads 0x3B388219 (.ffma H 4 2 3 0 1) ∧
    reads 0x3D392956 (.fmax H 9 9 10 1 2) ∧ reads 0x3E394428 (.fcmp H 2 4 5 2 0) ∧
    reads 0x4D38E700 (.fred H 7 7 0 0) ∧ reads 0x46388300 (.fexp2 H 4 3 0) ∧
    reads 0x4E386200 (.cvts H 3 2 0) ∧ reads 0x4F390639 (.cvtdSat H 8 6 7 1) :=
  ⟨⟨rfl, rfl⟩, ⟨rfl, rfl⟩, ⟨rfl, rfl⟩, ⟨rfl, rfl⟩, ⟨rfl, rfl⟩, ⟨rfl, rfl⟩, ⟨rfl, rfl⟩, rfl, rfl⟩

theorem test_words_memory :
    reads 0x603840FC (.ld H 2 0 15 3 0 0) ∧ reads 0x60390508 (.ld H 8 5 0 2 0 0) ∧
    reads 0x6138AA0C (.st H 5 10 0 3 0) ∧ reads 0x6338E300 (.pres H 7 3 0) ∧
    reads 0x64388909 (.aadd H 4 9 0 1 0 1) ∧ reads 0x6D38C100 (.acas H 6 1 0 0 0 0) ∧
    reads 0x6B38430E (.amaxn H 2 3 0 1 1 2) ∧ reads 0x71380400 (.fence H 4 0) :=
  ⟨⟨rfl, rfl⟩, ⟨rfl, rfl⟩, ⟨rfl, rfl⟩, ⟨rfl, rfl⟩, ⟨rfl, rfl⟩, ⟨rfl, rfl⟩, ⟨rfl, rfl⟩, rfl, rfl⟩

theorem test_words_barriers_and_cells :
    reads 0x72380201 (.bar H 2 1) ∧ reads 0x73384028 (.nbar H 2 0 5) ∧ reads 0x7338E02C (.nbarArv H 0 5) ∧
    illegal 0x7338402C ∧ reads 0x74388900 (.fprop H 4 9) ∧ reads 0x7538C900 (.fread H 6 9) ∧
    reads 0x76FA9300 (.fwait ⟨3, 7, 0⟩ 20 19) ∧ reads 0x7738A900 (.frcy H 5 9) ∧
    reads 0x78380428 (.xcnt H 4 5) ∧ reads 0x7938C400 (.xrd H 6 4) ∧ reads 0x7A38C400 (.xsnap H 6 4) :=
  ⟨⟨rfl, rfl⟩, ⟨rfl, rfl⟩, ⟨rfl, rfl⟩, rfl, ⟨rfl, rfl⟩, ⟨rfl, rfl⟩, ⟨rfl, rfl⟩, ⟨rfl, rfl⟩, ⟨rfl, rfl⟩,
    ⟨rfl, rfl⟩, rfl, rfl⟩

theorem test_words_engines :
    reads 0x80384800 (.push H 2 8 0) ∧ reads 0x80384801 (.push H 2 8 1) ∧ reads 0x81384428 (.kick H 2 4 5) ∧
    reads 0x82382321 (.lcsetZ H 1 3 4) ∧ reads 0x83380300 (.lcwait H 3 0) ∧ reads 0x84392300 (.lcrd H 9 3 0) ∧
    reads 0x853B8200 (.strm H 0 2) ∧ reads 0x8638DC01 (.strmsRd H 6 0 0) ∧ reads 0x87380001 (.layhAll H) :=
  ⟨⟨rfl, rfl⟩, ⟨rfl, rfl⟩, ⟨rfl, rfl⟩, ⟨rfl, rfl⟩, ⟨rfl, rfl⟩, ⟨rfl, rfl⟩, ⟨rfl, rfl⟩, ⟨rfl, rfl⟩, rfl, rfl⟩

theorem test_words_granite :
    reads 0x9038280C (.resvW H 1 8 1) ∧ reads 0x91380000 (.rls H) ∧ reads 0x92380408 (.guardReg H 4 0) ∧
    reads 0x9338013B (.pack H 0 1 7 3) ∧ reads 0x95380B00 (.kld H 0 11) ∧ reads 0x96380C00 (.kst H 0 12) ∧
    reads 0x9938C219 (.kext H 6 2 3 1) ∧ reads 0x9A380428 (.bptr H 4 5) ∧ reads 0x9B380900 (.mulkS H 0 9) ∧
    reads 0x9C384008 (.mulkC H 2 0 1) ∧ reads 0x9D38A001 (.accrdOv H 5 0) ∧ reads 0x9F390028 (.acccv H 8 0 5 0) :=
  ⟨⟨rfl, rfl⟩, ⟨rfl, rfl⟩, ⟨rfl, rfl⟩, ⟨rfl, rfl⟩, ⟨rfl, rfl⟩, ⟨rfl, rfl⟩, ⟨rfl, rfl⟩, ⟨rfl, rfl⟩, ⟨rfl, rfl⟩,
    ⟨rfl, rfl⟩, ⟨rfl, rfl⟩, rfl, rfl⟩

theorem test_words_terms :
    reads 0xA1386218 (.mkt H 3 2 3) ∧ reads 0xA238E700 (.deref H 7 7) ∧ reads 0xA3388530 (.unify H 4 5 6 0) ∧
    reads 0xA3388531 (.unify H 4 5 6 1) ∧ reads 0xA6380900 (.choice H 9) ∧ reads 0xA8384000 (.failb H 2) ∧
    reads 0xAA3A8000 (.tmark H 20) ∧ reads 0xAB381400 (.unwind H 20) ∧
    reads 0xAC39004B (.halloc H 8 9 1 1) ∧ reads 0xAF380C00 (.commit H 12) :=
  ⟨⟨rfl, rfl⟩, ⟨rfl, rfl⟩, ⟨rfl, rfl⟩, ⟨rfl, rfl⟩, ⟨rfl, rfl⟩, ⟨rfl, rfl⟩, ⟨rfl, rfl⟩, ⟨rfl, rfl⟩, ⟨rfl, rfl⟩,
    rfl, rfl⟩

theorem test_words_symbols_and_system :
    reads 0xB0386000 (.symq H 3) ∧ reads 0xB0386701 (.symqR H 3 7) ∧ reads 0xB1380200 (.symw H 2) ∧
    reads 0xB2380110 (.symset H 1 2) ∧ reads 0xC0388022 (.csrr H 4 0x012) ∧ reads 0xC138A020 (.csrw H 5 0x010) ∧
    reads 0xC2380000 (.eret H) ∧ reads 0xC3380600 (.tlbiVa H 6) ∧ reads 0xC4380800 (.ctxs H 8) ∧
    reads 0xC6380901 (.cflushInv H 9) ∧ reads 0xC7380001 (.cancel H 1) ∧ reads 0xC8380428 (.cndw H 4 5) :=
  ⟨⟨rfl, rfl⟩, ⟨rfl, rfl⟩, ⟨rfl, rfl⟩, ⟨rfl, rfl⟩, ⟨rfl, rfl⟩, ⟨rfl, rfl⟩, ⟨rfl, rfl⟩, ⟨rfl, rfl⟩, ⟨rfl, rfl⟩,
    ⟨rfl, rfl⟩, ⟨rfl, rfl⟩, rfl, rfl⟩

theorem test_words_hints :
    reads 0xE00006FC (.region 0x6FC) ∧ reads 0xE8000008 (.ximm 8) ∧ reads 0xE9000003 (.track 3) ∧
    reads 0xEA000008 (.wait 8) ∧ reads 0xEA000006 (.wait 6) ∧ reads 0xEB0000A8 (.mod 0 1 5 0) ∧
    reads 0xF0000002 (.pool 2) ∧ reads 0xEC000000 (.reservedHintOpcode 0xEC000000) ∧ reads 0 .ill :=
  ⟨⟨rfl, rfl⟩, ⟨rfl, rfl⟩, ⟨rfl, rfl⟩, ⟨rfl, rfl⟩, ⟨rfl, rfl⟩, ⟨rfl, rfl⟩, ⟨rfl, rfl⟩, ⟨rfl, rfl⟩, rfl, rfl⟩

/-! ## Ill-formed terms: one for each check of WellFormed -/

theorem test_ill_formed_integer :
    wellFormed (.mad H 28 1 2 0) = false ∧ wellFormed (.bitc H 1 2 0 5) = false ∧
    wellFormed (.bfi H 31 1 2 0) = false ∧ wellFormed (.cmpi H 1 2 3 6 0 0) = false ∧
    wellFormed (.cmp H 1 2 3 7 0 0) = false := by decide

theorem test_ill_formed_control :
    wellFormed (.meet H 28 0) = false ∧ wellFormed (.meetr H 28 0) = false ∧
    wellFormed (.loop H 29 0) = false ∧ wellFormed (.vote H 6 0 0 0) = false ∧
    wellFormed (.vote H 8 0 0 0) = false ∧ wellFormed (.isect H 27 1 2 0 0) = false ∧
    wellFormed (.movs H 1 22) = false ∧ wellFormed (.movsw H 12 1) = false ∧
    wellFormed (.movsw H 19 1) = false := by decide

theorem test_ill_formed_float :
    wellFormed (.fadd H 1 2 3 3) = false ∧ wellFormed (.ffma H 28 2 3 0 0) = false ∧
    wellFormed (.ffma H 1 2 3 0 3) = false ∧ wellFormed (.fmin H 1 2 3 0 3) = false ∧
    wellFormed (.fcmp H 1 2 3 0 3) = false ∧ wellFormed (.fsqrt H 1 2 3) = false ∧
    wellFormed (.fdiv H 1 2 3 3) = false ∧ wellFormed (.frnd H 1 2 0 3) = false ∧
    wellFormed (.fred H 1 2 3 0) = false ∧ wellFormed (.fred H 1 2 0 3) = false ∧
    wellFormed (.cvts H 1 2 24) = false := by decide

theorem test_ill_formed_memory :
    wellFormed (.ld H 28 1 0 0 0 0) = false ∧ wellFormed (.ld H 1 28 0 0 0 0) = false ∧
    wellFormed (.ld H 1 2 3 0 0 1) = false ∧ wellFormed (.ld H 1 2 0 3 1 0) = false ∧
    wellFormed (.ld H 2 2 0 3 1 1) = false ∧ wellFormed (.st H 1 2 0 3 1) = false ∧
    wellFormed (.st H 2 4 0 2 1) = false ∧ wellFormed (.pref H 28 0) = false ∧
    wellFormed (.pres H 28 1 0) = false ∧ wellFormed (.aadd H 28 1 0 0 0 0) = false ∧
    wellFormed (.acas H 3 4 0 0 0 0) = false ∧ wellFormed (.afadd H 1 28 0 0 0) = false ∧
    wellFormed (.fence H 0 0) = false ∧ wellFormed (.fence H 7 0) = false := by decide

theorem test_ill_formed_barriers_and_cells :
    wellFormed (.bar H 8 2) = false ∧ wellFormed (.barArv H 4 3) = false ∧ wellFormed (.nbar H 0 0 28) = false ∧
    wellFormed (.fprop H 27 1) = false ∧ wellFormed (.fwait H 1 28) = false ∧ wellFormed (.frcy H 28 1) = false ∧
    wellFormed (.xcnt H 1 28) = false ∧ wellFormed (.xrd H 1 28) = false := by decide

theorem test_ill_formed_engines :
    wellFormed (.push H 0 21 0) = false ∧ wellFormed (.kick H 0 28 1) = false ∧ wellFormed (.lcset H 0 1 28) = false ∧
    wellFormed (.lcsetFree H 0 28) = false ∧ wellFormed (.lcwait H 28 0) = false ∧ wellFormed (.lcrd H 1 28 0) = false ∧
    wellFormed (.strm H 0 28) = false ∧ wellFormed (.strms H 0 1 5) = false ∧ wellFormed (.strmsRd H 1 0 5) = false ∧
    wellFormed (.layh H 28) = false := by decide

theorem test_ill_formed_granite :
    wellFormed (.resv H 0 0 1) = false ∧ wellFormed (.resv H 0 9 1) = false ∧ wellFormed (.resvW H 0 1 0) = false ∧
    wellFormed (.guardReg H 28 0) = false ∧ wellFormed (.kld H 0 28) = false ∧ wellFormed (.ksls H 0 0 28 0) = false ∧
    wellFormed (.ksls H 1 0 1 1) = false ∧ wellFormed (.ksls H 0 1 1 1) = false ∧ wellFormed (.kext H 1 1 2 1) = false ∧
    wellFormed (.bptr H 28 1) = false ∧ wellFormed (.mulkC H 1 0 0) = false ∧ wellFormed (.accrd H 0 0 28) = false := by
  decide

theorem test_ill_formed_terms_and_system :
    wellFormed (.deref H 28 1) = false ∧ wellFormed (.tagSet H 1 2 28) = false ∧ wellFormed (.mkt H 1 2 9) = false ∧
    wellFormed (.mkt H 1 2 0) = false ∧ wellFormed (.unifyc H 28) = false ∧ wellFormed (.choice H 28) = false ∧
    wellFormed (.tmark H 27) = false ∧ wellFormed (.unwind H 27) = false ∧ wellFormed (.halloc H 1 28 0 0) = false ∧
    wellFormed (.arg H 1 2 28 0) = false ∧ wellFormed (.symq H 28) = false ∧ wellFormed (.symqR H 1 28) = false ∧
    wellFormed (.symw H 28) = false ∧ wellFormed (.symset H 1 28) = false ∧ wellFormed (.csrr H 1 0x013) = false ∧
    wellFormed (.csrw H 1 0x012) = false ∧ wellFormed (.tlbiVa H 28) = false ∧
    wellFormed (.cancel H 5) = false ∧ wellFormed (.cndw H 1 28) = false := by decide

theorem test_ill_formed_hints :
    wellFormed (.region 0x1FFF) = false ∧ wellFormed (.track 12) = false ∧ wellFormed (.wait 0) = false ∧
    wellFormed (.mod 5 0 0 0) = false ∧ wellFormed (.mod 0 0 7 0) = false ∧ wellFormed (.mod 0 0 0 4) = false ∧
    wellFormed (.unassignedOpcode 0x01000000) = false ∧ wellFormed (.unassignedOpcode 0) = false ∧
    wellFormed (.reservedHintOpcode 0xEB000000) = false := by decide

/-! ## Witnesses: a state and operands that meet the hypotheses of each statement -/

/-- An instruction issues on known window registers, under a further condition. -/
def Meets (i : Instr) (s : State) (srcs : List Code) (P : Crew → Mask → Prop) : Prop :=
  ∃ c act, Issues i s c act ∧ Plain c act srcs ∧ P c act

/-- The same, as a test. -/
def meetsB (i : Instr) (s : State) (srcs : List Code) (p : Crew → Mask → Bool) : Bool :=
  match issuing s with
  | none => false
  | some c =>
    let act := activeOf i s c
    hintsOk (usesOf i) c.hint && !contextBad (launchOf s c) c.hint i &&
      decide (holdOf c (usesOf i) c.hint act = .go) && decide (act ≠ 0) && srcs.all (fun r => decide (r.toNat < 28)) &&
      (lanesOf act).all (fun l => srcs.all fun r => (regOf (thOf c l) r.toNat).symbol.isNone) && p c act

theorem meets_of {i : Instr} {s : State} {srcs : List Code} {P : Crew → Mask → Prop}
    [∀ c a, Decidable (P c a)] (h : meetsB i s srcs (fun c a => decide (P c a)) = true) : Meets i s srcs P := by
  unfold meetsB at h
  split at h
  · exact nomatch h
  · next c hc =>
    simp only [Bool.and_eq_true, Bool.not_eq_true', decide_eq_true_eq, List.all_eq_true, Option.isNone_iff_eq_none]
      at h
    obtain ⟨⟨⟨⟨⟨⟨h1, h2⟩, h3⟩, h4⟩, h5⟩, h6⟩, h7⟩ := h
    refine ⟨c, _, ⟨hc, h1, h2, h3, rfl, h4⟩, ⟨h5, fun l hl r hr => ?_⟩, h7⟩
    obtain ⟨q, hq, rfl⟩ := List.mem_map.1 hr
    exact h6 l hl q hq

/-- No further condition. -/
abbrev any : Crew → Mask → Prop := fun _ _ => True

/-- Two threads with words for w0 to w11. -/
def s1 : State := stOf (crewOf [0, 5, 7, 3, 0x1000, 1, 2, 9, 0x40, 0x80, 0x100, 0x140]
  [0, 0xFFFFFFFFFFFFFFFF, 1, 0, 0x2000, 3, 4, 8, 0x48, 0x88, 0x180, 0x1C0])

theorem witness_StepKeepsForm : ∃ s t, Formed s ∧ step s = .next t :=
  ⟨State.reset, _, ⟨rfl, by decide⟩, rfl⟩

theorem witness_DecodeOfEncode : wellFormed (.tmark H 26) = true ∧ encode (.tmark H 26) = some 0xAA3B4000 :=
  ⟨rfl, rfl⟩

theorem witness_EncodeOfDecode : decode 0xAA3B4000 = .ok (.tmark H 26) := rfl

/-- A word is fetched at a step that the model's schedule gives a crew. -/
structure AtWord (s : State) (key now : Nat) (c : Crew) (start pc : Word) (s1 : State) (c1 : Crew) (w : IWord) :
    Prop where
  agenda : s.agenda = []
  turn : s.turn = false
  best : bestCrew { s with turn := true } = some (key, now)
  crew : mget s.crews key = some c
  next : nextOf { s with turn := true } c = .word start pc
  woken : c1 = (let woken := wakeGroup (passCycles { s with turn := true } (now - s.cycle)) c start
    if woken.hint.start = some start then woken else { woken with hint := Hints.none })
  group : groupAt c1 start ≠ 0
  fetch : ∃ t2, fetchAt (putCrew (passCycles { s with turn := true } (now - s.cycle)) key c1)
    (whoLane (putCrew (passCycles { s with turn := true } (now - s.cycle)) key c1) c1
      (groupAt c1 start) c1.priv) pc = .word t2 w ∧ s1 = clearClock t2 c1

/-- The same, as a test, under a condition on the crew's key, its start, its place, the state and the crew. -/
def atWordB (s : State) (p : Nat → Word → Word → State → Crew → IWord → Bool) : Bool :=
  decide (s.agenda = []) && !s.turn &&
  match bestCrew { s with turn := true } with
  | none => false
  | some (key, now) =>
    match mget s.crews key with
    | none => false
    | some c =>
      match nextOf { s with turn := true } c with
      | .word start pc =>
        let t := passCycles { s with turn := true } (now - s.cycle)
        let woken := wakeGroup t c start
        let c1 := if woken.hint.start = some start then woken else { woken with hint := Hints.none }
        let t1 := putCrew t key c1
        decide (groupAt c1 start ≠ 0) &&
        match fetchAt t1 (whoLane t1 c1 (groupAt c1 start) c1.priv) pc with
        | .word t2 w => p key start pc (clearClock t2 c1) c1 w
        | _ => false
      | _ => false

theorem atWord_of {s : State} {P : Nat → Word → Word → State → Crew → IWord → Prop}
    [∀ k a b t c w, Decidable (P k a b t c w)]
    (h : atWordB s (fun k a b t c w => decide (P k a b t c w)) = true) :
    ∃ key now c start pc s1 c1 w, AtWord s key now c start pc s1 c1 w ∧ P key start pc s1 c1 w := by
  unfold atWordB at h
  simp only [Bool.and_eq_true, decide_eq_true_eq, Bool.not_eq_true'] at h
  obtain ⟨⟨h1, h2⟩, h⟩ := h
  split at h
  · exact nomatch h
  · next key now hb =>
    split at h
    · exact nomatch h
    · next c hc =>
      split at h
      · next start pc hn =>
        simp only [Bool.and_eq_true, decide_eq_true_eq] at h
        obtain ⟨h3, h⟩ := h
        split at h
        · next t2 w hf =>
          exact ⟨key, now, c, start, pc, _, _, w, ⟨h1, h2, hb, hc, hn, rfl, h3, t2, hf, rfl⟩, of_decide_eq_true h⟩
        · exact nomatch h
      · exact nomatch h

/-- An outcome is a next state. -/
def isNext (r : Host.Outcome State Fault Refusal) : Bool :=
  match r with
  | .next _ => true
  | _ => false

/-- A loaded word, with the launch's pool map and COMPAT of core 0 as given. -/
def loaded (w : Nat) (pool : List Byte) (compat : Word) (hint : Hints) : State :=
  let s := State.reset.withFetchWord 32 0x2E380000
  let s := { s with
    launches := s.launches.map fun (p : Nat × Launch) => (p.1, { p.2 with pool := pool, words := (p.2.words.set 16 8).set 17 4 })
    crews := s.crews.map fun (p : Nat × Crew) => (p.1, { p.2 with hint := hint }) }
  { s.withFetchWord 32 w with compat := [(0, compat)] }

/-- TRACK 3 has been read at the word before the loaded one. -/
def tracked : Hints := { Hints.none with start := some 0x10000, cursor := 0x10004, track := some 3 }

theorem witness_StepRunsDecodedWord :
    (∃ key now c start pc s1 c1 w, AtWord (loaded 0x0138A450 [2] 0 Hints.none) key now c start pc s1 c1 w ∧
      poolBad (launchOf s1 c1) pc w = true) ∧
    (∃ key now c start pc s1 c1 w, AtWord (loaded 0x0138A450 [] 0 Hints.none) key now c start pc s1 c1 w ∧
      poolBad (launchOf s1 c1) pc w = false ∧ decode w = .ok (.add H 5 4 10 0) ∧ routed s1 c1 w = false ∧
      isNext (exec (.add H 5 4 10 0) { s1 with iss := { crew := key, pc := pc, start := start } }) = true) ∧
    (∃ key now c start pc s1 c1 w, AtWord (loaded 0x0138A450 [] 0x101 Hints.none) key now c start pc s1 c1 w ∧
      poolBad (launchOf s1 c1) pc w = false ∧ decode w = .ok (.add H 5 4 10 0) ∧ routed s1 c1 w = true ∧
      isNext (exec (.add H 5 4 10 0) { s1 with iss := { crew := key, pc := pc, start := start } }) = true) ∧
    (∃ key now c start pc s1 c1 w, AtWord (loaded 0x26380100 [] 0 Hints.none) key now c start pc s1 c1 w ∧
      decode w = .error .illegalEncoding ∧ badHintsOk w c1.hint = true) ∧
    (∃ key now c start pc s1 c1 w, AtWord (loaded 0x26380100 [] 0 tracked) key now c start pc s1 c1 w ∧
      decode w = .error .illegalEncoding ∧ badHintsOk w c1.hint = false) := by
  refine ⟨atWord_of (by decide +kernel), ?_, ?_, ?_, ?_⟩
  · obtain ⟨k, n, c, a, b, t, d, w, h, h1, rfl, h2, h3⟩ := atWord_of (s := loaded 0x0138A450 [] 0 Hints.none)
      (P := fun k a b t c w => poolBad (launchOf t c) b w = false ∧ w = 0x0138A450 ∧ routed t c w = false ∧
        isNext (exec (.add H 5 4 10 0) { t with iss := { crew := k, pc := b, start := a } }) = true) (by decide +kernel)
    exact ⟨k, n, c, a, b, t, d, _, h, h1, rfl, h2, h3⟩
  · obtain ⟨k, n, c, a, b, t, d, w, h, h1, rfl, h2, h3⟩ := atWord_of (s := loaded 0x0138A450 [] 0x101 Hints.none)
      (P := fun k a b t c w => poolBad (launchOf t c) b w = false ∧ w = 0x0138A450 ∧ routed t c w = true ∧
        isNext (exec (.add H 5 4 10 0) { t with iss := { crew := k, pc := b, start := a } }) = true) (by decide +kernel)
    exact ⟨k, n, c, a, b, t, d, _, h, h1, rfl, h2, h3⟩
  · obtain ⟨k, n, c, a, b, t, d, w, h, rfl, h1⟩ := atWord_of (s := loaded 0x26380100 [] 0 Hints.none)
      (P := fun _ _ _ _ c w => w = 0x26380100 ∧ badHintsOk w c.hint = true) (by decide +kernel)
    exact ⟨k, n, c, a, b, t, d, _, h, rfl, h1⟩
  · obtain ⟨k, n, c, a, b, t, d, w, h, rfl, h1⟩ := atWord_of (s := loaded 0x26380100 [] 0 tracked)
      (P := fun _ _ _ _ c w => w = 0x26380100 ∧ badHintsOk w c.hint = false) (by decide +kernel)
    exact ⟨k, n, c, a, b, t, d, _, h, rfl, h1⟩

/-! ### Words that do not run -/

/-- A crew of one thread with hints and flags as given. -/
def crewH (hn : Hints) (flags : Map Nat) (ops : List Op) : Crew :=
  { crewOf [0, 5, 7, 3] [0, 6, 8, 4] with hint := hn, flags := flags, ops := ops }

/-- A guard that never holds. -/
def never : Hdr := { sp := 0, pg := 7, pn := 1 }

/-- An operation in flight. -/
def op0 (kind : OpKind) : Op :=
  { id := 9, seq := 3, kind := kind, pc := 0xFF0, start := 0xFF0, next := 0xFF4, active := 1, priv := false
    la := some 2, flag := none, ord := false, sem := 0, accs := [], reqs := [], pages := [], dsts := [], res := []
    args := [], fin := 0, bad := 0, cls := 0, addr := 0, done := false, after := false }

/-- What is asked before an instruction issues, of a crew in the small state. -/
def Before (i : Instr) (c : Crew) (hints fields : Bool) : Prop :=
  isOrdinary i = true ∧ issuing (stOf c) = some c ∧ hintsOk (usesOf i) c.hint = hints ∧
    contextBad (launchOf (stOf c) c) c.hint i = fields

theorem witness_BeforeIssue :
    (Before (.nop never) (crewH Hints.none [] []) true false ∧
      holdOf (crewH Hints.none [] []) (usesOf (.nop never)) Hints.none 0 = .go ∧
      activeOf (.nop never) (stOf (crewH Hints.none [] [])) (crewH Hints.none [] []) = 0) ∧
    Before (.nop H) (crewH tracked [] []) false false ∧
    Before (.ld H 1 2 15 3 0 0) (crewH Hints.none [] []) true true ∧
    (Before (.nop H) (crewH { Hints.none with wait := some 8 } [(3, 1)] []) true false ∧
      (8 : BitVec 12).getLsbD 3 = true ∧ mgetD [(3, 1)] 3 0 ≠ 0) ∧
    (Before (.ld H 1 2 15 3 0 0) (crewH tracked [(3, 63)] []) true false ∧
      activeOf (.ld H 1 2 15 3 0 0) (stOf (crewH tracked [(3, 63)] [])) (crewH tracked [(3, 63)] []) ≠ 0) ∧
    (Before (.bra H 4) (crewH Hints.none [] [op0 .st]) true false ∧ (usesOf (.bra H 4)).ctl = true ∧
      waitedFor (crewH Hints.none [] [op0 .st]) (op0 .st) = true ∧ (op0 .st).done = false) := by
  refine ⟨⟨⟨rfl, rfl, ?_, ?_⟩, ?_, ?_⟩, ⟨rfl, rfl, ?_, ?_⟩, ⟨rfl, rfl, ?_, ?_⟩, ⟨⟨rfl, rfl, ?_, ?_⟩, ?_, ?_⟩,
    ⟨⟨rfl, rfl, ?_, ?_⟩, ?_⟩, ⟨rfl, rfl, ?_, ?_⟩, ?_, ?_, ?_⟩ <;> decide

theorem witness_TrapAndHintWords :
    mget s1.crews s1.iss.crew = some (crewOf [0, 5, 7, 3, 0x1000, 1, 2, 9, 0x40, 0x80, 0x100, 0x140]
      [0, 0xFFFFFFFFFFFFFFFF, 1, 0, 0x2000, 3, 4, 8, 0x48, 0x88, 0x180, 0x1C0]) ∧
    Meets (.brk H 31) s1 [] any ∧ Meets (.trap H 0) s1 [] any ∧
    issuing (stOf (crewH Hints.none [] [])) = some (crewH Hints.none [] []) ∧
    (issuing (stOf (crewH tracked [] [])) = some (crewH tracked [] []) ∧ tracked.track ≠ none) :=
  ⟨rfl, meets_of (by decide), meets_of (by decide), rfl, rfl, by decide⟩

theorem witness_BranchesAndMeeting :
    (Meets (.bra H 0x20000) s1 [] any ∧ Meets (.brx H 27) s1 [27] any ∧ Meets (.loop H 5 0x1FFF) s1 [5] any ∧
      Meets (.nop H) s1 [] any ∧ Meets (.yield H) s1 [] any ∧ Meets (.pool 2) s1 [] any ∧
      Meets (.region 0xFFF) s1 [] any) ∧
    Meets (.meet H 27 0x1000) s1 [] any ∧
    Meets (.meetr H 27 4) s1 [4] (fun c act => maskOf (fun l => inMask act l &&
      decide ((regW c l 4).toNat % 4 ≠ 0)) = 0) ∧
    Meets (.meetr H 0 1) s1 [1] (fun c act => maskOf (fun l => inMask act l &&
      decide ((regW c l 1).toNat % 4 ≠ 0)) ≠ 0) :=
  ⟨⟨meets_of (by decide), meets_of (by decide), meets_of (by decide), meets_of (by decide), meets_of (by decide),
    meets_of (by decide), meets_of (by decide)⟩, meets_of (by decide), meets_of (by decide), meets_of (by decide)⟩

/-! ### Results of fixed latency -/

theorem witness_IntegerResults :
    (∃ r, arithRow (.div H 27 1 2 1 1) = some r ∧ Meets (.div H 27 1 2 1 1) s1 r.srcs any) ∧
    (∃ r, bitRow (.bfi H 4 1 2 1) = some r ∧ Meets (.bfi H 4 1 2 1) s1 r.srcs any) :=
  ⟨⟨_, rfl, meets_of (by decide)⟩, ⟨_, rfl, meets_of (by decide)⟩⟩

theorem witness_MoveAndPredicateResults :
    (∃ r, moveRow (.shi H 4 1 3 63) = some r ∧ Meets (.shi H 4 1 3 63) s1 r.srcs any) ∧
    (∃ r, predRow (.cmp H 7 1 2 5 0 0) = some r ∧ Meets (.cmp H 7 1 2 5 0 0) s1 r.srcs any) :=
  ⟨⟨_, rfl, meets_of (by decide)⟩, ⟨_, rfl, meets_of (by decide)⟩⟩

/-- The second thread stands elsewhere. -/
def crewApart : Crew := { crewOf [0, 5, 7] [0, 6, 8] with th := [(0, thread [0, 5, 7]),
  (1, { thread [0, 6, 8] with pc := 0x2000 })] }
/-- The small state with it. -/
def sApart : State := stOf crewApart

theorem witness_CrewExchangeResults :
    (∃ r, exchangeRow (.cscan H 4 1 1 7) = some r ∧ Meets (.cscan H 4 1 1 7) s1 r.srcs any) ∧
    Meets (.isect H 26 1 2 1 1) s1 [1, 2] (fun c act => liveMask c = act) ∧
    Meets (.isect H 26 1 2 1 1) sApart [] (fun c act => liveMask c &&& ~~~act ≠ 0) :=
  ⟨⟨_, rfl, meets_of (by decide)⟩, meets_of (by decide), meets_of (by decide)⟩

theorem witness_FloatResults :
    (∃ r, floatRow (.ffma H 4 1 2 1 2) = some r ∧ Meets (.ffma H 4 1 2 1 2) s1 r.srcs any) ∧
    (Exceeds e4m3 1 false 465 1 0 ∧ ¬Exceeds e4m3 1 false 464 1 0 ∧ Exceeds f16 2 true 0x10000 1 0 ∧
      ¬Exceeds f16 2 true 0xFFFF 1 0 ∧ Tiny f32 1 false 1 3 (-126) ∧ ¬Tiny f32 1 false 4 3 (-126)) ∧
    (fdec f16 0x7C01 = .nan true ∧ fdec bf16 0xFF80 = .inf true ∧ fdec f32 0x80000000 = .fin true 0 (-149) ∧
      fdec f16 1 = .fin false 1 (-24) ∧ fdec f32 0xBF800000 = .fin true (2 ^ 23) (-23)) ∧
    Nearest 1 false false 5 2 2 := by
  refine ⟨⟨_, rfl, meets_of (by decide)⟩, ?_, by decide, ?_⟩
  · unfold Exceeds Tiny; decide
  · unfold Nearest; decide

/-- The small state with a launch whose slots 0 and 1 hold the given words. -/
def withSlots (s : State) (a b : Word) : State :=
  { s with launches := [(3, { la0 with words := (la0.words.set 4 a).set 5 b })] }

theorem witness_ConversionValues :
    (∃ m k, fdec f32 (cvtsOp 0 1 0x3C01).1.toNat = .fin false m k) ∧
    (cvtdOp .sat 2 1 0x3F800000 0x81 = some (0x28, 0) ∧ fdec f32 0x3F800000 = .fin false (2 ^ 23) (-23) ∧
      ¬Exceeds e4m3 1 false (2 ^ 23) 1 (-23 + 127 - 0x81) ∧ Exceeds e2m1 1 false 7 1 0) ∧
    (fdec f32 0x43000000 = .fin false (2 ^ 23) (-16) ∧
      Nearest 1 false false (fracOf (2 ^ 23) 1 (-16)).1 (fracOf (2 ^ 23) 1 (-16)).2 128) := by
  refine ⟨⟨_, _, rfl⟩, ⟨by decide, by decide, ?_, ?_⟩, by decide, ?_⟩
  · unfold Exceeds; decide
  · unfold Exceeds; decide
  · unfold Nearest; decide

theorem witness_ConversionResults :
    (∃ r, convRow (.cvts H 4 1 23) = some r ∧ Meets (.cvts H 4 1 23) s1 r.srcs any) ∧
    Meets (.cvtdSat H 27 4 5 0) (withSlots s1 0x112 3) [4, 5] (fun c _ =>
      scaledSrcs (withSlots s1 0x112 3) c 0 4 5 = [4, 5]) ∧
    Meets (.cvtdTrap H 4 1 2 1) (withSlots s1 0x112 3) [1, 2] (fun c act => ∀ l ∈ lanesOf act,
      (cvtdOp .trap (slotOf (withSlots s1 0x112 3) c 1).1 c.hint.mode ((regW c l 1).toNat % 2 ^ 32)
        (scaleOf (withSlots s1 0x112 3) c 1 (regW c l 2))).isSome = true) ∧
    Meets (.cvtdTrap H 4 3 2 1) (withSlots (stOf (crewOf [0, 0, 0, 0x7F7FFFFF] [0, 0, 0, 0])) 0x112 3) [3, 2]
      (fun c act => ∃ l ∈ lanesOf act,
        cvtdOp .trap (slotOf (withSlots s1 0x112 3) c 1).1 c.hint.mode ((regW c l 3).toNat % 2 ^ 32)
          (scaleOf (withSlots s1 0x112 3) c 1 (regW c l 2)) = none) := by
  exact ⟨⟨_, rfl, meets_of (by decide)⟩, meets_of (by decide), meets_of (by decide), meets_of (by decide)⟩

/-! ### Registers, ports, the window -/

theorem witness_SpecialRegisters :
    Meets (.movs H 27 13) s1 [] (fun c act => stepSyms c act = 0) ∧
    Meets (.movsw H 15 4) s1 [4] (fun c act => stepSyms c act = 0) :=
  ⟨meets_of (by decide), meets_of (by decide)⟩

/-- Register w4 of both threads holds a form over symbol 3, for which lane 0 has recorded a step; the symbol is
FAULTED in lane 0 or not. -/
def crewStep (faulted : Bool) : Crew :=
  { crewOf [] [] with
    th := [(0, { thread [] with rf := [(4, .iform 3 2 0)] }), (1, { thread [] with rf := [(4, .iform 3 2 0)] })]
    syms := [(3, { lanes := [{ lane := 0, faulted := faulted, recs := [[]] }, { lane := 1, faulted := false, recs := [] }]
                   arrived := 0, pc := 0xFF0, active := 3, cls := 9, faddr := [], due := none })] }

theorem witness_SpecialRegisters_waits :
    Meets (.movs H 27 13) (stOf (crewStep false)) [] (fun c act => stepSyms c act ≠ 0 ∧
      faultedSym c act (fun l => stepSyms c (oneLane l)) = none) ∧
    Meets (.movsw H 13 4) (stOf (crewStep true)) [] (fun c act => stepSyms c act ≠ 0 ∧
      faultedSym c act (fun l => stepSyms c (oneLane l)) = some 3) ∧
    Meets (.movsw H 15 4) (stOf (crewStep false)) [] (fun c act => srcSyms c act [4] ≠ 0) :=
  ⟨meets_of (by decide), meets_of (by decide), meets_of (by decide)⟩

/-- Page tables map 0x10000 to 0x1FFFF. -/
def mapped (c : Crew) : State := { stOf c with mem := loadTables [] }

/-- A port over `n` elements of four bytes from 0x10000. -/
def port0 (n : Nat) : Port :=
  { handle := 0x40, base := 0x10000, size := 4, pad := 7, stride := [1, 0, 0, 0, 0], ext := [n, 1, 1, 1, 1]
    pos := [0, 0, 0, 0, 0], wr := false }

/-- The small state with port q0 of one element. -/
def sPort : State := mapped { crewOf [0, 5, 7] [0, 6, 8] with ports := [(0, port0 1)] }

/-- The ports among the sources deliver. -/
def portsGo (i : Instr) (s : State) (c : Crew) (srcs : List Nat) (dst : Option Nat) : Bool :=
  match fetchSources (issueCtx i s c) (startOf s c) srcs dst with
  | .ok _ _ => true
  | _ => false

theorem portsGo_spec {i : Instr} {s : State} {c : Crew} {srcs : List Nat} {dst : Option Nat}
    (h : portsGo i s c srcs dst = true) :
    ∃ s1 v, fetchSources (issueCtx i s c) (startOf s c) srcs dst = .ok s1 v := by
  unfold portsGo at h
  split at h
  · next s1 v e => exact ⟨s1, v, e⟩
  · exact nomatch h

/-- A port's elements of the active lanes can all be read. -/
def portReads (i : Instr) (s : State) (c : Crew) (act : Mask) (q : Nat) : Bool :=
  match readPort (issueCtx i s c) (portOf c q) q [] (lanesOf act) (startOf s c) with
  | .ok _ _ => true
  | _ => false

theorem witness_PortOperands :
    (∃ r, rowOf (.add H 4 28 1 1) = some r ∧ Meets (.add H 4 28 1 1) sPort [1] (fun c _ =>
      portsGo (.add H 4 28 1 1) sPort c (r.srcs.map (·.toNat)) (r.dst.map (·.toNat)) = true)) ∧
    Meets (.mov H 4 31) sPort [] (fun c act => (portOf c 31).handle = 0 ∧ maskBusy c act true false = false ∧
      (lanesOf act).any (loadHeld c) = false) ∧
    Meets (.mov H 4 28) sPort [] (fun c act => (portOf c 28).handle ≠ 0 ∧ maskBusy c act true false = false ∧
      (lanesOf act).any (loadHeld c) = false ∧
      portHeld (issueCtx (.mov H 4 28) sPort c).w (startOf sPort c) c act (portOf c 28) = false ∧
      portRefused (issueCtx (.mov H 4 28) sPort c).w .load (startOf sPort c) (portOf c 28) act = 0 ∧
      portPaged (issueCtx (.mov H 4 28) sPort c).w .load (startOf sPort c) act (portOf c 28) = false ∧
      portInside (portOf c 28) (portCoord (portOf c 28) 1) = false ∧
      portInside (portOf c 28) (portCoord (portOf c 28) 0) = true ∧
      portReads (.mov H 4 28) sPort c act 28 = true ∧ portsGo (.mov H 4 28) sPort c [28] none = true) ∧
    (∃ r, rowOf (.add H 28 1 2 1) = some r ∧ r.dst = some 28 ∧ Meets (.add H 28 1 2 1) sPort r.srcs (fun c _ =>
      c.hint.track = none ∧ (portOf c 28).handle ≠ 0)) :=
  ⟨⟨_, rfl, meets_of (by decide +kernel)⟩, meets_of (by decide), meets_of (by decide +kernel),
    ⟨_, rfl, rfl, meets_of (by decide)⟩⟩

/-- Both threads' windows start at an entry. -/
def sFrame (f : Nat) : State := stOf { crewOf [] [] with th := [(0, { thread [] with frame := f }),
  (1, { thread [] with frame := f })] }

theorem witness_CallsAndReturns :
    Meets (.call H 0x3FFFF) s1 [] (fun c act =>
      maskOf (fun l => inMask act l && decide ((thOf c l).frame = 4080)) = 0 ∧
      ∀ l ∈ lanesOf act, (thOf c l).frame + 44 ≤ (thOf c l).base + depthOf s1 c) ∧
    Meets (.callx H 4) s1 [4] (fun c act =>
      maskOf (fun l => inMask act l && decide ((thOf c l).frame = 4080)) = 0 ∧
      ∀ l ∈ lanesOf act, (thOf c l).frame + 44 ≤ (thOf c l).base + depthOf s1 c) ∧
    Meets (.call H 1) (sFrame 4080) [] (fun c act =>
      maskOf (fun l => inMask act l && decide ((thOf c l).frame = 4080)) ≠ 0) ∧
    Meets (.callx H 4) (sFrame 4080) [4] (fun c act =>
      maskOf (fun l => inMask act l && decide ((thOf c l).frame = 4080)) ≠ 0) ∧
    Meets (.ret H) (sFrame 16) [27] (fun c act => ∀ l ∈ lanesOf act, (thOf c l).base + 16 ≤ (thOf c l).frame) ∧
    Meets (.ret H) (sFrame 0) [27] (fun c act =>
      maskOf (fun l => inMask act l && decide ((thOf c l).frame = 0)) ≠ 0) :=
  ⟨meets_of (by decide), meets_of (by decide), meets_of (by decide), meets_of (by decide), meets_of (by decide),
    meets_of (by decide)⟩

/-- A thread whose next frame does not fit above its resident base. -/
def threadDeep : Thread := { thread [] with frame := 480, base := 0 }
/-- The small crew of such threads. -/
def crewDeep : Crew := { crewOf [] [] with th := [(0, threadDeep), (1, threadDeep)] }
/-- The small state with it, and a spill area at 0x10000 that is mapped. -/
def sDeep : State :=
  { stOf crewDeep with
    mem := [(0x10000000007, 0x10), (0x10000000008, 0xF3), (0x10000000009, 1), (0x1000000000A, 1), (0x1000000000F, 0x10)]
    launches := [(3, { la0 with words := la0.words.set 13 0x10000 })] }
/-- The context of its CALL. -/
def xDeep : Ctx := issueCtx (.call H 1) sDeep crewDeep

/-- Work on memory succeeds. -/
def okW {α : Type} (r : VRes α) : Bool :=
  match r with
  | .ok _ _ => true
  | _ => false

theorem witness_SpillArea :
    (mget s1.units 1 = some un0 ∧ mget s1.launches un0.lid = some la0) ∧
    (threadDeep.base + 512 < 496 + 28 ∧ 496 + 28 ≤ threadDeep.base + 16 + 512 ∧
     okW (spillWrite { xDeep.w with lanes := oneLane 0 } (spillAddr sDeep xDeep.c 0 (threadDeep.base / 16))
      ((List.range 16).flatMap fun k => wordBytes 8 (entryW threadDeep (threadDeep.base + k))) sDeep) = true) ∧
    (let t := { threadDeep with base := 48 }
     32 < t.base ∧ t.base ≤ 32 + 16 ∧
     okW (fillRead { xDeep.w with lanes := oneLane 0 } (spillAddr sDeep xDeep.c 0 (t.base / 16 - 1)) 128 sDeep) = true) ∧
    Meets (.call H 1) sDeep [] (fun c act => (∀ l ∈ lanesOf act, (thOf c l).frame ≠ 4080) ∧
      (∃ l ∈ lanesOf act, (thOf c l).base + depthOf sDeep c < (thOf c l).frame + 44) ∧
      ∀ l ∈ lanesOf act, spillSyms (issueCtx (.call H 1) sDeep c) (depthOf sDeep c) l = 0) := by
  refine ⟨⟨rfl, rfl⟩, ⟨?_, ?_, ?_⟩, ⟨?_, ?_, ?_⟩, meets_of ?_⟩ <;> decide +kernel

theorem witness_EndOfThreads :
    Meets (.exit H) s1 [] (fun c _ => c.priv = false) ∧ Meets (.kill H 5) s1 [5] any ∧
    (∃ c, mget s1.crews 32 = some c ∧ mget s1.units c.uid = some un0 ∧ progLive c = 3) :=
  ⟨meets_of (by decide), meets_of (by decide), _, rfl, rfl, by decide⟩

/-! ### Traps, privileged instructions, control registers -/

/-- A trap of class BREAK in lanes 0 and 1. -/
def trap0 : TrapInfo := mkTrap clsBreak 0x1000 0x1004 0 3 3

/-- Job 0's context: FREC at 0x80000, a trap ring of 16 entries at 0x90000 with the given head and tail. -/
def withRing (s : State) (head tail : Nat) : State :=
  { s with jobs := [(0, [0, 0, BitVec.ofNat 64 (head * 2 ^ 16 + tail), 0x80000, 0x4000000000090000, 0, 0, 0])] }

/-- The small crew with a trap that is due, or inside its routine. -/
def crewDue : Crew := { crewOf [] [] with due := some trap0 }
/-- A crew in its resident routine, with two routine threads. -/
def crewP : Crew := { crewOf [0, 5] [0, 6] with
  priv := true, rt := [(0, thread [0, 5, 0x44]), (1, thread [0, 6, 0x10055])], trap := some trap0 }

theorem witness_TrapEntry :
    (mget (withRing s1 0 15).crews 32 = some (crewOf [0, 5, 7, 3, 0x1000, 1, 2, 9, 0x40, 0x80, 0x100, 0x140]
      [0, 0xFFFFFFFFFFFFFFFF, 1, 0, 0x2000, 3, 4, 8, 0x48, 0x88, 0x180, 0x1C0]) ∧ trap0.sym = none ∧
      (mgetD (withRing s1 0 15).jobs 0 (jobReset 0)).length = 8 ∧
      ((ctxW (withRing s1 0 15) 0 2).extractLsb' 0 16).toNat = 15 ∧
      2 ^ ((ctxW (withRing s1 0 15) 0 4).extractLsb' 60 4).toNat = 16) ∧
    (((ctxW (withRing s1 0 3) 0 2).extractLsb' 0 16).toNat = 3 ∧
      0x80000 + 64 * (64 * 5 + 7) + 64 ≤ 0x90000 + 16 * 3) ∧
    (mget (stOf crewDue).crews 32 = some crewDue ∧ crewDue.due = some trap0 ∧ crewDue.priv = false ∧
      mget (stOf crewDue).units 1 = some un0 ∧ un0.res = .resident ∧ un0.ended = false ∧ un0.isOver = false) := by
  refine ⟨⟨rfl, rfl, rfl, ?_, ?_⟩, ⟨?_, ?_⟩, rfl, rfl, rfl, rfl, rfl, rfl, rfl⟩ <;> decide

theorem witness_TrapReturn : Meets (.eret H) (stOf crewP) [] (fun c _ => c.priv = true) := meets_of (by decide)

theorem witness_PrivilegedInstructions :
    isPrivileged (.csrw H 4 0x010) = true ∧ Meets (.csrw H 4 0x010) s1 [] (fun c _ => c.priv = false) :=
  ⟨rfl, meets_of (by decide)⟩

theorem witness_ControlRegisters :
    Meets (.csrr H 27 0x011) s1 [] (fun c _ => c.priv = false) ∧
    Meets (.csrr H 0 0x040) (stOf crewP) [] (fun c _ => c.priv = true) ∧
    Meets (.csrw H 1 0x040) (stOf crewP) [1] (fun c _ => c.priv = true) ∧
    Meets (.tlbiVa H 2) (stOf crewP) [2] (fun c _ => c.priv = true) ∧
    Meets (.tlbiJob H) (stOf crewP) [] (fun c _ => c.priv = true) ∧
    Meets (.tlbiAll H) (stOf crewP) [] (fun c _ => c.priv = true) ∧
    mget s1.crews 32 ≠ none :=
  ⟨meets_of (by decide), meets_of (by decide), meets_of (by decide), meets_of (by decide), meets_of (by decide),
    meets_of (by decide), by decide⟩

/-! ### Memory -/

/-- Work has succeeded. -/
def okB {α : Type} (r : VRes α) : Bool :=
  match r with
  | .ok _ _ => true
  | _ => false

theorem okB_spec {α : Type} {r : VRes α} (h : okB r = true) : ∃ s a, r = .ok s a := by
  unfold okB at h
  split at h
  · next s a => exact ⟨s, a, rfl⟩
  · exact nomatch h

/-- Where stack 0's DRAM begins. -/
def dram : Nat := 0x10000000000

/-- A table in DRAM whose entry 0 points to itself and whose entry 1 is a leaf for 0x10000 to 0x1FFFF. -/
def mapLeaf (s : State) (leaf : Nat) : State :=
  { s with mem := [(dram + 7, 0x10), (dram + 8, BitVec.ofNat 8 leaf), (dram + 9, BitVec.ofNat 8 (leaf / 2 ^ 8)),
    (dram + 10, BitVec.ofNat 8 (leaf / 2 ^ 16)), (dram + 15, BitVec.ofNat 8 (leaf / 2 ^ 56))] }

/-- A leaf of type 1 at DRAM offset 0x10000 that allows everything. -/
def leafAll : Nat := 2 ^ 60 + 0x10000 + 0x1F3

theorem witness_MemoryInstructionsIssue :
    (∃ r, opRow (.ld H 26 4 0 3 1 0) = some r ∧ Meets (.ld H 26 4 0 3 1 0) s1 r.srcs any) ∧
    (∃ r, opRow (.st H 2 4 14 3 1) = some r ∧ Meets (.st H 2 4 14 3 1) s1 r.srcs any) ∧
    (∃ r, opRow (.acas H 26 4 0 1 1 3) = some r ∧ Meets (.acas H 26 4 0 1 1 3) s1 r.srcs any) ∧
    (∃ r, opRow (.fwait H 26 4) = some r ∧ Meets (.fwait H 26 4) s1 r.srcs any) :=
  ⟨⟨_, rfl, meets_of (by decide)⟩, ⟨_, rfl, meets_of (by decide)⟩, ⟨_, rfl, meets_of (by decide)⟩,
    ⟨_, rfl, meets_of (by decide)⟩⟩

/-- Every symbol from 0 to `n` − 1 is pending in lane 0. -/
def symsTo (n : Nat) : Map Sym := (List.range n).map fun y => (y,
  { lanes := [{ lane := 0, faulted := false, recs := [] }], arrived := 0, pc := 0xFF0, active := 1, cls := 0
    faddr := [], due := none })

/-- A request of lane 0 that is performed. -/
def req0 (id : Nat) (op : AccOp) (st : ReqSt) (val : List Byte) : Req :=
  { id := id, lane := 0, va := 0x10000, phys := 0x100, ty := 1, n := val.length, op := op, st := st, val := val
    snap := false, defer := false }

/-- A crew whose symbol 3 has its data for lane 0. -/
def crewSym : Crew := { crewOf [0, 5] [0, 6] with
  syms := symsTo 4, ops := [{ op0 (.ldsym 3 true 4) with reqs := [req0 1 .read .done [1, 2, 3, 0x84]] }] }

theorem witness_SymbolicLoads :
    (Meets (.ld H 27 4 0 2 1 1) (stOf { crewOf [0, 0, 0, 0, 0x10000] [0, 0, 0, 0, 0x20000] with syms := symsTo 15 })
      [4] (fun c _ => c.priv = false ∧ c.syms.all (fun p => decide (p.1 ≠ 15)) = true ∧
        ∀ z, z < 15 → (mget c.syms z).isSome = true)) ∧
    (Meets (.ld H 27 4 0 2 1 1) (stOf { crewOf [0, 0, 0, 0, 0x10000] [0, 0, 0, 0, 0x20000] with syms := symsTo 16 })
      [4] (fun c _ => ∀ z, z < 16 → (mget c.syms z).isSome = true)) ∧
    (mget (stOf crewSym).crews 32 = some crewSym ∧
      crewSym.ops.find? (fun p => match p.kind with
        | .ldsym z _ _ => decide (z = 3)
        | _ => false) = some { op0 (.ldsym 3 true 4) with reqs := [req0 1 .read .done [1, 2, 3, 0x84]] } ∧
      (mget crewSym.syms 3).isSome = true ∧ (progTh crewSym 0).live = true ∧ crewSym.pend = [] ∧
      crewSym.priv = false) :=
  ⟨meets_of (by decide), meets_of (by decide), rfl, rfl, rfl, rfl, rfl, rfl⟩

/-- Registers w4 and w5 of both threads hold forms over symbol 3. -/
def crewForms (a b : RegVal) : Crew :=
  { crewOf [] [] with
    th := [(0, { thread [] with rf := [(4, a), (5, b)] }), (1, { thread [] with rf := [(4, a), (5, b)] })]
    syms := symsTo 4 }

theorem witness_FormsPassThrough :
    Meets (.add H 27 4 5 1) (stOf (crewForms (.iform 3 2 7) (.iform 3 (-2) 1))) [] (fun c act =>
      ∀ l ∈ lanesOf act, regOf (thOf c l) 4 = formOf 3 2 7 ∧ regOf (thOf c l) 5 = formOf 3 (-2) 1) ∧
    Meets (.mul H 27 4 5 1) (stOf (crewForms (.iform 3 2 7) (.known 9))) [] (fun c act =>
      ∀ l ∈ lanesOf act, regOf (thOf c l) 4 = formOf 3 2 7 ∧ regOf (thOf c l) 5 = formOf 3 0 9) ∧
    Meets (.fadd H 27 4 5 0) (stOf (crewForms (.iform 3 1 0) (.known 0x3F800000))) [5] (fun c act =>
      (mget c.syms 3).isSome = true ∧ ∀ l ∈ lanesOf act, regOf (thOf c l) 4 = .iform 3 1 0) ∧
    (∃ r, predRow (.cmp H 1 4 5 0 1 0) = some r ∧
      Meets (.cmp H 1 4 5 0 1 0) (stOf (crewForms (.iform 3 1 0) (.known 9))) [] (fun c act =>
        srcSyms c act (r.srcs.map (·.toNat)) ≠ 0 ∧
        faultedSym c act (laneSyms c (r.srcs.map (·.toNat))) = none)) ∧
    (∃ r, predRow (.cmp H 1 4 5 0 1 0) = some r ∧
      Meets (.cmp H 1 4 5 0 1 0) (stOf { crewForms (.iform 3 1 0) (.known 9) with
        syms := [(3, { lanes := [{ lane := 0, faulted := true, recs := [] }], arrived := 0, pc := 0xFF0, active := 1
                       cls := 9, faddr := [], due := none })] }) [] (fun c act =>
        faultedSym c act (laneSyms c (r.srcs.map (·.toNat))) = some 3)) :=
  ⟨meets_of (by decide), meets_of (by decide), meets_of (by decide), ⟨_, rfl, meets_of (by decide)⟩,
    ⟨_, rfl, meets_of (by decide)⟩⟩

/-- A translation allows an access. -/
def allowed (s : State) (w : Who) (k : AccKind) (va : Word) : Bool :=
  match (xlat s w k va).2 with
  | .ok _ _ => true
  | _ => false

/-- The places to which addresses translate one after another, and the state after. -/
def chain (w : Who) (k : AccKind) (types : List Nat) : List Word → State → Option (List Nat × State)
  | [], s => some ([], s)
  | va :: vas, s =>
    match xlat s w k va with
    | (s1, .ok phys ty) =>
      if ty ∈ types then (chain w k types vas s1).map fun p => (phys :: p.1, p.2) else none
    | _ => none

theorem translates_iff {w : Who} {k : AccKind} {types : List Nat} {vas : List Word} {s : State} {ps : List Nat}
    {t : State} : Translates w k types vas s ps t ↔ chain w k types vas s = some (ps, t) := by
  induction vas generalizing s ps t with
  | nil => simp [Translates, chain, eq_comm]
  | cons va vas ih =>
    unfold Translates chain
    constructor
    · rintro ⟨s1, phys, ty, rest, hx, ht, rfl, h⟩
      simp [hx, ht, ih.1 h]
    · intro h
      split at h
      · next s1 phys ty hx =>
        split at h
        · next ht =>
          cases hc : chain w k types vas s1 with
          | none => simp [hc] at h
          | some p =>
            simp only [hc, Option.map_some, Option.some.injEq, Prod.mk.injEq] at h
            obtain ⟨rfl, rfl⟩ := h
            exact ⟨s1, phys, ty, p.1, hx, ht, rfl, ih.2 hc⟩
        · exact nomatch h
      · exact nomatch h

/-- The lines of a PREF of one line a lane. -/
def prefLines (c : Crew) (act : Mask) (a : Code) : List Word :=
  ((lanesOf act).map fun l => (List.range (4 ^ 0)).map fun i =>
    BitVec.ofNat 64 ((memAddr c l a).toNat / 256 * 256) + BitVec.ofNat 64 (256 * i)).flatten

/-- The chain of a PREF in a state. -/
def prefChain (s : State) (c : Crew) (act : Mask) : Option (List Nat × State) :=
  chain (issueCtx (.pref H 4 0) s c).w .load [1, 2, 3, 5, 0xA] (prefLines c act 4) (startOf s c)

theorem prefMeets {s : State} {b : Bool}
    (h : meetsB (.pref H 4 0) s [4] (fun c act => decide ((prefChain s c act).isSome = b)) = true) :
    Meets (.pref H 4 0) s [4] (fun c act => if b then
      ∃ ps t, Translates (issueCtx (.pref H 4 0) s c).w .load [1, 2, 3, 5, 0xA] (prefLines c act 4) (startOf s c) ps t
      else ∀ ps t, ¬Translates (issueCtx (.pref H 4 0) s c).w .load [1, 2, 3, 5, 0xA] (prefLines c act 4)
        (startOf s c) ps t) := by
  obtain ⟨c, act, hi, hp, hc⟩ := meets_of (P := fun c act => (prefChain s c act).isSome = b) h
  refine ⟨c, act, hi, hp, ?_⟩
  cases b with
  | true =>
    obtain ⟨p, hp⟩ := Option.isSome_iff_exists.1 hc
    exact ⟨p.1, p.2, translates_iff.2 hp⟩
  | false =>
    intro ps t ht
    unfold prefChain at hc
    rw [translates_iff.1 ht] at hc
    exact nomatch hc

theorem witness_Translation :
    (Meets (.pref H 4 0) (mapLeaf (stOf (crewOf [0, 0, 0, 0, 0x10000] [0, 0, 0, 0, 0x1FFFF])) leafAll) [4] (fun c act =>
      ∃ ps t, Translates (issueCtx (.pref H 4 0) (mapLeaf (stOf (crewOf [0, 0, 0, 0, 0x10000]
        [0, 0, 0, 0, 0x1FFFF])) leafAll) c).w .load [1, 2, 3, 5, 0xA] (prefLines c act 4)
        (startOf (mapLeaf (stOf (crewOf [0, 0, 0, 0, 0x10000] [0, 0, 0, 0, 0x1FFFF])) leafAll) c) ps t) ∧
     Meets (.pref H 4 0) s1 [4] (fun c act => ∀ ps t, ¬Translates (issueCtx (.pref H 4 0) s1 c).w .load [1, 2, 3, 5, 0xA]
       (prefLines c act 4) (startOf s1 c) ps t)) ∧
    (∃ w, allowed (mapLeaf s1 leafAll) w .fetch 0x1FFFC = true ∧ allowed (mapLeaf s1 leafAll) w .atomic 0x1FFFF = true) ∧
    2 ^ 57 ≤ (0x200000000000000 : Word).toNat :=
  ⟨⟨prefMeets (b := true) (by decide +kernel), prefMeets (b := false) (by decide +kernel)⟩,
    ⟨whoLane s1 crewDue 1 false, by decide +kernel, by decide +kernel⟩, by decide⟩

/-- The crew with one operation in flight. -/
def stOp (o : Op) : State := mapLeaf (stOf { crewOf [] [] with ops := [o] }) leafAll

/-- An access of lane 0 that is not translated yet. -/
def acc0 (va : Word) (n : Nat) (op : AccOp) : Acc := { lane := 0, va := va, n := n, op := op }

/-- The crew of `stOp`. -/
def crewOp (o : Op) : Crew := { crewOf [] [] with ops := [o] }

/-- A request of an operation in flight of the small crew may be performed. -/
theorem arrives_of {o : Op} {r : Req} (h1 : o.id = 9) (h2 : o.reqs = [r]) (h3 : r.id = 1)
    (h4 : canPerform (stOp o) (crewOp o) o r = true) : Arrives (stOp o) 32 9 1 (crewOp o) o r :=
  ⟨rfl, by simp [crewOp, crewOf, startCrew, h1], by simp [h2, h3], h4⟩

/-- A waiting request of lane 0 at physical address 0x100. -/
def wait0 (op : AccOp) (n : Nat) : Req := { req0 1 op .waiting [] with n := n }

/-- An operation with one waiting request. -/
def opReq (kind : OpKind) (op : AccOp) (n : Nat) : Op := { op0 kind with reqs := [wait0 op n] }

theorem unordered_small (o : Op) : Unordered (stOp o) (crewOp o) := by
  intro l h
  obtain rfl : la0 = l := by simpa [stOp, mapLeaf, stOf, whoLane, crewOp, crewOf, startCrew, un0, startUnit, mget] using h
  decide

/-- The requests of parts of accesses, and the state after their translation. -/
def reach (w : Who) (k : OpKind) : List (Acc × Word × Nat × AccOp) → State → Option (List Req × State)
  | [], s => some ([], s)
  | (a, va, n, op) :: ps, s =>
    match xlat s { w with lanes := oneLane a.lane } (accKind op) va with
    | (s1, .ok phys ty) =>
      if accBad a ty = false ∧ kindBars k ty = false then
        (reach w k ps { s1 with nextId := s1.nextId + 1 }).map fun p =>
          ({ id := s1.nextId, lane := a.lane, va := va, phys := phys, ty := ty, n := n, op := op, st := .waiting
             val := [], snap := false, defer := false } :: p.1, p.2)
      else none
    | _ => none

theorem reaches_of {w : Who} {k : OpKind} {ps : List (Acc × Word × Nat × AccOp)} {s : State}
    (h : (reach w k ps s).isSome = true) : ∃ rs t, Reaches w k ps s rs t := by
  induction ps generalizing s with
  | nil => exact ⟨[], s, rfl, rfl⟩
  | cons p ps ih =>
    obtain ⟨a, va, n, op⟩ := p
    unfold reach at h
    split at h
    · next s1 phys ty hx =>
      split at h
      · next hb =>
        obtain ⟨rs, t, hr⟩ := ih (by simpa using h)
        exact ⟨_, t, s1, phys, ty, rs, hx, hb.1, hb.2, rfl, hr⟩
      · exact nomatch h
    · exact nomatch h

/-- A store whose accesses are not yet translated: eight bytes across a sector's end in lane 0, four in lane 1. -/
def opNew : Op := { op0 .st with
  active := 3
  accs := [acc0 0x1001C 8 (.write [1, 2, 3, 4, 5, 6, 7, 8]), { lane := 1, va := 0x10000, n := 4, op := .write [9, 9, 9, 9] }] }

/-- What one access of an operation meets at its translation. -/
def meetsAt (s : State) (o : Op) (a : Acc) : XRes :=
  (xlat s { whoLane s (crewOp o) o.active o.priv with lanes := oneLane a.lane } (accKind a.op) a.va).2

theorem witness_AccessesTranslate :
    (mget (stOp opNew).crews 32 = some (crewOp opNew) ∧ opNew ∈ (crewOp opNew).ops ∧ opNew.done = false ∧
      opNew.accs ≠ [] ∧ mayReissue (stOp opNew) 32 = true ∧ Unordered (stOp opNew) (crewOp opNew) ∧
      opNew.priv = (crewOp opNew).priv ∧ opNew.pages = [] ∧ (∀ a ∈ opNew.accs, accMis a = false) ∧
      ∃ rs t, Reaches { whoLane (stOp opNew) (crewOp opNew) opNew.active opNew.priv with lanes := opNew.active } opNew.kind
        ((opNew.accs.map fun a => (accParts a).map fun p => (a, p)).flatten) (stOp opNew) rs t) ∧
    (let o := { op0 .st with accs := [acc0 0x10000 4 (.write [9, 9, 9, 9])] }
     meetsAt { stOp o with mem := [] } o (acc0 0x10000 4 (.write [9, 9, 9, 9])) = .page 0 4) ∧
    (let o := { op0 .st with accs := [acc0 0x200000000000000 4 (.write [9, 9, 9, 9])] }
     meetsAt (stOp o) o (acc0 0x200000000000000 4 (.write [9, 9, 9, 9])) = .prot) := by
  refine ⟨⟨rfl, ?_, rfl, ?_, ?_, unordered_small _, rfl, rfl, ?_, reaches_of ?_⟩, ?_, ?_⟩ <;> decide +kernel

theorem witness_RequestsAtMemory :
    ((let o := { op0 (.atom true false) with accs := [acc0 0x10002 4 (.atom 0x64 false 1 0)] }
      mget (stOp o).crews 32 = some (crewOp o) ∧ mayReissue (stOp o) 32 = true ∧
        mayTranslate (stOp o) (crewOp o) o = true ∧ o.active ≠ 0) ∧
      (let o := { op0 .flint with accs := [acc0 0x10008 16 (.fread 0)] }
       mayTranslate (stOp o) (crewOp o) o = true)) ∧
    (Arrives (stOp (opReq (.ld false 4) .read 4)) 32 9 1 (crewOp (opReq (.ld false 4) .read 4))
        (opReq (.ld false 4) .read 4) (wait0 .read 4) ∧
      Arrives (stOp (opReq .st (.write [1, 2]) 2)) 32 9 1 (crewOp (opReq .st (.write [1, 2]) 2))
        (opReq .st (.write [1, 2]) 2) (wait0 (.write [1, 2]) 2) ∧
      Arrives (stOp (opReq (.atom true true) (.atom 0x70 true 5 0) 8)) 32 9 1
        (crewOp (opReq (.atom true true) (.atom 0x70 true 5 0) 8)) (opReq (.atom true true) (.atom 0x70 true 5 0) 8)
        (wait0 (.atom 0x70 true 5 0) 8) ∧
      (stOp (opReq (.ld false 4) .read 4)).ecc = [] ∧
      Unordered (stOp (opReq (.ld false 4) .read 4)) (crewOp (opReq (.ld false 4) .read 4))) ∧
    (let o := { op0 .st with id := 9, seq := 5, reqs := [wait0 (.write [1]) 1] }
     let p := { op0 .st with id := 8, seq := 3, reqs := [wait0 (.write [2]) 1] }
     let c : Crew := { crewOf [] [] with ops := [p, o] }
     mget (stOf c).crews 32 = some c ∧ c.ops.find? (fun x => decide (x.id = 9)) = some o ∧
       o.reqs.find? (fun x => decide (x.id = 1)) = some (wait0 (.write [1]) 1) ∧ p ∈ c.ops ∧ p.id ≠ o.id ∧
       p.seq < o.seq) := by
  refine ⟨⟨⟨rfl, ?_, ?_, ?_⟩, ?_⟩, ⟨arrives_of rfl rfl rfl ?_, arrives_of rfl rfl rfl ?_, arrives_of rfl rfl rfl ?_, rfl,
    unordered_small _⟩, rfl, rfl, rfl, ?_, ?_, ?_⟩ <;> decide

theorem witness_RequestsAtMemory_errors :
    (let s : State := { stOp (opReq (.ld false 4) .read 4) with ecc := [8] }
     canPerform s (crewOp (opReq (.ld false 4) .read 4)) (opReq (.ld false 4) .read 4) (wait0 .read 4) = true ∧
       s.ecc.any (fun x => decide (0x100 / 32 ≤ x ∧ x ≤ (0x100 + 4 - 1) / 32)) = true) ∧
    (let r : Req := { wait0 (.write [1]) 1 with phys := wsBase 0, ty := 6 }
     Arrives (stOp { op0 .st with reqs := [r] }) 32 9 1 (crewOp { op0 .st with reqs := [r] }) { op0 .st with reqs := [r] } r ∧
       wsBase 0 ≤ r.phys ∧ r.phys < cxlBase) := by
  refine ⟨⟨?_, ?_⟩, arrives_of rfl rfl rfl ?_, ?_, ?_⟩ <;> decide

/-- A sequential load of two bytes, whose own lane's earlier sequential store holds them. -/
def opFwd : Op := { op0 (.ld false 2) with
  sem := 3, scope := 1, id := 9, seq := 5, reqs := [{ wait0 .read 2 with phys := 0x101 }] }
/-- That store. -/
def opKept : Op := { op0 .st with
  sem := 3, scope := 4, id := 8, seq := 3, reqs := [{ wait0 (.write [1, 2, 3, 4]) 4 with id := 2 }] }

theorem witness_RequestsAtMemory_forwarding :
    let r : Req := { wait0 .read 2 with phys := 0x101 }
    let c : Crew := { crewOf [] [] with ops := [opKept, opFwd] }
    let s := mapLeaf (stOf c) leafAll
    mget s.crews 32 = some c ∧ opOf c 9 = some opFwd ∧ reqOf opFwd 1 = some r ∧ canPerform s c opFwd r = true ∧
      forwarded s c opFwd r = some [2, 3] ∧ seqBefore c opFwd r ≠ [] := by
  refine ⟨rfl, rfl, rfl, ?_, ?_, ?_⟩ <;> decide +kernel

/-- Stores of lanes 0 and 1 to one sector. -/
def opTwo : Op := { op0 .st with
  active := 3, reqs := [wait0 (.write [1, 2]) 2, { wait0 (.write [3]) 1 with id := 2, lane := 1, phys := 0x101 }] }

theorem witness_RequestsAtMemory_targets :
    (Arrives (stOp opTwo) 32 9 1 (crewOp opTwo) opTwo (wait0 (.write [1, 2]) 2) ∧ opTwo.reqs.Nodup ∧
      unreachable (stOp opTwo) 0x100 = false ∧ 0x100 < wsBase 0) ∧
    (let r : Req := { wait0 .read 4 with phys := refusedAt 0 1, ty := tyRefused }
     Arrives (stOp { op0 (.ld false 4) with reqs := [r] }) 32 9 1 (crewOp { op0 (.ld false 4) with reqs := [r] })
       { op0 (.ld false 4) with reqs := [r] } r) ∧
    (let r : Req := { wait0 .read 4 with phys := peerBase 3, ty := 4 }
     Arrives (stOp { op0 (.ld false 4) with reqs := [r] }) 32 9 1 (crewOp { op0 (.ld false 4) with reqs := [r] })
       { op0 (.ld false 4) with reqs := [r] } r ∧
     unreachable (stOp { op0 (.ld false 4) with reqs := [r] }) r.phys = true) := by
  refine ⟨⟨⟨rfl, rfl, rfl, ?_⟩, ?_, ?_, ?_⟩, arrives_of rfl rfl rfl ?_, arrives_of rfl rfl rfl ?_, ?_⟩ <;> decide +kernel

/-- A cell at physical address 0x100. -/
def stCell (op : AccOp) (v0 w1 : Word) : State :=
  { stOp (opReq .flint op 16) with mem := cellsPut (loadTables []) 0x100 (wordBytes 8 v0 ++ wordBytes 8 w1) }

theorem witness_FlintCells :
    (Arrives (stCell (.fprop 0x3000000000000005 7) 0 7) 32 9 1 (crewOp (opReq .flint (.fprop 0x3000000000000005 7) 16))
        (opReq .flint (.fprop 0x3000000000000005 7) 16) (wait0 (.fprop 0x3000000000000005 7) 16) ∧
      eccBad (stCell (.fprop 0x3000000000000005 7) 0 7) 0x100 16 = false ∧
      wordOf (cellsGet (stCell (.fprop 0x3000000000000005 7) 0 7).mem 0x100 8) = 0 ∧
      wordOf (cellsGet (stCell (.fprop 0x3000000000000005 7) 0 7).mem 0x108 8) = 7) ∧
    (canPerform (stCell (.fprop 5 7) 0x7000000000000000 0xFFFFF00000010007)
        (crewOp (opReq .flint (.fprop 5 7) 16)) (opReq .flint (.fprop 5 7) 16) (wait0 (.fprop 5 7) 16) = true ∧
      (0xFFFFF00000010007 : Word).extractLsb' 16 8 = 1 ∧ (0xFFFFF00000010007 : Word).extractLsb' 24 20 = 0 ∧
      1 ≤ ((0x7000000000000000 : Word).extractLsb' 60 4).toNat ∧
      ((0x7000000000000000 : Word).extractLsb' 60 4).toNat < 8 ∧
      0x8000 ≤ ((6 : BitVec 16) - (0xFFFFF00000010007 : Word).extractLsb' 0 16).toNat) ∧
    (canPerform (stCell (.frcy 7) 0x7000000000000000 0xFFFFF00000010007)
        (crewOp (opReq .flint (.frcy 7) 16)) (opReq .flint (.frcy 7) 16) (wait0 (.frcy 7) 16) = true ∧
      canPerform (stCell (.frcy 7) 0 7)
        (crewOp (opReq .flint (.frcy 7) 16)) (opReq .flint (.frcy 7) 16) (wait0 (.frcy 7) 16) = true) := by
  refine ⟨⟨⟨rfl, rfl, rfl, ?_⟩, ?_, ?_, ?_⟩, ⟨?_, ?_, ?_, ?_, ?_, ?_⟩, ?_, ?_⟩ <;> decide +kernel

/-- The small crew with a proposal and a waiter for the same cell. -/
def crewWaits : Crew := { crewOf [] [] with
  ops := [opReq .flint (.fprop 0x3000000000000005 7) 16,
    { op0 .flint with id := 8, reqs := [{ wait0 (.fwait 7) 16 with id := 2, st := .waiter }] }] }

theorem witness_FlintCells_waiters : (mget (stOf crewWaits).crews 32 = some crewWaits) ∧
    ∃ o ∈ crewWaits.ops, o.id = 8 ∧ ∃ q ∈ o.reqs, q.id = 2 ∧ q.st = .waiter ∧ q.op = .fwait 7 ∧ q.phys = 0x100 :=
  ⟨rfl, _, List.mem_cons_of_mem _ (List.mem_singleton.2 rfl), rfl, _, List.mem_singleton.2 rfl, rfl, rfl, rfl, rfl⟩

theorem witness_OperationsComplete :
    let o : Op := { op0 (.ld true 4) with reqs := [req0 1 .read .done [1, 2, 3, 0x84]], dsts := [(0, 0, 4)] }
    mget (stOp o).crews 32 = some (crewOp o) ∧ o ∈ (crewOp o).ops ∧ (∀ p ∈ (crewOp o).ops, p.id = o.id → p = o) ∧
      o.done = false ∧ o.accs = [] ∧ o.priv = (crewOp o).priv ∧ (∀ r ∈ o.reqs, r.st = .done) ∧
      (o.dsts.map fun d => (d.1, d.2.2)).Nodup := by
  refine ⟨rfl, ?_, ?_, rfl, rfl, rfl, ?_, ?_⟩ <;> decide

/-- Two results in flight for one register of lane 0, and one of lane 1. -/
def crewPend : Crew := { crewOf [] [] with
  pend := [{ lane := 0, tgt := .reg 4 (.known 1), seq := 3, due := 90, born := 86 },
    { lane := 0, tgt := .reg 4 (.known 2), seq := 5, due := 100, born := 88 },
    { lane := 1, tgt := .reg 4 (.known 3), seq := 7, due := 104, born := 92 }] }

theorem witness_ExposedLatency :
    (∃ p ∈ crewPend.pend, p.tgt = .reg 4 (.known 2) ∧ p.due ≤ 100 ∧ ∀ q ∈ crewPend.pend, q.lane = p.lane →
      q = p ∨ q.seq < p.seq) ∧
    (mget (stOf crewPend).crews 32 = some crewPend ∧ ∃ p, crewPend.pend[1]? = some p ∧ p.tgt = .reg 4 (.known 2)) :=
  ⟨⟨{ lane := 0, tgt := .reg 4 (.known 2), seq := 5, due := 100, born := 88 }, by decide⟩, rfl, _, rfl, rfl⟩

/-! ### Fences, barriers, counters, streams -/

theorem witness_FencesAndBarriers :
    Meets (.fence H 6 3) s1 [] (fun c act => maskBusy c act true true = false) ∧
    Meets (.fence H 1 0) (stOp (opReq (.ld false 4) .read 4)) [] (fun c act => maskBusy c act true false = true) ∧
    Meets (.bar H 15 0) sApart [] (fun c act => c.priv = false ∧ mget sApart.units c.uid = some un0 ∧
      maskBusy c act true true = false ∧ (barMembers sApart c.uid un0.lid 0 (barKey 0 15 c.idx un0.cluster)).any
        (fun ms => ms.any fun m => !((lanesOf act).map (threadIndex sApart c)).contains m) = true) ∧
    Meets (.barArv H 3 3) s1 [] (fun c act => maskBusy c act true true = false ∧
      (barMembers s1 c.uid un0.lid 3 (barKey 3 3 c.idx un0.cluster)).any
        (fun ms => ms.all ((lanesOf act).map (threadIndex s1 c)).contains) = true ∧
      (barGet s1 c.uid un0.lid 3 (barKey 3 3 c.idx un0.cluster)).next = []) := by
  refine ⟨meets_of ?_, meets_of ?_, meets_of ?_, meets_of ?_⟩ <;> decide

theorem witness_Fences :
    (let s := stOp (opReq .st (.write [1]) 1)
     Meets (.fence H 4 1) s [] (fun c act => maskBusy c act false true = true ∧ maskBusy c act false false = false ∧
       ∀ o ∈ c.ops, storesOnly o 0 = true) ∧
     Meets (.fence H 5 3) s [] (fun c act => maskBusy c act true true = true) ∧
     Meets (.fence H 2 3) s [] (fun c act => maskBusy c act true true = true ∧ maskBusy c act true false = false)) ∧
    (let q : Req := { wait0 (.write [1]) 1 with vis := 2, lane := 1 }
     let r := wait0 .read 4
     let o := { op0 (.ld false 4) with id := 9, reqs := [r] }
     let p := { op0 .st with id := 8, reqs := [q] }
     let c : Crew := { crewOf [] [] with ops := [p, o] }
     mget (stOf c).crews 32 = some c ∧ c.ops.find? (fun x => decide (x.id = 9)) = some o ∧
       o.reqs.find? (fun x => decide (x.id = 1)) = some r ∧ (32, c) ∈ (stOf c).crews ∧ p ∈ c.ops ∧ q ∈ p.reqs ∧
       q.vis ≠ 0 ∧ q.st = .waiting ∧ q.phys < r.phys + r.n ∧ r.phys < q.phys + q.n ∧
       sameInstance (stOf c) q.vis (whoLane (stOf c) c 0 c.priv) (whoLane (stOf c) c 0 o.priv) = true ∧
       q.lane ≠ r.lane) := by
  refine ⟨⟨meets_of ?_, meets_of ?_, meets_of ?_⟩, rfl, rfl, rfl, ?_, ?_, ?_, ?_, rfl, ?_, ?_, ?_, ?_⟩ <;> decide

/-- A launch with two named barriers per unit. -/
def la2 : Launch := { la0 with words := la0.words.set 2 0x0A000000 }
/-- The small state with that launch, whose named barrier 1 is in use. -/
def sNamed (c : Crew) (b : NBar) : State :=
  { stOf c with launches := [(3, la2)], units := [(1, { un0 with nbars := [(1, b)] })] }

/-- Named barrier in use by lane 0, which waits. -/
def nb0 (count : Nat) : NBar := { count := count, arrived := [0], waiting := [(0, 2)], next := [] }

theorem witness_NamedBarriers :
    (Meets (.nbar H 2 1 4) (sNamed (crewOf [0, 0, 0, 0, 32] [0, 0, 0, 0, 32]) NBar.idle) [4] (fun c act =>
      c.priv = false ∧ (1 : BitVec 5).toNat < la2.nbar ∧ maskBusy c act true true = false ∧
      ((regW c (lowLane act) 4).extractLsb' 0 11).toNat = 32 * la2.crews)) ∧
    (Meets (.nbarArv H 2 4) (sNamed (crewOf [0, 0, 0, 0, 32] [0, 0, 0, 0, 32]) NBar.idle) [4] (fun _ _ =>
      la2.nbar ≤ (2 : BitVec 5).toNat)) ∧
    (Meets (.nbar H 2 1 4) (sNamed (crewOf [0, 0, 0, 0, 33] [0, 0, 0, 0, 33]) NBar.idle) [4] (fun c act =>
      32 * la2.crews < ((regW c (lowLane act) 4).extractLsb' 0 11).toNat)) ∧
    (Meets (.nbar H 2 1 4) (sNamed { crewOf [0, 0, 0, 0, 2] [0, 0, 0, 0, 2] with ops := [opReq .st (.write [1]) 1] }
      NBar.idle) [4] (fun c act => maskBusy c act true true = true)) ∧
    (∃ ms, barMembers (sNamed crewApart (nb0 3)) 1 3 1 0 = some ms ∧
      (nb0 3).count - (nb0 3).arrived.length = 2 ∧ (ms.filter fun t => !(nb0 3).arrived.contains t).length = 1) ∧
    (∃ ms, barMembers (sNamed crewApart (nb0 1)) 1 3 1 0 = some ms ∧
      (nb0 1).count ≤ (nb0 1).arrived.length) ∧
    (∃ ms, barMembers (sNamed crewApart (nb0 2)) 1 3 1 0 = some ms ∧
      (nb0 2).count - (nb0 2).arrived.length ≤ (ms.filter fun t => !(nb0 2).arrived.contains t).length) := by
  refine ⟨meets_of ?_, meets_of ?_, meets_of ?_, meets_of ?_, ⟨[0, 1], ?_, ?_, ?_⟩, ⟨[0, 1], ?_, ?_⟩, [0, 1], ?_, ?_⟩
    <;> decide

/-- Job 0's expert counters: 4 of them from 0xFFFF. -/
def sCount (c : Crew) : State :=
  { stOf c with jobs := [(0, [0, 0, 0, 0, 0, 0, 0x4FFFF, 0])], xctrs := [(1, 7)] }

theorem witness_ExpertCounters :
    (Meets (.xcnt H 4 5) (sCount (crewOf [0, 0, 0, 0, 4] [0, 0, 0, 0, 3])) [4, 5] (fun c act =>
      maskOf (fun l => inMask act l && (counterOf (sCount (crewOf [0, 0, 0, 0, 4] [0, 0, 0, 0, 3])) c
        (regW c l 4)).isNone) = 1)) ∧
    (Meets (.xcnt H 4 5) (sCount (crewOf [0, 0, 0, 0, 2] [0, 0, 0, 0, 3])) [4, 5] (fun c act =>
      maskOf (fun l => inMask act l && (counterOf (sCount (crewOf [0, 0, 0, 0, 2] [0, 0, 0, 0, 3])) c
        (regW c l 4)).isNone) = 0 ∧ la0.ordered = false ∧ c.ops = [])) ∧
    (Meets (.xrd H 27 4) (sCount (crewOf [0, 0, 0, 0, 2] [0, 0, 0, 0, 3])) [4] (fun c act =>
      maskOf (fun l => inMask act l && (counterOf (sCount (crewOf [0, 0, 0, 0, 2] [0, 0, 0, 0, 3])) c
        (regW c l 4)).isNone) = 0)) ∧
    (Meets (.xsnap H 28 4) { sPort with jobs := [(0, [0, 0, 0, 0, 0, 0, 0x4FFFF, 0])] } [1] (fun c _ =>
      (portOf c 28).handle ≠ 0)) ∧
    Meets (.xsnap H 31 4) (sCount (crewOf [] [])) [4] (fun c _ => (portOf c 31).handle = 0) ∧
    (let o := { op0 .xcounter with reqs := [wait0 (.xsnap 1) 4] }
     Arrives (stOp o) 32 9 1 (crewOp o) o (wait0 (.xsnap 1) 4) ∧ Unordered (stOp o) (crewOp o)) := by
  refine ⟨meets_of ?_, meets_of ?_, meets_of ?_, meets_of ?_, meets_of ?_, arrives_of rfl rfl rfl ?_, unordered_small _⟩
    <;> decide

/-- A layout record of two dimensions, 4 by 3 elements of four bytes from 0x10100, at 0x10000. -/
def record (dims : Nat) : List Word :=
  [BitVec.ofNat 64 (2 * 2 ^ 60 + dims * 2 ^ 57 + 0x10100), 0, 0x300000004, 0, 0, 0x400000001, 0, 0]

/-- The small state with that record. -/
def sRec (dims : Nat) (c : Crew) : State :=
  let s := mapLeaf (stOf c) leafAll
  { s with mem := cellsPut s.mem (dramBase 0 + 0x10000) (wordsBytes (record dims)) }

/-- A crew that names 0x10000 in w4, with port q0 bound. -/
def crewQ : Crew := { crewOf [0, 0, 0, 0, 0x10000] [0, 0, 0, 0, 0x10000] with ports := [(0, port0 4)] }

/-- What a layout record reads as for STRM. -/
def layB (s : State) (c : Crew) (q : BitVec 2) (p : State → List Word → Bool) : Bool :=
  match layRead { (issueCtx (.strm H q 4) s c).w with lanes := oneLane 0 } .load 0x10000 (startOf s c) with
  | .ok s1 ws => p s1 ws
  | _ => false

theorem witness_Streams :
    Meets (.strm H 3 4) (stOf (crewOf [] [])) [4] (fun c act => regW c (lowLane act) 4 = 0) ∧
    Meets (.strm H 0 4) (stOf (crewOf [0, 0, 0, 0, 63] [])) [4] (fun c act => (regW c (lowLane act) 4).toNat % 64 ≠ 0) ∧
    Meets (.strm H 0 4) (sRec 2 crewQ) [4] (fun c _ => layB (sRec 2 crewQ) c 0 (fun s1 ws =>
      decide (mget s1.crews 32 = some c) && decide (ws = record 2)) = true) ∧
    Meets (.strm H 0 4) (sRec 6 crewQ) [4] (fun c _ => layB (sRec 6 crewQ) c 0 (fun s1 ws =>
      decide (mget s1.crews 32 = some c) && decide (ws = record 6)) = true) ∧
    Meets (.strms H 0 4 4) (stOf crewQ) [4] (fun c _ => (portOf c 28).handle ≠ 0) ∧
    Meets (.strms H 3 4 0) (stOf crewQ) [4] (fun c _ => (portOf c 31).handle = 0) ∧
    Meets (.strmsRd H 27 0 4) (stOf crewQ) [] (fun c _ => (portOf c 28).handle ≠ 0) ∧
    Meets (.strmsRd H 27 3 0) (stOf crewQ) [] (fun c _ => (portOf c 31).handle = 0) ∧
    Meets (.layh H 4) (stOf crewQ) [4] any ∧ Meets (.layhAll H) (stOf crewQ) [] any ∧
    (port0 4).pos = [0, 0, 0, 0, 0] ∧ (port0 4).ext = [4, 1, 1, 1, 1] := by
  refine ⟨meets_of ?_, meets_of ?_, meets_of ?_, meets_of ?_, meets_of ?_, meets_of ?_, meets_of ?_, meets_of ?_,
    meets_of ?_, meets_of ?_, ?_, ?_⟩ <;> decide +kernel

/-! ### Landing counters and engines -/

/-- The small state with landing counter 3 of core 5. -/
def sLand (c : Crew) (k : LCtr) : State := { stOf c with lctrs := [(5 * 64 + 3, k)] }

/-- Landing counter 3 in both threads. -/
def crewL : Crew := crewOf [0, 0, 0, 0, 3, 8] [0, 0, 0, 0, 0x43, 9]

theorem witness_LandingCounters :
    Meets (.lcset H 7 4 5) (stOf crewL) [4, 5] any ∧ Meets (.lcsetZ H 1 4 5) (sLand crewL (LCtr.zero 2)) [4, 5] any ∧
    Meets (.lcsetFree H 1 4) (sLand crewL (LCtr.zero 1)) [4] any ∧
    Meets (.lcwait H 4 0) (stOf crewL) [4] (fun _ _ => mget (stOf crewL).lctrs (5 * 64 + 3) = none) ∧
    Meets (.lcwait H 4 1) (sLand crewL { LCtr.zero 1 with expect := 8, landed := 7 }) [4] any ∧
    Meets (.lcwait H 4 0) (sLand crewL { LCtr.zero 1 with expect := 8, landed := 8, err := true }) [4] any ∧
    Meets (.lcwait H 4 1) (sLand crewL { LCtr.zero 1 with expect := 8, landed := 8 }) [4] any ∧
    Meets (.lcrd H 27 4 1) (sLand crewL (LCtr.zero 2)) [4] any := by
  refine ⟨meets_of ?_, meets_of ?_, meets_of ?_, meets_of ?_, meets_of ?_, meets_of ?_, meets_of ?_, meets_of ?_⟩
    <;> decide

/-- COPY of four bytes from 0x10000 to 0x10100, in w4 to w11. -/
def copyWords : List Word := [4, 0x10000, 0x10100, 0, 0, 0, 0, 0]
/-- A crew that pushes it. -/
def crewPush : Crew := crewOf ([0, 0, 0, 0] ++ copyWords) ([0, 0, 0, 0] ++ copyWords)

/-- What PUSH to a queue comes to. -/
def pushB (s : State) (c : Crew) (act : Mask) (queue : Nat) (p : State → List Nat → Option PushStop → Bool) : Bool :=
  let r := pushLanes (issueCtx (.push H 1 4 (BitVec.ofNat 2 queue)) s c) queue
    (fun l => (List.range 8).map fun k => regW c l (4 + k)) (lanesOf act) (startOf s c)
  p r.1 r.2.1 r.2.2

/-- The small state with a leaf of type 7: the unit's own share, of 64 KiB. -/
def sShare (c : Crew) : State :=
  { stOf c with
    mem := [(dram + 7, 0x10), (dram + 8, 0xE3), (dram + 9, 1), (dram + 15, 0x70)]
    units := [(1, { un0 with shareSize := 65536 })] }

/-- A kicked list of core 5 at 0x10000 in the share. -/
def list0 : KList :=
  { core := 5, uid := 1, lid := 3, slot := 7, lane := 0, addr := 0x10000, left := 2, bump := none, sem := 0
    crew := 32, kseq := 4, pages := [] }

/-- A step of the request reader's entry. -/
def entryB (s : State) (k : KList) : Bool :=
  let w : Who := { job := jobOf s k.lid, core := 5, uid := k.uid, lid := k.lid, slot := k.slot
                   lanes := 0, priv := false, cmd := 0, host := false }
  match vread w .engRead false k.addr 64 s with
  | .ok s1 bytes =>
    match takeCmd s1
       { core := k.core, uid := k.uid, lid := k.lid, slot := k.slot, lane := k.lane, crew := k.crew
         pseq := k.kseq, rel := decide (2 ≤ k.sem) || ((bytesWords 8 bytes).getD 0 0).getLsbD 51 }
       (fun _ => false) 0 (bytesWords 8 bytes) with
    | .ok _ => true
    | _ => false
  | _ => false

/-- An ordered launch whose crew has a store in flight that is not translated yet. -/
def sLate : State :=
  { mapLeaf (stOf { crewPush with ops := [{ op0 .st with accs := [{ lane := 0, va := 0x20000, n := 1, op := .write [1] }] }] })
      leafAll with
    launches := [(3, { la0 with words := la0.words.set 2 ((la0.words.getD 2 0) ||| 0x10000000000) })] }

theorem witness_EngineQueues :
    (Meets (.push H 1 4 0) (stOf crewPush) [4, 5, 6, 7, 8, 9, 10, 11] (fun c act =>
      pushB (stOf crewPush) c act 0 (fun s1 left e => decide (mget s1.crews 32 = some c) && decide (left = []) &&
        e.isNone) = true)) ∧
    (Meets (.push H 1 4 3) (stOf crewPush) [4, 5, 6, 7, 8, 9, 10, 11] (fun _ act =>
      ((stOf crewPush).hostQ.filter fun e => decide (e.1 = 0)).length + (lanesOf act).length ≤ 256)) ∧
    (Meets (.kick H 1 4 5) (sShare (crewOf [0, 0, 0, 0, 0x1FFC0, 0x40FF] [0, 0, 0, 0, 0x10040, 1])) [4, 5] (fun c act =>
      ∀ l ∈ lanesOf act, (regW c l 4).toNat % 64 = 0 ∧ (regW c l 5).toNat % 256 ≠ 0 ∧ (regW c l 5).toNat < 2 ^ 15 ∧
        (match (xlat (startOf (sShare (crewOf [0, 0, 0, 0, 0x1FFC0, 0x40FF] [0, 0, 0, 0, 0x10040, 1])) c)
          (issueCtx (.kick H 1 4 5) (sShare (crewOf [0, 0, 0, 0, 0x1FFC0, 0x40FF] [0, 0, 0, 0, 0x10040, 1])) c).w
          .engRead (regW c l 4)).2 with
        | .ok phys ty => decide (ty = 7) && (heldPart phys).any fun p => decide (p.1 = c.uid ∧ p.2.1 = 0)
        | _ => false) = true)) ∧
    (Meets (.kick H 1 4 5) (sShare (crewOf [0, 0, 0, 0, 0x10020, 1] [0, 0, 0, 0, 0x10040, 0])) [4, 5] (fun c act =>
      ∃ l ∈ lanesOf act, (regW c l 4).toNat % 64 ≠ 0)) ∧
    (Meets (.kick H 1 4 5) { sShare (crewOf [0, 0, 0, 0, 0x10000, 1] [0, 0, 0, 0, 0x10040, 1]) with mem := [] } [4, 5]
      (fun c act => c.rej = [] ∧ ∀ l ∈ lanesOf act, (regW c l 4).toNat % 64 = 0 ∧ (regW c l 5).toNat % 256 ≠ 0 ∧
        (regW c l 5).toNat < 2 ^ 15 ∧
        (match (xlat (startOf { sShare (crewOf [0, 0, 0, 0, 0x10000, 1] [0, 0, 0, 0, 0x10040, 1]) with mem := [] } c)
          (issueCtx (.kick H 1 4 5) { sShare (crewOf [0, 0, 0, 0, 0x10000, 1] [0, 0, 0, 0, 0x10040, 1]) with mem := [] } c).w
          .engRead (regW c l 4)).2 with
        | .page _ _ => true
        | _ => false) = true)) ∧
    (Meets (.push H 1 4 0) sLate [4, 5, 6, 7, 8, 9, 10, 11] (fun c act => appendsOpen c = true ∧
      pushB sLate c act 0 (fun s1 _ e => decide (serialUsed sLate c.uid ≠ serialUsed s1 c.uid) && e.isNone) = true)) ∧
    (let s : State := { sShare crewDue with klists := [list0], subj := 5 }
     s.klists.find? (fun k => decide (k.core = s.subj)) = some list0 ∧ list0.pages = [] ∧
       queueLen s s.subj 0 < 64 ∧ entryB s list0 = true) := by
  refine ⟨meets_of ?_, meets_of ?_, meets_of ?_, meets_of ?_, meets_of ?_, meets_of ?_, ?_, ?_, ?_, ?_⟩ <;> decide +kernel

/-- That COPY as core 5's first command. -/
def cmd0 : Cmd := newCmd s1 { core := 5, uid := 1, lid := 3, slot := 7, lane := 0, crew := 32, pseq := 5, rel := false } 0
  copyWords

/-- The small state with commands of core 5 and a landing counter for them. -/
def sCmd (cs : List Cmd) : State := { mapLeaf (stOf crewDue) leafAll with
  cmds := cs, lctrs := [(5 * 64, { LCtr.zero 1 with expect := 4 })] }

/-- A GATHER of one row of four bytes by the index at 0x10040, of a table with a given record. -/
def cmdG : Cmd := { cmd0 with words := [1 * 2 ^ 59 + 2 * 2 ^ 45 + 1, 0, 0x10200, 0x10040, 0x10000, 0, 0, 0] }

/-- A REGROUP of two rows by the experts at 0x10040. -/
def cmdR : Cmd := { cmd0 with words := [5 * 2 ^ 59 + 2, 0x10000, 0x10200, 0x10040, 2 ^ 33 + 4, 0x10300, 0, 0] }
/-- All of a vector has been read. -/
def fetched (r : VRes (Cmd × Option (List Byte))) : Bool :=
  match r with
  | .ok _ p => p.2.isSome
  | _ => false

theorem witness_EngineWork :
    (findCmd (sCmd [cmd0]) 5 0 = some cmd0 ∧ cmd0.queue = 0 ∧ cmd0.err = none ∧ cmd0.deferred = false ∧
      cmd0.started = false ∧ cmd0.pages = [] ∧ firstInQueue (sCmd [cmd0]) cmd0 = true ∧ cmd0.rel = false ∧
      okB (advanceCmd 0 (cmdWho (sCmd [cmd0]) cmd0 false) (cmd0.noteLate 100) (sCmd [cmd0])) = true) ∧
    cmd0.w 4 = 0 ∧
    (match engRec (cmdWho (sRec 2 crewDue) cmdG false) cmdG (some 2) (sRec 2 crewDue) with
      | .ok s0 _ => fetched (engFetch 0 (cmdWho (sRec 2 crewDue) cmdG false) cmdG 0x10040 4 s0)
      | _ => false) = true ∧
    fetched (engFetch 0 (cmdWho (sCmd [cmdR]) cmdR false) cmdR (cmdR.words.getD 3 0) (4 * cmdR.count) (sCmd [cmdR])) = true := by
  refine ⟨⟨rfl, rfl, rfl, rfl, rfl, rfl, ?_, ?_, ?_⟩, ?_, ?_, ?_⟩ <;> decide +kernel

/-- A byte to land at 0x10100. -/
def byte0 : LandB := { at_ := .va 0x10100, byte := 7, row := some 0 }
/-- The command with that byte still to land. -/
def cmdB : Cmd := { cmd0 with started := true, land := [byte0], recv := [1] }
/-- The command with nothing left to land. -/
def cmdE : Cmd := { cmd0 with started := true, total := 4, recv := [1] }
/-- A command with a deadline that has passed and a cell for its proposal at 0x10000. -/
def cmdD : Cmd := { cmd0 with words := [2 ^ 49 + 2 ^ 48 + 4, 0x10000, 0x10100, 0, 0, 10, 0x10000, 0x200000001], taken := 5 }
/-- The small state with it, where 0x10000 is mapped to flint cells. -/
def sProp : State := { mapLeaf (stOf crewDue) (9 * 2 ^ 60 + 0x10000 + 0x1F3) with cmds := [cmdD] }

theorem witness_LandingAndEnd :
    (findCmd (sCmd [cmdB]) 5 0 = some cmdB ∧ cmdB.err = none ∧ cmdB.deferred = false ∧ cmdB.pages = [] ∧
      cmdB.dueAt 100 = false ∧ cmdB.land[0]? = some byte0 ∧ cmdB.recv = [1] ∧ cmdB.rows = false ∧
      (cmdB.landing 0 1).1 = [byte0] ∧
      (let r := landList (cmdWho (sCmd [cmdB]) cmdB false) cmdB.lane (landRuns [byte0]) (sCmd [cmdB]) []
       r.2.1 = [byte0] ∧ r.2.2.1 = [] ∧ r.2.2.2.isNone = true)) ∧
    (findCmd (sCmd [cmdE]) 5 0 = some cmdE ∧ cmdE.recv = [1] ∧ cmdE.todo = [] ∧ cmdE.land = [] ∧ cmdE.prop = false ∧
      cmdE.adds = [] ∧ cmdE.isColl = false ∧ mget (sCmd [cmdE]).units 1 = some un0 ∧
      mget (sCmd [cmdE]).lctrs (5 * 64 + cmdE.lc) = some { LCtr.zero 1 with expect := 4 }) ∧
    (findCmd sProp 5 0 = some cmdD ∧ cmdD.dueAt 100 = true ∧ cmdD.pages = [] ∧
      okB (proposeCmd (cmdWho sProp cmdD false) { cmdD with late := true, pages := [] }
        (putCmd sProp { cmdD with late := true })) = true) := by
  refine ⟨⟨rfl, rfl, rfl, rfl, ?_, rfl, rfl, ?_, ?_, ?_, ?_, ?_⟩, ⟨rfl, rfl, rfl, rfl, ?_, rfl, ?_, rfl, ?_⟩, rfl, ?_, rfl, ?_⟩
    <;> decide +kernel

/-! ### The Granite bank -/

/-- The small unit with columns 2 and 5 and plane 1. -/
def unCol : UnitSt := { un0 with cols := [2, 5], planes := 2 }
/-- The small state with that unit. -/
def sCol (c : Crew) : State := { mapLeaf (withSlots (stOf c) 5 0xF0001) leafAll with units := [(1, unCol)] }
/-- A crew of two threads with words in w1 and w2. -/
def crewG (x y : Word) : Crew := crewOf [0, x, y, 0] [0, 1, 2, 3]
/-- The small crew with lane 1 alone. -/
def crewOne : Crew := { crewOf [] [] with th := [(1, thread [0, 1])] }

theorem witness_GraniteTraps :
    (∃ h, graniteNeeds sApart un0 (.rls H) = some h ∧ Meets (.rls H) sApart [] (fun c act =>
      mget sApart.units c.uid = some un0 ∧ liveMask c &&& ~~~act ≠ 0)) ∧
    (graniteNeeds (stOf (crewG 0 0)) un0 (.accz H 1) = some (false, false) ∧ Meets (.accz H 1) (stOf (crewG 0 0)) []
      (fun c act => mget (stOf (crewG 0 0)).units c.uid = some un0 ∧ liveMask c = act)) ∧
    (graniteNeeds (stOf crewOne) un0 (.bptr H 1 1) = some (true, true) ∧ Meets (.bptr H 1 1) (stOf crewOne) []
      (fun c act => mget (stOf crewOne).units c.uid = some un0 ∧ liveMask c = act ∧ inMask act 0 = false)) := by
  refine ⟨⟨_, rfl, meets_of ?_⟩, ⟨?_, meets_of ?_⟩, ?_, meets_of ?_⟩ <;> decide +kernel

/-- Another unit of the core holds seven columns. -/
def sTaken : State := { stOf (crewG 0 0) with
  units := [(1, un0), (2, { un0 with cols := [0, 1, 2, 3, 4, 5, 6] })] }

theorem witness_Reservations :
    (Meets (.resvW H 1 4 2) (sCol (crewG 0 0)) [] (fun c act => mget (sCol (crewG 0 0)).units c.uid = some unCol ∧
      liveMask c = act ∧ (graniteNeeds (sCol (crewG 0 0)) unCol (.resvW H 1 4 2)).any (·.2) = true ∧
      resvPick (startOf (sCol (crewG 0 0)) c) unCol 4 = some [0, 1])) ∧
    (Meets (.resv H 7 2 0) sTaken [] (fun c act => mget sTaken.units c.uid = some un0 ∧
      liveMask c = act ∧ (graniteNeeds sTaken un0 (.resv H 7 2 0)).any (·.2) = true ∧
      resvPick (startOf sTaken c) un0 2 = none)) ∧
    Meets (.rls H) (sCol (crewG 0 0)) [] (fun c act => mget (sCol (crewG 0 0)).units c.uid = some unCol ∧
      liveMask c = act) := by
  refine ⟨meets_of ?_, meets_of ?_, meets_of ?_⟩ <;> decide +kernel


theorem witness_CordInstructions :
    (Meets (.guard H 1 1) (sCol (crewG 0 0)) [] (fun c act =>
      mget (sCol (crewG 0 0)).units c.uid = some unCol ∧ liveMask c = act) ∧
     Meets (.guardReg H 1 0) (sCol (crewG 0x3F40 0)) [1] (fun c act =>
      mget (sCol (crewG 0x3F40 0)).units c.uid = some unCol ∧ liveMask c = act ∧ inMask act 0 = true ∧
      ((regW c 0 1).extractLsb' 0 7).toNat = 64 ∧ ((regW c 0 1).extractLsb' 8 6).toNat = 63) ∧
     Meets (.guardReg H 1 0) (sCol (crewG 0x404 0)) [1] (fun c act =>
      mget (sCol (crewG 0x404 0)).units c.uid = some unCol ∧ liveMask c = act ∧ inMask act 0 = true ∧
      ((regW c 0 1).extractLsb' 0 7).toNat = 4 ∧ ((regW c 0 1).extractLsb' 8 6).toNat = 4) ∧
     Meets (.bptr H 1 2) (sCol (crewG 0x7FF 3)) [1, 2] (fun c act =>
      mget (sCol (crewG 0x7FF 3)).units c.uid = some unCol ∧ liveMask c = act ∧ inMask act 0 = true) ∧
     Meets (.bptrRd H 27) (sCol (crewG 0 0)) [] (fun c act =>
      mget (sCol (crewG 0 0)).units c.uid = some unCol ∧ liveMask c = act)) ∧
    (Meets (.pack H 15 1 2 0) (sCol (crewG 0xFF00 0)) [1, 2] (fun c act =>
      mget (sCol (crewG 0xFF00 0)).units c.uid = some unCol ∧ liveMask c = act ∧ c.width = 16 ∧ c.guard = 7 ∧
      ∀ l ∈ lanesOf act, ((packPlace 0 64 l).isSome && (packVal 5 0 (((regW c l 2).setWidth 8).toInt + expoOf
        (sCol (crewG 0xFF00 0)) c 0) (regW c l 1)).all fun v => decide (v.1 < -256 ∨ 256 ≤ v.1)) = false) ∧
     Meets (.pack H 15 1 2 0) (sCol (crewG 0x100 0)) [1, 2] (fun c act =>
      mget (sCol (crewG 0x100 0)).units c.uid = some unCol ∧ liveMask c = act ∧
      ((packPlace 0 64 0).isSome && (packVal (slotOf (sCol (crewG 0x100 0)) c 0).1 c.hint.mode
        (((regW c 0 2).setWidth 8).toInt + expoOf (sCol (crewG 0x100 0)) c 0) (regW c 0 1)).all fun v =>
          decide (v.1 < -256 ∨ 256 ≤ v.1)) = true ∧ packPlace 0 64 0 = some 0) ∧
     Meets (.unpk H 27 15 2 1) (sCol (crewG 0 0)) [2] (fun c act =>
      mget (sCol (crewG 0 0)).units c.uid = some unCol ∧ liveMask c = act)) ∧
    (Meets (.kext H 27 14 1 1) (sCol (crewG 0x3FF 0)) [1] (fun c act =>
      mget (sCol (crewG 0x3FF 0)).units c.uid = some unCol ∧ liveMask c = act) ∧
     Meets (.ksls H 14 0 1 1) (sCol (crewG 0x200 0)) [1] (fun c act =>
      mget (sCol (crewG 0x200 0)).units c.uid = some unCol ∧ liveMask c = act ∧ inMask act 0 = true) ∧
     Meets (.kadd H 15 15 15 0) (sCol (crewG 0 0)) [] (fun c act =>
      mget (sCol (crewG 0 0)).units c.uid = some unCol ∧ liveMask c = act ∧ c.cords = []) ∧
     Meets (.kadd H 15 1 1 0) (sCol { crewG 0 0 with cords := [(1, 0x7FFF)] }) [] (fun c act =>
      mget (sCol (crewG 0 0)).units c.uid = some unCol ∧ liveMask c = act ∧
      placeOf 16 (cordOfCrew c 1) 0 = 2 ^ 15 - 1)) := by
  refine ⟨⟨meets_of ?_, meets_of ?_, meets_of ?_, meets_of ?_, meets_of ?_⟩, ⟨meets_of ?_, meets_of ?_, meets_of ?_⟩,
    meets_of ?_, meets_of ?_, meets_of ?_, meets_of ?_⟩ <;> decide +kernel

theorem witness_CordLoadsAndStores :
    (Meets (.kld H 15 1) (sCol (crewG 0x10080 0)) [1] (fun c act =>
      mget (sCol (crewG 0x10080 0)).units c.uid = some unCol ∧ liveMask c = act ∧ inMask act 0 = true ∧
      (memAddr c 0 1).toNat % 128 = 0) ∧
     Meets (.kst H 0 1) (sCol (crewG 0x10040 0)) [1] (fun c act =>
      mget (sCol (crewG 0x10040 0)).units c.uid = some unCol ∧ liveMask c = act ∧ inMask act 0 = true ∧
      (memAddr c 0 1).toNat % 128 ≠ 0) ∧
     Meets (.kldB H 0 1) (sCol (crewG 0x7FF0001 0)) [1] (fun c act =>
      mget (sCol (crewG 0x7FF0001 0)).units c.uid = some unCol ∧ liveMask c = act ∧ inMask act 0 = true ∧
      (regW c 0 1).toNat % 8 < unCol.cols.length ∧
      (regW c 0 1).toNat = ((regW c 0 1).extractLsb' 16 11).toNat * 2 ^ 16 + (regW c 0 1).toNat % 8) ∧
     Meets (.kstB H 0 1) (sCol (crewG 0x7FF0001 0)) [1] (fun c act =>
      mget (sCol (crewG 0x7FF0001 0)).units c.uid = some unCol ∧ liveMask c = act ∧ inMask act 0 = true ∧
      (regW c 0 1).toNat % 8 < unCol.cols.length ∧ c.ops = [] ∧
      eccBad (sCol (crewG 0x7FF0001 0)) (columnOf c.uid (unCol.cols.getD 1 0) + 128 * 0x7FF) 128 = false ∧
      isWeight (columnOf c.uid (unCol.cols.getD 1 0) + 128 * 0x7FF) = false) ∧
     Meets (.kstB H 0 1) (sCol (crewG 0x10002 0)) [1] (fun c act =>
      mget (sCol (crewG 0x10002 0)).units c.uid = some unCol ∧ liveMask c = act ∧ inMask act 0 = true ∧
      unCol.cols.length ≤ (regW c 0 1).toNat % 8) ∧
     Meets (.kstB H 0 1) (sCol (crewG 0x8000001 0)) [1] (fun c act =>
      mget (sCol (crewG 0x8000001 0)).units c.uid = some unCol ∧ liveMask c = act ∧ inMask act 0 = true ∧
      (regW c 0 1).toNat % 8 < unCol.cols.length ∧
      (regW c 0 1).toNat ≠ ((regW c 0 1).extractLsb' 16 11).toNat * 2 ^ 16 + (regW c 0 1).toNat % 8)) ∧
    (let o : Op := { op0 (.kld 3 16) with reqs := [{ req0 1 .read .done (bytesOf 128 5) with n := 128 }] }
     mget (stOp o).crews 32 = some (crewOp o) ∧ o ∈ (crewOp o).ops ∧ (∀ p ∈ (crewOp o).ops, p.id = o.id → p = o) ∧
       o.done = false ∧ o.accs = [] ∧ o.dsts = [] ∧ inMask o.active 0 = true ∧ o.kind = .kld 3 16) := by
  refine ⟨⟨meets_of ?_, meets_of ?_, meets_of ?_, meets_of ?_, meets_of ?_, meets_of ?_⟩,
    rfl, ?_, ?_, rfl, rfl, rfl, ?_, rfl⟩
    <;> decide +kernel

theorem witness_MultiplyAccumulate :
    (Meets (.mulkS H 1 1) (sCol (crewG 3 0)) [1] (fun c act =>
      mget (sCol (crewG 3 0)).units c.uid = some unCol ∧ liveMask c = act ∧ 4 ≤ c.width ∧ c.width ≤ 64 ∧
      unCol.cols.Nodup ∧ (∀ j ∈ unCol.cols, j < 8) ∧ unCol.planes.getLsbD 1 = true ∧ c.quiet = false ∧
      ∀ col ∈ unCol.cols, presentAll (startOf (sCol (crewG 3 0)) c) (columnOf c.uid col + 128 * c.bptr) 128 = true ∧
        eccBad (sCol (crewG 3 0)) (columnOf c.uid col + 128 * c.bptr) 128 = false)) ∧
    (Meets (.mulkC H 14 0 15) (sCol (crewG 0 0)) [] (fun c act =>
      mget (sCol (crewG 0 0)).units c.uid = some unCol ∧ liveMask c = act ∧ c.cords = [])) ∧
    (Meets (.mulkC H 14 1 1) (sCol { crewG 0 0 with cords := [(1, 0x7FFF)] }) [] (fun c act =>
      mget (sCol (crewG 0 0)).units c.uid = some unCol ∧ liveMask c = act ∧
      placeOf 16 (cordOfCrew c 1) 0 * placeOf 16 (cordOfCrew c 1) 0 ≥ 2 ^ 15)) ∧
    (let o : Op := op0 (.mulkc 14 1 2 none)
     mget (stOp o).crews 32 = some (crewOp o) ∧ o ∈ (crewOp o).ops ∧ (∀ p ∈ (crewOp o).ops, p.id = o.id → p = o) ∧
       o.done = false ∧ o.accs = [] ∧ o.dsts = [] ∧ o.reqs = []) ∧
    (Meets (.accrd H 15 1 1) (sCol (crewG 0x11F 0)) [1] (fun c act =>
      mget (sCol (crewG 0x11F 0)).units c.uid = some unCol ∧ liveMask c = act ∧ inMask act 0 = true ∧
      ((regW c 0 1).extractLsb' 8 3).toNat < unCol.cols.length) ∧
     Meets (.accrd H 15 1 1) (sCol (crewG 0x200 0)) [1] (fun c act =>
      mget (sCol (crewG 0x200 0)).units c.uid = some unCol ∧ liveMask c = act ∧ inMask act 0 = true ∧
      unCol.cols.length ≤ ((regW c 0 1).extractLsb' 8 3).toNat) ∧
     Meets (.accrdOv H 27 1) (sCol (crewG 0 0)) [] (fun c act =>
      mget (sCol (crewG 0 0)).units c.uid = some unCol ∧ liveMask c = act) ∧
     Meets (.accz H 1) (sCol (crewG 0 0)) [] (fun c act =>
      mget (sCol (crewG 0 0)).units c.uid = some unCol ∧ liveMask c = act) ∧
     Meets (.acccv H 27 1 1 0) (sCol (crewG 0x1FF 0)) [1] (fun c act =>
      mget (sCol (crewG 0x1FF 0)).units c.uid = some unCol ∧ liveMask c = act ∧
      ∀ l ∈ lanesOf act, ((regW c l 1).extractLsb' 8 3).toNat < unCol.cols.length) ∧
     Meets (.acccv H 27 1 1 0) (sCol (crewG 0x7FF 0)) [1] (fun c act =>
      mget (sCol (crewG 0x7FF 0)).units c.uid = some unCol ∧ liveMask c = act ∧
      ∃ l ∈ lanesOf act, unCol.cols.length ≤ ((regW c l 1).extractLsb' 8 3).toNat)) := by
  refine ⟨meets_of ?_, meets_of ?_, meets_of ?_, ⟨rfl, ?_, ?_, rfl, rfl, rfl, rfl⟩, meets_of ?_, meets_of ?_,
    meets_of ?_, meets_of ?_, meets_of ?_, meets_of ?_⟩ <;> decide +kernel

/-- A store of a B-slice cord that waits for an earlier access. -/
def opCord : Op := { op0 .kst with
  reqs := [{ wait0 (.write [1]) 128 with phys := columnOf 1 5 + 128 * 0x7FF, va := 0x7FF0001, ty := tyCord }] }
/-- The small unit's crew with it. -/
def crewCord (x : Word) : Crew := { crewG x 0 with ops := [opCord] }

theorem witness_Granite_waits :
    (Meets (.rls H) (sCol (crewG 0 0)) [] (fun c _ => graniteBusy (startOf (sCol (crewG 0 0)) c) c.uid = false) ∧
      Meets (.rls H) (sCol (crewCord 0)) [] (fun c act => liveMask c = act ∧
        graniteBusy (startOf (sCol (crewCord 0)) c) c.uid = true)) ∧
    (Meets (.kstB H 0 1) (sCol (crewG 0x7FF0001 0)) [1] (fun c _ => c.ops = [] ∧ unitHere (sCol (crewG 0x7FF0001 0)) c = true) ∧
      Meets (.kstB H 0 1) (sCol (crewCord 0x7FF0001)) [1] (fun c _ =>
        ∃ p ∈ c.ops, p.priv = c.priv ∧ p.seq < (sCol (crewCord 0x7FF0001)).nextSeq ∧
          heldBy false { op0 .kst with id := 11, seq := 9 } { wait0 (.write [1]) 128 with phys := columnOf 1 5 + 128 * 0x7FF } p =
            true)) ∧
    (Meets (.mulkS H 1 1) (sCol (crewG 3 0)) [1] (fun c _ => cordStores c = false) ∧
      Meets (.mulkS H 1 1) (sCol (crewCord 3)) [1] (fun c act => liveMask c = act ∧ cordStores c = true)) ∧
    Meets (.acccv H 31 1 1 0) (sCol (crewG 0x1FF 0)) [1] (fun c act => (portOf c 31).handle = 0 ∧
      ∀ l ∈ lanesOf act, ((regW c l 1).extractLsb' 8 3).toNat < unCol.cols.length) := by
  refine ⟨⟨meets_of ?_, meets_of ?_⟩, ⟨meets_of ?_, meets_of ?_⟩, ⟨meets_of ?_, meets_of ?_⟩, meets_of ?_⟩ <;>
    decide +kernel

/-! ### Terms -/

theorem witness_TermWords :
    Meets (.tagGet H 27 1) s1 [1] any ∧ Meets (.tagVal H 27 1) s1 [1] any ∧ Meets (.tagSet H 27 1 2) s1 [1, 2] any ∧
    Meets (.mkt H 4 1 0) s1 [] any ∧
    Meets (.mkt H 4 4 1) s1 [4] (fun c act => maskOf (fun l => inMask act l && mktTakes 1 (regW c l 4)) = act) ∧
    Meets (.mkt H 4 1 2) s1 [1] (fun c act => maskOf (fun l => inMask act l && mktTakes 2 (regW c l 1)) ≠ act) ∧
    Meets (.mkt H 4 1 3) s1 [1] (fun c act => maskOf (fun l => inMask act l && mktTakes 3 (regW c l 1)) = act) ∧
    Meets (.tagSet H 4 1 7) s1 [1, 7] (fun c act =>
      maskOf (fun l => inMask act l && decide ((regW c l 7).toNat % 16 < 9)) ≠ act) := by
  refine ⟨meets_of ?_, meets_of ?_, meets_of ?_, meets_of ?_, meets_of ?_, meets_of ?_, meets_of ?_, meets_of ?_⟩
    <;> decide +kernel

/-- The bytes of a term page at 0x10000. At 0x10000 stands an unbound variable, at 0x10008 a REF to it, at 0x10010
INT 5; at 0x10018 and 0x10020 LNBs of the vectors at 0x10040, for lane 1 of this crew, and 0x10060, for another core's
crew; at 0x10080 a functor of arity 2 and at 0x10220 a choice-point frame. -/
def termPage : List Host.Cell :=
  [(dram + 0x1000A, 0x1), (dram + 0x1000F, 0x10), (dram + 0x10010, 0x5), (dram + 0x10017, 0x30), (dram +
   0x10018, 0x40), (dram + 0x1001A, 0x1), (dram + 0x1001F, 0x80), (dram + 0x10020, 0x60), (dram + 0x10022, 0x1),
   (dram + 0x10027, 0x80), (dram + 0x10040, 0x2), (dram + 0x10045, 0x7), (dram + 0x10046, 0x5), (dram + 0x10050,
   0x9), (dram + 0x10057, 0x30), (dram + 0x10060, 0x2), (dram + 0x10065, 0x7), (dram + 0x10066, 0x4), (dram +
   0x10080, 0x2), (dram + 0x10081, 0x41), (dram + 0x10087, 0x60), (dram + 0x10227, 0xE0), (dram + 0x10229, 0x1),
   (dram + 0x1022A, 0x1), (dram + 0x10231, 0x10), (dram + 0x10237, 0xE0), (dram + 0x10238, 0x40), (dram +
   0x10239, 0x2), (dram + 0x1023A, 0x1)]

/-- The small state with that page, where lane 1 alone lives with the given registers. -/
def crewT (ws : List Word) (choice : Word) : Crew := { crewOf [] [] with th := [(1, { thread ws with
  trail := 0x10240, heap := 0x10100, pdl := 0x10300, choice := choice })] }
/-- Its state. -/
def sTerm (c : Crew) : State :=
  let s := mapLeaf (stOf c) (10 * 2 ^ 60 + 0x10000 + 0x1F3)
  { s with mem := s.mem ++ termPage }

/-- Lane 1 of that crew. -/
def lane1 (c : Crew) : TLane := { x := issueCtx (.deref H 4 4) (sTerm c) c, l := 1 }
/-- The result of work that succeeds. -/
def got {α : Type} (r : VRes α) : Option α :=
  match r with
  | .ok _ a => some a
  | _ => none
/-- Lane 1's work there. -/
def lane1Got {α : Type} (c : Crew) (m : TLane → VM α) : Option α := got (m (lane1 c) (sTerm c))

/-- Lane 1's steps there. -/
def lane1Run {α : Type} (c : Crew) (p : TProg α) : Option α := got (p.run (tstep (lane1 c) []) (sTerm c))

/-- Work in lane 1 has left aside what the issue reads. -/
def asideB (s : State) (c : Crew) (t : State) : Bool :=
  decide (t.cycle = s.cycle ∧ t.iss = s.iss ∧ t.nextSeq = s.nextSeq + 1) &&
    (mget t.crews s.iss.crew).any fun c1 => decide (c1.region = c.region ∧ c1.core = c.core ∧ c1.slot = c.slot)

/-- Lane 1's work for an instruction is done to its end. -/
def termB (i : Instr) (s : State) (c : Crew) : Bool :=
  match termForm i with
  | none => false
  | some fm =>
    let t : TLane := { x := issueCtx i s c, l := 1 }
    match (termWork t i (fm.args c 1).1 (fm.args c 1).2).go (tdo t []) none (startOf s c) [] with
    | (u, _, .ret _) => asideB s c u
    | _ => false

theorem termB_spec {i : Instr} {s : State} {c : Crew} (h : termB i s c = true) :
    ∃ fm f m s1 c1, termForm i = some fm ∧ LanesDo (issueCtx i s c) i (fm.args c) f [1] [] (startOf s c) m s1 ∧
      Aside s c s1 c1 := by
  unfold termB at h
  split at h
  · exact nomatch h
  · next fm hf =>
    dsimp only at h
    split at h
    · next u log a hr =>
      simp only [asideB, Bool.and_eq_true, decide_eq_true_eq, Option.any_eq_true] at h
      obtain ⟨⟨h1, h2, h3⟩, c1, hc, h4, h5, h6⟩ := h
      exact ⟨fm, fun _ => a, _, u, c1, hf, ⟨u, log, hr, rfl, rfl⟩, hc, h1, h2, h3, h4, h5, h6⟩
    · exact nomatch h

/-- A term instruction meets what the statement of its work asks in lane 1. -/
def TermMeets (i : Instr) (s : State) (srcs : List Code) : Prop :=
  Meets i s srcs fun c act => maskBusy c act true false = false ∧ (lanesOf act).any (loadHeld c) = false ∧
    splitAhead s s.iss.crew = false ∧ lanesOf act = [1] ∧ termB i s c = true

/-- A crew whose registers name a REF, INT 5, a compound, a trail mark and a heap mark. -/
def crewTm : Crew := crewT [0, 0x1000000000010008, 0x3000000000000007, 0x5000000000010080, 2, 0x10240, 0x10100, 0x1004]
  0x10220

/-- A crew with a store in flight whose target is not known. -/
def crewHeld : Crew := { crewOf [] [] with ops := [{ op0 .st with active := 1, accs := [acc0 0x20000 1 (.write [1])] }] }

theorem witness_TermInstructions :
    (TermMeets (.deref H 27 1) (sTerm crewTm) [1] ∧ TermMeets (.halloc H 4 4 1 0) (sTerm crewTm) [4] ∧
     TermMeets (.func H 4 3) (sTerm crewTm) [3] ∧ TermMeets (.arg H 4 3 4 1) (sTerm crewTm) [3, 4] ∧
     TermMeets (.choice H 7) (sTerm crewTm) [7] ∧ TermMeets (.retry H 7) (sTerm crewTm) [7] ∧
     TermMeets (.retryTrust H) (sTerm crewTm) [] ∧ TermMeets (.unwind H 5) (sTerm crewTm) [5, 6] ∧
     TermMeets (.commit H 5) (sTerm crewTm) [5] ∧ TermMeets (.failb H 7) (sTerm crewTm) [] ∧
     TermMeets (.unify H 27 2 2 1) (sTerm crewTm) [2, 2] ∧ TermMeets (.unifyc H 27) (sTerm crewTm) [] ∧
     TermMeets (.bind H 4 1 2) (sTerm crewTm) [1, 2]) ∧
    Meets (.cut H 0) (sTerm crewTm) [0] (fun c act => ∀ l ∈ lanesOf act, (progTh c l).choice.toNat % 16 = 0 ∧
      regW c l 0 = 0) ∧
    Meets (.tmark H 26) (sTerm crewTm) [] (fun c act => ∀ l ∈ lanesOf act,
      (progTh c l).trail.toNat % 16 = 0 ∧ (progTh c l).heap.toNat % 8 = 0) ∧
    Meets (.deref H 4 1) (stOf { crewOf [] [] with ops := [opReq (.ld false 4) .read 4] }) [1] (fun c act =>
      maskBusy c act true false = true) ∧
    Meets (.deref H 4 1) (stOf crewHeld) [1] (fun c act => maskBusy c act true false = false ∧
      (lanesOf act).any (loadHeld c) = true) := by
  refine ⟨⟨meets_of ?_, meets_of ?_, meets_of ?_, meets_of ?_, meets_of ?_, meets_of ?_, meets_of ?_, meets_of ?_,
    meets_of ?_, meets_of ?_, meets_of ?_, meets_of ?_, meets_of ?_⟩, meets_of ?_, meets_of ?_, meets_of ?_, meets_of ?_⟩ <;>
    decide +kernel

/-- Lane 1's registers are still the crew's. -/
def tregs (t : TLane) (th : Thread) : VM Bool := fun s =>
  .ok s (decide ((mget s.crews t.x.key).map (fun c => progTh c t.l) = some th))

theorem witness_TermAccesses :
    (badWord 0x8000000000000001 = true ∧ badWord 0x3000000000000005 = false ∧ badWord 0x8000000000010040 = false ∧
      lane1Got crewTm (fun t => varRead t 0x10000) = some (0, none) ∧
      lane1Got crewTm (fun t => varRead t 0x10008) = some (0x1000000000010000, none) ∧
      lane1Got crewTm (fun t => varRead t 0x10010) = some (0x3000000000000005, none) ∧
      lane1Got crewTm (fun t => vbind (varRead t 0x10018) fun v => vbind (tload t 0x10040) fun h =>
        vbind (tload t 0x10050) fun b => vpure (v.1 >>> 60, h.extractLsb' 40 16, h.getLsbD 1, b)) =
        some (8, 0x507, true, 0x3000000000000009) ∧
      lane1Got crewTm (fun t => vbind (varRead t 0x10020) fun v => vbind (tload t 0x10060) fun h =>
        vpure (v.1 >>> 60, h.extractLsb' 40 16)) = some (8, 0x407)) ∧
    (badWord 0x7000000000010000 = false ∧ badWord 0x5000000000010080 = false ∧
      lane1Got crewTm (fun t => tload t 0x10080) = some 0x6000000000004102 ∧
      lane1Got crewTm (fun t => tload t 0x10010) = some 0x3000000000000005) ∧
    (TRegs (lane1 crewTm) (sTerm crewTm) (progTh crewTm 1) ∧
      lane1Run crewTm (choiceLane 0x1004) = some () ∧
      (lane1Got crewTm (fun t => vbind (tload t 0x10220) fun w => vbind (tregs t (progTh crewTm 1)) fun b =>
        vpure (w &&& (2 ^ 57 - 1), b)) = some (0, true)) ∧
      TRegs (lane1 (crewT [] 0)) (sTerm (crewT [] 0)) (progTh (crewT [] 0) 1) ∧ (progTh (crewT [] 0) 1).choice = 0) ∧
    (lane1Got crewTm (fun t => vbind ((deref t 0x1000000000010008 0).run (tstep t [])) fun x =>
        vbind ((deref t 0x3000000000000007 8).run (tstep t [])) fun y =>
        vbind (tload t 0x10000) fun z => vbind (tregs t (progTh crewTm 1)) fun b => vbind (tload t 0x10300) fun low =>
        vbind (tatomic t 0x10000 fun o => if o = 0 then some 0x3000000000000007 else none) fun old =>
        vbind (tregs t (progTh crewTm 1)) fun b2 => vbind (tstore t 0x10240 (BitVec.ofNat 64 (2 ^ 56 + 0x2000))) fun _ =>
        vbind (tstore t 0x10248 0) fun _ => vpure (decide (x.w = 0x1000000000010000 ∧ x.g = none) &&
        decide (y.w = 0x3000000000000007 ∧ y.at_ = 8) && decide (z = 0 ∧ low = 0 ∧ old = 0) && b && b2)) = some true) := by
  refine ⟨⟨?_, ?_, ?_, ?_, ?_, ?_, ?_, ?_⟩, ⟨?_, ?_, ?_, ?_⟩, ⟨⟨crewTm, ?_, rfl⟩, ?_, ?_, ⟨crewT [] 0, ?_, rfl⟩, rfl⟩, ?_⟩
    <;> decide +kernel

/-! ### Symbols and system instructions -/

/-- A crew whose w4 names symbol 3 (pending in lane 0) and whose w5 is a form over it. -/
def crewSq (y : Nat) : Crew := { crewOf [] [] with
  th := [(0, { thread [] with rf := [(4, .known (BitVec.ofNat 64 y)), (5, .iform 3 2 1), (6, .known 9)] })]
  syms := symsTo 4 }

/-- That crew with symbol 3 faulted in lane 0. -/
def crewSqF : Crew := { crewSq 8 with
  syms := [(3, { lanes := [{ lane := 0, faulted := true, recs := [] }], arrived := 0, pc := 0xFF0, active := 1
                 cls := 9, faddr := [], due := none })] }

theorem witness_SymbolInstructions :
    Meets (.symq H 27) (stOf (crewSq 3)) [] (fun c _ => c.syms.all (fun p => decide (p.1 < 16)) = true) ∧
    Meets (.symqR H 4 5) (stOf (crewSq 3)) [] any ∧
    Meets (.symw H 4) (stOf (crewSq 8)) [4] (fun c act => ∃ l ∈ lanesOf act,
      (regW c (lowLane act) 4).toNat.testBit 3 = true ∧
      (c.syms.any fun p => decide (p.1 = 3) && p.2.lanes.any fun x => decide (x.lane = l) && (x.faulted == false)) = true ∧
      c.syms.all (fun p => decide (p.1 < 16)) = true) ∧
    Meets (.symw H 4) (stOf crewSqF) [4] (fun c act => regW c (lowLane act) 4 = 8 ∧ (c.syms.map (·.1)).Nodup ∧
      (∃ l ∈ lanesOf act, (c.syms.any fun p => decide (p.1 = 3) && p.2.lanes.any fun x =>
        decide (x.lane = l) && (x.faulted == true)) = true) ∧
      (c.syms.all fun p => p.2.lanes.all fun x => x.faulted) = true) ∧
    Meets (.symw H 4) (stOf (crewSq 0xFFFF0000)) [4] (fun c act => (regW c (lowLane act) 4).toNat % 2 ^ 16 = 0) ∧
    Meets (.symset H 1 2) (stOf { crewP with rt := [(0, thread [0, 3, 7])], syms := symsTo 4 }) [1, 2] (fun c act =>
      c.priv = true ∧ ∀ l ∈ lanesOf act, ∃ z, mget c.syms ((regW c (lowLane act) 1).toNat % 16) = some z ∧
        ∃ x ∈ z.lanes, x.lane = l) := by
  refine ⟨meets_of ?_, meets_of ?_, meets_of ?_, meets_of ?_, meets_of ?_, ?_⟩
  · decide
  · decide
  · decide
  · decide
  · decide
  · obtain ⟨c, act, h1, h2, h3, rfl, rfl⟩ := meets_of (i := .symset H 1 2) (srcs := [1, 2])
      (s := stOf { crewP with rt := [(0, thread [0, 3, 7])], syms := symsTo 4 })
      (P := fun c act => c.priv = true ∧ act = 1 ∧
        c = { crewP with rt := [(0, thread [0, 3, 7])], syms := symsTo 4 }) (by decide)
    refine ⟨_, _, h1, h2, h3, fun l hl => ?_⟩
    rw [show lanesOf 1 = [0] by decide] at hl
    obtain rfl := List.mem_singleton.1 hl
    exact ⟨_, rfl, _, List.mem_singleton.2 rfl, rfl⟩

/-- The crew in its routine, whose lane 0 names 0x10000 in w1. -/
def crewCtx : Crew := { crewP with rt := [(0, thread [0, 0x10000, 0x10001])] }
/-- Its state. -/
def sCtx : State := mapLeaf (stOf crewCtx) leafAll

/-- Work leaves the crew and what the issue reads as they were, and its result is as asked. -/
def leaves {α : Type} (s : State) (c : Crew) (r : VRes α) (p : α → Bool) : Bool :=
  match r with
  | .ok t a => decide (mget t.crews s.iss.crew = some c ∧ t.cycle = s.cycle ∧ t.iss = s.iss ∧
      t.nextSeq = s.nextSeq + 1) && p a
  | _ => false

/-- A graph task in the term that started the launch: a graph of one condition word at 0x10000. -/
def sTask (c : Crew) : State :=
  let s := mapLeaf (stOf c) leafAll
  { s with launches := [(3, { la0 with task := some (0, 0x10000, 0) })]
           mem := cellsPut s.mem (dramBase 0 + 0x10000) (wordsBytes [0, 0, 0, 0, 0x10080, 0, 0, 0]) }

theorem witness_ContextInstructions :
    (crewOf [3] [4]).width < 128 ∧ (crewOf [3] [4]).guard < 64 ∧ (crewOf [3] [4]).bptr < 2 ^ 11 ∧
    (∀ l, l < 2 → (progTh (crewOf [3] [4]) l).preds.getLsbD 7 = true ∧ (progTh (crewOf [3] [4]) l).fpstat.toNat < 64) ∧
    Meets (.ctxl H 2) sCtx [2] (fun c act => c.priv = true ∧ (regW c (lowLane act) 2).toNat % 256 ≠ 0) ∧
    Meets (.cflushInv H 1) sCtx [1] (fun c act => ((chain (issueCtx (.cflushInv H 1) sCtx c).w .load (List.range 16)
      ((lanesOf act).map fun j => regW c j 1) (startOf sCtx c)).bind fun p =>
        chain (issueCtx (.cflushInv H 1) sCtx c).w .load (List.range 16) ((lanesOf act).map fun j => regW c j 1)
          p.2).isSome = true) ∧
    (Meets (.cflushAll H) { sCtx with behind := [(dram + 0x10004, 7)] } [] (fun c _ => c.priv = true) ∧
      hasHome (dram + 0x10004) = true ∧ sCtx.ecc = []) ∧
    Meets (.cndw H 1 2) s1 [1, 2] (fun c _ => taskOf (startOf s1 c) (issueCtx (.cndw H 1 2) s1 c) = none) ∧
    Meets (.cndw H 1 2) (sTask (crewOf [] [])) [1, 2] (fun c act => maskBusy c act true true = false ∧
      taskOf (startOf (sTask (crewOf [] [])) c) (issueCtx (.cndw H 1 2) (sTask (crewOf [] [])) c) =
        some (0, 0x10000, 0)) := by
  refine ⟨?_, ?_, ?_, ?_, meets_of ?_, meets_of ?_, ⟨meets_of ?_, ?_, rfl⟩, meets_of ?_, meets_of ?_⟩ <;> decide +kernel


/-! ### A context image in a page that stays mapped -/

/-- The TLB entry of that page in core 5. -/
def pageEnt : TlbEnt := { core := 5, job := 0, va := 0x10000, bits := 16, pte := BitVec.ofNat 64 leafAll }

/-- The state of `sCtx` with the page in the TLB. -/
def sImage : State := { sCtx with tlb := [pageEnt] }

/-- The machine is that of `sImage` but for the page's bytes. -/
structure Page (s : State) : Prop where
  rest : ∃ m b k, s = { startOf sImage crewCtx with mem := m, behind := b, tokens := k }
  tables : ∀ a, a < dramBase 0 + 0x10000 → cellGet s.mem a = cellGet sCtx.mem a

/-- The privileged crew of lane 0. -/
def whoCtx : Who := (issueCtx (.ctxs H 1) sImage crewCtx).w

theorem Page.entry {s : State} (h : Page s) (a : Nat) (ha : a + 8 ≤ dramBase 0 + 0x10000) : rd64 s a = rd64 sCtx a := by
  have : cellsGet s.mem a 8 = cellsGet sCtx.mem a 8 := by
    apply List.ext_getElem (by simp [cellsGet_length])
    intro i h1 h2
    rw [cellsGet_length] at h1
    have e1 := cellsGet_getD s.mem a 8 i h1
    have e2 := cellsGet_getD sCtx.mem a 8 i h1
    rw [h.tables _ (by omega)] at e1
    simpa [List.getD_eq_getElem?_getD, h1, h2, cellsGet_length] using e1.trans e2.symm
  simp [rd64, rd, this]

theorem Page.root {s : State} (h : Page s) : ctxW s 0 0 = 0 := by obtain ⟨m, b, k, rfl⟩ := h.rest; rfl

theorem Page.noEcc {s : State} (h : Page s) (a n : Nat) : eccBad s a n = false := by
  have : s.ecc = [] := by obtain ⟨m, b, k, rfl⟩ := h.rest; rfl
  simp [eccBad, this]

theorem Page.walks {s : State} (h : Page s) (va : Nat) (h1 : 0x10000 ≤ va) (h2 : va < 0x20000) :
    walk s 0 0 va = .leaf leafAll (some (dramBase 0 + 8)) 16 := by
  have d : dramBase 0 = 1099511627776 := by decide
  have k4 : va / 2 ^ 48 % 512 = 0 := by omega
  have k3 : va / 2 ^ 39 % 512 = 0 := by omega
  have k2 : va / 2 ^ 30 % 512 = 0 := by omega
  have k1 : va / 2 ^ 21 % 512 = 0 := by omega
  have k0 : va / 2 ^ 16 % 32 = 1 := by omega
  have e1 : rd64 s (dramBase 0) = ptePointer 0 := by rw [h.entry _ (by omega)]; decide +kernel
  have e0 : rd64 s (dramBase 0 + 8) = leafAll := by rw [h.entry _ (by omega)]; decide +kernel
  have step : ∀ n tbl e t, rd64 s (tbl + 8 * (va / 2 ^ (12 + 9 * (n + 1)) % 512)) = e →
      pteFaults e = false → bitAt e 8 = false → tableAt 0 e = some t →
      walkFrom s 0 va (n + 2) tbl = walkFrom s 0 va (n + 1) t := by
    intro n tbl e t he f1 f2 ht
    rw [walkFrom]
    simp only [show n + 1 ≠ 0 by omega, if_false, he, f1, f2, ht, h.noEcc]
    simp
  have root : dramBase 0 + bits (ctxW s 0 0).toNat 56 12 * 2 ^ 12 = dramBase 0 := by rw [h.root]; decide
  have small : bits (ctxW s 0 0).toNat 56 12 * 2 ^ 12 < 2 ^ 36 := by rw [h.root]; decide
  unfold walk
  rw [if_pos small]
  have next : tableAt 0 (ptePointer 0) = some (dramBase 0) := by decide
  rw [root, step 3 _ _ _ (by rw [show 12 + 9 * (3 + 1) = 48 from rfl, k4]; exact e1) (by decide) (by decide) next,
    step 2 _ _ _ (by rw [show 12 + 9 * (2 + 1) = 39 from rfl, k3]; exact e1) (by decide) (by decide) next,
    step 1 _ _ _ (by rw [show 12 + 9 * (1 + 1) = 30 from rfl, k2]; exact e1) (by decide) (by decide) next,
    step 0 _ _ _ (by rw [show 12 + 9 * (0 + 1) = 21 from rfl, k1]; exact e1) (by decide) (by decide) next, walkFrom]
  simp only [if_true, k0, e0]
  rw [h.noEcc, if_neg (by decide), if_neg (by decide), if_pos (by decide), if_neg (by decide)]

theorem Page.noOwner {s : State} (h : Page s) (va ty : Nat) : ownerAc s whoCtx va ty = s := by
  obtain ⟨m, b, k, rfl⟩ := h.rest
  rfl

theorem Page.xlat {s : State} (h : Page s) (k : AccKind) (hk : k = .load ∨ k = .store) (va : Word) (h1 : 0x10000 ≤ va.toNat)
    (h2 : va.toNat < 0x20000) : xlat s whoCtx k va = (s, .ok (dramBase 0 + va.toNat) 1) := by
  have tl : s.tlb = [pageEnt] := by obtain ⟨m, b, k, rfl⟩ := h.rest; rfl
  have t0 : va.toNat / 2 ^ 16 = 1 := by omega
  have find : tlbFinds s 5 0 va.toNat = [pageEnt] := by
    simp only [tlbFinds, tl, List.filter, pageEnt, t0]
    decide
  have leaf : leafFor s whoCtx va.toNat = (s, .leaf leafAll (some (dramBase 0 + 8)) 16) := by
    have w : walk s whoCtx.job (stackOf whoCtx.core) va.toNat = .leaf leafAll (some (dramBase 0 + 8)) 16 :=
      h.walks _ h1 h2
    have f : tlbFinds s whoCtx.core whoCtx.job va.toNat = [pageEnt] := find
    unfold leafFor
    simp only [w, f]
    rfl
  have fill : tlbFill s 5 0 va.toNat 16 leafAll = s := by
    have : (s.tlb.filter fun t => !(decide (t.core = 5) && decide (t.job = 0) &&
        (decide (va.toNat / 2 ^ t.bits = t.va / 2 ^ t.bits) || decide (va.toNat / 2 ^ 16 = t.va / 2 ^ 16)))) = [] := by
      rw [tl]; simp [pageEnt, show va.toNat / 65536 = 1 by omega]
    unfold tlbFill
    rw [this, t0]
    show ({ s with tlb := [pageEnt] } : State) = s
    rw [← tl]
  have ac : setAcDt s (some (dramBase 0 + 8)) leafAll k = s := by rcases hk with rfl | rfl <;> rfl
  have a : pteAddr leafAll / 2 ^ 16 * 2 ^ 16 + va.toNat % 2 ^ 16 = va.toNat := by
    have : pteAddr leafAll = 0x10000 := by decide
    omega
  have tgt : targetOf s whoCtx leafAll 16 va.toNat = .ok (dramBase 0 + va.toNat) 1 := by
    unfold targetOf
    simp only [a, show pteType leafAll = 1 by decide]
    rw [if_neg (by decide), if_pos (by omega)]
    rfl
  have spent : spendWalk s whoCtx va.toNat = s := by
    unfold spendWalk
    rw [if_pos (.inl (by rw [show tlbFinds s whoCtx.core whoCtx.job va.toNat = [pageEnt] from find]; simp))]
  unfold Sys2Proof.Machine.xlat
  rw [if_neg (by omega), spent, leaf]
  simp only [tgt]
  rw [if_neg (by rcases hk with rfl | rfl <;> decide), ac]
  rw [show tlbFill s whoCtx.core whoCtx.job va.toNat 16 leafAll = s from fill, h.noOwner]

theorem Page.own {s : State} (h : Page s) (va : Nat) : sharing s whoCtx va 1 = .own := by
  have : mget s.launches whoCtx.lid = some la0 := by obtain ⟨m, b, k, rfl⟩ := h.rest; rfl
  unfold sharing
  simp only [this]
  rw [if_pos (by decide)]

theorem Page.spends {s : State} (h : Page s) (a : Nat) :
    Page (spendAccess s whoCtx a) ∧ (spendAccess s whoCtx a).mem = s.mem := by
  have : spendAccess s whoCtx a = { s with tokens := (spendAccess s whoCtx a).tokens } := by
    unfold spendAccess spend
    cases heldPart a <;> simp only [] <;> split <;> split <;> rfl
  rw [this]
  obtain ⟨⟨m, b, k, rfl⟩, ht⟩ := h
  exact ⟨⟨⟨_, _, _, rfl⟩, ht⟩, rfl⟩

theorem Page.reached {s : State} (a : Nat) (h1 : a < 0x20000) : unreachable s (dramBase 0 + a) = false := by
  have d : dramBase 0 = 1099511627776 := by decide
  have p : peerOf (dramBase 0 + a) = none := by
    unfold peerOf
    rw [if_neg]
    omega
  simp [unreachable, p]

theorem Page.reads {s : State} (h : Page s) (va : Word) (n : Nat) (h1 : 0x10000 ≤ va.toNat) (h2 : va.toNat < 0x20000) :
    ∃ t, vreadPart whoCtx .load false va n s = .ok t (cellsGet s.mem (dramBase 0 + va.toNat) n) ∧ Page t ∧
      t.mem = s.mem := by
  obtain ⟨hp, hm⟩ := h.spends (dramBase 0 + va.toNat)
  exact ⟨_, by simp [vreadPart, vbind, vxlat, h.xlat .load (.inl rfl) va h1 h2, h.own, readTgt, hp.noEcc,
    Page.reached _ h2, rd, hm], hp, hm⟩

theorem Page.writes {s : State} (h : Page s) (lane : Nat) (va : Word) (data : List Byte) (h1 : 0x10000 ≤ va.toNat)
    (h2 : va.toNat < 0x20000) : ∃ t, vwritePart whoCtx .store false lane va data s = .ok t () ∧ Page t := by
  have d : dramBase 0 = 1099511627776 := by decide
  have nw : isWeight (dramBase 0 + va.toNat) = false := by
    have : dramBase 0 + 0x20000 ≤ wsBase 0 := by decide
    simp only [isWeight, decide_eq_false_iff_not]
    omega
  obtain ⟨hp, hm⟩ := h.spends (dramBase 0 + va.toNat)
  refine ⟨wr (spendAccess s whoCtx (dramBase 0 + va.toNat)) (dramBase 0 + va.toNat) data, ?_, ?_, fun a ha => ?_⟩
  · simp [vwritePart, vbind, vxlat, h.xlat .store (.inr rfl) va h1 h2, h.own, writeTgt, hp.noEcc, nw, Page.reached _ h2]
  · obtain ⟨m, b, k, e⟩ := hp.rest
    rw [e]
    exact ⟨_, _, _, rfl⟩
  · show cellGet (cellsPut _ _ data) a = _
    rw [cellGet_cellsPut, if_neg (by omega), hp.tables a ha]

/-- Parts that lie in the page. -/
def Inside (ps : List (Word × Nat)) : Prop := ∀ p ∈ ps, 0x10000 ≤ p.1.toNat ∧ p.1.toNat < 0x20000

theorem Page.chains {s : State} (h : Page s) (k : AccKind) (hk : k = .load ∨ k = .store) :
    ∀ ps : List (Word × Nat), Inside ps → Translates whoCtx k [1, 2, 5] (ps.map (·.1)) s
      (ps.map fun p => dramBase 0 + p.1.toNat) s
  | [], _ => ⟨rfl, rfl⟩
  | p :: ps, hp => by
    obtain ⟨h1, h2⟩ := hp p List.mem_cons_self
    exact ⟨s, _, 1, _, h.xlat k hk p.1 h1 h2, by decide, rfl, h.chains k hk ps fun q hq => hp q (List.mem_cons_of_mem _ hq)⟩

theorem Page.readAll : ∀ {s : State} (_ : Page s) (_ : ∀ a, dramBase 0 + 0x10000 ≤ a → cellGet s.mem a = 0)
    (ps : List (Word × Nat)) (acc : List Byte), Inside ps → (∀ b ∈ acc, b = 0) →
    ∃ t bytes, vfold (fun acc p => vbind (vreadPart whoCtx .load false p.1 p.2) fun b => vpure (acc ++ b)) acc ps s =
      .ok t bytes ∧ Page t ∧ ∀ b ∈ bytes, b = 0
  | s, h, _, [], acc, _, ha => ⟨s, acc, rfl, h, ha⟩
  | s, h, z, p :: ps, acc, hp, ha => by
    obtain ⟨h1, h2⟩ := hp p List.mem_cons_self
    have zero : ∀ b ∈ cellsGet s.mem (dramBase 0 + p.1.toNat) p.2, b = 0 := by
      intro b hb
      obtain ⟨i, hi, rfl⟩ := List.mem_iff_getElem.1 hb
      have hi' := hi
      rw [cellsGet_length] at hi'
      have := cellsGet_getD s.mem (dramBase 0 + p.1.toNat) p.2 i hi'
      rw [z _ (by omega)] at this
      simpa [List.getD_eq_getElem?_getD, hi] using this
    obtain ⟨u, e, hu, hm⟩ := h.reads p.1 p.2 h1 h2
    obtain ⟨t, bytes, hb, ht, hz⟩ := readAll hu (by rw [hm]; exact z) ps
      (acc ++ cellsGet s.mem (dramBase 0 + p.1.toNat) p.2) (fun q hq => hp q (List.mem_cons_of_mem _ hq))
      (fun b hb => (List.mem_append.1 hb).elim (ha b) (zero b))
    exact ⟨t, bytes, by simpa [vfold, vbind, e, vpure] using hb, ht, hz⟩

theorem Page.writeAll (lane : Nat) : ∀ {s : State} (_ : Page s) (ps : List (Word × Nat)) (data : List Byte), Inside ps →
    ∃ t rest, vfold (fun (rest : List Byte) (p : Word × Nat) =>
      vbind (vwritePart whoCtx .store false lane p.1 (rest.take p.2)) fun _ => vpure (rest.drop p.2)) data ps s =
      .ok t rest ∧ Page t
  | s, h, [], data, _ => ⟨s, data, rfl, h⟩
  | s, h, p :: ps, data, hp => by
    obtain ⟨h1, h2⟩ := hp p List.mem_cons_self
    obtain ⟨u, e, hu⟩ := h.writes lane p.1 (data.take p.2) h1 h2
    obtain ⟨t, rest, e', ht⟩ := writeAll lane hu ps (data.drop p.2) (fun q hq => hp q (List.mem_cons_of_mem _ hq))
    exact ⟨t, rest, by simpa [vfold, vbind, e, vpure] using e', ht⟩

theorem inside_image : Inside (parts 0x10000 8448) := by
  have : (parts 0x10000 8448).all (fun p => decide (0x10000 ≤ p.1.toNat ∧ p.1.toNat < 0x20000)) = true := by
    decide +kernel
  intro p hp
  exact of_decide_eq_true (List.all_eq_true.1 this p hp)

theorem page_start : Page (startOf sImage crewCtx) := ⟨⟨_, _, _, rfl⟩, fun _ _ => rfl⟩

theorem Page.aside {s : State} (h : Page s) : Aside sImage crewCtx s crewCtx := by
  obtain ⟨m, b, k, rfl⟩ := h.rest
  exact ⟨rfl, rfl, rfl, rfl, rfl, rfl, rfl⟩

theorem natOf_zero : ∀ l : List Byte, (∀ b ∈ l, b = 0) → natOf l = 0
  | [], _ => rfl
  | b :: l, h => by
    rw [natOf, natOf_zero l fun x hx => h x (List.mem_cons_of_mem _ hx), h b List.mem_cons_self]
    rfl

theorem wordsBytes_length : ∀ ws : List Word, (wordsBytes ws).length = 8 * ws.length
  | [] => rfl
  | w :: ws => by
    simp only [wordsBytes, List.length_append, List.length_cons, wordsBytes_length ws, bytesOf, List.length_nil]
    omega

theorem bytesWords_zero : ∀ (n : Nat) (l : List Byte) (i : Nat), (∀ b ∈ l, b = 0) → (bytesWords n l).getD i 0 = 0
  | 0, _, _, _ => rfl
  | n + 1, l, 0, h => by
    show wordOf (l.take 8) = 0
    rw [wordOf, natOf_zero _ fun b hb => h b (List.mem_of_mem_take hb)]
    rfl
  | n + 1, l, i + 1, h => by
    show (bytesWords n (l.drop 8)).getD i 0 = 0
    exact bytesWords_zero n _ i fun b hb => h b (List.mem_of_mem_drop hb)

theorem vwrite_of_fold {w : Who} {k : AccKind} {strict : Bool} {lane : Nat} {va : Word} {data rest : List Byte} {n : Nat}
    {s t : State} (hn : data.length = n) (h : vfold (fun (rest : List Byte) (p : Word × Nat) =>
      vbind (vwritePart w k strict lane p.1 (rest.take p.2)) fun _ => vpure (rest.drop p.2)) data (parts va n) s =
      .ok t rest) : vwrite w k strict lane va data s = .ok t () := by
  subst hn
  unfold vwrite
  rw [vbind, h]
  rfl

theorem vread_of_fold {w : Who} {k : AccKind} {waits : Bool} {va : Word} {n : Nat} {s t : State} {bytes : List Byte}
    (h : vfold (fun acc p => vbind (vreadPart w k waits p.1 p.2) fun b => vpure (acc ++ b)) [] (parts va n) s =
      .ok t bytes) : vread w k waits va n s = .ok t bytes := h

theorem image_words : (crewImage crewCtx).length = 1056 := by decide +kernel

theorem page_empty (a : Nat) (h : dramBase 0 + 0x10000 ≤ a) : cellGet (startOf sImage crewCtx).mem a = 0 := by
  have d : dramBase 0 = 1099511627776 := by decide
  have m : (startOf sImage crewCtx).mem.all (fun p => decide (p.1 < dramBase 0 + 0x10000)) = true := by decide +kernel
  generalize (startOf sImage crewCtx).mem = l at m ⊢
  induction l with
  | nil => rfl
  | cons p l ih =>
    simp only [List.all_cons, Bool.and_eq_true, decide_eq_true_eq] at m
    rw [cellGet, if_neg (by omega), ih m.2]

/-- The hypotheses of CTXS and CTXL at an aligned address of a mapped page. -/
theorem witness_ContextImages :
    Meets (.ctxs H 1) sImage [1] (fun c act => c = crewCtx ∧ lowLane act = 0 ∧ regW c 0 1 = 0x10000) ∧
    Meets (.ctxl H 1) sImage [1] (fun c act => c = crewCtx ∧ lowLane act = 0 ∧ regW c 0 1 = 0x10000) ∧
    crewCtx.priv = true ∧ (issueCtx (.ctxs H 1) sImage crewCtx).w = whoCtx ∧ (issueCtx (.ctxl H 1) sImage crewCtx).w = whoCtx ∧
    (∀ k, k = .load ∨ k = .store → ∃ ps, Translates whoCtx k [1, 2, 5] ((parts 0x10000 8448).map (·.1))
      (startOf sImage crewCtx) ps (startOf sImage crewCtx)) ∧
    (∃ t, vwrite whoCtx .store false 0 0x10000 (wordsBytes (crewImage crewCtx)) (startOf sImage crewCtx) = .ok t () ∧
      Aside sImage crewCtx t crewCtx) ∧
    ∃ t bytes, vread whoCtx .load false 0x10000 8448 (startOf sImage crewCtx) = .ok t bytes ∧
      Aside sImage crewCtx t crewCtx ∧ ∀ j, j < 32 →
        ((bytesWords 1056 bytes).getD (32 * j + 28) 0).toNat % 4 = 0 ∧
        ((bytesWords 1056 bytes).getD (32 * j + 29) 0).toNat % 4 = 0 := by
  refine ⟨meets_of (by decide +kernel), meets_of (by decide +kernel), rfl, rfl, rfl,
    fun k hk => ⟨_, page_start.chains k hk _ inside_image⟩, ?_, ?_⟩
  · have len : (wordsBytes (crewImage crewCtx)).length = 8448 := by
      rw [wordsBytes_length, image_words]
    obtain ⟨t, rest, e, ht⟩ := page_start.writeAll 0 (parts 0x10000 8448) (wordsBytes (crewImage crewCtx)) inside_image
    exact ⟨t, vwrite_of_fold len e, ht.aside⟩
  · obtain ⟨t, bytes, e, ht, z⟩ := page_start.readAll page_empty (parts 0x10000 8448) [] inside_image (by simp)
    exact ⟨t, bytes, vread_of_fold e, ht.aside, fun j _ => by
        rw [bytesWords_zero _ _ _ z, bytesWords_zero _ _ _ z]; decide⟩
theorem witness_Cancelling :
    (∀ lvl ∈ [0, 1, 2, 3, 4, 7], Meets (.cancel H lvl) (sTask (crewOf [] [])) [] any) ∧
    Meets (.cancel H 2) s1 [] (fun c _ => taskOf (startOf s1 c) (issueCtx (.cancel H 2) s1 c) = none ∧
      phaseAt (startOf s1 c) (issueCtx (.cancel H 2) s1 c) = none) ∧
    (un0.isOver = false ∧ un0.cancelled = false ∧ ¬(un0.res = .saving ∨ un0.res = .swapped ∨ un0.res = .restoring)) ∧
    (mget (stOp opNew).units 1 = some un0 ∧ ∃ p ∈ (stOp opNew).crews, p.2.uid = 1 ∧ ∃ o ∈ p.2.ops, o.done = false ∧
      ∃ a ∈ o.accs, a.op.writes = true) ∧
    (mget (stOf (crewOf [] [])).units 1 = some un0 ∧ (stOf (crewOf [] [])).cmds = [] ∧
      (∀ p ∈ (stOf (crewOf [] [])).crews, p.2.ops = [] ∧ p.2.syms = [] ∧
        mget (stOf (crewOf [] [])).crews p.1 = some p.2)) := by
  refine ⟨fun l h => ?_, meets_of (by decide), by decide, by decide +kernel, by decide⟩
  simp only [List.mem_cons, List.not_mem_nil, or_false] at h
  rcases h with rfl | rfl | rfl | rfl | rfl | rfl <;> exact meets_of (by decide +kernel)

/-! ### Units, graphs, collectives, the host -/

/-- A launch that waits for admission to an idle package. -/
def sWait : State := { State.reset with
  launches := [(3, { la0 with admitted := [], units := [] })], nextLid := 4 }

theorem witness_Admission :
    (∃ l, mget sWait.launches 3 = some l ∧ admissible sWait 3 0 [255] = true ∧ l.crews ≤ 32) ∧
    admissible sWait 3 0 [256] = false := by
  refine ⟨⟨_, rfl, ?_, ?_⟩, ?_⟩ <;> decide +kernel

/-- The launch with a word replaced. -/
def laW (i : Nat) (w : Nat) : Launch := { la0 with words := la0.words.set i (BitVec.ofNat 64 w) }

/-- A crew whose threads have ended. -/
def crewOver : Crew := { crewOf [] [] with th := [(0, { thread [] with live := false }), (1, { thread [] with live := false })] }

/-- Unit 1 of a launch, with that crew. -/
def sOver (l : Launch) (u : UnitSt) : State :=
  { mapLeaf (stOf crewOver) leafAll with launches := [(3, l)], units := [(1, u)], subj := 1 }

/-- An ordered launch: word 2 with ORD. -/
def laOrd : Launch := laW 2 (2 ^ 40 + 32 * 2 ^ 20)
/-- A unit that has drained, with a serial buffer. -/
def unSer (l : List SerEntry) : UnitSt := { un0 with ctr := 0, ended := true, serial := l }

theorem witness_UnitsComplete :
    (s1.units ≠ [] ∧ mget { s1 with subj := 1 }.units 1 = some un0 ∧ unitDrained s1 1 = false) ∧
    (let l := laW 19 (2 ^ 56 + 2)
     let u : UnitSt := { un0 with cancelled := true }
     u.isOver = false ∧ (sOver l u).walks = [] ∧ 2 ≤ l.count ∧ workDone (sOver l u) 1 = true ∧
       workDone { sOver l u with crews := [(32, crewOp opNew)] } 1 = false) ∧
    (unitDrained (sOver laOrd { un0 with ctr := 0 }) 1 = true ∧ laOrd.ordered = true) ∧
    (let l := laW 19 (2 ^ 56 + 2)
     unitDrained (sOver l { un0 with ctr := 0 }) 1 = true ∧ l.ordered = false ∧ l.words.length = 32 ∧ 2 ≤ l.count) ∧
    (phaseUnit (sOver laOrd (unSer [])) laOrd = some 1 ∧ laOrd.pages = []) ∧
    phaseUnit (sOver laOrd (unSer [.count 5 2 7])) laOrd = some 1 ∧
    (let e : SerEntry := .store 0 0x10000 [1, 2] 7 0
     let s := sOver laOrd (unSer [e])
     phaseUnit s laOrd = some 1 ∧
     (match serialWork (phaseWho s (unSer [e]) 1 e.place.1 e.place.2.1) e s with
       | .ok t _ => decide (mget t.units 1 = some (unSer [e]))
       | _ => false) = true) ∧
    phaseUnit (sOver laOrd un0) laOrd ≠ some 1 ∧
    (let l := { laW 16 0x10000 with poolReady := false }
     let s := sOver { l with words := l.words.set 17 5 } un0
     (match readPool { job := 0, core := 0, uid := 0, lid := 3, slot := 0, lanes := 0, priv := false, cmd := 0
                       host := false } { l with words := l.words.set 17 5 } s with
       | .ok t b => decide (t.launches = s.launches) && decide (b.length = 2)
       | _ => false) = true) := by
  refine ⟨⟨?_, ?_, ?_⟩, ?_, ⟨?_, ?_⟩, ⟨?_, ?_, ?_, ?_⟩, ⟨?_, ?_⟩, ?_, ⟨?_, ?_⟩, ?_, ?_⟩ <;> decide +kernel

/-- A swappable launch, and a launch that waits for admission and needs the whole scratchpad. -/
def laSwap : Launch := laW 2 (2 ^ 41 + 32 * 2 ^ 20)
/-- That one: priority 9. -/
def laBig : Launch :=
  { la0 with words := la0.words.set 2 (BitVec.ofNat 64 (9 * 2 ^ 32 + 32 * 2 ^ 20 + 2048)), admitted := [], units := [], seq := 4 }
/-- Core 5 alone, with unit 1 of the first and the other launch waiting. -/
def sBusy (u : UnitSt) : State :=
  { stOf (crewOf [] []) with
    launches := [(3, laSwap), (4, laBig)], units := [(1, u)], subj := 1, swapth := 100
    part := { PartCfg.full with cores := 32 } }

/-- Cores 5 and 8, of two hardware clusters: two units stand on the first and one on the second. -/
def sTwo : State :=
  let u : UnitSt := { un0 with shareSize := 128 }
  { sBusy u with
    units := [(1, u), (2, { u with cluster := 1, slots := [8], shareBase := 128 }), (3, { u with cluster := 2, core := 8 })]
    part := { PartCfg.full with cores := 288 } }

/-- A crew that waits for three columns. -/
def crewWants (uid idx : Nat) : Crew := { crewOf [] [] with uid := uid, slot := idx
                                                            th := [(0, { thread [] with park := .resv 6 0 1 })] }
/-- Two units of core 5 that each hold columns and wait for more. -/
def sDead : State :=
  { stOf (crewOf [] []) with
    units := [(1, { un0 with cols := [0, 1, 2] }), (2, { un0 with cluster := 1, cols := [3, 4, 5], slots := [8] })]
    crews := [(32, crewWants 1 7), (64, crewWants 2 8)], subj := 5 }

/-- A unit in its swap image, with landing counter 3. -/
def unSaved : UnitSt := { un0 with res := .swapped, lcs := [(3, LCtr.zero 1)], cols := [2] }

theorem witness_UnitsLeave :
    (laSwap.swappable = true ∧ laBig.waiting = true ∧
      mget (sBusy { un0 with clock := 101 }).units 1 = some { un0 with clock := 101 } ∧
      (sBusy un0).swapth.toNat % 2 ^ 32 = 100) ∧
    (2 ≤ (deadUnits sDead 5).length ∧ noGrant sDead 5 = true ∧
      ∀ u ∈ coreUnits sDead 5, u.res ≠ .draining ∧ u.res ≠ .saving) ∧
    canPlace sWait 3 { la0 with admitted := [], units := [] } 0 = true ∧ laBig.waits 1 = false ∧
    (canPlace (sBusy { un0 with shareSize := 128 }) 4 laBig 0 = false ∧ laBig.waits 0 = true ∧
      (laBig.unitsLeft 0).length = 1 ∧
      ((List.range 32).all fun h => !roomWithout (sBusy { un0 with shareSize := 128 }) 4 laBig 1 h []) = true ∧
      preemptSet (sBusy { un0 with shareSize := 128 }) 4 laBig 1 0 = some [1] ∧
      bestSet (sBusy { un0 with shareSize := 128 }) 4 laBig 1 0 [1] = true) ∧
    (preemptSet sTwo 4 laBig 1 0 = some [2, 1] ∧ bestSet sTwo 4 laBig 1 0 [2, 1] = false ∧
      ((List.range 32).all fun h => !roomWithout sTwo 4 laBig 1 h []) = true ∧ canPlace sTwo 4 laBig 0 = false) ∧
    (unitQuiet (sBusy { un0 with res := .draining }) 1 = true ∧
      unitQuiet { sBusy { un0 with res := .draining } with crews := [(32, crewOp { op0 .st with accs := [acc0 0 1 (.write [1])] })] } 1
        = false ∧
      resvWaiters (sBusy { un0 with res := .saving }) 5 = []) ∧
    (let s := { sBusy unSaved with launches := [(3, laSwap)], crews := [(32, crewOf [3] [4])] }
     restorable s unSaved = true ∧ firstRestore s 1 unSaved = true ∧ admitBefore s unSaved = false ∧
       (∀ p ∈ unSaved.lcs, p.1 < 64) ∧ (unSaved.lcs.map (·.1)).Nodup) ∧
    restorable (sBusy un0) un0 = false ∧
    (∀ p ∈ (sBusy { un0 with res := .restoring }).crews, p.2.disp = none) := by
  refine ⟨⟨?_, ?_, rfl, ?_⟩, ⟨?_, ?_, ?_⟩, ?_, ?_, ⟨?_, ?_, ?_, ?_, ?_, ?_⟩, ⟨?_, ?_, ?_, ?_⟩, ⟨?_, ?_, ?_⟩, ⟨?_, ?_, ?_, ?_, ?_⟩, ?_, ?_⟩ <;> decide +kernel

/-- Entry 3 of job 0's fault queue. -/
def entry3 (served : Bool) : FaultEnt := { job := 0, words := [], ring := some 3, served := served, rejected := false }
/-- A crew whose lane 1 waits for it, with one result from the last instruction. -/
def crewPage : Crew := { crewOf [] [] with
  th := [(0, thread []), (1, { thread [] with park := .page [4] })]
  pend := [{ lane := 0, tgt := .reg 5 (.known 6), seq := 8, due := 104, born := 99 }] }
/-- Its state. -/
def sPage (served : Bool) : State := { stOf crewPage with faults := [(4, entry3 served)], subj := 32, compat := [(5, 0x120)] }

theorem witness_ReplayAndRouting :
    (ringEntry (sPage true) 0 3 (·.served) = some (4, entry3 true) ∧ mget (sPage true).faults 4 = some (entry3 true) ∧
      (sPage true).walks = [] ∧ (∀ p ∈ (sPage true).crews, ∀ o ∈ p.2.ops, o.accs = []) ∧
      (thOf crewPage 1).park = .page [4]) ∧
    ringEntry (sPage false) 0 3 (·.served) = none ∧
    (mget (sPage false).crews 32 = some crewPage ∧ (mgetD (sPage false).compat crewPage.core 0).getLsbD 8 = true ∧
      (∀ p ∈ crewPage.pend, p.seq + 1 = (sPage false).nextSeq ∧ p.tgt = .reg 5 (.known 6))) ∧
    (mgetD s1.compat 5 0).getLsbD 8 = false := by
  refine ⟨⟨rfl, rfl, rfl, ?_, rfl⟩, rfl, ⟨rfl, ?_, ?_⟩, ?_⟩ <;> decide +kernel

/-- A member of a collective of two ranks and one launch, of a kind, with elements of four bytes. -/
def member (kind rank src : Nat) : Cmd := { cmd0 with
  words := [BitVec.ofNat 64 (kind * 2 ^ 59 + 2 * 2 ^ 45 + 2), BitVec.ofNat 64 src, 0x10200,
    BitVec.ofNat 64 (2 + rank * 2 ^ 16), 0x77, 1, 0, 0]
  queue := 1, seq := rank, joined := true }
/-- The small state with two of them. -/
def sColl (kind : Nat) : State :=
  let s := mapLeaf (stOf crewDue) leafAll
  { s with cmds := [member kind 0 0x10000, member kind 1 0x10100]
           launches := [(3, laW 1 (2 ^ 58 + 2 ^ 48 + 2 ^ 32 + 2 ^ 16 + 2))]
           mem := cellsPut s.mem (dramBase 0 + 0x10100) [1, 2, 3, 4] }

theorem witness_Collectives :
    (∀ kind ∈ [8, 9, 10, 11, 12],
      groupCmds (sColl kind) 0 0x77 = [member kind 0 0x10000, member kind 1 0x10100] ∧
      (∀ c ∈ [member kind 0 0x10000, member kind 1 0x10100], c.joined = true ∧
        collAgree (sColl kind) (member kind 0 0x10000) c = true ∧ c.rank < (member kind 0 0).collP ∧ c.kind = kind) ∧
      (member kind 0 0).collP = 2 ∧ (member kind 0 0).collP ≤ (member kind 0 0).nl * clustersOf (sColl kind) 3 ∧
      ((sColl kind).cmds.map fun c => (c.core, c.seq)).Nodup ∧ findColl (sColl kind) 0 0x77 = none ∧
      (match pickSources 0 [member kind 0 0x10000, member kind 1 0x10100]
          (putColl (sColl kind) { job := 0, group := 0x77, lids := [3] }) with
        | CollRead.ok t srcs => decide (t.cmds = (sColl kind).cmds) && decide (srcs.length = 2)
        | _ => false) = true) ∧
    (let c := { member 8 0 0 with words := (member 8 0 0).words.set 3 0 }
     let s := { sColl 8 with cmds := [c] }
     groupCmds s 0 0x77 = [c] ∧ c.collP = 0 ∧ c.kind = 8 ∧ c.joined = true) ∧
    (member 8 0 0).esz = 4 := by
  refine ⟨?_, ?_, ?_⟩ <;> decide +kernel

/-- A graph of two tasks at 0x10000: task 0 without predecessors, task 1 with one; their state as given. -/
def sGraph (gst st0 : Nat) : State :=
  let s := mapLeaf (stOf (crewOf [] [])) leafAll
  let gs : List Host.Cell := if gst = 0 then [] else [(dram + 0x10004, BitVec.ofNat 8 gst)]
  { s with
    bootst := 4
    mem := s.mem ++ (dram + 0x10000, 2) :: gs ++ [(dram + 0x10008, 2), (dram + 0x10046, 5),
      (dram + 0x10047, BitVec.ofNat 8 (0x30 + st0)), (dram + 0x10049, 1), (dram + 0x1004A, 1), (dram + 0x10082, 1),
      (dram + 0x10084, 1), (dram + 0x10087, 0x30)]
    graphs := [{ stack := 0, job := 0, header := 0x10000, ready := [(0, 5, false)], ran := [0], parent := none }] }

/-- A command for it from the control window. -/
def cmdGr (task : Nat) : GraphCmd :=
  { job := 0, stack := 0, addr := 0x10000, task := task, queued := false, core := 0, slot := 0, lane := 0, id := 0
    uid := 0 }

/-- Work fails with a class and an address. -/
def failsB {α : Type} (r : VRes α) : Bool :=
  match r with
  | .err .. => true
  | _ => false

theorem witness_GraphCommands :
    ((sGraph 0 0).walks = [] ∧ okB (graphCommand (cmdGr 0) 0 (sGraph 0 0)) = true ∧
      okB (graphCommand (cmdGr 0) 1 (sGraph 2 4)) = true ∧ okB (graphCommand (cmdGr 0) 2 (sGraph 2 4)) = true ∧
      okB (graphCommand (cmdGr 0) 3 (sGraph 1 2)) = true ∧ failsB (graphCommand (cmdGr 0) 3 (sGraph 3 3)) = true) ∧
    (let c := { cmdGr 0 with queued := true }
     (({ sGraph 0 0 with graphQ := [(0, c)] }).graphQ.find? fun q => decide (q.2.stack = c.stack)) = some (0, c)) ∧
    ((sGraph 1 1).graphs.find? (fun r => r.is 0 0x10000) =
        some { stack := 0, job := 0, header := 0x10000, ready := [(0, 5, false)], ran := [0], parent := none } ∧
      okB (takeReady { stack := 0, job := 0, header := 0x10000 } (sGraph 1 1)) = true) ∧
    (got (gstate (graphAt (cmdGr 0)) (sGraph 1 4)) = some 1 ∧ got (gstate (graphAt (cmdGr 0)) (sGraph 3 4)) = some 3 ∧
      got (gstate (graphAt (cmdGr 0)) (sGraph 4 4)) = some 4 ∧
      got (gtasks (graphAt (cmdGr 2)) (sGraph 1 4)) = some 2 ∧
      got (vbind (gtasks (graphAt (cmdGr 0))) (fun _ => tstatus (graphAt (cmdGr 0)) 0) (sGraph 1 4)) = some 4 ∧
      got (vbind (gtasks (graphAt (cmdGr 0))) (fun _ => tstatus (graphAt (cmdGr 0)) 0) (sGraph 1 2)) = some 2) ∧
    ((sGraph 1 4).bootst = 4 ∧ (stOf (crewOf [] [])).bootst ≠ 4 ∧
      (graphOn (sGraph 1 4) { cmdGr 0 with stack := 1 }).stack = 0 ∧
      okB (graphCommand { cmdGr 0 with stack := 1 } 2 (sGraph 2 4)) = true ∧
      okB (graphCommand { cmdGr 0 with stack := 1 } 3 (sGraph 1 2)) = true) ∧
    ([(1, 5, false), (0, 4, true)] : List (Nat × Nat × Bool)).Pairwise fun a b => b.2.1 < a.2.1 ∨ (a.2.1 = b.2.1 ∧ a.1 ≤ b.1) := by
  refine ⟨⟨?_, ?_, ?_, ?_, ?_, ?_⟩, ?_, ⟨?_, ?_⟩, ⟨?_, ?_, ?_, ?_, ?_, ?_⟩, ⟨?_, ?_, ?_, ?_, ?_⟩, ?_⟩ <;> decide +kernel

theorem witness_LaunchQueueAndRings :
    (({ s1 with bootst := 4 } : State).bootst = 4 ∧ mgetD s1.lqueue 0 [] = [] ∧ State.reset.bootst ≠ 4) ∧
    ((mgetD s1.jobs 0 (jobReset 0)).length = 8 ∧ (loadRecord 3).length = 32 ∧
      ((ctxW s1 0 5).extractLsb' 32 32).toNat + 1 < 2 ^ 32 ∧ recWhy { s1 with bootst := 4 } (newLaunch { s1 with bootst := 4 } 0 ((loadRecord 3).set 19 0) none) = 0 ∧
      recWhy { s1 with bootst := 4 } (newLaunch { s1 with bootst := 4 } 0 ((loadRecord 3).set 1 0) none) ≠ 0) ∧
    (∀ p ∈ (sPage true).faults, p.2.job = 0 → p.2.ring.isSome = true ∨ p.2.served = true ∨ p.2.rejected = true) ∧
    (mget s1.launches 3 = some la0 ∧ la0.job = 0 ∧ mget la0.units 0 = some 1 ∧ mget la0.units 1 = none ∧
      la0.isOver = false ∧ la0.ending = false ∧
      mget s1.launches 4 = none) ∧
    ((sGraph 1 1).graphs.find? fun r => r.is 0 0x10008) = none ∧
    (let p : Phase := { job := 0, id := 2, stack := 0, headers := [0x10000], cur := 0, started := true, isOver := false }
     (({ s1 with phases := [p] }.phases.find? fun p => decide (p.job = 0 ∧ p.id = 2) && !p.isOver) = some p)) := by
  refine ⟨⟨?_, ?_, ?_⟩, ⟨?_, ?_, ?_, ?_, ?_⟩, ?_, ⟨rfl, rfl, rfl, rfl, rfl, rfl, rfl⟩, ?_, rfl⟩ <;> decide +kernel

theorem witness_Dispositions :
    (dispCrew (stOf crewP) 0 (5 * 64 + 7) = some (32, crewP, un0) ∧ mget (stOf crewP).crews 32 = some crewP ∧
      crewP.priv = true ∧ crewP.answered = false ∧ un0.res = .resident) ∧
    (let s := { stOf crewP with units := [(1, { un0 with res := .swapped })] }
     dispCrew s 0 (5 * 64 + 7) = some (32, crewP, { un0 with res := .swapped })) ∧
    (let c := { crewP with answered := true }
     dispCrew (stOf c) 0 (5 * 64 + 7) = some (32, c, un0)) ∧
    dispCrew s1 0 (5 * 64 + 7) = none ∧
    ringEntry (sPage false) 0 3 (fun f => !f.served && !f.rejected) = some (4, entry3 false) ∧
    ringEntry (sPage true) 0 3 (fun f => !f.served && !f.rejected) = none := by
  refine ⟨⟨?_, rfl, rfl, rfl, rfl⟩, ?_, ?_, ?_, ?_, ?_⟩ <;> decide +kernel

theorem witness_HostAccesses :
    (eccBad s1 0x100 8 = false ∧ (∀ i, i < 8 → refreshing s1 (0x100 + i) = false) ∧
      unreachable s1 0x100 = false ∧ (s1.part.ports.getLsbD 0 = true ∧ 16 ≤ s1.part.ports.toNat) ∧
      ({ s1 with part := { s1.part with ports := 0 } } : State).part.ports.getLsbD 0 = false) ∧
    (eccBad s1 (2 ^ 38 - 8) 8 = false ∧ (2 ^ 38 - 8) + 8 ≤ 2 ^ 38 ∧ ∀ c ∈ s1.behind, c.1 < 2 ^ 38 - 8 ∨ 2 ^ 38 ≤ c.1) ∧
    (wsBase 0 + 1 ≤ wsBase 4 ∧ anyRunning s1 = true ∧ anyRunning State.reset = false ∧ eccBad s1 (wsBase 0) 1 = false ∧
      wsBase 0 < cxlBase) ∧
    eccBad { s1 with ecc := [8] } 0x100 1 = true ∧
    (¬(2 ^ 38 + 1 ≤ 2 ^ 38 ∨ dramBase 0 ≤ 2 ^ 38) ∧ isDevice (2 ^ 38) = false) ∧
    (let q : List (Nat × List Word × Nat) := [(1, copyWords, 1), (0, copyWords, 2)]
     q = [(1, copyWords, 1)] ++ (0, copyWords, 2) :: [] ∧ ∀ p ∈ [(1, copyWords, 1)], p.1 ≠ 0) ∧
    (({ s1 with bootst := 4 } : State).bootst = 4 ∧ State.reset.bootst ≠ 4) ∧
    (s1.phases.all fun p => decide (p.job ≠ 0 ∨ p.id ≠ 2)) = true := by
  refine ⟨⟨?_, ?_, ?_, ?_, ?_⟩, ⟨?_, ?_, ?_⟩, ⟨?_, ?_, ?_, ?_, ?_⟩, ?_, ⟨?_, ?_⟩, ⟨rfl, ?_⟩, ⟨rfl, ?_⟩, ?_⟩ <;> decide +kernel

/-- The SHA-512 digest of the empty message, as FIPS 180-4's example gives it. -/
def emptyDigest : List Byte :=
  [0xCF, 0x83, 0xE1, 0x35, 0x7E, 0xEF, 0xB8, 0xBD, 0xF1, 0x54, 0x28, 0x50, 0xD6, 0x6D, 0x80, 0x07,
   0xD6, 0x20, 0xE4, 0x05, 0x0B, 0x57, 0x15, 0xDC, 0x83, 0xF4, 0xA9, 0x21, 0xD3, 0x6C, 0xE9, 0xCE,
   0x47, 0xD0, 0xD1, 0x3C, 0x5D, 0x85, 0xF2, 0xB0, 0xFF, 0x83, 0x18, 0xD2, 0x87, 0x7E, 0xEC, 0x2F,
   0x63, 0xB9, 0x31, 0xBD, 0x47, 0x41, 0x7A, 0x81, 0xA5, 0x38, 0x32, 0x7A, 0xF9, 0x27, 0xDA, 0x3E]

theorem test_sha512_empty : sha512 [] = emptyDigest := by decide +kernel

/-- A boot image without a body. -/
def image (kind : Nat) : BootImage :=
  { header := bytesOf 4 0x5A4C5631 ++ bytesOf 4 kind ++ bytesOf 8 7 ++ bytesOf 48 0 ++ emptyDigest
    signature := List.replicate 512 0, body := [] }

/-- The images are in order as far as a signature, which the model leaves open (log 17), allows. -/
theorem witness_BootLinksAndPower :
    imageFail { image 1 with header := [] } 1 ≠ 0 ∧
    (∀ k ∈ [1, 2, 3], imageFail (image k) k = if Config.signatureOk (image k).header (image k).signature then 0 else 3) ∧
    recordOk { PartCfg.full with cores := 0 } = true ∧ recordOk { PartCfg.full with cores := 0, pkg := 4096 } = false ∧
    State.reset.nonce = none ∧ { State.reset with nonce := some 5 }.nonce = some 5 ∧
    ({ State.reset with subj := 41 } : State).subj > 40 ∧ State.reset.subj ≤ 40 ∧
    ({ State.reset with onModule := true } : State).onModule = true ∧ State.reset.onModule = false := by
  refine ⟨?_, ?_, ?_, ?_, rfl, rfl, ?_, ?_, rfl, rfl⟩
  · decide +kernel
  · intro k hk
    have h : headerOk (image k) k = true ∧ headerDigest (image k) = sha512 (image k).body ∧
        (image k).signature.length = 512 := by
      simp only [List.mem_cons, List.not_mem_nil, or_false] at hk
      rw [show (image k).body = [] from rfl, test_sha512_empty]
      rcases hk with rfl | rfl | rfl <;> refine ⟨?_, ?_, ?_⟩ <;> decide +kernel
    unfold imageFail
    rw [h.1, h.2.1, h.2.2]
    cases Config.signatureOk (image k).header (image k).signature <;> simp
  · decide +kernel
  · decide +kernel
  · decide
  · decide

/-! ### Waits, forms, ordered launches: the clauses beside the plain case -/

/-- A crew with a port over four elements at 0x10000 and an operation in flight. -/
def crewPortOp (o : Op) : Crew := { crewOf [] [] with ports := [(0, port0 4)], ops := [o] }
/-- Its state, where 0x10000 is mapped. -/
def sPortOp (o : Op) : State := mapLeaf (stOf (crewPortOp o)) leafAll

/-- A lane's own store to the first element of that port, with a known target. -/
def opElement : Op := { op0 .st with reqs := [{ wait0 (.write [1]) 4 with phys := dram + 0x10000 }] }

theorem witness_PortSourceReads :
    Meets (.mov H 4 28) (sPortOp (opReq (.ld false 4) .read 4)) [] (fun c act => maskBusy c act true false = true) ∧
    Meets (.mov H 4 28) (sPortOp { op0 .st with accs := [acc0 0x20000 1 (.write [1])] }) [] (fun c act =>
      maskBusy c act true false = false ∧ (lanesOf act).any (loadHeld c) = true) ∧
    Meets (.mov H 4 28) (sPortOp opElement) [] (fun c act => maskBusy c act true false = false ∧
      (lanesOf act).any (loadHeld c) = false ∧ (portOf c 28).handle ≠ 0 ∧
      portRefused (issueCtx (.mov H 4 28) (sPortOp opElement) c).w .load (startOf (sPortOp opElement) c) (portOf c 28) act = 0 ∧
      portPaged (issueCtx (.mov H 4 28) (sPortOp opElement) c).w .load (startOf (sPortOp opElement) c) act (portOf c 28) =
        false ∧
      portHeld (issueCtx (.mov H 4 28) (sPortOp opElement) c).w (startOf (sPortOp opElement) c) c act (portOf c 28) = true) := by
  refine ⟨meets_of ?_, meets_of ?_, meets_of ?_⟩ <;> decide +kernel

/-- A recorded step. -/
def step0 : FStep := { op := .add, ng := false, t := 0, rnd := 0, hole := 0, known := [0x3F800000] }
/-- The crew of `crewForms` with symbol 3 alone, for which both lanes have recorded `n` chains. -/
def crewChains (a b : RegVal) (n : Nat) : Crew := { crewForms a b with
  syms := [(3, { lanes := [{ lane := 0, faulted := false, recs := List.replicate n [step0] },
                   { lane := 1, faulted := false, recs := List.replicate n [step0] }]
                 arrived := 0, pc := 0xFF0, active := 3, cls := 0, faddr := [], due := none })] }

theorem witness_FormsPassThrough_limits :
    Meets (.ffma H 5 6 4 1 0) (stOf (crewChains (.fform 3 [step0, step0]) (.known 9) 7)) [] (fun c act =>
      (mget c.syms 3).isSome = true ∧ ∀ l ∈ lanesOf act, recCount c 3 l = 7 ∧
        regOf (thOf c l) 4 = .fform 3 [step0, step0] ∧ (regOf (thOf c l) 5).symbol = none ∧
        (regOf (thOf c l) 6).symbol = none) ∧
    Meets (.fmul H 27 4 5 0) (stOf (crewChains (.fform 3 [step0, step0, step0]) (.known 9) 3)) [] (fun c act =>
      ∃ l ∈ lanesOf act, regOf (thOf c l) 4 = .fform 3 [step0, step0, step0]) ∧
    Meets (.fadd H 27 5 4 0) (stOf (crewChains (.iform 3 1 0) (.known 9) 8)) [] (fun c act =>
      ∃ l ∈ lanesOf act, (regOf (thOf c l) 4).symbol = some 3 ∧ 8 ≤ recCount c 3 l) ∧
    Meets (.fadd H 27 4 5 0) (stOf (crewChains (.iform 3 1 0) (.iform 3 1 0) 0)) [] (fun c act =>
      ∃ l ∈ lanesOf act, (regOf (thOf c l) 4).symbol ≠ none ∧ (regOf (thOf c l) 5).symbol ≠ none) ∧
    Meets (.fmul H 27 4 5 0) (stOf (crewChains (.iform 3 1 1) (.known 9) 0)) [] (fun c act =>
      ∃ l ∈ lanesOf act, regOf (thOf c l) 4 = .iform 3 1 1) ∧
    Meets (.shi H 27 4 0 63) (stOf (crewForms (.iform 3 2 7) (.known 9))) [] (fun c act =>
      ∀ l ∈ lanesOf act, regOf (thOf c l) 4 = formOf 3 2 7) ∧
    Meets (.mul H 27 4 5 1) (stOf (crewForms (.iform 3 2 7) (.iform 3 1 0))) [] (fun c act =>
      ∀ l ∈ lanesOf act, regOf (thOf c l) 4 = formOf 3 2 7 ∧ regOf (thOf c l) 5 = formOf 3 1 0) ∧
    Meets (.add H 27 4 5 0) (stOf (crewForms (.iform 3 2 7) (.known 9))) [] (fun c act =>
      ∀ l ∈ lanesOf act, regOf (thOf c l) 4 = formOf 3 2 7 ∧ regOf (thOf c l) 5 = formOf 3 0 9) := by
  refine ⟨meets_of ?_, meets_of ?_, meets_of ?_, meets_of ?_, meets_of ?_, meets_of ?_, meets_of ?_, meets_of ?_⟩ <;>
    decide +kernel

theorem witness_SymbolicLoads_routine : Meets (.ld H 27 1 0 2 1 1) (stOf crewP) [1] (fun c _ => c.priv = true) :=
  meets_of (by decide)

/-- A translation is refused by its target. -/
def refusedB (r : XRes) : Bool :=
  match r with
  | .refused .. => true
  | _ => false

theorem witness_Translation_refused :
    (let s := mapLeaf s1 (3 * 2 ^ 60 + 0x10000 + 0x1F3)
     refusedB (xlat { s with part := { s.part with ports := 0 } } (whoLane s crewDue 1 false) .load 0x10000).2 = true) ∧
    (let s := mapLeaf s1 leafAll
     refusedB (xlat { s with ecc := [(dram + 8) / 32] } (whoLane s crewDue 1 false) .load 0x10000).2 = true) := by
  refine ⟨?_, ?_⟩ <;> decide +kernel

theorem witness_SpillArea_waits :
    (let c : Crew := { crewDeep with th := [(0, { threadDeep with rf := [(3, .iform 3 1 0)] }), (1, threadDeep)] }
     Meets (.call H 1) (stOf c) [] (fun c act => (∀ l ∈ lanesOf act, (thOf c l).frame ≠ 4080) ∧
      ∃ l ∈ lanesOf act, spillSyms (issueCtx (.call H 1) (stOf c) c) (depthOf (stOf c) c) l ≠ 0)) ∧
    (let o : Op := { op0 (.ld false 4) with reqs := [wait0 .read 4], dsts := [(0, 0, 5)], la := none, flag := some 3 }
     Meets (.call H 1) (stOf { crewDeep with ops := [o] }) [] (fun c act =>
      (∀ l ∈ lanesOf act, spillSyms (issueCtx (.call H 1) (stOf c) c) (depthOf (stOf c) c) l = 0) ∧
      spillBusy c act (depthOf (stOf c) c) = true)) := by
  refine ⟨meets_of ?_, meets_of ?_⟩ <;> decide +kernel

/-- An earlier store of lane 0 to other bytes, and an atomic that goes ahead of it. -/
def opEarlier : Op := { op0 .st with id := 8, seq := 3, reqs := [{ wait0 (.write [1]) 1 with id := 2, phys := 0x200 }] }
/-- That atomic. -/
def opAtomic : Op := { op0 (.atom true true) with id := 9, seq := 5, reqs := [wait0 (.atom 0x64 true 5 0) 8] }

theorem witness_RequestsAtMemory_ahead :
    let r := wait0 (.atom 0x64 true 5 0) 8
    let c : Crew := { crewOf [] [] with ops := [opEarlier, opAtomic] }
    let s := mapLeaf (stOf c) leafAll
    mget s.crews 32 = some c ∧ opOf c 9 = some opAtomic ∧ reqOf opAtomic 1 = some r ∧ canPerform s c opAtomic r = true ∧
      ((opsBefore c opAtomic).map (storesOf r.lane)).flatten = [{ wait0 (.write [1]) 1 with id := 2, phys := 0x200 }] ∧
      opEarlier ∈ opsBefore c opAtomic ∧ opAtomic.sem < 2 := by
  refine ⟨rfl, rfl, rfl, ?_, ?_, ?_, ?_⟩ <;> decide +kernel

theorem witness_Fences_ahead :
    let q : Req := { wait0 (.write [1]) 1 with id := 2, phys := 0x200, ahead := [(4, 0x100, 8)] }
    let p : Op := { opEarlier with reqs := [q] }
    let r : Req := { wait0 .read 4 with lane := 1, phys := 0x107 }
    let o : Op := { op0 (.ld false 4) with id := 9, seq := 5, reqs := [r] }
    let c : Crew := { crewOf [] [] with ops := [p, o] }
    mget (stOf c).crews 32 = some c ∧ c.ops.find? (fun x => decide (x.id = 9)) = some o ∧
      o.reqs.find? (fun x => decide (x.id = 1)) = some r ∧ (32, c) ∈ (stOf c).crews ∧ p ∈ c.ops ∧ q ∈ p.reqs ∧
      ((4, 0x100, 8) : Nat × Nat × Nat) ∈ q.ahead ∧ 0x100 < r.phys + r.n ∧ r.phys < 0x100 + 8 ∧
      sameInstance (stOf c) 4 (whoLane (stOf c) c 0 c.priv) (whoLane (stOf c) c 0 o.priv) = true ∧ q.lane ≠ r.lane ∧
      r.op ≠ .pres := by
  refine ⟨rfl, rfl, rfl, ?_, ?_, ?_, ?_, ?_, ?_, ?_, ?_, ?_⟩ <;> decide

/-- Requests of parts of accesses that all translate, under a condition. -/
theorem reaches_with {w : Who} {k : OpKind} {ps : List (Acc × Word × Nat × AccOp)} {s : State}
    {P : List Req → State → Prop} [∀ rs t, Decidable (P rs t)]
    (h : ((reach w k ps s).any fun p => decide (P p.1 p.2)) = true) : ∃ rs t, Reaches w k ps s rs t ∧ P rs t := by
  obtain ⟨p, hp, hP⟩ := Option.any_eq_true _ _ |>.1 h
  refine ⟨p.1, p.2, ?_, of_decide_eq_true hP⟩
  clear h hP
  induction ps generalizing s p with
  | nil => cases hp; exact ⟨rfl, rfl⟩
  | cons q ps ih =>
    obtain ⟨a, va, n, op⟩ := q
    unfold reach at hp
    split at hp
    · next s1 phys ty hx =>
      split at hp
      · next hb =>
        obtain ⟨x, hx', rfl⟩ := Option.map_eq_some_iff.1 hp
        exact ⟨s1, phys, ty, x.1, hx, hb.1, hb.2, rfl, ih x hx'⟩
      · exact nomatch hp
    · exact nomatch hp

/-- An ordered launch of two units, with an ownership table at an address. -/
def laShare (own : Word) : Launch := { la0 with
  words := ((la0.words.set 1 (2 ^ 58 + 2 ^ 48 + 2 ^ 32 + 2 ^ 16 + 2)).set 2 (2 ^ 40 + 32 * 2 ^ 20)).set 14 own }

/-- The small state of that launch with one operation in flight, a leaf of a type, and a serial buffer. -/
def sShared (ty : Nat) (own : Word) (o : Op) (es : List SerEntry) (bytes : Nat) : State :=
  { mapLeaf (stOf (crewOp o)) (ty * 2 ^ 60 + 0x10000 + 0x1F3) with
    launches := [(3, laShare own)]
    units := [(1, { un0 with serial := es, serialBytes := bytes })] }

/-- What the statement of ordered requests asks of an operation, with its requests under a condition. -/
def Shared (s : State) (o : Op) (P : List Req → State → Prop) : Prop :=
  mget s.crews 32 = some (crewOp o) ∧ o ∈ (crewOp o).ops ∧ o.done = false ∧ o.accs ≠ [] ∧ o.pages = [] ∧
    mayReissue s 32 = true ∧ (crewOp o).priv = false ∧ o.priv = false ∧ mayTranslate s (crewOp o) o = true ∧
    (∀ a ∈ o.accs, accMis a = false ∧ a.lane < 32) ∧
    ∃ rs t, Reaches { whoLane s (crewOp o) o.active false with lanes := o.active } o.kind
      ((o.accs.map fun a => (accParts a).map fun p => (a, p)).flatten) s rs t ∧ P rs t

/-- The same, as a test. -/
def sharedB (s : State) (o : Op) (p : List Req → State → Bool) : Bool :=
  decide (mget s.crews 32 = some (crewOp o)) && decide (o ∈ (crewOp o).ops) && !o.done && decide (o.accs ≠ []) &&
    decide (o.pages = []) && mayReissue s 32 && !(crewOp o).priv && !o.priv && mayTranslate s (crewOp o) o &&
    (o.accs.all fun a => !accMis a && decide (a.lane < 32)) &&
    (reach { whoLane s (crewOp o) o.active false with lanes := o.active } o.kind
      ((o.accs.map fun a => (accParts a).map fun p => (a, p)).flatten) s).any fun q => p q.1 q.2

theorem shared_of {s : State} {o : Op} {P : List Req → State → Prop} [∀ rs t, Decidable (P rs t)]
    (h : sharedB s o (fun rs t => decide (P rs t)) = true) : Shared s o P := by
  unfold sharedB at h
  simp only [Bool.and_eq_true, decide_eq_true_eq, Bool.not_eq_true', List.all_eq_true] at h
  obtain ⟨⟨⟨⟨⟨⟨⟨⟨⟨⟨h1, h2⟩, h3⟩, h4⟩, h5⟩, h6⟩, h7⟩, h8⟩, h9⟩, h10⟩, h11⟩ := h
  exact ⟨h1, h2, h3, h4, h5, h6, h7, h8, h9, h10, reaches_with h11⟩

/-- Who the operation is for. -/
def whoOp (s : State) (o : Op) : Who := { whoLane s (crewOp o) o.active false with lanes := o.active }

/-- A store of four bytes, an atomic and a proposal at 0x10000. -/
def opStore : Op := { op0 .st with accs := [acc0 0x10000 4 (.write [9, 9, 9, 9])] }
/-- The atomic. -/
def opAdd : Op := { op0 (.atom true false) with accs := [acc0 0x10000 4 (.atom 0x64 false 1 0)] }
/-- The proposal. -/
def opProp : Op := { op0 .flint with accs := [acc0 0x10000 16 (.fprop 0x3000000000000005 0)] }
/-- The load. -/
def opLoad : Op := { op0 (.ld false 4) with accs := [acc0 0x10000 4 .read] }

theorem witness_OrderedRequests :
    (laShare 0).ordered = true ∧
    Shared (sShared 1 0 opNew [] (2 ^ 20 - 60)) opNew (fun rs t => rs ≠ [] ∧
      (∀ r ∈ rs, sharing t (whoOp (sShared 1 0 opNew [] (2 ^ 20 - 60)) opNew) r.va.toNat r.ty = .shared) ∧
      rs.map (·.op) = [.write [1, 2, 3, 4], .write [5, 6, 7, 8], .write [9, 9, 9, 9]] ∧
      2 ^ 20 - 60 + (16 + 4) + (16 + 4) + (16 + 4) ≤ 2 ^ 20) ∧
    Shared (sShared 1 0 opStore [] (2 ^ 20 - 19)) opStore (fun rs t => rs.length = 1 ∧ ∀ r ∈ rs,
      r.op = .write [9, 9, 9, 9] ∧ 2 ^ 20 < 2 ^ 20 - 19 + 16 + 4 ∧
      sharing t (whoOp (sShared 1 0 opStore [] (2 ^ 20 - 19)) opStore) r.va.toNat r.ty = .shared) ∧
    Shared (sShared 1 0 opLoad [] 0) opLoad (fun rs t => rs.length = 1 ∧ ∀ r ∈ rs, r.op = .read ∧
      sharing t (whoOp (sShared 1 0 opLoad [] 0) opLoad) r.va.toNat r.ty = .shared) ∧
    Shared (sShared 1 0x10000 { opStore with accs := [acc0 0x10100 4 (.write [9, 9, 9, 9])] } [] 0)
      { opStore with accs := [acc0 0x10100 4 (.write [9, 9, 9, 9])] } (fun rs t => rs.length = 1 ∧ ∀ r ∈ rs,
        sharing { t with mem := t.mem ++ [(dram + 0x10000, 1), (dram + 0x10011, 1), (dram + 0x10012, 1), (dram + 0x10018, 1),
          (dram + 0x10020, 0x80), (dram + 0x10022, 1)] }
          (whoOp (sShared 1 0x10000 opStore [] 0) opStore) r.va.toNat r.ty = .own) ∧
    Shared (sShared 1 0 opAdd [.atom (dram + 0x10000) 0x10000 0x64 true 5 0 7 0] (2 ^ 20 - 32)) opAdd (fun rs t =>
      rs.length = 1 ∧ ∀ r ∈ rs, r.op = .atom 0x64 false 1 0 ∧ r.phys % 4 = 0 ∧
      sharing t (whoOp (sShared 1 0 opAdd [.atom (dram + 0x10000) 0x10000 0x64 true 5 0 7 0] (2 ^ 20 - 32)) opAdd)
        r.va.toNat r.ty = .shared) ∧
    Shared (sShared 1 0 opAdd [] (2 ^ 20 - 31)) opAdd (fun rs _ => rs.length = 1) ∧
    Shared (sShared 9 0 opProp [] (2 ^ 20 - 32)) opProp (fun rs _ => rs.length = 1 ∧ ∀ r ∈ rs,
      r.op = .fprop 0x3000000000000005 0 ∧ wordOf (cellsGet (laShare 0).snap r.phys 8) = 0 ∧
      wordOf (cellsGet (laShare 0).snap (r.phys + 8) 8) = 0) ∧
    Shared (sShared 9 0 opProp [.prop (dram + 0x10000) 0x10000 0x3000000000000007 0 0x123456789A000000 7 1] 32) opProp
      (fun rs _ => rs.length = 1 ∧ ∀ r ∈ rs, r.phys = dram + 0x10000) := by
  refine ⟨rfl, shared_of ?_, shared_of ?_, shared_of ?_, shared_of ?_, shared_of ?_, shared_of ?_, shared_of ?_,
    shared_of ?_⟩ <;> decide +kernel

/-- A read of launch-start bytes, and one of another unit's line. -/
def readShared : Req := { wait0 .read 4 with va := 0x10100, phys := dram + 0x10100, snap := true }
/-- The line of 0x10100 belongs to unit 1 of the launch by the table at 0x10000. -/
def sForeign (o : Op) : State :=
  let s := sShared 1 0x10000 o [] 0
  { s with mem := s.mem ++ [(dram + 0x10000, 1), (dram + 0x10011, 1), (dram + 0x10012, 1), (dram + 0x10018, 1),
      (dram + 0x10020, 0x80), (dram + 0x10021, 1), (dram + 0x10022, 1), (dram + 0x10180, 1)] }

theorem witness_OrderedRequests_arrivals :
    (let o : Op := { op0 (.ld false 4) with reqs := [readShared] }
     let s := sShared 1 0 o [] 0
     Arrives s 32 9 1 (crewOp o) o readShared ∧ mget s.launches 3 = some (laShare 0) ∧
      sharing s (whoOp s o) readShared.va.toNat readShared.ty = .shared ∧ eccBad s readShared.phys 4 = false ∧
      unreachable s readShared.phys = false) ∧
    (let o : Op := { op0 (.ld false 4) with reqs := [{ readShared with snap := false }] }
     let s := sForeign o
     Arrives s 32 9 1 (crewOp o) o { readShared with snap := false } ∧
      sharing s (whoOp s o) readShared.va.toNat readShared.ty = .foreign) := by
  refine ⟨⟨⟨rfl, rfl, rfl, ?_⟩, rfl, ?_, ?_, ?_⟩, ⟨rfl, rfl, rfl, ?_⟩, ?_⟩ <;> decide +kernel

theorem witness_MisalignedRequests_flint :
    let o : Op := { op0 .flint with
      active := 3, accs := [acc0 0x10008 16 (.fread 0), { lane := 1, va := 0x10010, n := 16, op := .fread 0 }] }
    mget (stOp o).crews 32 = some (crewOp o) ∧ o.done = false ∧ o.pages = [] ∧ mayReissue (stOp o) 32 = true ∧
      Unordered (stOp o) (crewOp o) ∧ o.priv = (crewOp o).priv ∧ (∀ a ∈ o.accs, a.lane < 32) ∧
      (∃ a ∈ o.accs, a.va.toNat % 16 ≠ 0) ∧
      ∃ b ∈ o.accs, b.va.toNat % 16 = 0 ∧
        (match (xlat (stOp o) { whoOp (stOp o) o with lanes := oneLane b.lane } (accKind b.op) b.va).2 with
         | .prot => true
         | _ => false) = true := by
  refine ⟨rfl, rfl, rfl, ?_, unordered_small _, rfl, ?_, ?_, ?_⟩ <;> decide +kernel

/-! ### Waits of counters, streams, engines, terms and the routine's instructions -/

/-- The expert counters' state in an ordered launch. -/
def sCountOrd (c : Crew) (bytes : Nat) : State :=
  { sCount c with launches := [(3, laShare 0)], units := [(1, { un0 with serialBytes := bytes })] }
/-- A crew whose lanes name counters 2 and 3. -/
def crewX : Crew := crewOf [0, 0, 0, 0, 2] [0, 0, 0, 0, 3]

theorem witness_ExpertCounting_waits :
    Meets (.xcnt H 4 5) (sCount { crewX with ops := [opReq (.ld false 4) .read 4] }) [4, 5] (fun c act =>
      maskBusy c act true false = true ∧ la0.ordered = false) ∧
    Meets (.xcnt H 4 5) (sCount { crewX with ops := [opReq .st (.write [1]) 1] }) [4, 5] (fun c act =>
      maskBusy c act true false = false ∧ ∃ l ∈ lanesOf act, ∃ o ∈ c.ops, storesOf l o ≠ []) ∧
    Meets (.xcnt H 4 5) (sCountOrd { crewX with ops := [{ op0 .st with accs := [acc0 0x10000 1 (.write [1])] }] } 0) [4, 5]
      (fun c _ => c.priv = false ∧ appendsOpen c = true) ∧
    Meets (.xcnt H 4 5) (sCountOrd crewX (2 ^ 20 - 64)) [4, 5] (fun c act => appendsOpen c = false ∧
      maskBusy c act true true = false ∧ 2 ^ 20 - 64 + 32 * (lanesOf act).length ≤ 2 ^ 20 ∧
      ∀ l ∈ lanesOf act, veiled (sCountOrd crewX (2 ^ 20 - 64)) (whoLane (sCountOrd crewX (2 ^ 20 - 64)) c act c.priv)
        (some l) (xctrPlace ((counterOf (sCountOrd crewX (2 ^ 20 - 64)) c (regW c l 4)).getD 0)) 4 = false) ∧
    Meets (.xcnt H 4 5) (sCountOrd crewX (2 ^ 20 - 63)) [4, 5] (fun c act => appendsOpen c = false ∧
      2 ^ 20 < 2 ^ 20 - 63 + 32 * (lanesOf act).length) := by
  refine ⟨meets_of ?_, meets_of ?_, meets_of ?_, meets_of ?_, meets_of ?_⟩ <;> decide +kernel

theorem witness_StreamInstructions_waits :
    Meets (.strm H 0 4) (sRec 2 { crewQ with ops := [opReq (.ld false 4) .read 4] }) [4] (fun c act =>
      regW c (lowLane act) 4 ≠ 0 ∧ maskBusy c act true false = true) ∧
    Meets (.strm H 0 4) (sRec 2 { crewQ with ops := [{ op0 .st with accs := [acc0 0x20000 1 (.write [1])] }] }) [4]
      (fun c act => maskBusy c act true false = false ∧ (lanesOf act).any (loadHeld c) = true) ∧
    Meets (.strm H 0 4) (sRec 2 crewQ) [4] (fun c act => maskBusy c act true false = false ∧
      (lanesOf act).any (loadHeld c) = false ∧ c.ops = []) := by
  refine ⟨meets_of ?_, meets_of ?_, meets_of ?_⟩ <;> decide +kernel

/-- GATHER in w4 to w11, whose layout record is at an address. -/
def crewGather (rec_ : Word) : Crew :=
  let ws : List Word := [0, 0, 0, 0, 1 * 2 ^ 59 + 2 * 2 ^ 45 + 1, 0, 0x10200, 0x10040, rec_, 0, 0, 0]
  crewOf ws ws

/-- Why a PUSH waits. -/
def laterB (p : RecWait → Bool) (e : Option PushStop) : Bool :=
  match e with
  | some (.later w) => p w
  | _ => false

theorem witness_Pushing_waits :
    Meets (.push H 1 4 0) (mapLeaf (stOf (crewGather 0x40000)) leafAll) [4, 5, 6, 7, 8, 9, 10, 11] (fun c act =>
      pushB (mapLeaf (stOf (crewGather 0x40000)) leafAll) c act 0 (fun _ _ e => laterB (fun w => match w with
        | .page .. => true
        | _ => false) e) = true) ∧
    Meets (.push H 1 4 0)
      { sShared 1 0 (op0 .st) [] (2 ^ 20) with
        crews := [(32, { crewPush with ops := [] })], jobs := [], iss := { crew := 32, pc := 0x1000, start := 0x1000 } }
      [4, 5, 6, 7, 8, 9, 10, 11] (fun c act => appendsOpen c = false ∧
        pushB { sShared 1 0 (op0 .st) [] (2 ^ 20) with
          crews := [(32, { crewPush with ops := [] })], jobs := [], iss := { crew := 32, pc := 0x1000, start := 0x1000 } }
          c act 0 (fun _ _ e => match e with
            | some (.isOver _) => true
            | _ => false) = true) := by
  refine ⟨meets_of ?_, meets_of ?_⟩ <;> decide +kernel

/-- A store of lane 1 in flight to a page of terms. -/
def opTerm (at_ : Nat) : Op := { op0 .st with
  active := 2, reqs := [{ wait0 (.write [1]) 1 with lane := 1, phys := dram + at_ }] }
/-- Lane 1 of a crew with it, at an instruction after it. -/
def laneBehind (at_ : Nat) : TLane :=
  { x := issueCtx (.deref H 4 4) (sTerm { crewTm with ops := [opTerm at_] }) { crewTm with ops := [opTerm at_] }, l := 1 }

theorem witness_TermSteps :
    (mget (sTerm crewTm).crews (lane1 crewTm).x.key = some crewTm ∧ crewTm.ops = [] ∧
      ∀ d ∈ (sTerm crewTm).crews, d.2.ops = []) ∧
    (mget (sTerm { crewTm with ops := [opTerm 0x10010] }).crews (laneBehind 0x10010).x.key =
        some { crewTm with ops := [opTerm 0x10010] } ∧
      (opTerm 0x10010).seq < (laneBehind 0x10010).x.seq ∧ storesOf 1 (opTerm 0x10010) = (opTerm 0x10010).reqs ∧
      (match (xlat (sTerm { crewTm with ops := [opTerm 0x10010] }) (laneBehind 0x10010).w .termLoad 0x10010).2 with
       | .ok phys _ => (opTerm 0x10010).reqs.all fun q => meets q.phys q.n phys 8
       | _ => false) = true ∧
      (match (xlat (sTerm { crewTm with ops := [opTerm 0x10018] }) (laneBehind 0x10018).w .termWrite 0x10010).2 with
       | .ok phys _ => (opTerm 0x10018).reqs.all fun q => !meets q.phys q.n phys 8
       | _ => false) = true ∧
      ∀ p ∈ [opTerm 0x10018], ∀ q ∈ p.reqs, q.veils = []) := by
  refine ⟨⟨?_, rfl, ?_⟩, ?_, ?_, ?_, ?_, ?_, ?_⟩ <;> decide +kernel

theorem witness_ContextAndFlush_waits :
    (let o : Op := { op0 .st with priv := true, reqs := [wait0 (.write [1]) 1] }
     Meets (.ctxl H 2) (stOf { crewP with ops := [o] }) [2] (fun c act => maskBusy c act true true = true) ∧
     Meets (.ctxs H 2) (stOf crewP) [2] (fun c act => maskBusy c act true true = false ∧
      (regW c (lowLane act) 2).toNat % 256 ≠ 0)) ∧
    (let s := stOf { crewOf [0, 0x10000] [0, 0x10000] with ops := [{ op0 .st with reqs := [{ wait0 (.write [1]) 1 with
        fenced := 5 }] }] }
     Meets (.cflushWb H 1) s [1] (fun c act => ∃ l ∈ lanesOf act, ∃ o ∈ c.ops, o.priv = c.priv ∧
      ∃ q ∈ storesOf l o, 5 ≤ q.fenced)) ∧
    (let s := stOf { crewP with ops := [{ op0 .st with priv := true, reqs := [{ wait0 (.write [1]) 1 with fenced := 7 }] }] }
     Meets (.cflushAll H) s [] (fun c act => c.priv = true ∧ ∃ l ∈ lanesOf act, ∃ o ∈ c.ops, o.priv = c.priv ∧
      ∃ q ∈ storesOf l o, 5 ≤ q.fenced)) := by
  refine ⟨⟨meets_of ?_, meets_of ?_⟩, meets_of ?_, meets_of ?_⟩ <;> decide +kernel

theorem witness_LandingAndEnd_ordered :
    let c : Cmd := { cmdE with words := [2 ^ 49 + 2 ^ 48 + 4, 0x10000, 0x10100, 0, 0, 0, 0x10000, 0x200000001], err := some 0x10000 }
    let s : State := { sCmd [c] with launches := [(3, laShare 0)] }
    findCmd s 5 0 = some c ∧ c.recv = [1] ∧ c.err.isSome = true ∧ isOrdered s c.lid = true ∧ c.prop = true ∧
      c.proposed = false ∧ c.isColl = false ∧ c.deferred = false := by
  refine ⟨rfl, rfl, rfl, ?_, ?_, rfl, ?_, rfl⟩ <;> decide +kernel

/-! ## Single instructions: the specification's worked examples (07, 09, 14) -/

/-- A full crew of 32 lanes at 0x1000, with the given words in each. -/
def crewAll (f : Nat → List Word) : Crew := { crewOf [] [] with th := (List.range 32).map fun l => (l, thread (f l)) }

/-- A predicate of some lanes is set. -/
def setPred (c : Crew) (p : Nat) (lanes : List Nat) : Crew :=
  modThs c lanes fun _ t => { t with preds := t.preds ||| BitVec.ofNat 8 (2 ^ p) }

/-- The crew after an instruction. -/
def after (i : Instr) (s : State) : Option Crew :=
  match exec i s with
  | .next t => mget t.crews s.iss.crew
  | _ => none

/-- The flags that an instruction puts in flight: lane and bits. -/
def flagsOf (i : Instr) (s : State) : List (Nat × Word) :=
  ((after i s).elim [] (·.pend)).filterMap fun p => match p.tgt with
    | .flags v => some (p.lane, v)
    | _ => none

/-- The predicates that an instruction puts in flight. -/
def predsOf (i : Instr) (s : State) : List (Nat × Nat × Bool) :=
  ((after i s).elim [] (·.pend)).filterMap fun p => match p.tgt with
    | .pred n b => some (p.lane, n, b)
    | _ => none

-- 07, "Division by zero and the one overflow"
theorem test_div_by_zero_and_overflow :
    regsOf (.div H 3 1 2 0 0) (stOf (crewOf [0, 7, 0] [0, 0x80000000, -1])) =
      [(0, 3, 0xFFFFFFFFFFFFFFFF), (1, 3, 0xFFFFFFFF80000000)] ∧
    regsOf (.rem H 3 1 2 0 0) (stOf (crewOf [0, 7, 0] [0, 0x80000000, -1])) = [(0, 3, 7), (1, 3, 0)] := by
  decide +kernel

theorem test_div_signs :
    regsOf (.div H 3 1 2 0 0) (stOf (crewOf [0, -7, 2] [])) = [(0, 3, -3), (1, 3, -1)] ∧
    regsOf (.rem H 3 1 2 0 1) (stOf (crewOf [0, 0xFFFFFFF9, 2] [])) = [(0, 3, 1), (1, 3, 0)] ∧
    regsOf (.div H 3 1 2 0 1) (stOf (crewOf [0, 0xFFFFFFF9, 2] [])) = [(0, 3, 0x7FFFFFFC), (1, 3, -1)] := by
  decide +kernel

-- 07, "Two writes, two latencies, one register"
theorem test_mulh : regsOf (.mulh H 6 4 5 1 0) (stOf (crewOf [0, 0, 0, 0, 0x8000000000000000, 4] [])) =
    [(0, 6, 0xFFFFFFFFFFFFFFFE), (1, 6, 0)] := by decide +kernel

/-- The crew of 07's "VOTE and SHFL over a partly active crew": lanes 24 to 31 elsewhere. -/
def crewPartly : Crew :=
  let c := crewAll fun l => [0, 0, 0, 0, 0, 0, 0, 0, BitVec.ofNat 64 (100 + l)]
  let c := modThs c [24, 25, 26, 27, 28, 29, 30, 31] fun _ t => { t with pc := 0x2000 }
  setPred (setPred c 2 ((List.range 32).filter fun l => l % 2 = 1)) 3 [4, 5]

/-- Its guard ?!p3. -/
def notP3 : Hdr := { sp := 0, pg := 3, pn := 1 }

theorem test_vote_ballot :
    decode 0x301C8203 = .ok (.vote notP3 4 2 0 3) ∧
    regsOf (.vote notP3 4 2 0 3) (stOf crewPartly) =
      (((List.range 24).filter fun l => l ≠ 4 ∧ l ≠ 5).map fun l => (l, 4, 0x00AAAA8A)) :=
  ⟨rfl, by decide +kernel⟩

theorem test_shuffle_unavailable :
    decode 0x311D2827 = .ok (.shflImm notP3 9 8 4 3) ∧
    ((regsOf (.shflImm notP3 9 8 4 3) (stOf crewPartly)).filter fun r => [0, 1, 2, 4, 6, 16].contains r.1) =
      [(0, 9, 100), (1, 9, 101), (2, 9, 106), (6, 9, 102), (16, 9, 120)] ∧
    ((predsOf (.shflImm notP3 9 8 4 3) (stOf crewPartly)).filter fun r => [0, 1, 2, 6].contains r.1) =
      [(0, 6, false), (1, 6, false), (2, 6, true), (6, 6, true)] := ⟨rfl, by decide +kernel, by decide +kernel⟩

-- 07, "ISECT on two sorted lists"
theorem test_isect :
    let s := stOf (crewAll fun l => [0, 0, BitVec.ofNat 64 (3 * l), BitVec.ofNat 64 (5 * l)])
    regsOf (.isect H 10 2 3 0 1) s =
      ((List.range 32).map fun l => (l, 10, if l % 5 = 0 then BitVec.ofNat 64 (3 * (l / 5)) else -1)) ++
      ((List.range 32).map fun l => (l, 11, 0x0000001300000020)) := by decide +kernel

/-- The slots of 09's "Overflow policies": 2 is E4M3, 3 is E5M2, 4 is E2M1 of 32 lanes; w7 holds 0x7F. -/
def sSlots (x y : Word) : State :=
  { stOf (crewOf [0, 0, 0, 0, 0, 0, x, 0x7F] [0, 0, 0, 0, 0, 0, y, 0x7F]) with
    launches := [(3, { la0 with words := ((la0.words.set 6 0x102).set 7 0x103).set 8 0x121 })] }

theorem test_cvtd_e4m3 :
    regsOf (.cvtdSat H 8 6 7 2) (sSlots 0x43E80000 0x43E88000) = [(0, 8, 0x7E), (1, 8, 0x7E)] ∧
    regsOf (.cvtdInf H 8 6 7 2) (sSlots 0x43E80000 0x43E88000) = [(0, 8, 0x7E), (1, 8, 0x7F)] ∧
    flagsOf (.cvtdNan H 8 6 7 2) (sSlots 0x43E80000 0x43E88000) =
      [(0, BitVec.ofNat 64 flagIX), (1, BitVec.ofNat 64 (flagOF + flagIX))] := by decide +kernel

theorem test_cvtd_e5m2_e2m1 :
    regsOf (.cvtdInf H 8 6 7 3) (sSlots 0x476A6000 0xC7700000) = [(0, 8, 0x7B), (1, 8, 0xFC)] ∧
    regsOf (.cvtdNan H 8 6 7 3) (sSlots 0x476A6000 0xC7700000) = [(0, 8, 0x7B), (1, 8, 0x7E)] ∧
    regsOf (.cvtdSat H 8 6 7 4) (sSlots 0x40E00000 0x7FC00000) = [(0, 8, 7), (1, 8, 0)] ∧
    flagsOf (.cvtdSat H 8 6 7 4) (sSlots 0x40E00000 0x7FC00000) =
      [(0, BitVec.ofNat 64 (flagOF + flagIX)), (1, BitVec.ofNat 64 (flagIV + flagCL))] := by decide +kernel

-- 09, "Choosing an MXFP4 scale from ABSMX"
theorem test_absmx : regsOf (.absmx H 10 6 4) (sSlots 0x3F800000 0xC1700000) =
    [(0, 10, 0x41700000), (1, 10, 0x41700000)] := by decide +kernel

-- 09, "Signed zeros and NaNs through FMIN and FMAX"
theorem test_fmin :
    regsOf (.fmin H 4 2 3 0 0) (stOf (crewOf [0, 0, 0, 0x80000000] [0, 0, 0x40000000, 0x7FC00001])) =
      [(0, 4, 0x80000000), (1, 4, 0x7FC00000)] ∧
    regsOf (.fmin H 4 2 3 1 0) (stOf (crewOf [0, 0, 0x7F800001, 0x3F800000] [0, 0, 0x40000000, 0x7FC00001])) =
      [(0, 4, 0x3F800000), (1, 4, 0x40000000)] ∧
    flagsOf (.fmin H 4 2 3 1 0) (stOf (crewOf [0, 0, 0x7F800001, 0x3F800000] [0, 0, 0x40000000, 0x7FC00001])) =
      [(0, BitVec.ofNat 64 flagIV)] := by decide +kernel

-- 09, "A fixed-tree FRED with three quarters of the crew away"
theorem test_fred :
    let v (l : Nat) : Word := if l = 0 then 0x4B800000 else if l = 17 then 0xCB800000 else 0x3F800000
    let c := modThs (crewAll fun l => [0, 0, 0, 0, 0, 0, 0, v l])
      ((List.range 32).filter fun l => decide (l ≠ 0 ∧ l ≠ 1 ∧ l ≠ 16 ∧ l ≠ 17)) fun _ t => { t with pc := 0x2000 }
    regsOf (.fred H 7 7 0 0) (stOf c) = [0, 1, 16, 17].map (fun l => (l, 7, 0x3F800000)) ∧
    flagsOf (.fred H 7 7 0 0) (stOf c) = [0, 1, 16, 17].map (fun l => (l, BitVec.ofNat 64 flagIX)) := by decide +kernel

-- 09, "One FEXP2 traced"
theorem test_fexp2 :
    regsOf (.fexp2 H 4 3 0) (stOf (crewOf [0, 0, 0, 0x35800000] [0, 0, 0, 0xC03F0000])) =
      [(0, 4, 0x3F800006), (1, 4, 0x3E0164D2)] ∧
    flagsOf (.fexp2 H 4 3 0) (stOf (crewOf [0, 0, 0, 0x35800000] [0, 0, 0, 0xC03F0000])) =
      [(0, BitVec.ofNat 64 flagIX)] := by decide +kernel

/-- The state of 14's worked example. -/
def sMulk : State :=
  let s := stOf (crewAll fun l => [0, 0, 0, 0, 0, 0, 0, 0, 0, BitVec.ofNat 64 l])
  { s with
    units := [(1, { un0 with cols := [0], planes := 1, zs := [(24, 32600)] })]
    mem := cellsPut [] (columnOf 1 0) [100, 0, 0xFE, 0xFF] }

/-- The next state has a property. -/
def nextHas (i : Instr) (s : State) (p : State → Bool) : Bool :=
  match exec i s with
  | .next t => p t
  | _ => false

theorem test_mulk_s : nextHas (.mulkS H 0 9) sMulk (fun t =>
    ((mget t.units 1).elim false fun u =>
      decide (mgetD u.zs 0 0 = 0 ∧ mgetD u.zs 8 0 = 0xFFFE0064 ∧ mgetD u.zs 24 0 = 32600 ∧ u.ovf = [24] ∧
        mgetD u.zs 248 0 = 0xFFC20C1C)) &&
    (mget t.crews 32).elim false fun c =>
      decide (c.bptr = 1) && (c.trap.or c.due).any fun r => decide (r.flanes = 8 ∧ r.addr = 1 ∧ r.cls = clsGuard)) =
    true := by decide +kernel

/-- The crew of 14's convolution: w1 holds (1, 2, 3), w2 holds (6, 5, 4). -/
def sConv (cords : Map (BitVec 1024)) : State :=
  let c := crewAll fun l => [0, [1, 2, 3].getD l 0, [6, 5, 4].getD l 0, BitVec.ofNat 64 l]
  { stOf { c with cords := cords } with
    launches := [(3, { la0 with words := la0.words.set 7 0xF0004 })]
    units := [(1, { un0 with cols := [0], planes := 1 })] }

theorem test_pack :
    ((after (.pack H 0 1 7 3) (sConv [])).map fun c => mgetD c.cords 0 0) = some 0x000300020001 ∧
    ((after (.pack H 1 2 7 3) (sConv [])).map fun c => mgetD c.cords 1 0) = some 0x000400050006 := by decide +kernel

theorem test_kext : ((after (.kext H 6 2 3 1) (sConv [(2, 0x000C0017002000110006)])).map fun c =>
    (List.range 6).map fun l => (regOf (thOf c l) 6).word) = some [6, 17, 32, 23, 12, 0] := by decide +kernel

/-- The convolution in places of 64 bits. -/
theorem test_mulk_c :
    let place (l : List Nat) : BitVec 1024 := BitVec.ofNat 1024 (l.foldr (fun v a => v + 2 ^ 64 * a) 0)
    let s := sConv [(0, place [1, 2, 3]), (1, place [6, 5, 4])]
    let s := { s with crews := s.crews.map fun p => (p.1, { p.2 with width := 64 }) }
    ((after (.mulkC H 2 0 1) s).map fun c => c.ops.map (·.kind)) = some [.mulkc 2 (place [6, 17, 32, 23, 12]) 0 none] := by
  decide +kernel

/-! ### Further instructions, calculated by hand -/

theorem test_add_wraps_and_extends :
    regsOf (.add H 3 1 2 1) (stOf (crewOf [0, -1, 1] [0, 0x7FFFFFFF, 1])) = [(0, 3, 0), (1, 3, 0x80000000)] ∧
    regsOf (.add H 3 1 2 0) (stOf (crewOf [0, -1, 1] [0, 0x7FFFFFFF, 1])) = [(0, 3, 0), (1, 3, 0xFFFFFFFF80000000)] := by
  decide +kernel

theorem test_min_signed_unsigned :
    regsOf (.min H 3 1 2 1 0) (stOf (crewOf [0, -1, 1] [])) = [(0, 3, -1), (1, 3, 0)] ∧
    regsOf (.min H 3 1 2 1 1) (stOf (crewOf [0, -1, 1] [])) = [(0, 3, 1), (1, 3, 0)] := by decide +kernel

theorem test_shifts :
    regsOf (.sar H 3 1 2 0) (stOf (crewOf [0, 0x80000000, 33] [0, 4, 65])) = [(0, 3, 0xFFFFFFFFC0000000), (1, 3, 2)] ∧
    regsOf (.rot H 3 1 2 1) (stOf (crewOf [0, 3, 63] [])) = [(0, 3, 0x8000000000000001), (1, 3, 0)] := by decide +kernel

theorem test_bit_fields :
    regsOf (.bfx H 3 1 2 1 0) (stOf (crewOf [0, 0xF0, 0x404] [0, 0x70, 0x404])) = [(0, 3, -1), (1, 3, 7)] ∧
    regsOf (.bfi H 3 1 2 1) (stOf (crewOf [0, 0xFF, 0x404, 0xA00B] [])) = [(0, 3, 0xA0FB), (1, 3, 0)] := by decide +kernel

theorem test_bit_counts :
    regsOf (.bitc H 3 1 1 0) (stOf (crewOf [0, 1] [0, 0])) = [(0, 3, 63), (1, 3, 64)] ∧
    regsOf (.bitc H 3 1 0 4) (stOf (crewOf [0, 0x12345680] [])) = [(0, 3, 0xFFFFFFFF80563412), (1, 3, 0)] := by
  decide +kernel

theorem test_immediates :
    regsOf (.movi H 9 0x1FFF) s1 = [(0, 9, -1), (1, 9, -1)] ∧
    regsOf (.movi H 9 1) (stOf (crewH { Hints.none with ximm := some 0x800000 } [] [])) =
      [(0, 9, 0xFFFFFFF000000001), (1, 9, 0xFFFFFFF000000001)] ∧
    regsOf (.lea H 9 1 2 1 3) (stOf (crewOf [0, 0x1000, 5] [])) = [(0, 9, 0x1028), (1, 9, 0)] := by decide +kernel

theorem test_compare :
    predsOf (.cmp H 2 1 2 2 1 0) (stOf (crewOf [0, -1, 1] [0, 1, -1])) = [(0, 2, true), (1, 2, false)] ∧
    predsOf (.cmp H 2 1 2 2 1 1) (stOf (crewOf [0, -1, 1] [0, 1, -1])) = [(0, 2, false), (1, 2, true)] ∧
    predsOf (.cmp H 7 1 2 2 1 1) (stOf (crewOf [0, -1, 1] [0, 1, -1])) = [] := by decide +kernel

theorem test_float_add :
    regsOf (.fadd H 3 1 2 0) (stOf (crewOf [0, 0x3F800000, 0x40000000] [0, 0x7F800000, 0xFF800000])) =
      [(0, 3, 0x40400000), (1, 3, 0x7FC00000)] ∧
    flagsOf (.fadd H 3 1 2 0) (stOf (crewOf [0, 0x3F800000, 0x40000000] [0, 0x7F800000, 0xFF800000])) =
      [(1, BitVec.ofNat 64 flagIV)] := by decide +kernel

theorem test_loop_and_branch :
    ((after (.loop H 1 0x1FFE) (stOf (crewOf [0, 2] [0, 1]))).map fun c =>
      (List.range 2).map fun l => ((thOf c l).pc, (regOf (thOf c l) 1).word)) = some [(0xFF8, 1), (0x1004, 0)] ∧
    ((after (.brx H 1) (stOf (crewOf [0, 0x2000] [0, 0x3000]))).map fun c =>
      (List.range 2).map fun l => (thOf c l).pc) = some [0x2000, 0x3000] := by decide +kernel

theorem test_meet :
    ((after (.meet H 2 3) s1).map fun c => (List.range 2).map fun l => ((thOf c l).mr, (thOf c l).pc)) =
      some [(0x100C, 0x1004), (0x100C, 0x1004)] := by decide +kernel

/-- 05's stack of 48 entries, with its blocks from 0x10000 on. -/
def sSpill (frame base : Nat) : State :=
  let t (l : Nat) : Thread := { thread [BitVec.ofNat 64 (0x55 + l), 6] with frame := frame, base := base }
  { mapLeaf (stOf { crewOf [] [] with th := [(0, t 0)] }) leafAll with
    launches := [(3, { la0 with words := (la0.words.set 2 (3 * 2 ^ 20)).set 13 0x10000 })] }

-- 05, "A window across three calls"
theorem test_call_spills_block_0 :
    nextHas (.call H 4) (sSpill 16 0) (fun t => decide (wordOf (cellsGet t.mem (dramBase 0 + 0x10000) 8) = 0x55) &&
      ((mget t.crews 32).elim false fun c =>
        decide ((thOf c 0).frame = 32 ∧ (thOf c 0).base = 16 ∧ (thOf c 0).pc = 0x1010 ∧
          (regOf (thOf c 0) 27).word = 0x1004))) = true := by decide +kernel

theorem test_spill_address :
    spillAddr { sSpill 0 0 with launches := [(3, { la0 with words := la0.words.set 13 0x400000 })] }
      { crewOf [] [] with idx := 1 } 5 0 = 0x528000 := by decide +kernel

theorem test_return_without_call :
    ((after (.ret H) (sSpill 0 0)).bind fun c => c.trap.or c.due).map (fun r => (r.cls, r.flanes)) =
      some (clsReturn, 1) := by decide +kernel

theorem test_exit : nextHas (.exit H) s1 (fun t =>
    (mget t.units 1).elim false (fun u => decide (u.ctr = 30)) &&
    (mget t.crews 32).elim false fun c => decide (progLive c = 0)) = true := by decide +kernel

theorem test_tags :
    ((after (.mkt H 3 1 3) (stOf (crewOf [0, -5] [0, 7]))).map fun c =>
      (List.range 2).map fun l => (regOf (thOf c l) 3).word) = some [0x3FFFFFFFFFFFFFFB, 0x3000000000000007] ∧
    ((after (.tagVal H 3 1) (stOf (crewOf [0, 0x3FFFFFFFFFFFFFFB] [0, 0x5000000000010080]))).map fun c =>
      (List.range 2).map fun l => (regOf (thOf c l) 3).word) = some [-5, 0x10080] := by decide +kernel

theorem test_deref :
    ((after (.deref H 4 1) (sTerm crewTm)).map fun c => (regOf (thOf c 1) 4).word) = some 0x1000000000010000 ∧
    ((after (.arg H 4 3 4 1) (sTerm crewTm)).map fun c => (regOf (thOf c 1) 4).word) = some 0x10090 := by decide +kernel

theorem test_trap_resumes_after :
    ((after (.trap H 9) s1).bind fun c => c.trap.or c.due).map (fun r => (r.cls, r.addr, r.resume)) =
      some (clsTrap, 9, 0x1004) := by decide +kernel

theorem test_fence_waits :
    let s := stOp { op0 .st with reqs := [wait0 (.write [1]) 1] }
    ((after (.fence H 5 3) s).map fun c => (thOf c 0).park) = some (.quiet 3 true true) ∧
    ((after (.fence H 4 0) s).map fun c => ((thOf c 0).park, (thOf c 0).pc)) = some (.none, 0x1004) := by decide +kernel

end Sys2Proof.Tests
end

/-! PROOFS. The integer functions of the model have the values of R92 to R97. -/

namespace Sys2Proof.Machine

/-! ## Words at a width (R87) -/

theorem width_cases (w : BitVec 1) : w = 0#1 ∨ w = 1#1 := by
  revert w; decide

@[simp] theorem narrow_zero (v : Word) : narrow 0#1 v = (v.setWidth 32).signExtend 64 := rfl
@[simp] theorem narrow_one (v : Word) : narrow 1#1 v = v := rfl
@[simp] theorem bitsOf_zero : bitsOf 0#1 = 32 := rfl
@[simp] theorem bitsOf_one : bitsOf 1#1 = 64 := rfl

theorem bitsOf_le (w : BitVec 1) : bitsOf w ≤ 64 := by
  obtain rfl | rfl := width_cases w <;> decide

/-- A result depends on the low n bits alone. -/
theorem narrow_congr {w : BitVec 1} {x y : Word}
    (h : ∀ i, i < bitsOf w → x.getLsbD i = y.getLsbD i) : narrow w x = narrow w y := by
  obtain rfl | rfl := width_cases w
  · have e : x.setWidth 32 = y.setWidth 32 := by
      apply BitVec.eq_of_getLsbD_eq
      intro i hi
      simpa [hi] using h i hi
    rw [narrow_zero, narrow_zero, e]
  · exact BitVec.eq_of_getLsbD_eq fun i hi => h i hi

theorem setWidth_ofInt (z : Int) : (BitVec.ofInt 64 z).setWidth 32 = BitVec.ofInt 32 z := by
  apply BitVec.eq_of_toNat_eq
  simp only [BitVec.toNat_setWidth, BitVec.toNat_ofInt]
  omega

theorem narrow_zero_ofInt (z : Int) : narrow 0#1 (BitVec.ofInt 64 z) = (BitVec.ofInt 32 z).signExtend 64 := by
  rw [narrow_zero, setWidth_ofInt]

theorem narrow_zero_ofNat (n : Nat) : narrow 0#1 (BitVec.ofNat 64 n) = (BitVec.ofNat 32 n).signExtend 64 := by
  rw [narrow_zero, BitVec.setWidth_ofNat_of_le (by decide)]

@[simp] theorem unsig_zero (v : Word) : unsig 0#1 v = (v.setWidth 32).toNat := rfl
@[simp] theorem unsig_one (v : Word) : unsig 1#1 v = v.toNat := rfl

theorem testBit_unsig (w : BitVec 1) (x : Word) (i : Nat) :
    (unsig w x).testBit i = (decide (i < bitsOf w) && x.getLsbD i) := by
  obtain rfl | rfl := width_cases w
  · rw [unsig_zero, BitVec.testBit_toNat, BitVec.getLsbD_setWidth, bitsOf_zero]
  · rw [unsig_one, BitVec.testBit_toNat, bitsOf_one]
    by_cases h : i < 64
    · simp [h]
    · simp [h, BitVec.getLsbD_of_ge x i (by omega)]

theorem unsig_lt (w : BitVec 1) (x : Word) : unsig w x < 2 ^ bitsOf w := by
  obtain rfl | rfl := width_cases w
  · exact (x.setWidth 32).isLt
  · exact x.isLt

theorem ofInt_toNat {n : Nat} (v : BitVec n) : BitVec.ofInt n (v.toNat : Int) = v := by
  rw [BitVec.ofInt_natCast, BitVec.ofNat_toNat, BitVec.setWidth_eq]

theorem ofInt_num_zero (u : BitVec 1) (x : Word) : BitVec.ofInt 32 (num 0#1 u x) = x.setWidth 32 := by
  obtain rfl | rfl := width_cases u
  · exact BitVec.ofInt_toInt
  · exact ofInt_toNat (x.setWidth 32)

theorem ofInt_num_one (u : BitVec 1) (x : Word) : BitVec.ofInt 64 (num 1#1 u x) = x := by
  obtain rfl | rfl := width_cases u
  · exact BitVec.ofInt_toInt
  · exact ofInt_toNat x

/-- Signed or unsigned, a source read as a number gives its own low n bits back. -/
theorem narrow_num (w u : BitVec 1) (x : Word) : narrow w (BitVec.ofInt 64 (num w u x)) = narrow w x := by
  obtain rfl | rfl := width_cases w
  · rw [narrow_zero_ofInt, ofInt_num_zero, narrow_zero]
  · rw [ofInt_num_one]

/-! ## Quotients, remainders, minima and maxima (R92, R93) -/

theorem mulhVal_eq (w u : BitVec 1) (x y : Word) :
    mulhVal w u x y = narrow w (BitVec.ofInt 64 (num w u x * num w u y / 2 ^ bitsOf w)) := by
  simp only [mulhVal, atWidth_eq, readInt_eq, widthOf_eq, wordOfInt]

theorem minVal_eq (w u : BitVec 1) (x y : Word) :
    minVal w u x y = narrow w (if num w u x ≤ num w u y then x else y) := by
  simp only [minVal, atWidth_eq, readInt_eq, ← Int.not_le, ite_not]

theorem maxVal_eq (w u : BitVec 1) (x y : Word) :
    maxVal w u x y = narrow w (if num w u y ≤ num w u x then x else y) := by
  simp only [maxVal, atWidth_eq, readInt_eq, ← Int.not_le, ite_not]

theorem narrow_allOnes (w : BitVec 1) : narrow w (-1) = -1 := by
  obtain rfl | rfl := width_cases w <;> decide

/-- The overflow of R93 is that of the operands read as signed. -/
theorem overflow_iff (w u : BitVec 1) (x y : Word) :
    (u = 0 ∧ num w u x = -(2 ^ (bitsOf w - 1)) ∧ num w u y = -1) ↔
      (u = 0 ∧ num w 0 x = -(2 ^ (bitsOf w - 1)) ∧ num w 0 y = -1) :=
  and_congr_right fun h => by rw [h]

theorem divVal_eq (w u : BitVec 1) (x y : Word) : divVal w u x y = quotient w u x y := by
  unfold divVal divRem quotient
  simp only [readInt_eq, widthOf_eq, atWidth_eq, wordOfInt, overflow_iff]
  split
  · exact narrow_allOnes w
  · split
    · exact narrow_num w u x
    · rfl

theorem remVal_eq (w u : BitVec 1) (x y : Word) : remVal w u x y = remainder w u x y := by
  unfold remVal divRem remainder
  simp only [readInt_eq, widthOf_eq, atWidth_eq, wordOfInt, overflow_iff]
  split
  · exact narrow_num w u x
  · split
    · obtain rfl | rfl := width_cases w <;> rfl
    · rw [Int.tmod_def, Int.mul_comm (num w u y)]

/-! ## Shifts (R94) -/

/-- R94: a shift amount lies below the width. -/
theorem shiftAmt_lt (w : BitVec 1) (y : Word) : y.toNat % bitsOf w < bitsOf w := by
  apply Nat.mod_lt
  obtain rfl | rfl := width_cases w <;> decide

theorem shrVal_eq (w : BitVec 1) (x : Word) (k : Nat) : shrVal w x k = shiftRight w x k := by
  unfold shrVal
  rw [atWidth_eq, lowBits_eq]
  obtain rfl | rfl := width_cases w
  · rw [narrow_zero_ofNat]
    show _ = ((x.setWidth 32) >>> k).signExtend 64
    congr 1
    apply BitVec.eq_of_toNat_eq
    rw [BitVec.toNat_ofNat, BitVec.toNat_ushiftRight, Nat.shiftRight_eq_div_pow]
    exact Nat.mod_eq_of_lt (Nat.lt_of_le_of_lt (Nat.div_le_self ..) (x.setWidth 32).isLt)
  · apply BitVec.eq_of_toNat_eq
    show _ = (x >>> k).toNat
    rw [narrow_one, BitVec.toNat_ofNat, BitVec.toNat_ushiftRight, Nat.shiftRight_eq_div_pow]
    exact Nat.mod_eq_of_lt (Nat.lt_of_le_of_lt (Nat.div_le_self ..) x.isLt)

theorem sarVal_eq (w : BitVec 1) (x : Word) (k : Nat) : sarVal w x k = shiftArith w x k := by
  unfold sarVal wordOfInt
  rw [atWidth_eq, signedOf_setWidth]
  obtain rfl | rfl := width_cases w
  · rw [narrow_zero_ofInt]
    show _ = ((x.setWidth 32).sshiftRight k).signExtend 64
    rw [BitVec.sshiftRight, Int.shiftRight_eq_div_pow]
    simp [widthOf]
  · show _ = x.sshiftRight k
    rw [BitVec.sshiftRight, Int.shiftRight_eq_div_pow, narrow_one]
    simp [widthOf]

/-- The bits that leave a rotated number at the top come back as its k low bits. -/
theorem toNat_rotateLeft_eq {n : Nat} (x : BitVec n) {k : Nat} (h : k < n) :
    (x.rotateLeft k).toNat = (x.toNat * 2 ^ k + x.toNat / 2 ^ (n - k)) % 2 ^ n := by
  have hn : 2 ^ n = 2 ^ k * 2 ^ (n - k) := by rw [← Nat.pow_add]; congr 1; omega
  have hlow : x.toNat / 2 ^ (n - k) < 2 ^ k := by
    rw [Nat.div_lt_iff_lt_mul (Nat.two_pow_pos _), ← hn]; exact x.isLt
  have hleft : (x.toNat * 2 ^ k + x.toNat / 2 ^ (n - k)) % 2 ^ n =
      x.toNat % 2 ^ (n - k) * 2 ^ k + x.toNat / 2 ^ (n - k) := by
    rw [hn, Nat.mod_mul, Nat.mul_comm x.toNat, Nat.mul_add_mod, Nat.mod_eq_of_lt hlow,
      Nat.mul_add_div (Nat.two_pow_pos k), Nat.div_eq_of_lt hlow, Nat.add_zero, Nat.add_comm, Nat.mul_comm]
  rw [hleft, BitVec.toNat_rotateLeft, Nat.mod_eq_of_lt h, Nat.shiftLeft_eq, Nat.shiftRight_eq_div_pow, hn,
    Nat.mul_comm (2 ^ k), Nat.mul_mod_mul_right, ← Nat.shiftLeft_eq, Nat.shiftLeft_add_eq_or_of_lt hlow]

theorem rotVal_eq (w : BitVec 1) (x : Word) {k : Nat} (h : k < bitsOf w) : rotVal w x k = rotate w x k := by
  unfold rotVal
  rw [atWidth_eq, lowBits_eq, widthOf_eq]
  obtain rfl | rfl := width_cases w
  · have e := toNat_rotateLeft_eq (x.setWidth 32) h
    rw [narrow_zero_ofNat, unsig_zero, bitsOf_zero, ← e, BitVec.ofNat_toNat, BitVec.setWidth_eq]
    rfl
  · have e := toNat_rotateLeft_eq x h
    rw [narrow_one, unsig_one, bitsOf_one, ← e, BitVec.ofNat_toNat, BitVec.setWidth_eq]
    rfl

/-! ## Bits of words built from bits -/

theorem fromBits_succ (n : Nat) (f : Nat → Bool) :
    fromBits (n + 1) f = if f n then fromBits n f ||| BitVec.ofNat 64 (1 <<< n) else fromBits n f := by
  unfold fromBits
  rw [List.range_succ, List.foldl_append]
  rfl

theorem getLsbD_fromBits {n : Nat} (f : Nat → Bool) (hn : n ≤ 64) (i : Nat) :
    (fromBits n f).getLsbD i = (decide (i < n) && f i) := by
  induction n with
  | zero => simp [fromBits]
  | succ n ih =>
    have hone : (BitVec.ofNat 64 (1 <<< n)).getLsbD i = decide (n = i) := by
      rw [BitVec.getLsbD_ofNat, Nat.one_shiftLeft, Nat.testBit_two_pow]
      by_cases h : n = i
      · have h64 : i < 64 := by omega
        simp [h, h64]
      · simp [h]
    rw [fromBits_succ]
    by_cases hi : n = i
    · subst hi
      cases hf : f n <;> simp [ih (by omega), hone]
    · have e : i < n + 1 ↔ i < n := by omega
      cases hf : f n <;> simp [ih (by omega), hone, hi, e]

/-- A result given by a number of n bits is the one whose bits it has. -/
theorem narrow_ofNat_eq {w : BitVec 1} {v : Nat} {x : Word}
    (h : ∀ i, i < bitsOf w → v.testBit i = x.getLsbD i) : narrow w (BitVec.ofNat 64 v) = narrow w x := by
  apply narrow_congr
  intro i hi
  have h64 : i < 64 := Nat.lt_of_lt_of_le hi (bitsOf_le w)
  rw [BitVec.getLsbD_ofNat, h i hi]
  simp [h64]

theorem atWidth_ofNat_fromBits {w : BitVec 1} {v : Nat} {f : Nat → Bool}
    (h : ∀ i, i < bitsOf w → v.testBit i = f i) :
    atWidth w (BitVec.ofNat 64 v) = narrow w (fromBits (bitsOf w) f) := by
  rw [atWidth_eq]
  apply narrow_ofNat_eq
  intro i hi
  rw [h i hi, getLsbD_fromBits f (bitsOf_le w)]
  simp [hi]

/-! ## Bit counts (R95) -/

/-- The length of a run of places below `n` at which `p` holds. -/
theorem length_takeWhile_range (n : Nat) (p : Nat → Bool) {k : Nat} (hk : k ≤ n)
    (hrun : ∀ i, i < k → p i = true) (hend : k < n → p k = false) :
    ((List.range n).takeWhile p).length = k := by
  obtain ⟨j, rfl⟩ := Nat.exists_eq_add_of_le hk
  rw [List.range_add, List.takeWhile_append_of_pos (by simpa using hrun)]
  cases j with
  | zero => simp
  | succ j => simp [List.range_succ_eq_map, hend]

theorem length_leadingZeros {n v : Nat} {p : Nat → Bool} (h : v < 2 ^ n)
    (hp : ∀ i, i < n → p i = !v.testBit (n - 1 - i)) : ((List.range n).takeWhile p).length = clzN n v := by
  unfold clzN
  split
  next hv =>
    subst hv
    exact length_takeWhile_range n p (Nat.le_refl n) (fun i hi => by simp [hp i hi]) (by omega)
  next hv =>
    have hlog : v.log2 < n := (Nat.log2_lt hv).mpr h
    apply length_takeWhile_range n p (by omega)
    · intro i hi
      have : v.testBit (n - 1 - i) = false :=
        Nat.testBit_lt_two_pow (Nat.lt_of_lt_of_le Nat.lt_log2_self (Nat.pow_le_pow_right (by decide) (by omega)))
      simp [hp i (by omega), this]
    · intro hk
      have e : n - 1 - (n - 1 - v.log2) = v.log2 := by omega
      simp [hp _ hk, e, Nat.testBit_log2 hv]

theorem length_trailingZeros {n v : Nat} {p : Nat → Bool} (hp : ∀ i, i < n → p i = !v.testBit i) :
    ((List.range n).takeWhile p).length = ctzN n v := by
  induction n generalizing v p with
  | zero => rfl
  | succ n ih =>
    have hodd : p 0 = !decide (v % 2 = 1) := by rw [hp 0 (by omega), Nat.testBit_zero]
    have hrest := ih (v := v / 2) (p := p ∘ Nat.succ) fun i hi => by
      rw [Function.comp_apply, hp _ (by omega), Nat.testBit_succ]
    rw [List.range_succ_eq_map, List.takeWhile_cons, List.takeWhile_map, ctzN, ← hrest]
    by_cases h : v % 2 = 1
    · simp [hodd, h]
    · simp [hodd, h, Nat.add_comm]

theorem length_ones {n v : Nat} {p : Nat → Bool} (hp : ∀ i, i < n → p i = v.testBit i) :
    ((List.range n).filter p).length = popNat n v := by
  induction n generalizing v p with
  | zero => rfl
  | succ n ih =>
    have hodd : p 0 = decide (v % 2 = 1) := by rw [hp 0 (by omega), Nat.testBit_zero]
    have hrest := ih (v := v / 2) (p := p ∘ Nat.succ) fun i hi => by
      rw [Function.comp_apply, hp _ (by omega), Nat.testBit_succ]
    rw [List.range_succ_eq_map, List.filter_cons, List.filter_map, popNat, ← hrest]
    by_cases h : v % 2 = 1
    · simp [hodd, h, Nat.add_comm]
    · have h0 : v % 2 = 0 := by omega
      simp [hodd, h0]

theorem revN_lt (n v : Nat) : revN n v < 2 ^ n := by
  induction n generalizing v with
  | zero => simp [revN]
  | succ n ih =>
    have h1 := ih (v / 2)
    have h2 : v % 2 * 2 ^ n ≤ 1 * 2 ^ n := Nat.mul_le_mul_right _ (by omega)
    rw [revN, Nat.pow_succ]
    omega

theorem testBit_revN {n v i : Nat} (hi : i < n) : (revN n v).testBit i = v.testBit (n - 1 - i) := by
  induction n generalizing v i with
  | zero => omega
  | succ n ih =>
    rw [revN, Nat.mul_comm, Nat.testBit_two_pow_mul_add _ (revN_lt n _)]
    split
    next h =>
      have e : n + 1 - 1 - i = n - 1 - i + 1 := by omega
      rw [ih h, e, Nat.testBit_succ]
    next h =>
      obtain rfl : i = n := by omega
      simp [Nat.testBit_zero]

theorem testBit_natOf (l : List Byte) (i : Nat) : (natOf l).testBit i = (l.getD (i / 8) 0).getLsbD (i % 8) := by
  induction l generalizing i with
  | nil => simp [natOf]
  | cons b t ih =>
    rw [natOf, Nat.add_comm, show 256 = 2 ^ 8 from rfl, Nat.testBit_two_pow_mul_add _ b.isLt]
    split
    next h => rw [Nat.div_eq_of_lt h, Nat.mod_eq_of_lt h, BitVec.testBit_toNat]; rfl
    next h =>
      have e1 : i / 8 = (i - 8) / 8 + 1 := by omega
      have e2 : i % 8 = (i - 8) % 8 := by omega
      rw [ih, e1, e2]; rfl

theorem length_bytesOf (n v : Nat) : (bytesOf n v).length = n := by
  induction n generalizing v with
  | zero => rfl
  | succ n ih => simp [bytesOf, ih]

theorem getD_bytesOf {n v j : Nat} (hj : j < n) : (bytesOf n v).getD j 0 = BitVec.ofNat 8 (v / 256 ^ j) := by
  induction n generalizing v j with
  | zero => omega
  | succ n ih =>
    cases j with
    | zero => simp [bytesOf]
    | succ j =>
      rw [bytesOf, List.getD_cons_succ, ih (by omega), Nat.div_div_eq_div_mul, Nat.pow_succ, Nat.mul_comm]

/-- BSWAP: byte i of the value comes from byte n − 1 − i. -/
theorem testBit_natOf_reverse {n v i : Nat} (hi : i < 8 * n) :
    (natOf (bytesOf n v).reverse).testBit i = v.testBit (8 * (n - 1 - i / 8) + i % 8) := by
  have hl := length_bytesOf n v
  have hj : n - 1 - i / 8 < n := by omega
  have hr : (bytesOf n v).reverse.getD (i / 8) 0 = (bytesOf n v).getD (n - 1 - i / 8) 0 := by
    rw [List.getD_eq_getElem?_getD, List.getD_eq_getElem?_getD, List.getElem?_reverse (by omega), hl]
  rw [testBit_natOf, hr, getD_bytesOf hj, BitVec.getLsbD_ofNat, show 256 = 2 ^ 8 from rfl, ← Nat.pow_mul,
    Nat.testBit_div_two_pow]
  simp [Nat.mod_lt, Nat.add_comm]

/-- The values of a field of three bits: a function or a condition. -/
theorem function_cases (f : BitVec 3) :
    f = 0 ∨ f = 1 ∨ f = 2 ∨ f = 3 ∨ f = 4 ∨ f = 5 ∨ f = 6 ∨ f = 7 := by
  revert f; decide

theorem bitcVal_eq (f : BitVec 3) (w : BitVec 1) (x : Word) : bitcVal f w x = bitCount f w x := by
  have hbit (i : Nat) (hi : i < bitsOf w) : x.getLsbD i = (unsig w x).testBit i := by
    simp [testBit_unsig, hi]
  have hbytes : bitsOf w = 8 * (bitsOf w / 8) := by
    obtain rfl | rfl := width_cases w <;> rfl
  unfold bitcVal
  rw [lowBits_eq, widthOf_eq]
  obtain rfl | rfl | rfl | rfl | rfl | rfl | rfl | rfl := function_cases f
  · exact congrArg (BitVec.ofNat 64) (length_leadingZeros (unsig_lt w x) fun i hi => by rw [hbit _ (by omega)]).symm
  · exact congrArg (BitVec.ofNat 64) (length_trailingZeros fun i hi => by rw [hbit i hi]).symm
  · exact congrArg (BitVec.ofNat 64) (length_ones hbit).symm
  · exact atWidth_ofNat_fromBits fun i hi => by rw [testBit_revN hi, hbit _ (by omega)]
  · exact atWidth_ofNat_fromBits fun i hi => by rw [testBit_natOf_reverse (by omega), hbit _ (by omega)]
  · exact sext_eq x 8
  · exact sext_eq x 16
  · exact sext_eq x 32

/-! ## Bit fields (R96) -/

theorem bfPos_eq (y : Word) : bfPos y = fieldPos y := by simp [bfPos, fieldPos]

theorem bfLen_eq (y : Word) : bfLen y = fieldLen y := by
  simp [bfLen, fieldLen, bits, Nat.shiftRight_eq_div_pow]

theorem signedOf_eq_bmod (n v : Nat) : signedOf n v = (v : Int).bmod (2 ^ n) := by
  have h := signedOf_toInt (BitVec.ofNat n v)
  rw [BitVec.toInt_eq_toNat_bmod, BitVec.toNat_ofNat] at h
  simpa only [signedOf, Nat.mod_mod, Int.natCast_emod, Int.emod_bmod] using h

theorem bfxVal_eq (w u : BitVec 1) (x y : Word) : bfxVal w u x y = extracted w u x y := by
  simp only [bfxVal, extracted, bfPos_eq, bfLen_eq, widthOf_eq, lowBits_eq, atWidth_eq, signedOf_eq_bmod, wordOfInt,
    fieldSize]

/-- A number with its bits `pos` to `pos + k - 1` replaced, as what stands above, in and below the field. -/
theorem replace_eq (v g pos k : Nat) :
    v - v / 2 ^ pos % 2 ^ k * 2 ^ pos + g % 2 ^ k * 2 ^ pos =
      2 ^ pos * (2 ^ k * (v / 2 ^ pos / 2 ^ k) + g % 2 ^ k) + v % 2 ^ pos := by
  have hv := Nat.div_add_mod v (2 ^ pos)
  have hfield : 2 ^ pos * (2 ^ k * (v / 2 ^ pos / 2 ^ k)) + 2 ^ pos * (v / 2 ^ pos % 2 ^ k) =
      2 ^ pos * (v / 2 ^ pos) := by
    rw [← Nat.mul_add, Nat.div_add_mod]
  rw [Nat.mul_add, Nat.mul_comm _ (2 ^ pos), Nat.mul_comm (g % 2 ^ k)]
  omega

theorem testBit_replace (v g pos k i : Nat) :
    (v - v / 2 ^ pos % 2 ^ k * 2 ^ pos + g % 2 ^ k * 2 ^ pos).testBit i =
      if pos ≤ i ∧ i < pos + k then g.testBit (i - pos) else v.testBit i := by
  rw [replace_eq, Nat.testBit_two_pow_mul_add _ (Nat.mod_lt _ (Nat.two_pow_pos _)),
    Nat.testBit_two_pow_mul_add _ (Nat.mod_lt _ (Nat.two_pow_pos _))]
  simp only [Nat.testBit_mod_two_pow, Nat.testBit_div_two_pow]
  by_cases h1 : i < pos
  · simp [h1, Nat.not_le.mpr h1]
  · have h2 : i - pos < k ↔ i < pos + k := by omega
    by_cases h3 : i < pos + k
    · simp [h1, h2, h3, Nat.not_lt.mp h1]
    · have e : i - pos - k + k + pos = i := by omega
      simp [h1, h2, h3, e]

theorem getLsbD_fieldMask (pos k i : Nat) (hi : i < 64) :
    ((BitVec.ofNat 64 (2 ^ k - 1) : Word) <<< pos).getLsbD i = decide (pos ≤ i ∧ i < pos + k) := by
  simp only [BitVec.getLsbD_shiftLeft, BitVec.getLsbD_ofNat, Nat.testBit_two_pow_sub_one]
  have hsub : i - pos < 64 := by omega
  by_cases h : i < pos
  · simp [h, Nat.not_le.mpr h]
  · have e : i - pos < k ↔ i < pos + k := by omega
    simp [hi, hsub, h, e, Nat.not_lt.mp h]

theorem bfiVal_eq (w : BitVec 1) (d x y : Word) : bfiVal w d x y = inserted w d x y := by
  simp only [bfiVal, inserted, bfPos_eq, bfLen_eq, widthOf_eq, lowBits_eq, atWidth_eq]
  split
  · rfl
  · apply narrow_ofNat_eq
    intro i hi
    have h64 : i < 64 := Nat.lt_of_lt_of_le hi (bitsOf_le w)
    rw [testBit_replace, testBit_unsig, ← fieldSize]
    simp only [BitVec.getLsbD_or, BitVec.getLsbD_and, BitVec.getLsbD_not, getLsbD_fieldMask _ _ _ h64,
      BitVec.getLsbD_shiftLeft]
    split
    next h => simp [h, h64, BitVec.testBit_toNat, Nat.not_lt.mpr h.1]
    next h => simp [h, hi, h64]

theorem leaIdx_eq (w : BitVec 1) (k : BitVec 2) (y : Word) :
    leaIdx w k y = (if w = 1 then y else (y.setWidth 32).signExtend 64) <<< k.toNat := by
  rw [leaIdx, sext_eq]

end Sys2Proof.Machine

/-! PROOFS. Instructions of fixed latency: immediates, known operands, and the instructions of R92 to R102. -/

namespace Sys2Proof.Machine

/-! ## Immediates and predicates (R14, R62) -/

theorem toNat_hint_append {n : Nat} (p : BitVec 24) (imm : BitVec n) :
    (p ++ imm).toNat = p.toNat * 2 ^ n + imm.toNat := by
  rw [BitVec.toNat_append, ← Nat.shiftLeft_add_eq_or_of_lt imm.isLt, Nat.shiftLeft_eq]

theorem immOf_eq {n : Nat} (c : Crew) (imm : BitVec n) : wordOfInt (immOf c.hint n imm.toNat) = simm c imm := by
  unfold immOf simm wordOfInt
  cases c.hint.ximm with
  | none => rw [signedOf_toInt]; rfl
  | some p => simp only [← toNat_hint_append, signedOf_toInt]; rfl

theorem uimmOf_eq {n : Nat} (c : Crew) (imm : BitVec n) :
    BitVec.ofNat 64 (uimmOf c.hint n imm.toNat) = zimm c imm := by
  unfold uimmOf Hints.payload zimm
  cases c.hint.ximm with
  | none => simp only [Nat.zero_mul, Nat.zero_add]; exact BitVec.ofNat_toNat ..
  | some p => simp only [← toNat_hint_append]; exact BitVec.ofNat_toNat ..

theorem predOf_eq (c : Crew) (l : Nat) (p : PCode) : predOf (thOf c l) p.toNat = predIs c l p := by
  have h : p.toNat = 7 ↔ p = 7 := by rw [BitVec.toNat_eq]; rfl
  simp only [predOf, predIs, bitAt_eq_testBit, BitVec.testBit_toNat, h]

theorem predByte_eq (c : Crew) (l : Nat) :
    (BitVec.ofNat 64 (predByte (thOf c l)) : Word) = ((1 : BitVec 1) ++ (thOf c l).preds.setWidth 7).setWidth 64 := by
  apply BitVec.eq_of_toNat_eq
  rw [BitVec.toNat_setWidth, BitVec.toNat_append, ← Nat.shiftLeft_add_eq_or_of_lt (BitVec.isLt _)]
  simp [predByte]

/-! ## Forms with the coefficients of sums, differences, negation and shifts (R293) -/

theorem word_one_mul (x : Word) : 1 * x = x := BitVec.one_mul x

theorem one_mul_add_one_mul (x y : Word) : 1 * x + 1 * y = x + y := by
  rw [word_one_mul, word_one_mul]

theorem one_mul_add_neg_one_mul (x y : Word) : 1 * x + -1 * y = x - y := by
  rw [word_one_mul, BitVec.neg_mul, word_one_mul, BitVec.sub_eq_add_neg]

theorem mul_neg_one_eq (x : Word) : x * -1 = 0 - x := by
  rw [BitVec.mul_comm, BitVec.neg_mul, word_one_mul]
  exact (BitVec.zero_sub x).symm

theorem mul_one_shiftLeft (x : Word) (k : Nat) : x * ((1 <<< k : Nat) : Word) = x <<< k := by
  rw [BitVec.shiftLeft_eq_mul_twoPow]
  congr 1

/-! ## Known operands in place of forms (R293) -/

theorem known_congr {x y : Word} (h : x = y) : some (RegVal.known x) = some (RegVal.known y) := by rw [h]

/-- On known operands the form that passes through at width 64 is the known result. -/
theorem wide_eq {w : BitVec 1} {form : Option RegVal} {x : Word}
    (hform : form = some (.known x)) : wide w form (some (.known (atWidth w x))) = some (.known (narrow w x)) := by
  rw [atWidth_eq]
  obtain rfl | rfl := width_cases w
  · rfl
  · exact hform

/-! ## Instructions that compute one register -/

/-- An instruction that runs `compute` computes its row, when its function on known operands gives the
row's value. -/
theorem computes_of_compute {i : Instr} {d : Code} {srcs : List Code} {codes : List Nat} {lat : Nat}
    {val : Src → State → Crew → Mask → Nat → Word} {f : Ctx → Nat → List RegVal → Option RegVal}
    (run : State → Host.Outcome State Fault Refusal)
    (hrun : run = gate i fun x s => compute x s lat d.toNat codes (f x))
    (hval : ∀ (src : Src) s c act l,
      f (issueCtx i s c) l (srcs.map fun a => .known (src l a)) = some (.known (val src s c act l)))
    (hexec : ∀ s, exec i s = run s := by intro _; rfl) (hlat : lat ≠ 0 := by decide)
    (hcodes : codes = srcs.map (·.toNat) := by rfl) (huses : (usesOf i).srcs = codes := by rfl) :
    Computes i { dst := some d, srcs := srcs, lat := lat, val := val, besides := fun _ _ _ _ => [] } := by
  subst hcodes hrun
  intro s c act hi hdst hsrcs hknown
  obtain ⟨c', hissued⟩ := compute_issued hi.ctx hlat (hdst d rfl) (by simpa using hsrcs) hknown
    (f := f (issueCtx i s c)) (val (fun l a => regW c l a.toNat) s c act) fun l _ => by
      rw [List.map_map]; exact hval (fun l a => regW c l a.toNat) s c act l
  exact ⟨_, c', (hexec s).trans (gate_issues hi _), huses ▸ hissued⟩

/-- R92 and R93: each instruction of the arithmetic and logic group gives its row's value. -/
theorem arithRow_computes (i : Instr) (r : Row) (h : arithRow i = some r) : Computes i r := by
  unfold arithRow at h
  split at h <;> cases h
  next h d a b w =>
    exact computes_of_compute (execAdd h d a b w) rfl fun _ _ _ _ _ =>
      wide_eq (known_congr (one_mul_add_one_mul _ _))
  next h d a b w =>
    exact computes_of_compute (execSub h d a b w) rfl fun _ _ _ _ _ =>
      wide_eq (known_congr (one_mul_add_neg_one_mul _ _))
  next h d a w =>
    exact computes_of_compute (execNeg h d a w) rfl fun _ _ _ _ _ =>
      wide_eq (known_congr (mul_neg_one_eq _))
  next h d a b w =>
    exact computes_of_compute (execMul h d a b w) rfl fun _ _ _ _ _ =>
      wide_eq (known_congr (BitVec.mul_comm _ _))
  next h d a b w u =>
    exact computes_of_compute (execMulh h d a b w u) rfl fun _ _ _ _ _ =>
      known_congr (mulhVal_eq w u _ _)
  next h d a b w =>
    exact computes_of_compute (execMad h d a b w) rfl fun _ _ _ _ _ =>
      known_congr (atWidth_eq w _)
  next h d a b w u =>
    exact computes_of_compute (execDiv h d a b w u) rfl fun _ _ _ _ _ =>
      known_congr (divVal_eq w u _ _)
  next h d a b w u =>
    exact computes_of_compute (execRem h d a b w u) rfl fun _ _ _ _ _ =>
      known_congr (remVal_eq w u _ _)
  next h d a b w u =>
    exact computes_of_compute (execMin h d a b w u) rfl fun _ _ _ _ _ =>
      known_congr (minVal_eq w u _ _)
  next h d a b w u =>
    exact computes_of_compute (execMax h d a b w u) rfl fun _ _ _ _ _ =>
      known_congr (maxVal_eq w u _ _)
  next h d a b w =>
    exact computes_of_compute (execAnd h d a b w) rfl fun _ _ _ _ _ =>
      known_congr (atWidth_eq w _)
  next h d a b w =>
    exact computes_of_compute (execOr h d a b w) rfl fun _ _ _ _ _ =>
      known_congr (atWidth_eq w _)
  next h d a b w =>
    exact computes_of_compute (execXor h d a b w) rfl fun _ _ _ _ _ =>
      known_congr (atWidth_eq w _)
  next h d a b w =>
    exact computes_of_compute (execAndn h d a b w) rfl fun _ _ _ _ _ =>
      known_congr (atWidth_eq w _)

/-- R94 to R97: each shift, bit count, bit field and scaled sum gives its row's value. -/
theorem bitRow_computes (i : Instr) (r : Row) (h : bitRow i = some r) : Computes i r := by
  unfold bitRow at h
  split at h <;> cases h
  next h d a b w =>
    exact computes_of_compute (execShl h d a b w) rfl fun _ _ _ _ _ =>
      wide_eq (known_congr (mul_one_shiftLeft _ _))
  next h d a b w =>
    exact computes_of_compute (execShr h d a b w) rfl fun _ _ _ _ _ =>
      known_congr (shrVal_eq w _ _)
  next h d a b w =>
    exact computes_of_compute (execSar h d a b w) rfl fun _ _ _ _ _ =>
      known_congr (sarVal_eq w _ _)
  next h d a b w =>
    exact computes_of_compute (execRot h d a b w) rfl fun _ _ _ _ _ =>
      known_congr (rotVal_eq w _ (shiftAmt_lt w _))
  next h d a w f =>
    exact computes_of_compute (execBitc h d a w f) rfl fun _ _ _ _ _ =>
      known_congr (bitcVal_eq f w _)
  next h d a b w u =>
    exact computes_of_compute (execBfx h d a b w u) rfl fun _ _ _ _ _ =>
      known_congr (bfxVal_eq w u _ _)
  next h d a b w =>
    exact computes_of_compute (execBfi h d a b w) rfl fun _ _ _ _ _ =>
      known_congr (bfiVal_eq w _ _ _)
  next h d a b w k =>
    exact computes_of_compute (execLea h d a b w k) rfl fun src _ _ _ l =>
      known_congr ((one_mul_add_one_mul _ _).trans (congrArg (src l a + ·) (leaIdx_eq w k _)))

theorem shiftKind_cases (kind : BitVec 2) : kind = 0 ∨ kind = 1 ∨ kind = 2 ∨ kind = 3 := by
  revert kind; decide

/-- R92, R97 to R99 and R102: each selection, move, immediate and read of the predicates gives its row's value. -/
theorem moveRow_computes (i : Instr) (r : Row) (h : moveRow i = some r) : Computes i r := by
  unfold moveRow at h
  split at h <;> cases h
  next h d a b p =>
    exact computes_of_compute (execSel h d a b p) rfl fun _ _ _ _ _ =>
      known_congr (by rw [issueCtx_c, predOf_eq]; rfl)
  next h d a =>
    exact computes_of_compute (execMov h d a) rfl fun _ _ _ _ _ => rfl
  next h d imm =>
    exact computes_of_compute (execMovi h d imm) rfl fun _ _ c _ _ =>
      known_congr (immOf_eq c imm)
  next h d a imm =>
    exact computes_of_compute (execAddi h d a imm) rfl fun src _ c _ l =>
      known_congr ((one_mul_add_one_mul _ _).trans (congrArg (src l a + ·) (immOf_eq c imm)))
  next h d a imm =>
    exact computes_of_compute (execAndi h d a imm) rfl fun src _ c _ l =>
      known_congr (congrArg (src l a &&& ·) (uimmOf_eq c imm))
  next h d a imm =>
    exact computes_of_compute (execOri h d a imm) rfl fun src _ c _ l =>
      known_congr (congrArg (src l a ||| ·) (uimmOf_eq c imm))
  next h d a imm =>
    exact computes_of_compute (execXori h d a imm) rfl fun src _ c _ l =>
      known_congr (congrArg (src l a ^^^ ·) (uimmOf_eq c imm))
  next h d a kind amt =>
    exact computes_of_compute (execShi h d a kind amt) rfl fun _ _ _ _ _ => by
      obtain rfl | rfl | rfl | rfl := shiftKind_cases kind
      · exact known_congr (mul_one_shiftLeft _ _)
      · exact known_congr (shrVal_eq 1 _ _)
      · exact known_congr (sarVal_eq 1 _ _)
      · exact known_congr (rotVal_eq 1 _ amt.isLt)
  next h d =>
    exact computes_of_compute (execPmovRead h d) rfl fun _ _ c _ l =>
      known_congr (predByte_eq c l)

/-! ## Instructions that write predicates -/

theorem condHolds_eq (cond : BitVec 3) (x y : Int) : condHolds cond.toNat x y = predRow.compares cond x y := by
  obtain rfl | rfl | rfl | rfl | rfl | rfl | rfl | rfl := function_cases cond <;> rfl

theorem psetFn_eq (f : BitVec 3) (x y : Bool) : psetFn f.toNat x y = predRow.logical f x y := by
  have hxnor : (x == y) = !(x ^^ y) := by cases x <;> cases y <;> rfl
  obtain rfl | rfl | rfl | rfl | rfl | rfl | rfl | rfl := function_cases f
  case inr.inr.inr.inr.inr.inr.inl => exact hxnor
  all_goals rfl

/-- Predicates written one after another go in flight in that order. -/
theorem foldl_writePred_flight {x : Ctx} {s : State} {c : Crew} {act : Mask} {us : List Nat}
    (hx : CtxOk x s c act us) {lat : Nat} (hlat : lat ≠ 0) (v : Nat → Nat → Bool) (ps : List Nat)
    (q : List PendW) :
    ps.foldl (fun s p => writePred x s lat p (v p)) (flight s c q) =
      flight s c (q ++ ps.flatMap fun p => predResults s act lat p (v p)) := by
  induction ps generalizing q with
  | nil => simp
  | cons p ps ih =>
    rw [List.foldl_cons, writePred_flight hx q p hlat, ih, List.flatMap_cons, List.append_assoc]

theorem Row.outs_of_no_register {r : Row} (h : r.dst = none) (src : Src) (s : State) (c : Crew) (act : Mask) :
    r.outs src s c act = r.besides src s c act := by
  rw [Row.outs, h, List.append_nil]

/-- An instruction that writes no register computes its row, when its work on known window registers puts
the row's other results in flight and goes on to the next word. -/
theorem computes_of_retire {i : Instr} {srcs : List Code} {lat : Nat}
    {val : Src → State → Crew → Mask → Nat → Word} {besides : Src → State → Crew → Mask → List PendW}
    {k : Ctx → State → State}
    (run : State → Host.Outcome State Fault Refusal) (hrun : run = gate i k)
    (hwork : ∀ s c act (x : Ctx), CtxOk x s c act (srcs.map (·.toNat)) → x.hn = c.hint →
      (∀ a ∈ srcs.map (·.toNat), a < 28) → Known c act (srcs.map (·.toNat)) →
      k x (startOf s c) = retire x (flight s c (c.pend ++ besides (fun l a => regW c l a.toNat) s c act)))
    (hexec : ∀ s, exec i s = run s := by intro _; rfl)
    (huses : (usesOf i).srcs = srcs.map (·.toNat) := by rfl) :
    Computes i { dst := none, srcs := srcs, lat := lat, val := val, besides := besides } := by
  subst hrun
  intro s c act hi _ hsrcs hknown
  have hx := huses ▸ hi.ctx
  obtain ⟨c', hissued⟩ := retire_issued hx (besides (fun l a => regW c l a.toNat) s c act)
  refine ⟨_, c', (hexec s).trans (gate_issues hi k), ?_⟩
  rw [hwork s c act _ hx rfl (by simpa using hsrcs) hknown, Row.outs_of_no_register rfl]
  exact hissued

/-- R100 to R102: each comparison and each write of predicates gives its row's predicates. -/
theorem predRow_computes (i : Instr) (r : Row) (h : predRow i = some r) : Computes i r := by
  unfold predRow at h
  split at h <;> cases h
  next h pd a b cond w u =>
    refine computes_of_retire (execCmp h pd a b cond w u) rfl fun s c act x hx _ hw hknown => ?_
    obtain ⟨ha, hb⟩ : a.toNat < 28 ∧ b.toNat < 28 := by simpa using hw
    refine (withSources_window hx _ hw hknown none (by simp) _).trans ?_
    simp only [srcW_window _ ha, srcW_window _ hb, readInt_eq, condHolds_eq, startOf_flight]
    rw [writePred_flight hx _ _ (by decide)]
    rfl
  next h pd a imm cond w u =>
    refine computes_of_retire (execCmpi h pd a imm cond w u) rfl fun s c act x hx hhn hw hknown => ?_
    have ha : a.toNat < 28 := by simpa using hw
    refine (withSources_window hx _ hw hknown none (by simp) _).trans ?_
    simp only [srcW_window _ ha, readInt_eq, condHolds_eq, startOf_flight, hhn, uimmOf_eq]
    rw [writePred_flight hx _ _ (by decide)]
    rfl
  next h pd pa pb f =>
    refine computes_of_retire (execPset h pd pa pb f) rfl fun s c act x hx _ _ _ => ?_
    simp only [hx.crew, predOf_eq, psetFn_eq, startOf_flight]
    rw [writePred_flight hx _ _ (by decide)]
    rfl
  next h a =>
    refine computes_of_retire (execPmovWrite h a) rfl fun s c act x hx _ hw hknown => ?_
    have ha : a.toNat < 28 := by simpa using hw
    refine (withSources_window hx _ hw hknown none (by simp) _).trans ?_
    simp only [writePreds, srcW_window _ ha, bitAt_eq_testBit, BitVec.testBit_toNat, startOf_flight]
    rw [foldl_writePred_flight hx (by decide)]
    rfl

/-! ## The obligations -/

/-- Settles O10: the values of the model's integer functions are those of R92 to R97, and `compute` puts them in
flight and leaves the rest of the machine alone. -/
theorem integerResults : Obligations.IntegerResults :=
  ⟨arithRow_computes, bitRow_computes, rfl⟩

/-- Settles O11: an instruction that writes a register is one of `compute`, as in O10; predicates go in flight by
`writePred`, which discards p7. -/
theorem moveAndPredicateResults : Obligations.MoveAndPredicateResults :=
  ⟨moveRow_computes, predRow_computes, rfl⟩

end Sys2Proof.Machine
